-- ==== Sys2Proof/Word.lean ====
section
/-!
DEFINITION. The tagged word (R56), its plainest arithmetic, and the shape of a sparse map.
-/

namespace Sys2Proof

/-- A 64-bit value (Table 3.1). -/
abbrev Val := BitVec 64
/-- An 8-bit type tag (Table 3.2). -/
abbrev Tag := BitVec 8
abbrev Byte := BitVec 8

/-- A tagged word: a 64-bit value and its 8-bit tag (R56). -/
structure Word where
  tag : Tag
  val : Val
  deriving DecidableEq, Repr, Inhabited

/-- Sparse data by key, in the canonical form of `Machine/Map.lean`: keys strictly rising, no entry
equal to what an unlisted key reads as. -/
abbrev SMap (α : Type) := List (Nat × α)

/-- A logical core, CORE[0] to CORE[63]. -/
abbrev CoreId := Fin 64
abbrev ClusterId := Fin 8
abbrev LinkId := Fin 24
abbrev LaneId := Fin 24
abbrev ChanId := Fin 64
/-- Stream numbers and task ids both run from 0 to 511. -/
abbrev StreamId := Fin 512
abbrev TaskId := Fin 512

end Sys2Proof
end

