-- ==== Sys2Proof/Syntax.lean ====
section
/-!
DEFINITION. The commands of the block: one constructor of `Instr` per row of spec/opcode_table.json, in the table's
order. A command of a core names the logical core; the bank is the one that holds the core (R174).
-/

namespace Sys2Proof

/-! ### Operand forms of core instructions (Table 4.11) -/

abbrev R4 := BitVec 4
abbrev R5 := BitVec 5

/-- Two operands and a result: S form (A := A op B) or RRR. -/
inductive AluF where
  | s (A B : R4)
  | rrr (d a b : R5)
  deriving DecidableEq, Repr

/-- One operand and a result: S form (A from B) or RRR with b = 0. -/
inductive UnF where
  | s (A B : R4)
  | rrr (d a : R5)
  deriving DecidableEq, Repr

/-- ADDI: S form with a 4-bit unsigned immediate, or RRI8. -/
inductive ImmF where
  | s (A imm : BitVec 4)
  | rri (d a : R5) (imm : BitVec 8)
  deriving DecidableEq, Repr

/-- MOVI and MOVK: S form with a 4-bit field, or RI13. -/
inductive ConstF where
  | s (A : R4) (B : BitVec 4)
  | ri (d : R5) (imm : BitVec 13)
  deriving DecidableEq, Repr

/-- LD and ST: S form with offset 0, or RRI8. -/
inductive MemF where
  | s (A B : R4)
  | rri (d a : R5) (imm : BitVec 8)
  deriving DecidableEq, Repr

/-- BNIL and BNNIL: S form with a 4-bit unsigned displacement, or RI13. -/
inductive BrF where
  | s (A : R4) (B : BitVec 4)
  | ri (d : R5) (imm : BitVec 13)
  deriving DecidableEq, Repr

/-! ### Operands of the other commands -/

/-- Who reaches a device register (R6, R7, R323). -/
inductive Requester where
  | host
  | bank (id : TaskId)
  | lockkeeper
  deriving DecidableEq, Repr

/-- Where an Imeimin command comes from and where its long result goes (Table 15.6, R339). -/
inductive Src where
  | host (tag : BitVec 32) (outAddr : BitVec 64) (outLen : Nat)
  | towpath (core : CoreId) (tag : BitVec 32) (outAddr : BitVec 36)
  deriving DecidableEq, Repr

/-- A BAR_2 range with its CRC-32C (R334); for a towpath command `off` is a physical word address. -/
structure B2 where
  off : Nat
  len : Nat
  crc : BitVec 32
  deriving DecidableEq, Repr

/-- A received cell, without its CRC (Table 11.4); LEN is the payload's length. -/
structure RxCell where
  last    : Bool
  pound   : BitVec 16
  sid     : BitVec 8
  index   : BitVec 24
  payload : List Byte
  deriving DecidableEq, Repr

/-- Admission parameters of a frame task (Table 2.8); offset and deadline in units of 10 ns. -/
structure AdmitArgs where
  id         : TaskId
  prio       : BitVec 3
  offset     : Nat
  deadline   : Nat
  budget     : Nat
  customU    : Nat
  recBudget  : Nat
  links      : BitVec 24
  credits    : Nat
  carryBase  : Nat
  carryMask  : BitVec 32
  /-- Initial carry image: the parcel address, then PSW, WINPOS, BASIN, ALLOC and ALIMIT, then the carried registers. -/
  entry      : BitVec 62
  psw        : Val
  winpos     : Val
  basin      : Val
  alloc      : Val
  alimit     : Val
  carried    : List Word
  vector     : Bool
  deriving DecidableEq, Repr

/-- POUND_CONFIG arguments; times in units of 10 ns (Tables 2.12 to 2.14). -/
structure PoundArgs where
  p      : Nat
  din    : Nat
  dout   : Nat
  src    : Bool
  edge   : Bool
  tol    : Nat
  synlim : Nat
  outen  : Bool
  deriving DecidableEq, Repr

/-- The three forms of GUARD_LOAD (R269). -/
inductive GuardForm where
  | entries (first : Nat) (b : B2)
  | profile (link : LinkId) (frames : Nat) (b : B2)
  | groups (b : B2)
  deriving DecidableEq, Repr

/-- MAN_SETUP arguments (Table 14.4). -/
structure ManArgs where
  ring    : BitVec 64
  sz      : Nat
  ptaddr  : BitVec 64
  region  : Nat
  thresh  : Nat
  hostDur : Nat
  discard : Bool
  deriving DecidableEq, Repr

/-- Errors on the 96 bytes of a line as its triplet's three channels carry them, 32 bytes each: bytes 0–31 on CH[3t], 32–63 on
CH[3t + 1], 64–95 on CH[3t + 2] (R76). -/
structure Burst where
  ch0 : BitVec 256 := 0
  ch1 : BitVec 256 := 0
  ch2 : BitVec 256 := 0
  deriving DecidableEq, Repr

/-- Errors of a read of a line that do not stay: bits in error in a first and in a second read alone (R72, R75), and the EDC
mismatches of the burst on one of the three channels (R215); and those of the write burst that the command brings with it, if it does: a
line written back for room, or the line rewritten by the patrol. -/
structure PassingErr where
  first  : Burst := {}
  second : Burst := {}
  ch     : Fin 3 := 0
  edc    : Fin 5 := 0
  wch    : Fin 3 := 0
  wedc   : Fin 5 := 0
  deriving DecidableEq, Repr

/-- What a read of a line meets: bits that have flipped in the SGRAM devices since the line was last written and stay flipped until it
is written again, and the errors of this read alone. -/
structure ReadErr extends PassingErr where
  stored : Burst := {}
  deriving DecidableEq, Repr

/-- An edge on TICK_IN: its polarity, and how many picoseconds into the current REFCLK period it reaches the ball (R23, R388). -/
structure PinEdge where
  falling : Bool
  ps      : Fin 10000
  deriving DecidableEq, Repr

/-- A cache array of a cluster. -/
inductive CacheId where
  | l2
  | l1 (pos : Fin 8) (code : Bool)
  | victim (pos : Fin 8)
  deriving DecidableEq, Repr

/-- Output balls that the block drives (R386, Table 12.3). -/
inductive Ball where
  | permit | abortOutN | tickOut | thermtripN | lockupN | tdo
  deriving DecidableEq, Repr

/-- Instructions of the test access port that Table 17.12 names; EXTEST drives the balls (R377). -/
inductive TapInstr where
  | idcode | bypass | sample | extest | network
  deriving DecidableEq, Repr

/-- What comes in through the test access port (Table 17.12): at debug level 2 a register, sill word, control register or PC of a bank, a
vector register, a byte of the lockkeeper SRAM, slots of the arrays with their tags and data, words of the control stores; or stored bits:
of a register, of a cached copy, parities, the code of a directory entry; at every level the port's own state. -/
inductive DebugTarget where
  | reg (core : CoreId) (bank : Fin 8) (index : Nat) (w : Word)
  | sill (core : CoreId) (bank : Fin 8) (index : Nat) (w : Word)
  | ctl (core : CoreId) (bank : Fin 8) (index : BitVec 8) (v : Val)
  | pc (core : CoreId) (bank : Fin 8) (p : BitVec 62)
  | vec (core : CoreId) (v : R5) (x : BitVec 512)
  | sram (addr : Nat) (b : Byte)
  | regBits (core : CoreId) (bank : Fin 8) (index : Nat) (flip : BitVec 91)
  /-- Bits of a copy of a line, and one of its words: place 0 is the L2 slot, 1 + p the L1 data or victim slot of position p, 9 + p its code
  slot; a word of a code slot may have wrong parity. -/
  | lineBits (cl : ClusterId) (place : Fin 17) (line : BitVec 33) (flip : BitVec 768)
  | lineWord (cl : ClusterId) (place : Fin 17) (line : BitVec 33) (i : Fin 8) (w : Word)
  | codeParity (core : CoreId) (line : BitVec 33) (i : Fin 8)
  /-- The contents of a slot of a cache: the line, or nothing in the slot of the line's set. -/
  | slot (cl : ClusterId) (cache : CacheId) (way : Fin 16) (line : BitVec 33) (valid dirty : Bool)
  | l2Tag (cl : ClusterId) (line : BitVec 33)
  | l1Tag (core : CoreId) (code : Bool) (line : BitVec 33)
  | tlb (core : CoreId) (code : Bool) (n : Nat)
  | walk (core : CoreId) (n : Nat)
  /-- The contents of a TLB slot and of a walk-cache entry. -/
  | tlbSlot (core : CoreId) (code : Bool) (n asid vpn : Nat) (leaf : Val) (lvl pte : Nat)
  | walkEntry (core : CoreId) (n asid lvl pre frame pte width : Nat)
  | dirEntry (line : BitVec 33)
  | store (core : CoreId) (nano : Bool) (addr : BitVec 16)
  /-- A word of a control store, and an entry of the match table. -/
  | storeWord (core : CoreId) (nano : Bool) (addr : BitVec 16) (w : BitVec 192)
  | matchEntry (core : CoreId) (n : Fin 32) (rom patch : BitVec 16)
  /-- The test access port of IEEE 1149.1 (R377, R386): a TCK cycle with its TMS, the instruction shifted in, a boundary cell. -/
  | tck (tms : Bool)
  | tapInstr (i : TapInstr)
  | boundary (b : Ball) (level : Bool)
  deriving DecidableEq, Repr

/-- What the board and the boot find at power good (R215, R361, R363, R384, R392). -/
structure BootArgs where
  monitorsOk : Bool
  pfailLow   : Bool
  clamshell  : Bool
  rate       : BitVec 8
  trainFail  : BitVec 24
  /-- Copies of the boot and patch partition whose CRC is good. -/
  bootGood   : BitVec 2
  /-- The strap balls SMB_ADDR[1:0] (R338). -/
  smbStrap   : BitVec 2
  /-- Copies of the calibration set whose CRC is good; and the retained black-box queue is intact. -/
  calGood    : BitVec 2 := 3
  queueGood  : Bool := true
  deriving DecidableEq, Repr

/-- The commands. Each constructor is a row of the table; its docstring names the row's rule where the name does not
say the row. -/
inductive Instr where
  -- scalar instructions
  | nop (c : CoreId) (A B : R4)
  | mov (c : CoreId) (f : UnF)
  | add (c : CoreId) (f : AluF)
  | sub (c : CoreId) (f : AluF)
  | mul (c : CoreId) (f : AluF)
  | div (c : CoreId) (d a b : R5)
  | rem (c : CoreId) (d a b : R5)
  | addi (c : CoreId) (f : ImmF)
  | subi (c : CoreId) (A imm : BitVec 4)
  | muli (c : CoreId) (d a : R5) (imm : BitVec 8)
  | addk (c : CoreId) (d : R5) (imm : BitVec 13)
  | addl (c : CoreId) (d : R5) (imm : BitVec 27)
  | cmp (c : CoreId) (f : AluF)
  | cmpeq (c : CoreId) (d a b : R5)
  | cmplt (c : CoreId) (d a b : R5)
  | cmple (c : CoreId) (d a b : R5)
  | cmpeqi (c : CoreId) (d a : R5) (imm : BitVec 8)
  | cmplti (c : CoreId) (d a : R5) (imm : BitVec 8)
  | eq (c : CoreId) (d a b : R5)
  | and (c : CoreId) (d a b : R5)
  | or (c : CoreId) (d a b : R5)
  | xor (c : CoreId) (d a b : R5)
  | shl (c : CoreId) (d a b : R5)
  | shr (c : CoreId) (d a b : R5)
  | sar (c : CoreId) (d a b : R5)
  | andi (c : CoreId) (d a : R5) (imm : BitVec 8)
  | ori (c : CoreId) (d a : R5) (imm : BitVec 8)
  | xori (c : CoreId) (d a : R5) (imm : BitVec 8)
  | shli (c : CoreId) (d a : R5) (imm : BitVec 8)
  | shri (c : CoreId) (d a : R5) (imm : BitVec 8)
  | sari (c : CoreId) (d a : R5) (imm : BitVec 8)
  | movi (c : CoreId) (f : ConstF)
  | movk (c : CoreId) (f : ConstF)
  | movl (c : CoreId) (d : R5) (imm : BitVec 27)
  | lea (c : CoreId) (d : R5) (imm : BitVec 27)
  | tagof (c : CoreId) (f : UnF)
  | tageq (c : CoreId) (d a : R5) (imm : BitVec 8)
  | settag (c : CoreId) (d a : R5) (imm : BitVec 8)
  | car (c : CoreId) (f : UnF)
  | cdr (c : CoreId) (f : UnF)
  | setcar (c : CoreId) (f : UnF)
  | setcdr (c : CoreId) (f : UnF)
  | cons (c : CoreId) (f : AluF)
  | ld (c : CoreId) (f : MemF)
  | st (c : CoreId) (f : MemF)
  | ldx (c : CoreId) (d : R5) (imm : BitVec 27)
  | ldb (c : CoreId) (d : R5) (off : BitVec 9)
  | stb (c : CoreId) (d : R5) (off : BitVec 9)
  | ldc (c : CoreId) (d a : R5) (imm : BitVec 8)
  | stc (c : CoreId) (d a : R5) (imm : BitVec 8)
  | acq (c : CoreId) (d a : R5) (imm : BitVec 8)
  | rel (c : CoreId) (d a : R5) (imm : BitVec 8)
  | lr (c : CoreId) (d a : R5) (imm : BitVec 8)
  | sc (c : CoreId) (d a b : R5)
  | zline (c : CoreId) (a : R5) (imm : BitVec 8)
  | fence (c : CoreId) (x : BitVec 3)
  | cvt (c : CoreId) (d a b : R5) (x : BitVec 3)
  -- block and multiple-register instructions, record port
  | movb (c : CoreId) (d a b : R5)
  | fillb (c : CoreId) (d a b : R5)
  | cmpb (c : CoreId) (d a b : R5)
  | scanl (c : CoreId) (d a b : R5)
  | stm (c : CoreId) (m a : R5)
  | ldm (c : CoreId) (m a : R5)
  | recb (c : CoreId) (a : R5)
  | recw (c : CoreId) (a : R5)
  | rece (c : CoreId) (d : R5)
  -- control transfer
  | br (c : CoreId) (imm : BitVec 13)
  | brl (c : CoreId) (imm : BitVec 27)
  | bnil (c : CoreId) (f : BrF)
  | bnnil (c : CoreId) (f : BrF)
  | bnill (c : CoreId) (d : R5) (imm : BitVec 27)
  | bnnill (c : CoreId) (d : R5) (imm : BitVec 27)
  | call (c : CoreId) (imm : BitVec 13)
  | calll (c : CoreId) (imm : BitVec 27)
  | callr (c : CoreId) (a : R5)
  | jlnk (c : CoreId) (d a : R5)
  | callg (c : CoreId) (a : R5)
  | ret (c : CoreId) (A B : R4)
  | retg (c : CoreId)
  | tret (c : CoreId)
  | waitt (c : CoreId)
  | waite (c : CoreId)
  -- vector unit
  | vld (c : CoreId) (d a b : R5) (x : BitVec 3)
  | vst (c : CoreId) (d a b : R5) (x : BitVec 3)
  | vlds (c : CoreId) (d a b : R5)
  | vadd (c : CoreId) (d a b : R5) (x : BitVec 3)
  | vmul (c : CoreId) (d a b : R5) (x : BitVec 3)
  | vfma (c : CoreId) (d a b : R5) (x : BitVec 3)
  | vcmul (c : CoreId) (d a b : R5) (x : BitVec 3)
  | vbfly4 (c : CoreId) (d a b : R5) (x : BitVec 3)
  | vreduce (c : CoreId) (d a : R5) (x : BitVec 3)
  | vmin (c : CoreId) (d a b : R5) (x : BitVec 3)
  | vmax (c : CoreId) (d a b : R5) (x : BitVec 3)
  | vcvt (c : CoreId) (d a b : R5) (x : BitVec 3)
  | vget (c : CoreId) (d a b : R5) (x : BitVec 3)
  | vput (c : CoreId) (d a b : R5) (x : BitVec 3)
  -- ring 0 control, translation and caches, towpath, custom opcodes
  | mfc (c : CoreId) (d : R5) (imm : BitVec 8)
  | mtc (c : CoreId) (d : R5) (imm : BitVec 8)
  | mfb (c : CoreId) (d a : R5)
  | mtb (c : CoreId) (d a : R5)
  | tlbi (c : CoreId) (a b : R5) (x : BitVec 3)
  | wci (c : CoreId) (a b : R5) (x : BitVec 3)
  | tlbsync (c : CoreId)
  | abandon (c : CoreId)
  | tpsend (c : CoreId) (d a b : R5)
  | tprecv (c : CoreId) (d a b : R5)
  | cmaint (c : CoreId) (a b : R5) (x : BitVec 3)
  | crange (c : CoreId) (a b : R5) (x : BitVec 3)
  | cx (c : CoreId) (n : BitVec 5) (d a b : R5)
  -- events at a core
  | fillComplete (c : CoreId) (b : Fin 8) (line : BitVec 33) (e : ReadErr)
  | trapEntry (c : CoreId)
  | bankSwitch (c : CoreId)
  | budgetExhausted (c : CoreId)
  | graceExhausted (c : CoreId)
  | deadlineReached (id : TaskId)
  | startOffset (id : TaskId)
  | reservationTimeout (c : CoreId)
  | broadcastInvalidation (c : CoreId)
  -- the tick and the pound
  | tick
  /-- An edge on TICK_IN, `ps` picoseconds into the period of REFCLK in which it reaches the ball (R388). -/
  | tickInEdge (e : PinEdge)
  | tickSynthesised
  | commitWordPerformed
  | dOut
  | streamClose (k : StreamId)
  | sampleCell (n : LinkId) (cell : RxCell)
  | abortInQualified
  | abortInRelease
  -- links
  | feStatus (n : LinkId) (pound : BitVec 16) (data : Val)
  | echoResponse (n : LinkId) (pos : Nat) (roundTrip turnaround : Int)
  | lanemapResponse (n : LinkId)
  | lanefail (n : LinkId) (connector : BitVec 3)
  | feAccessResponse (n : LinkId) (seq : BitVec 16) (result : BitVec 8) (vals : List Val)
  | controlResendTimeout (n : LinkId)
  | bulkCell (n : LinkId) (cell : RxCell)
  | laneFailed (m : LaneId) (cause : BitVec 8)
  | reStripe (n : LinkId)
  | linkRetrain (n : LinkId)
  | trainComplete (n : LinkId) (pam4 spareOk : Bool)
  | trainTimeout (n : LinkId)
  | alignTimeout (n : LinkId)
  -- the sluice
  | descriptorStart (ch : ChanId)
  | halfCompletion (ch : ChanId)
  | handOver (ch : ChanId)
  | busError (ch : ChanId) (code : BitVec 8)
  | retryAttempt (ch : ChanId)
  | channelHalt (ch : ChanId)
  | sluiceStopComplete (ch : ChanId)
  | sluTimerFire (n : Fin 16)
  | sluStart (ch : ChanId) (v : Val)
  | sluResume (ch : ChanId) (v : Val)
  | sluShdWrite (ch : ChanId) (w : Fin 8) (v : Val)
  | sluEn (ch : ChanId) (en : Bool)
  | sluClass (ch : ChanId) (t : Bool)
  | sluArm (ch : ChanId) (arm : Bool)
  | sluStop (ch : ChanId)
  | sluGo (ch : ChanId)
  | sluPrio (ch : ChanId) (p : BitVec 3)
  | sluStatW1c (ch : ChanId) (v : Val)
  | sluGctlWrite (v : Val)
  | bl16haltClear (v : Val)
  | sluTimerWrite (n : Fin 16) (v : Val)
  -- the event router
  | evtRaise (v : Val)
  | evtPendW1c (k : Fin 64) (v : Val)
  | evtRouteWrite (n : Fin 4096) (v : Val)
  | lockkeeperEventDelivery (src : Fin 4096)
  | msixMessage (src : Fin 4096)
  -- the manifest, the host link and power failure
  | manifestBatch
  | manDurable (v : Val)
  | pcieLinkUp (width : Nat) (speed : Nat)
  | pcieLinkDown
  | pfailQualified
  | flushImageComplete
  | pfailRelease
  | imageEraseComplete
  -- memory, caches and power
  | patrolScrubRead (t : Fin 8) (stored : Burst) (e : PassingErr)
  | channelFailed (ch : Fin 24) (reason : BitVec 8)
  | cacheCleanComplete (cl : ClusterId)
  | l2en (cl : ClusterId) (on : Bool)
  | l1den (cl : ClusterId) (k : Fin 8) (on : Bool)
  | l1cen (cl : ClusterId) (k : Fin 8) (on : Bool)
  | pfen (cl : ClusterId) (k : Fin 8) (on : Bool)
  | l2cLockwaysWrite (cl : ClusterId) (v : Val)
  | l2cTctxWrite (cl : ClusterId) (ix : Fin 64) (by_ : Requester) (v : Val)
  | pwrSet (v : Val)
  | pwrClr (v : Val)
  | powerTransitionComplete (dom : Fin 240)
  -- registers and the mailbox
  | registerWrite (by_ : Requester) (off size : Nat) (w : Word)
  | commandSlotWrite (slot : Fin 32) (off : Nat) (bytes : List (Option Byte))
  | mbxDoorbell (v : Val)
  | mbxCtlWrite (v : Val)
  | mbxRspbaseWrite (v : Val)
  | mbxRspcfgWrite (v : Val)
  | mbxRsptaddrWrite (v : Val)
  | mbxRspheadWrite (v : Val)
  | mbxWinselWrite (by_ : Requester) (v : Val)
  | mbxB2sync
  | haltAll (tag : BitVec 32)
  | stopRun (tag : BitVec 32)
  | guardAbort (tag : BitVec 32) (groups : BitVec 8)
  -- Imeimin commands
  | identify (src : Src)
  | status (src : Src)
  | memAlloc (src : Src) (words align : Nat) (raw : Bool)
  | memFree (src : Src) (addr : Nat)
  | memWrite (src : Src) (addr : Nat) (b : B2) (tags : List Tag)
  | memRead (src : Src) (addr words : Nat)
  | codeLoad (src : Src) (addr : Nat) (b : B2)
  | ucodeLoad (src : Src) (b : B2)
  | ucodeStatus (src : Src)
  | patchInstall (src : Src) (b : B2)
  | taskAdmit (src : Src) (args : AdmitArgs)
  | taskWithdraw (src : Src) (id : Nat)
  | taskQuery (src : Src) (id : Nat)
  | taskMsg (src : Src) (id : Nat) (timeout : Nat) (words : List Word)
  | taskReply (src : Src) (hostTag : BitVec 32) (bank : Fin 8) (words : List Word)
  | taskMsgTimeout (tag : BitVec 32)
  | poundConfig (src : Src) (args : PoundArgs)
  | runStart (src : Src)
  | runStop (src : Src)
  | linkConfig (src : Src) (n : LinkId) (lcfg : Val)
  | streamConfig (src : Src) (k : StreamId) (scfg sgeom sbase : Val)
  | feAccess (src : Src) (n : LinkId) (write : Bool) (addr : BitVec 32) (count : Nat) (vals : List Val)
  | guardLoad (src : Src) (form : GuardForm)
  | guardPrepare (src : Src)
  | guardArm (src : Src) (nonce crc : BitVec 32)
  | manSetup (src : Src) (args : ManArgs)
  | bbxRead (src : Src) (first count : Nat)
  | calRead (src : Src)
  | calWrite (src : Src) (b : B2) (confirm : BitVec 32)
  | vaultRead (src : Src) (off len : Nat)
  | vaultWrite (src : Src) (off : Nat) (b : B2)
  | freezeArm (src : Src) (arm : Bool)
  | thaw (src : Src)
  | clusterReset (src : Src) (cl : ClusterId)
  | deviceReset (src : Src)
  | selfTest (src : Src) (mask : BitVec 8)
  | debugChallenge (src : Src)
  | debugUnlock (src : Src) (level : BitVec 8) (sig : List Byte)
  | badOpCommand (src : Src) (op : BitVec 16)
  -- SMBus
  | smbusStateRead
  | smbusPoundRead
  | smbusMsnRead
  | smbusThermalRead
  | smbusBbxRead
  | smbusIdRead
  | smbusWriteNack (cmd : Byte)
  -- failures and restarts
  | coreFailed (c : CoreId) (cause : BitVec 3)
  | abandonBoundaryTimeout (c : CoreId)
  | hangTimeout (c : CoreId)
  | invalidationAckTimeout (c : CoreId)
  | spareTakeover (c : CoreId)
  | spareRelease (c : CoreId)
  | coreLost (c : CoreId)
  | lockupWithdraw (c : CoreId)
  | clusterRestart (cl : ClusterId) (trigger : BitVec 3)
  | clusterRelease (cl : ClusterId) (pass : BitVec 9)
  | clusterRestartTimeout (cl : ClusterId)
  | heartbeat
  | heartbeatWatchdog
  | warmRestart (trigger : BitVec 3)
  | warmRestartComplete
  | vaultDieFailed (die : Fin 4) (op page : Nat)
  | blackBoxWrite
  -- start, pins, debug and the remaining events
  | powerGood (args : BootArgs)
  | pwrOkFall
  | perstRelease (args : BootArgs)
  | pcieGroupReset
  | freezeQualified
  | freezeRelease
  | thermtrip
  | monitorLimit (sensor : Fin 28) (reading : BitVec 16)
  | reservedOpcode (c : CoreId)
  | beat (host : List Byte)
  | cellSlot (n : LinkId)
  | discardedCell (n : LinkId)
  | bootComplete (pass : List (BitVec 9))
  | bar2Write (off : Nat) (bytes : List Byte)
  | ieee1687Write (t : DebugTarget)
  | pfailHigh10ms (args : BootArgs)
  deriving DecidableEq, Repr

end Sys2Proof
end

