-- ==== Sys2Proof/Decode.lean ====
section
/-!
DEFINITION. Commands spelled by the bits of the opcode table. No row of spec/opcode_table.json gives bits, so no word
spells a command. (The core's own instruction words are decoded by RESERVED_OPCODE in
`Machine/Reserved.lean`.)
-/

namespace Sys2Proof

/-- The command that a word of `nbits` bits spells by the table: none, as no row gives bits. -/
def decodeTableWord (_nbits _w : Nat) : Option Instr := none

end Sys2Proof
end

