-- ==== Sys2Proof/Config.lean ====
section
/-!
DEFINITION. What the spec leaves open: opaque constants without a body, so that no proof can lean on a value
(log 3, log 12, log 13, log 14). `State.free` counts the uses of `freeVal`.
-/

namespace Sys2Proof.Config

/-- Free value number n: undefined register contents (R180, R293), random victims (R195), nonces and challenges
(R270, R378), whether a write-back came first (R208). -/
opaque freeVal : Nat → BitVec 64

/-- Sign and payload of the NaN an operation gives (R108, R109, R134): the spec fixes only that it is a NaN. -/
opaque nanBits : BitVec 64 → BitVec 64 → BitVec 64

/-- Whether tininess is detected before rounding; IEEE 754 leaves it to the implementation (R134). -/
opaque tinyBefore : Bool

/-- The verdict of an ECDSA P-384 signature over a byte string: patch bundles (R225.2) and debug unlock (R378). -/
opaque sigOk : List Byte → List Byte → Bool

/-- AES-256-GCM decryption of a bundle under the key derived from its SEQ (R225.4); none when GTAG fails. -/
opaque decrypt : Nat → List Byte → Option (List Byte)

/-- Whether every bound of a decrypted payload is at or below Tables 2.9 and 5.10 (R225.5). -/
opaque boundsOk : List Byte → Bool

/-- The ordering code of the part: true for PM-BL64-E (Table 0.1). -/
opaque extended : Bool

/-- The bit that TDO shows in a shift state: of an IDCODE, or of a chain the spec gives no order (R386, Table 17.12). -/
opaque tdo : Nat → Bool

/-- How LKP_TPQ shows the towpath messages waiting per source class; the spec gives no layout (Table 15.5). -/
opaque tpqLayout : List Nat → BitVec 64

/-- Codes of BL64_A1_NANOOPS (R223, Table 10.8), a data file that is not part of the spec: whether user routines may
use the codes of a nano-word; whether it reads or writes memory, or uses the vector datapath. -/
opaque nanoUserOk : BitVec 192 → Bool
opaque nanoReads : BitVec 192 → Bool
opaque nanoWrites : BitVec 192 → Bool
opaque nanoVec : BitVec 192 → Bool
/-- The tags that the TAG codes of a nano-word can set. -/
opaque nanoTags : BitVec 192 → List (BitVec 8)

/-- The sections of a decrypted payload (Table 10.6), whose byte layout the spec does not give: the match table, the micro patch, the nano
patch. -/
opaque matchTable : List Byte → List (Nat × Nat)
opaque microPatch : List Byte → List (BitVec 24)
opaque nanoPatch : List Byte → List (BitVec 192)

/-- The ROM of a core's stores (Table 10.1): its contents are not part of the spec. -/
opaque romMicro : Nat → BitVec 24
opaque romNano : Nat → BitVec 192

/-- An access of a customer routine (R232): which of d, a and b is its base, and the offset added to it. -/
structure CxAccess where
  base   : Fin 3
  offset : Int
  deriving DecidableEq, Repr, Inhabited

/-- The datapath of a custom opcode: the operands d, a and b, which of them the routine has written, the temporaries MT0 to MT15, the
vector registers when it may use them, and the VSTAT flags it has raised. -/
structure CxDp where
  d     : Word
  a     : Word
  b     : Word
  wrote : BitVec 3
  mt    : List Word
  vregs : List (BitVec 512)
  flags : BitVec 6
  deriving DecidableEq, Repr, Inhabited

/-- The temporaries MT0 to MT15 when a routine starts, which the spec gives no value: applied to a value of the free counter. -/
opaque temporary : Nat → Nat → Word

/-- What a nano-word does with the datapath in its cycle, with the word it reads, if it reads one: whether its condition holds, the access
it makes, the word it writes, and the datapath after it. The codes of its fields are those of BL64_A1_NANOOPS, which the spec does not
hold (log 11). -/
opaque nanoCond : BitVec 192 → Option Word → CxDp → Bool
opaque nanoAccess : BitVec 192 → CxDp → CxAccess
opaque nanoStore : BitVec 192 → CxDp → Word
opaque nanoStep : BitVec 192 → Option Word → CxDp → CxDp

end Sys2Proof.Config
end

