-- ==== Sys2Proof/Machine/Bits.lean ====
section
/-!
DEFINITION. Bit fields, byte order, sign extension, saturation, word serialisation (R81), CRC-32C (R242),
the address signature (R75) and the SEC-DED code of a word (R71, R72).
-/

namespace Sys2Proof.Machine

/-- Field of `len` bits from bit `lo`, as a number. -/
def fld {w : Nat} (v : BitVec w) (lo len : Nat) : Nat := (v.toNat >>> lo) % 2 ^ len

/-- Bit i. -/
def bit {w : Nat} (v : BitVec w) (i : Nat) : Bool := v.getLsbD i

/-- A value placed in a field of `len` bits at bit `lo` of a register. -/
def put (v lo len : Nat) : BitVec 64 := BitVec.ofNat 64 ((v % 2 ^ len) <<< lo)

/-- A flag at a bit of a register. -/
def flag (b : Bool) (lo : Nat) : BitVec 64 := put b.toNat lo 1

/-- Replace a field of a register. -/
def setFld (r : BitVec 64) (lo len v : Nat) : BitVec 64 :=
  (r &&& ~~~(put (2 ^ len - 1) lo len)) ||| put v lo len

/-- Saturating increment of a counter of `w` bits. -/
def satInc (w n : Nat) (by_ : Nat := 1) : Nat := min (n + by_) (2 ^ w - 1)

/-- Set or clear bit i. -/
def setBit {w : Nat} (v : BitVec w) (i : Nat) (b : Bool) : BitVec w :=
  if b then v ||| BitVec.ofNat w (2 ^ i) else v &&& ~~~(BitVec.ofNat w (2 ^ i))

/-- The number of bits set. -/
def popcount {w : Nat} (v : BitVec w) : Nat := ((List.range w).filter fun i => bit v i).length

/-- The signed value of the low `w` bits of n. -/
def sx (w n : Nat) : Int := let m := n % 2 ^ w; if m < 2 ^ (w - 1) then m else (m : Int) - 2 ^ w

/-- n little-endian bytes of a number. -/
def leBytes : Nat → Nat → List Byte
  | 0, _ => []
  | n + 1, v => BitVec.ofNat 8 v :: leBytes n (v / 256)

/-- The number a little-endian byte string spells. -/
def leNat : List Byte → Nat
  | [] => 0
  | b :: bs => b.toNat + 256 * leNat bs

/-- n bytes of a byte string from an offset, zero past its end. -/
def slice (bs : List Byte) (off n : Nat) : List Byte :=
  let t := (bs.drop off).take n
  t ++ List.replicate (n - t.length) 0

/-- Little-endian field of a byte string. -/
def leAt (bs : List Byte) (off n : Nat) : Nat := leNat (slice bs off n)

/-- A byte string cut or zero-padded to n bytes. -/
def fit (n : Nat) (bs : List Byte) : List Byte := slice bs 0 n

/-- Split into pieces of at most n (n > 0), at most `fuel` pieces. -/
def chunks {α : Type} (n : Nat) : Nat → List α → List (List α)
  | 0, _ => []
  | _, [] => []
  | fuel + 1, l => l.take n :: chunks n fuel (l.drop n)

/-- Host serialisation of words: groups of 8, values then tags (R81). -/
def serialise (ws : List Word) : List Byte :=
  (chunks 8 ws.length ws).flatMap fun g => (g.flatMap fun w => leBytes 8 w.val.toNat) ++ g.map Word.tag

/-- Bytes that n serialised words take. -/
def serialLen (n : Nat) : Nat := 9 * n

/-- Words from a serialised byte string (R82): as many as its length holds. -/
def deserialise (bs : List Byte) : List Word :=
  (chunks 72 bs.length bs).flatMap fun g =>
    let n := g.length / 9
    (List.range n).map fun k => ⟨BitVec.ofNat 8 (leAt g (8 * n + k) 1), BitVec.ofNat 64 (leAt g (8 * k) 8)⟩

/-! ### CRC-32C (R242): Castagnoli 1EDC_6F41h reflected, initial and final FFFF_FFFFh -/

def crcBit (c : BitVec 32) : BitVec 32 := if bit c 0 then (c >>> 1) ^^^ 0x82F63B78#32 else c >>> 1

def crcByte (c : BitVec 32) (b : Byte) : BitVec 32 :=
  crcBit (crcBit (crcBit (crcBit (crcBit (crcBit (crcBit (crcBit (c ^^^ b.setWidth 32))))))))

def crcInit : BitVec 32 := 0xFFFFFFFF#32

/-- The running register over a byte string. -/
def crcRun (c : BitVec 32) (bs : List Byte) : BitVec 32 := bs.foldl crcByte c

def crcFin (c : BitVec 32) : BitVec 32 := c ^^^ 0xFFFFFFFF#32

def crc32c (bs : List Byte) : BitVec 32 := crcFin (crcRun crcInit bs)

/-! ### The address signature (R75): CRC-16 1021h, initial FFFFh, over 5 bytes of the line address -/

def sigBit (c : BitVec 16) : BitVec 16 := if bit c 15 then (c <<< 1) ^^^ 0x1021#16 else c <<< 1

def sigByte (c : BitVec 16) (b : Byte) : BitVec 16 :=
  sigBit (sigBit (sigBit (sigBit (sigBit (sigBit (sigBit (sigBit (c ^^^ (b.setWidth 16 <<< 8)))))))))

def signature (line : Nat) : BitVec 16 := ((leBytes 5 line).reverse).foldl sigByte 0xFFFF#16

/-! ### SEC-DED of one section (R71, R72) -/

/-- Positions of the data bits: from 1 upward, not powers of two. -/
def eccPositions (n : Nat) : List Nat :=
  (List.range 39).filter fun p => p ≠ 0 && 2 ^ Nat.log2 p ≠ p && decide (p ≤ if n = 8 then 12 else 38)

/-- Exclusive-OR of the positions of the data bits that are set. -/
def hamming (n v : Nat) : Nat :=
  ((eccPositions n).zipIdx.filter fun pi => v.testBit pi.2).foldl (fun a pi => a ^^^ pi.1) 0

def parityOf (n v : Nat) : Bool := (List.range n).foldl (fun a i => a ^^ v.testBit i) false

/-- Check field of a section of n data bits with j Hamming bits: the Hamming bits, then the overall parity. -/
def eccCheck (n j v : Nat) : Nat :=
  let h := hamming n v
  h + (if parityOf n v ^^ parityOf j h then 2 ^ j else 0)

/-- Outcome of checking a section (Table 3.13). -/
inductive EccRes where
  | clean (v : Nat)
  | corrected (v : Nat)
  | bad
  deriving DecidableEq, Repr

def eccTest (n j v c : Nat) : EccRes :=
  let syn := hamming n v ^^^ (c % 2 ^ j)
  let odd := parityOf n v ^^ parityOf (j + 1) c
  if syn = 0 then (if odd then .corrected v else .clean v)
  else if !odd then .bad
  else if syn > (if n = 8 then 12 else 38) then .bad
  else
    match (eccPositions n).zipIdx.find? (fun pi => pi.1 = syn) with
    | some pi => .corrected (v ^^^ 2 ^ pi.2)
    | none => .corrected v

/-- The 19 check bits of a word (Table 3.12). -/
def checkBits (w : Word) : Nat :=
  eccCheck 32 6 (fld w.val 0 32) + eccCheck 32 6 (fld w.val 32 32) <<< 7 + eccCheck 8 4 w.tag.toNat <<< 14

/-- The external line of 8 words at a line address, as a 768-bit number (Table 3.14). -/
def encodeLine (line : Nat) (ws : List Word) : Nat :=
  (ws.zipIdx.foldl (fun a wi => a + wi.1.val.toNat <<< (64 * wi.2) + wi.1.tag.toNat <<< (512 + 8 * wi.2)
    + checkBits wi.1 <<< (576 + 19 * wi.2)) 0) + (signature line).toNat <<< 728

/-- A stored word checked (R72): value, tag and check field; the word and the sections corrected, or none when uncorrectable. -/
def decodeParts (v t c : Nat) : Option (Word × Nat) :=
  match eccTest 32 6 (v % 2 ^ 32) (c % 2 ^ 7), eccTest 32 6 (v >>> 32) ((c >>> 7) % 2 ^ 7), eccTest 8 4 t (c >>> 14) with
  | .bad, _, _ => none
  | _, .bad, _ => none
  | _, _, .bad => none
  | a, b, d =>
    let val : EccRes → Nat | .clean v => v | .corrected v => v | .bad => 0
    let n : EccRes → Nat | .corrected _ => 1 | _ => 0
    some (⟨BitVec.ofNat 8 (val d), BitVec.ofNat 64 (val a + val b <<< 32)⟩, n a + n b + n d)

/-- The stored word k of a line image, checked. -/
def decodeWord (img k : Nat) : Option (Word × Nat) :=
  decodeParts ((img >>> (64 * k)) % 2 ^ 64) ((img >>> (512 + 8 * k)) % 2 ^ 8) ((img >>> (576 + 19 * k)) % 2 ^ 19)

/-- The 91 stored bits of a word: value, tag, check field (R71). -/
def storedBits (w : Word) : BitVec 91 := BitVec.ofNat 91 (w.val.toNat + w.tag.toNat <<< 64 + checkBits w <<< 72)

/-- 91 stored bits, checked. -/
def decodeBits (b : BitVec 91) : Option (Word × Nat) := decodeParts (fld b 0 64) (fld b 64 8) (fld b 72 19)

/-- The signature field of a line image. -/
def imageSig (img : Nat) : BitVec 16 := BitVec.ofNat 16 (img >>> 728)

end Sys2Proof.Machine
end

