-- ==== Sys2Proof/Machine/Float.lean ====
section
/-!
DEFINITION. IEEE 754 binary32 and binary64 on exact integers: unpack, compute exactly, round once (R108, R109, R134).
-/

namespace Sys2Proof.Machine

/-- A format: precision and exponent width. -/
structure Fmt where
  p  : Nat
  ew : Nat
  deriving DecidableEq, Repr

def b32 : Fmt := ⟨24, 8⟩
def b64 : Fmt := ⟨53, 11⟩

/-- Exponent of the least significant bit of a subnormal. -/
def Fmt.emin (f : Fmt) : Int := 3 - (2 : Int) ^ (f.ew - 1) - f.p

/-- A floating-point datum: a finite one is ± m × 2^e. -/
inductive FP where
  | nan (signalling : Bool)
  | inf (neg : Bool)
  | fin (neg : Bool) (m : Nat) (e : Int)
  deriving DecidableEq, Repr

def unpack (f : Fmt) (bits : Nat) : FP :=
  let frac := bits % 2 ^ (f.p - 1)
  let ex := (bits >>> (f.p - 1)) % 2 ^ f.ew
  let neg := bits.testBit (f.p - 1 + f.ew)
  if ex = 2 ^ f.ew - 1 then (if frac = 0 then .inf neg else .nan (!frac.testBit (f.p - 2)))
  else if ex = 0 then .fin neg frac f.emin
  else .fin neg (frac + 2 ^ (f.p - 1)) (f.emin + (ex - 1 : Nat))

/-- Rounding modes, by VSTAT.RM code (Table 5.8). -/
inductive Rm where
  | rne | rtz | rup | rdn
  deriving DecidableEq, Repr

def Rm.ofCode (n : Nat) : Rm := match n with | 0 => .rne | 1 => .rtz | 2 => .rup | _ => .rdn

/-- IEEE exceptions raised by one operation. -/
structure Exc where
  iv : Bool := false
  dz : Bool := false
  of : Bool := false
  uf : Bool := false
  nx : Bool := false
  deriving DecidableEq, Repr

def Exc.or (a b : Exc) : Exc := ⟨a.iv || b.iv, a.dz || b.dz, a.of || b.of, a.uf || b.uf, a.nx || b.nx⟩

/-- Shift m right by sh bits, rounding; second result: inexact. -/
def roundShift (rm : Rm) (neg : Bool) (m sh : Nat) : Nat × Bool :=
  if sh = 0 then (m, false)
  else
    let q := m >>> sh
    let r := m % 2 ^ sh
    let half := 2 ^ (sh - 1)
    let up := match rm with
      | .rne => decide (r > half) || (r == half && q % 2 == 1)
      | .rtz => false
      | .rup => !neg && r != 0
      | .rdn => neg && r != 0
    (if up then q + 1 else q, r != 0)

def signBit (f : Fmt) (neg : Bool) : Nat := if neg then 2 ^ (f.p - 1 + f.ew) else 0

def infBits (f : Fmt) (neg : Bool) : Nat := signBit f neg + (2 ^ f.ew - 1) <<< (f.p - 1)

/-- Round ± m × 2^e to the format (R108: gradual underflow). -/
def roundPack (f : Fmt) (rm : Rm) (neg : Bool) (m : Nat) (e : Int) : Nat × Exc :=
  if m = 0 then (signBit f neg, {})
  else
    let top : Int := e + (Nat.log2 m : Int)
    let free : Int := top - (f.p - 1 : Nat)
    let q : Int := if free < f.emin then f.emin else free
    let (m1, nx) := if q ≤ e then (m <<< (e - q).toNat, false) else roundShift rm neg m (q - e).toNat
    let (m2, q2) := if m1 = 2 ^ f.p then (2 ^ (f.p - 1), q + 1) else (m1, q)
    let ex := if m2 < 2 ^ (f.p - 1) then 0 else (q2 - f.emin).toNat + 1
    if ex ≥ 2 ^ f.ew - 1 then
      let toInf := match rm with | .rne => true | .rtz => false | .rup => !neg | .rdn => neg
      (if toInf then infBits f neg else infBits f neg - 1, { of := true, nx := true })
    else
      -- rounded with an unbounded exponent, for tininess after rounding
      let mu := (if free ≤ e then m <<< (e - free).toNat else (roundShift rm neg m (free - e).toNat).1)
      let before : Bool := decide (top < f.emin + (f.p - 1 : Nat))
      let after : Bool := before && !(decide (free = f.emin - 1) && mu == 2 ^ f.p)
      let tiny := if before == after then before else (Config.tinyBefore && before) || (!Config.tinyBefore && after)
      let bits := if ex = 0 then m2 else ex <<< (f.p - 1) + (m2 - 2 ^ (f.p - 1))
      (signBit f neg + bits, { uf := tiny && nx, nx := nx })

/-- A quiet NaN with free sign and payload. -/
def nanOf (f : Fmt) (a b : Nat) : Nat :=
  let r := (Config.nanBits (BitVec.ofNat 64 a) (BitVec.ofNat 64 b)).toNat
  signBit f (r.testBit 63) + ((2 ^ f.ew - 1) <<< (f.p - 1)) + 2 ^ (f.p - 2) + r % 2 ^ (f.p - 2)

/-- Signed integer of a finite datum at exponent e' ≤ e. -/
def signedAt (neg : Bool) (m : Nat) (e e' : Int) : Int :=
  let v : Int := (m <<< (e - e').toNat : Nat)
  if neg then -v else v

/-- Exact sum of two finite data, then one rounding; an exact zero takes the sign IEEE 754 gives. -/
def addFin (f : Fmt) (rm : Rm) (n1 : Bool) (m1 : Nat) (e1 : Int) (n2 : Bool) (m2 : Nat) (e2 : Int) : Nat × Exc :=
  let e := min e1 e2
  let v := signedAt n1 m1 e1 e + signedAt n2 m2 e2 e
  if v = 0 then
    (signBit f (if m1 = 0 && m2 = 0 && n1 == n2 then n1 else rm == .rdn), {})
  else roundPack f rm (decide (v < 0)) v.natAbs e

def fpAdd (f : Fmt) (rm : Rm) (a b : Nat) : Nat × Exc :=
  match unpack f a, unpack f b with
  | .nan s, .nan t => (nanOf f a b, { iv := s || t })
  | .nan s, _ => (nanOf f a b, { iv := s })
  | _, .nan s => (nanOf f a b, { iv := s })
  | .inf x, .inf y => if x == y then (infBits f x, {}) else (nanOf f a b, { iv := true })
  | .inf x, _ => (infBits f x, {})
  | _, .inf y => (infBits f y, {})
  | .fin n1 m1 e1, .fin n2 m2 e2 => addFin f rm n1 m1 e1 n2 m2 e2

/-- Change the sign of a datum. -/
def fpNeg (f : Fmt) (a : Nat) : Nat := if a.testBit (f.p - 1 + f.ew) then a - signBit f true else a + signBit f true

def fpSub (f : Fmt) (rm : Rm) (a b : Nat) : Nat × Exc :=
  match unpack f b with
  | .nan _ => fpAdd f rm a b
  | _ => fpAdd f rm a (fpNeg f b)

def fpMul (f : Fmt) (rm : Rm) (a b : Nat) : Nat × Exc :=
  match unpack f a, unpack f b with
  | .nan s, .nan t => (nanOf f a b, { iv := s || t })
  | .nan s, _ => (nanOf f a b, { iv := s })
  | _, .nan s => (nanOf f a b, { iv := s })
  | .inf x, .inf y => (infBits f (x ^^ y), {})
  | .inf x, .fin y m _ => if m = 0 then (nanOf f a b, { iv := true }) else (infBits f (x ^^ y), {})
  | .fin y m _, .inf x => if m = 0 then (nanOf f a b, { iv := true }) else (infBits f (x ^^ y), {})
  | .fin n1 m1 e1, .fin n2 m2 e2 => roundPack f rm (n1 ^^ n2) (m1 * m2) (e1 + e2)

def fpDiv (f : Fmt) (rm : Rm) (a b : Nat) : Nat × Exc :=
  match unpack f a, unpack f b with
  | .nan s, .nan t => (nanOf f a b, { iv := s || t })
  | .nan s, _ => (nanOf f a b, { iv := s })
  | _, .nan s => (nanOf f a b, { iv := s })
  | .inf _, .inf _ => (nanOf f a b, { iv := true })
  | .inf x, .fin y _ _ => (infBits f (x ^^ y), {})
  | .fin x _ _, .inf y => (signBit f (x ^^ y), {})
  | .fin n1 m1 e1, .fin n2 m2 e2 =>
    if m2 = 0 then (if m1 = 0 then (nanOf f a b, { iv := true }) else (infBits f (n1 ^^ n2), { dz := true }))
    else
      let k := 2 * f.p + 3
      let num := m1 <<< k
      let q := num / m2
      -- a sticky bit below the quotient carries the remainder
      roundPack f rm (n1 ^^ n2) (2 * q + (if num % m2 = 0 then 0 else 1)) (e1 - e2 - (k + 1 : Nat))

/-- a + b × c with one rounding. Infinity times 0 sets IV whatever the addend is, a quiet NaN too, where IEEE 754 leaves the flag to the
implementation (DESIGN CHOICE, log 28). -/
def fpFma (f : Fmt) (rm : Rm) (a b c : Nat) : Nat × Exc :=
  let anySig := match unpack f a, unpack f b, unpack f c with
    | .nan true, _, _ => true | _, .nan true, _ => true | _, _, .nan true => true | _, _, _ => false
  match unpack f b, unpack f c with
  | .nan _, _ => (nanOf f a b, { iv := anySig })
  | _, .nan _ => (nanOf f a c, { iv := anySig })
  | .inf x, .inf y => addInf anySig (x ^^ y)
  | .inf x, .fin y m _ => if m = 0 then (nanOf f b c, { iv := true }) else addInf anySig (x ^^ y)
  | .fin y m _, .inf x => if m = 0 then (nanOf f b c, { iv := true }) else addInf anySig (x ^^ y)
  | .fin n1 m1 e1, .fin n2 m2 e2 =>
    match unpack f a with
    | .nan _ => (nanOf f a b, { iv := anySig })
    | .inf x => (infBits f x, {})
    | .fin n0 m0 e0 => addFin f rm n0 m0 e0 (n1 ^^ n2) (m1 * m2) (e1 + e2)
where
  addInf (anySig : Bool) (neg : Bool) : Nat × Exc :=
    match unpack f a with
    | .nan _ => (nanOf f a b, { iv := anySig })
    | .inf x => if x == neg then (infBits f x, {}) else (nanOf f a b, { iv := true })
    | .fin _ _ _ => (infBits f neg, {})

/-- A product for a sum that holds an infinity or a NaN: a finite one is 0. -/
def fpProd (f : Fmt) (rm : Rm) (a b : Nat) : Nat × Exc :=
  match unpack f a, unpack f b with
  | .fin .., .fin .. => (0, {})
  | _, _ => fpMul f rm a b

/-- x1 × y1 ± x2 × y2 with one rounding: a component of a complex product (R135). -/
def fpDot (f : Fmt) (rm : Rm) (x1 y1 x2 y2 : Nat) (subtract : Bool) : Nat × Exc :=
  match unpack f x1, unpack f y1, unpack f x2, unpack f y2 with
  | .fin a1 m1 e1, .fin b1 n1 g1, .fin a2 m2 e2, .fin b2 n2 g2 =>
    addFin f rm (a1 ^^ b1) (m1 * n1) (e1 + g1) (a2 ^^ b2 ^^ subtract) (m2 * n2) (e2 + g2)
  | _, _, _, _ =>
    -- with an infinity or a NaN present, a finite product does not change the sum: it counts as zero
    let p := fpProd f rm x1 y1
    let q := fpProd f rm x2 y2
    let r := if subtract then fpSub f rm p.1 q.1 else fpAdd f rm p.1 q.1
    (r.1, { iv := p.2.iv || q.2.iv || r.2.iv })

/-- Convert an integer, rounding to the format. -/
def fpOfInt (f : Fmt) (rm : Rm) (v : Int) : Nat × Exc := roundPack f rm (decide (v < 0)) v.natAbs 0

/-- Convert between formats. -/
def fpConv (g f : Fmt) (rm : Rm) (a : Nat) : Nat × Exc :=
  match unpack g a with
  | .nan s => (nanOf f a 0, { iv := s })
  | .inf x => (infBits f x, {})
  | .fin n m e => roundPack f rm n m e

/-- The integer a finite datum rounds to; none for a NaN or an infinity. Second: inexact. -/
def fpToInt (f : Fmt) (rm : Rm) (a : Nat) : Option (Int × Bool) :=
  match unpack f a with
  | .fin n m e =>
    let (v, nx) := if 0 ≤ e then (m <<< e.toNat, false) else roundShift rm n m (-e).toNat
    some (if n then -(v : Int) else v, nx)
  | _ => none

/-- Three-way comparison of exact values; none when unordered (R113). -/
def fpCmp : FP → FP → Option Ordering
  | .nan _, _ => none
  | _, .nan _ => none
  | .inf x, .inf y => some (if x == y then .eq else if x then .lt else .gt)
  | .inf x, _ => some (if x then .lt else .gt)
  | _, .inf y => some (if y then .gt else .lt)
  | .fin n1 m1 e1, .fin n2 m2 e2 =>
    let e := min e1 e2
    some (compare (signedAt n1 m1 e1 e) (signedAt n2 m2 e2 e))

/-- Flush a subnormal to zero of its sign (R134, FTZ). -/
def flush (f : Fmt) (ftz : Bool) (a : Nat) : Nat :=
  if ftz && (a >>> (f.p - 1)) % 2 ^ f.ew == 0 then signBit f (a.testBit (f.p - 1 + f.ew)) else a

end Sys2Proof.Machine
end

