-- ==== Sys2Proof/Machine/Map.lean ====
section
/-!
DEFINITION. Sparse maps in canonical form: reading, writing, and the form itself. An unlisted key k reads as `d k`.
-/

namespace Sys2Proof.Machine

variable {α : Type}

/-- The value at key k. -/
def mget (d : Nat → α) : SMap α → Nat → α
  | [], k => d k
  | (j, v) :: m, k => if j = k then v else mget d m k

/-- Drop every entry of key k. -/
def mdrop (m : SMap α) (k : Nat) : SMap α := m.filter fun e => e.1 != k

/-- Insert key k before the first larger key. -/
def minsert (k : Nat) (v : α) : SMap α → SMap α
  | [] => [(k, v)]
  | (j, w) :: m => if k < j then (k, v) :: (j, w) :: m else (j, w) :: minsert k v m

/-- Insert or replace, keeping keys rising; writing the unlisted value removes the entry. -/
def mset [DecidableEq α] (d : Nat → α) (m : SMap α) (k : Nat) (v : α) : SMap α :=
  if v = d k then mdrop m k else minsert k v (mdrop m k)

/-- Every key of the map is above `lo` in rising order and no entry equals its unlisted value. -/
def mwfFrom [DecidableEq α] (d : Nat → α) : Option Nat → SMap α → Bool
  | _, [] => true
  | lo, (j, v) :: m =>
    (match lo with | none => true | some l => decide (l < j)) && decide (v ≠ d j) && mwfFrom d (some j) m

/-- The canonical form. -/
def mwf [DecidableEq α] (d : Nat → α) (m : SMap α) : Bool := mwfFrom d none m

end Sys2Proof.Machine
end

