-- ==== Sys2Proof/Machine/State.lean ====
section
/-!
DEFINITION. The state of the block as plain data: one structure per block of Table 1.1, every field named as the
spec names it, and the state after device reset. INVENTORY.md lists each field with its rule and reset value.
-/

namespace Sys2Proof.Machine

/-- Reasons a command can stop the machine. No command of this block does: a core trap, a channel error, a refused
mailbox command are next states. The one constructor keeps the type closed; nothing raises it (safe). -/
inductive Fault where
  /-- Raised by no command. Safe. -/
  | none
  deriving DecidableEq, Repr

/-- Refusals. `notModelled` stands only in arms of `exec` whose meaning has not been written. Safe. -/
inductive Refusal where
  /-- Raised by an arm of `exec` without a meaning. Safe. -/
  | notModelled (mnemonic : String)
  deriving DecidableEq, Repr

/-- UNBOUND 0: freshly zeroed memory, cleared registers (R57, R78, R86). -/
def unbound : Word := ⟨0x00, 0⟩

/-! ### Outputs -/

/-- A cell the hub sends (Table 11.4). `typ` is the code of Table 11.5; `repl` marks a replicated cell (R237), `pos` one for a position. -/
structure TxCell where
  typ     : Nat
  last    : Bool := false
  safe    : Bool := false
  lmark   : Bool := false
  pound   : Nat := 0
  sid     : Nat := 0xFF
  index   : Nat := 0
  payload : List Byte := []
  repl    : Bool := false
  pos     : Option Nat := none
  deriving DecidableEq, Repr

/-- A response before it is written (Table 15.7). -/
structure Response where
  tag     : BitVec 32
  op      : Nat
  status  : Nat
  /-- A long result and the host buffer it is written to, ahead of the entry (R327). -/
  outAddr : Nat := 0
  out     : List Byte := []
  prio    : Bool := false
  tick    : Bool := false
  result  : List Byte := []
  deriving DecidableEq, Repr

/-- What has left the device, newest first. -/
inductive Out where
  | hostWrite (addr : Nat) (bytes : List Byte)
  /-- A read request of a sluice channel (R277). -/
  | hostRead (chan addr len : Nat)
  | msix (vector : Nat)
  /-- The 128 bytes of a cell in a slot of a link's position, 4 for the spare (R237, R242). -/
  | cell (link pos slot : Nat) (bytes : List Byte)
  | smbus (bytes : List Byte)
  | smbusNack
  /-- A pulse of TICK_OUT, so many picoseconds after the tick (R389). -/
  | tickOut (ps : Int)
  /-- The completion of a host read of BAR_0 (R7, R332). -/
  | readDone (off : Nat) (bytes : List Byte)
  deriving DecidableEq, Repr

/-! ### Cores and banks (chapters 04 to 08) -/

/-- Four per-bank registers of one name: TSP[0..3], TSL[0..3], BMAT[0..3]. -/
structure Quad where
  q0 : Val := 0
  q1 : Val := 0
  q2 : Val := 0
  q3 : Val := 0
  deriving DecidableEq, Repr

/-- Bank states (Table 7.11). -/
inductive BankSt where
  | idle | ready | running | waite | waitt
  deriving DecidableEq, Repr

/-- An open record of a bank (R299, R300). -/
structure OpenRec where
  typ   : Nat
  words : List Word
  trunc : Bool
  deriving DecidableEq, Repr

/-- A bank's registers and private state, apart from an open load shadow. -/
structure BankCtx where
  regs       : SMap Word := []
  /-- Stored bits of a register that have flipped: value, tag and check field of a word as Table 3.1 and Table 3.12 order them (R56). -/
  flaws      : SMap (BitVec 91) := []
  pc         : BitVec 62 := 0
  psw        : Val := 0x10000
  winpos     : Val := 0x10
  spill      : Val := 0
  basin      : Val := 0
  trapv      : Val := 0
  tsp        : Quad := {}
  tsl        : Quad := {}
  tdepth     : Val := 0
  alloc      : Val := 0
  alimit     : Val := 0
  toalloc    : Val := 0
  cmask      : Val := 0
  cardbase   : Val := 0
  bmat       : Quad := {}
  isOver     : Bool := false
  frame      : Bool := false
  grace      : Nat := 2000
  remain     : Nat := 0
  carrymask  : Val := 0
  st         : BankSt := .idle
  prio       : BitVec 3 := 0
  sill       : SMap Word := []
  pendBudget : Bool := false
  pendTstack : Option (Val × Val) := none
  due        : Option Nat := none
  openRec    : Option OpenRec := none
  deriving DecidableEq, Repr

/-- A record on its way to the host (Tables 14.2, 14.3). `key` orders guard records by sample instant. -/
structure Record where
  cls     : Nat
  typ     : Nat
  srcid   : Nat
  when_   : Val
  qual    : Nat := 0
  wordsF  : Bool := false
  trunc   : Bool := false
  bg      : Bool := false
  payload : List Byte
  link    : Nat := 0
  key     : Nat := 0
  deriving DecidableEq, Repr

/-- What an instruction in a shadow slot leaves to be performed when the shadow closes (R50). -/
inductive Held where
  | store (pa : Nat) (w : Word) (uncached : Bool)
  | line (line : Nat) (ws : List Word) (uncached : Bool)
  | card (pa byte : Nat)
  | device (k : Nat) (w : Word)
  /-- A word appended by RECW enters the core's record-port buffer (R299). -/
  | port
  | stage (r : Record)
  | drop (id : Nat) (background : Bool)
  deriving DecidableEq, Repr

/-- An open load shadow (R103, R104): the load's destination and word, the slots already filled, the load's parcel,
and what cancellation restores. -/
structure Shadow where
  dest  : Nat
  word  : Word
  slot  : Nat
  pc    : BitVec 62
  saved : BankCtx
  vregs : SMap (BitVec 512)
  vstat : Val
  /-- The translation context in force since the load (R186). -/
  tctx  : Val
  held  : List Held
  deriving DecidableEq, Repr

structure Bank where
  x      : BankCtx := {}
  shadow : Option Shadow := none
  /-- Stores of a closed shadow that wait behind a device store which is not performed yet, or for a cache that is cleaned (R207, R212). -/
  waiting : List Held := []
  deriving DecidableEq, Repr

/-- What a core does (R171, R329, R341, R347, R351). -/
inductive CoreRun where
  | inReset | running | halted | lockup | failed | lost
  deriving DecidableEq, Repr

/-- A TLB slot (R195, R196): a leaf for one page, or for 16 pages when C = 1. -/
structure TlbSlot where
  asid : Nat
  vpn  : Nat
  leaf : Val
  lvl  : Nat
  pte  : Nat
  /-- The slot has lost its parity (R195). -/
  par  : Bool := false
  deriving DecidableEq, Repr

/-- A walk-cache entry (R195): the frame of the table of level `lvl + 1` for a VA prefix, and the address of the PTE
that named it (R193), and the width W of the walk. -/
structure WalkEnt where
  asid   : Nat
  lvl    : Nat
  pre    : Nat
  frame  : Nat
  pte    : Nat
  width  : Nat
  par    : Bool := false
  deriving DecidableEq, Repr

/-- A broadcast invalidation waiting at a receiver (R199). -/
structure Inval where
  from_ : CoreId
  tlb   : Bool
  kind  : Nat
  va    : Nat
  asid  : Nat
  span  : Nat
  deriving DecidableEq, Repr

/-- A message in a core's towpath send queue (R339). -/
structure TpMsg where
  op   : Nat
  tag  : BitVec 32
  nw   : Nat
  addr : Nat
  bank : Fin 8
  /-- The pound in which the bank sent it, and whether the bank abandoned that pound (R31). -/
  pound : BitVec 48 := 0
  dead : Bool := false
  deriving DecidableEq, Repr

/-- The stores of a core that the lockkeeper writes (Table 10.1): the match table with patch RAM, and the user stores. `bad` names the words
whose parity is wrong (R224): a micro address, or 10000h and a nano address. -/
structure Stores where
  pairs     : List (Nat × Nat) := []
  patMicro  : List (BitVec 24) := []
  patNano   : List (BitVec 192) := []
  userMicro : List (BitVec 24) := []
  userNano  : List (BitVec 192) := []
  bad       : List Nat := []
  deriving DecidableEq, Repr

structure Core where
  run    : CoreRun := .inReset
  cur    : Option (Fin 8) := none
  /-- Position in the cluster that serves this identity: 0 to 7, or 8 for the spare. -/
  phys   : Nat := 0
  bankwin : Val := 0
  vown   : Val := 0
  vstat  : Val := 0
  vregs  : SMap (BitVec 512) := []
  resv   : Option (Fin 8 × Nat) := none
  itlb   : List TlbSlot := []
  dtlb   : List TlbSlot := []
  wcache : List WalkEnt := []
  inval  : List Inval := []
  sendq  : List TpMsg := []
  inbox  : List (List Word) := []
  recBuf : Nat := 0
  stores : Stores := {}
  deriving DecidableEq, Repr

/-! ### L2 controllers and memory controllers (chapters 08, 09) -/

/-- A valid slot of a cache: its way, its line, and whether an L1 or victim copy is modified under the L2 (R204). -/
structure Way where
  way   : Nat
  line  : Nat
  dirty : Bool := false
  deriving DecidableEq, Repr

/-- A slot whose tag or state has lost its parity (R214): the L2's for a line, or the data or code slot of a position. -/
structure BadTag where
  line : Nat
  l1   : Option (Nat × Bool)
  deriving DecidableEq, Repr

/-- A set of a cache: its valid slots and its pseudo-LRU tree (Table 9.1). -/
structure CSet where
  held : List Way := []
  tree : BitVec 16 := 0
  deriving DecidableEq, Repr

/-- A locked slot of an L2 (R210, R211): `hole` once its line has been removed. -/
structure LockSlot where
  set  : Nat
  way  : Nat
  line : Nat
  hole : Bool
  deriving DecidableEq, Repr

structure L2 where
  ctl      : Val := 0
  refused  : Nat := 0
  l1dbusy  : BitVec 8 := 0
  l2busy   : Bool := false
  /-- Writes of L2C_CTL held by a clean, oldest first, with their writers (R213, R207). -/
  heldCtl  : List (Requester × Val) := []
  lockways : BitVec 16 := 0
  slots    : List LockSlot := []
  /-- Unlocked lines by set; L1 data and code caches by 128 × position + set; victim caches by position, oldest first (R202). -/
  sets     : SMap CSet := []
  l1d      : SMap CSet := []
  l1c      : SMap CSet := []
  vict     : SMap (List Way) := []
  /-- Bits of a cluster's copies of a line that have flipped in its arrays (R56, R214); the words of an unmodified copy where they are no
  longer what the line reads as elsewhere (R73, R222); words of a code slot whose parity is wrong (R56). By copy: 17 × line + place. -/
  flaws    : SMap (BitVec 768) := []
  kept     : SMap (List Word) := []
  codeBad  : SMap (BitVec 8) := []
  badTags  : List BadTag := []
  holeev   : Nat := 0
  lockmiss : Nat := 0
  dcorr    : Nat := 0
  dpois    : Nat := 0
  tpar     : Nat := 0
  dlost    : Nat := 0
  errlog   : Val := 0
  tctx     : SMap Val := []
  walks    : SMap Nat := []
  drops    : SMap Nat := []
  deriving DecidableEq, Repr

/-- A home agent's entry for a line that some cluster holds modified: the cluster, and the 8 words the SGRAM device
still holds (R204, R208). -/
structure DirEntry where
  owner : ClusterId
  old   : List Word
  deriving DecidableEq, Repr

/-- MEM_ECC[t] and the threshold count (Table 9.13, R221). -/
structure EccCnt where
  corr : Nat := 0
  pois : Nat := 0
  sig  : Nat := 0
  edc  : Nat := 0
  thr  : Nat := 0
  idx  : Nat := 0
  deriving DecidableEq, Repr

structure MemCtl where
  clamshell : Bool := true
  cfg     : Val := 0
  tfail   : BitVec 8 := 0
  cfail   : BitVec 24 := 0
  mirdeg  : Bool := false
  zeroed  : Bool := false
  mirBase : Nat := 0
  mirLen  : Nat := 0
  eccthr  : Nat := 0xFFFF
  passes  : Nat := 0
  ecc     : SMap EccCnt := []
  /-- Bits of the stored image of a line that have flipped in the SGRAM devices since it was written (R56, R71, R74). -/
  flaws   : SMap (BitVec 768) := []
  /-- Lines whose directory entry has become uncorrectable (R214). -/
  dirBad  : List Nat := []
  deriving DecidableEq, Repr

/-! ### Weir (chapter 02) -/

/-- Run states (Table 2.17). -/
inductive RunSt where
  | stopped | starting | running | stopping
  deriving DecidableEq, Repr

/-- Where a frame task stands in the current pound (R31, R49). -/
inductive Phase where
  | joining (ticks : Nat)
  | waiting
  | active
  | completed
  | abandoned
  deriving DecidableEq, Repr

structure Task where
  args    : AdmitArgs
  phase   : Phase := .waiting
  leaving : Bool := false
  /-- The next start restarts from carry (R38). -/
  restart : Bool := true
  /-- The task has had its own first pound (R38). -/
  begun   : Bool := false
  credLeft : Nat := 0
  /-- The credits of the pound have run out (R48). -/
  credOut : Bool := false
  staged  : Nat := 0
  /-- A recovery restarts the bank: it starts in guarded mode (R171). -/
  guarded : Bool := false
  deriving DecidableEq, Repr

structure TStat where
  hwm       : Nat := 0
  abcnt     : Nat := 0
  lastcause : Nat := 0
  adm       : Bool := false
  credx     : Bool := false
  recdrop   : Nat := 0
  deriving DecidableEq, Repr

structure Weir where
  len       : Nat := 0
  din       : Nat := 200
  dout      : Nat := 0
  synlim    : Nat := 0
  tol       : Nat := 0
  outen     : Bool := false
  edge      : Bool := false
  src       : Bool := false
  earlycnt  : Nat := 0
  syncnt    : Nat := 0
  synrun    : Nat := 0
  firstEdge : Bool := true
  /-- A tick has taken place since the generator started: T of R23 exists. -/
  hasTick   : Bool := false
  ticking   : Bool := false
  pound     : BitVec 48 := 0
  elapsed   : Nat := 0
  /-- Periods that pass before the pound opened by an accepted TICK_IN edge begins (R388). -/
  lead      : Nat := 0
  lastLen   : Nat := 0
  runSt     : RunSt := .stopped
  first     : BitVec 48 := 0
  startIn   : Nat := 0
  stopCause : Nat := 0
  ccap      : Nat := 0
  cused     : Nat := 0
  recvol    : Nat := 0
  tasks     : List Task := []
  tstat     : SMap TStat := []
  deriving DecidableEq, Repr

/-! ### Towline hub (chapter 11) -/

/-- Link states (Table 11.3), in the order of their codes. -/
inductive LinkSt where
  | down | train | align | up | degraded
  deriving DecidableEq, Repr

/-- A READ or WRITE request awaiting its response (R257). -/
structure CtlReq where
  src      : Src
  seq      : BitVec 16
  attempts : Nat
  cell     : TxCell
  /-- Values that the answer carries: none for a WRITE. -/
  reads    : Nat
  deriving DecidableEq, Repr

structure Link where
  lcfg     : Val := 0
  st       : LinkSt := .down
  nrz      : Bool := false
  spuse    : Bool := false
  spfail   : Bool := false
  faillane : Nat := 0
  failcnt  : Nat := 0
  alarm    : BitVec 16 := 0
  spound   : BitVec 16 := 0
  dbulk    : BitVec 32 := 0
  festat   : BitVec 8 := 0
  crcerr   : Nat := 0
  fecunc   : Nat := 0
  late     : Nat := 0
  stale    : Nat := 0
  early    : Nat := 0
  ctlretry : Nat := 0
  drvdisc  : Nat := 0
  calmis   : Bool := false
  rtt      : Int := 0
  err      : Int := 0
  /-- Lane at each position, in position order. -/
  map      : List Nat := []
  /-- Position awaiting the re-stripe; and whether the LANEMAP request has been sent (R239). -/
  restripe : Option (Nat × Bool) := none
  waitq    : List TxCell := []
  drvSent  : Bool := false
  lastLock : Option (BitVec 16) := none
  earlyRun : Nat := 0
  earlyNow : Bool := false
  ctlSeq   : BitVec 16 := 0
  ctl      : Option CtlReq := none
  safePos  : Option Nat := none
  /-- Groups whose abort has named this link (R264). -/
  aborted  : BitVec 4 := 0
  /-- A task that writes the link was withdrawn for a POISON word in its carry area: HOLD from then on (R38). -/
  lost     : Bool := false
  /-- Cell slots of the link that have passed since it trained (R237). -/
  slots    : Nat := 0
  bulkUp   : Nat := 0
  bulkDn   : Nat := 0
  /-- BULKCRED of this pound's TICK cell (R259). -/
  bulkCred : Nat := 0
  deriving DecidableEq, Repr

/-- Lane status codes are those of TWL_LANE[m].ST (Table 11.16). -/
structure Lane where
  st      : Nat := 0
  los     : Bool := false
  cdrlk   : Bool := false
  feclk   : Bool := false
  link    : Nat := 0
  feccorr : Nat := 0
  fecunc  : Nat := 0
  /-- TXOFS and RXOFS in force since the link last entered ALIGN (R367). -/
  ofs     : Val := 0
  deriving DecidableEq, Repr

/-- Reception of one pound of a SAMPLE stream (R252, R402): cells delivered so far, later cells held, the bytes
delivered (for a logged stream). -/
structure RxPound where
  pound : BitVec 48
  next  : Nat := 0
  got   : SMap (List Byte) := []
  log   : List Byte := []
  deriving DecidableEq, Repr

structure Stream where
  scfg   : Val := 0
  sgeom  : Val := 0
  sbase  : Val := 0
  sstat  : Val := 0
  rx     : List RxPound := []
  /-- The last four status entries: pound and word 1, newest first (Table 11.8); and the last pound closed. -/
  ents   : List (BitVec 48 × Val) := []
  closed : Option (BitVec 48) := none
  stale  : Bool := false
  stag   : List Byte := []
  opened : Bool := false
  bulkIx : Nat := 0
  /-- The last channel that held the stream (R277). -/
  holder : Option ChanId := none
  deriving DecidableEq, Repr

structure Towline where
  links   : SMap Link := []
  lanes   : SMap Lane := []
  streams : SMap Stream := []
  deriving DecidableEq, Repr

/-! ### Sill guard (chapter 12) -/

structure Entry where
  w0 : Val := 0
  w1 : Val := 0
  deriving DecidableEq, Repr

/-- A channel's persistence state (R262). -/
structure ChanSt where
  count : Nat := 0
  spent : Bool := false
  /-- The previous received sample: pound, instant within it, and the element. -/
  prev  : Option (Nat × Nat × BitVec 32) := none
  /-- The pound in which the entry last fired. -/
  fired : Option (BitVec 48) := none
  deriving DecidableEq, Repr

structure Prof where
  frames : Nat := 0
  nval   : Nat := 0
  bytes  : List Byte := []
  deriving DecidableEq, Repr

structure Sill where
  armed   : Bool := false
  cfgcrc  : BitVec 32 := 0
  aborted : BitVec 4 := 0
  permit  : Bool := false
  abin    : Bool := false
  about   : Bool := false
  src     : Nat := 0
  lastPound  : BitVec 16 := 0
  lastCause  : BitVec 3 := 0
  lastAction : BitVec 3 := 0
  lastChan   : BitVec 14 := 0
  fires   : Nat := 0
  aborts  : Nat := 0
  entsel  : BitVec 14 := 0
  grp     : SMap Val := []
  entries : SMap Entry := []
  chan    : SMap ChanSt := []
  prof    : SMap Prof := []
  /-- Groups whose abort latched last, and the period of it (R265). -/
  fresh   : Option (Nat × BitVec 4) := none
  /-- The last nonce issued and not yet used, and whether a GUARD_LOAD has completed since (R270). -/
  nonce   : Option (BitVec 32) := none
  loaded  : Bool := false
  deriving DecidableEq, Repr

/-! ### Sluice (chapter 13) -/

/-- Channel states (Table 13.1), in the order of their codes. -/
inductive ChSt where
  | idle | wait | active | retry | parked | ended | stopped | halted
  deriving DecidableEq, Repr

/-- Words 0 to 6 of a loaded descriptor and, for a shadow, its word 7 (Table 13.2, R287). -/
structure Desc where
  w0 : Val
  w1 : Val
  w2 : Val
  w3 : Val
  w4 : Val
  w5 : Val
  w6 : Val
  w7 : Val
  deriving DecidableEq, Repr

structure Chan where
  en      : Bool := false
  cls     : Bool := false
  arm     : Bool := false
  prio    : BitVec 3 := 0
  st      : ChSt := .idle
  shadowTaken : Bool := false
  cut     : Bool := false
  trigovf : Bool := false
  shdrej  : Bool := false
  shcnt   : Nat := 0
  resign  : Nat := 0
  sdisc   : Nat := 0
  cmdign  : Nat := 0
  attempt : Nat := 0
  curShd  : Bool := false
  curAddr : Nat := 0
  parkV   : Bool := false
  parkAddr : Nat := 0
  done    : Nat := 0
  /-- SLU_CRC (R284). -/
  crc     : BitVec 32 := 0
  errV    : Bool := false
  errAtt  : Nat := 0
  errSide : Nat := 0
  errCode : Nat := 0
  errKind : Nat := 0
  errAddr : Nat := 0
  shd     : SMap Val := []
  desc    : Option Desc := none
  latch   : Bool := false
  halfDone : Bool := false
  /-- The last access of a descriptor, or of the iteration at which a shadow cuts it, has been issued; the shadow it took (R286). -/
  atPoint : Bool := false
  taken    : Option Desc := none
  /-- The unit at which a taken shadow cuts the descriptor; bytes of the CRC of CRCM = 1 that have been written (R285 to R287). -/
  cutAt    : Option Nat := none
  crcDone  : Nat := 0
  /-- A stop lets the channel go as far as unit `stopAt` (R292). -/
  stopping : Bool := false
  stopAt   : Nat := 0
  bl16stop : Bool := false
  /-- An error found by a beat, to be acted on by CHANNEL_HALT: code, side, kind, address (R295). -/
  failed  : Option (Nat × Nat × Nat × Nat) := none
  inbuf   : List Byte := []
  /-- Units performed (bytes, or words in word mode), those of an element not yet whole, the staging buffer behind them, the line last read, the address and length of the
  host read outstanding, and the element that cannot be read with its error (R272, R277, R278, R295). -/
  wr       : Nat := 0
  part     : List Word := []
  stage    : List Word := []
  held     : Option (Nat × List Word) := none
  req      : Option (Nat × Nat) := none
  stuck    : Option (Nat × Nat × Nat × Nat × Nat) := none
  /-- At the last burst boundary: units performed, the CRC, and the stream bytes taken since (R272, R296). -/
  burst    : Nat := 0
  burstCrc : BitVec 32 := 0
  burstIn  : List Byte := []
  /-- The tail that CRCM = 3 compares with, once read (R285). -/
  tail     : List Byte := []
  deriving DecidableEq, Repr

structure Sluice where
  bl16     : Bool := false
  retrymax : BitVec 3 := 3
  bl16halt : Bool := false
  echanv   : Bool := false
  echan    : Nat := 0
  ecode    : Nat := 0
  grefused : Nat := 0
  timers   : SMap Val := []
  chans    : SMap Chan := []
  rrT      : Nat := 63
  rrB      : Nat := 63
  curB     : Option ChanId := none
  deriving DecidableEq, Repr

/-! ### Manifest (chapter 14) -/

inductive ManSt where
  | closed | opened | restored | flushing | lost
  deriving DecidableEq, Repr

/-- An entry of the host ring (R307): a record, or a PAD when `record` is none. -/
structure Placed where
  msn : Nat
  rbp : Nat
  len : Nat
  record : Option Record
  deriving DecidableEq, Repr

/-- What a commit has placed and its commit word will make accepted (R304). -/
structure Commit where
  next   : Nat
  rbp    : Nat
  placed : List Placed
  deriving DecidableEq, Repr

/-- Totals of refused records since the last REFUSED record (R315). -/
structure Refusals where
  firstP : Val := 0
  lastP  : Val := 0
  laneN  : Nat := 0
  laneB  : Nat := 0
  taskN  : Nat := 0
  taskB  : Nat := 0
  protN  : Nat := 0
  protB  : Nat := 0
  deriving DecidableEq, Repr

/-- The manifest's retained setup and sequence: what the commit word and the ring configuration hold (R304, R317). -/
structure Manifest where
  en       : Bool := false
  sz       : Nat := 0
  thresh   : Nat := 0
  ring     : Nat := 0
  ptaddr   : Nat := 0
  next     : Nat := 1
  rbp      : Nat := 0
  pt       : Nat := 0
  ptRbp    : Nat := 0
  durable  : Nat := 0
  durEnd   : Nat := 0
  /-- Commits performed since a fresh setup: the commit count of the commit word (R317). -/
  commits  : Nat := 0
  st       : ManSt := .closed
  refusing : Bool := false
  durbad   : Nat := 0
  bgdrop   : Nat := 0
  ref      : Refusals := {}
  staged   : List Record := []
  /-- Staged records that are not yet words of the staging area, and the part of the area that the pound's records have taken (R303,
  R316). -/
  toStore  : List Record := []
  stageFrom : Nat := 0
  stageNext : Nat := 0
  /-- Bytes of lockkeeper records staged in this pound, and type and words of records held for a later pound (R303). -/
  lkBytes  : Nat := 0
  lkHeld   : List (Nat × List Word) := []
  inCommit : Option Commit := none
  backlog  : List Placed := []
  written  : Nat := 0
  flushSeq : Nat := 0
  flushArea : Nat := 0
  /-- Area of the flush in progress, as MAN_FLUSH.AREA codes it; 0 once its die has failed (R319). -/
  target   : Nat := 0
  deriving DecidableEq, Repr

/-! ### Event router, mailbox, lockkeeper (chapters 07, 15, 16) -/

structure Evt where
  badwr    : Nat := 0
  raiseign : Nat := 0
  pend     : SMap Val := []
  route    : SMap Val := []
  /-- Last level of each level source (R182). -/
  lvl      : SMap Bool := []
  /-- MSI-X messages and lockkeeper deliveries owed, in order (R181, R185). -/
  owed     : List Nat := []
  deriving DecidableEq, Repr

/-- A command slot as the lockkeeper copied it (R325). -/
structure SlotCopy where
  slot    : Nat
  op      : Nat
  tag     : BitVec 32
  outAddr : BitVec 64
  outLen  : Nat
  /-- The ARGLEN bytes of ARGS in use. -/
  args    : List Byte
  deriving DecidableEq, Repr

/-- A posted write of the host (R331). -/
inductive HostPost where
  | bar2 (off : Nat) (bytes : List Byte)
  | reg (off size : Nat) (v : Val)
  /-- A byte of a command slot that is not enabled is none (R325). -/
  | slot (k off : Nat) (bytes : List (Option Byte))
  | prio (op : Nat) (tag : BitVec 32) (groups : BitVec 8)
  | durable (v : Val)
  deriving DecidableEq, Repr

structure Mbx where
  en       : Bool := false
  rspirq   : Bool := false
  rspvec   : BitVec 8 := 0
  dbign    : Nat := 0
  slotwr   : Nat := 0
  slotbusy : BitVec 32 := 0
  rspbase  : Val := 0
  log2n    : BitVec 4 := 0
  head     : BitVec 32 := 0
  tail     : BitVec 32 := 0
  rsptaddr : Val := 0
  winsel   : SMap (BitVec 3) := []
  pcount   : BitVec 32 := 0
  pstatus  : Nat := 0
  pop      : Nat := 0
  slots    : SMap Byte := []
  queue    : List SlotCopy := []
  rspWait  : List Response := []
  halted   : Bool := false
  bar2     : SMap Byte := []
  /-- Inbound staging of BAR_2 writes not yet drained, oldest first; and the posted writes that wait for credit behind a full
  staging (R331). -/
  staging  : List (Nat × List Byte) := []
  held     : List HostPost := []
  /-- MSI-X table, two words an entry, and pending bit array (R185, R322). -/
  msix     : SMap Val := []
  pba      : BitVec 256 := 0
  deriving DecidableEq, Repr

/-- A TASK_MSG awaiting its reply (R335). -/
structure Msg where
  src  : Src
  tag  : BitVec 32
  id   : Nat
  left : Nat
  deriving DecidableEq, Repr

/-- A mailbox result staged by a frame task until the commit (R28, R335); E_ABANDONED once its task is abandoned (R31). -/
structure StagedReply where
  id      : Nat
  hostTag : BitVec 32
  words   : List Word
  pound   : BitVec 48
  abandoned : Bool
  deriving DecidableEq, Repr

inductive LkSt where
  | booting | ready | restarting | flushing | failed
  deriving DecidableEq, Repr

/-- A command that responds later: at a tick, after a restart, or on an answer (R326). -/
structure Deferred where
  src  : Src
  op   : Nat
  unit : Nat
  deriving DecidableEq, Repr

/-- A failed core that takes its cluster's spare, and the instant of its declaration (R348). -/
structure Claim where
  core    : CoreId
  pound   : BitVec 48
  elapsed : Nat
  deriving DecidableEq, Repr

structure Lk where
  st      : LkSt := .booting
  step    : Nat := 0
  patch   : Nat := 0
  heart   : Nat := 0
  romver  : BitVec 16 := 0x0100
  degrade : Bool := false
  autorun : Bool := false
  /-- The policy as read at RUN_START (Table 16.3). -/
  runDegrade : Bool := false
  runAutorun : Bool := false
  allocs  : List (Nat × Nat) := []
  msgs    : List Msg := []
  replies : List StagedReply := []
  snap    : SMap BankCtx := []
  cxd     : SMap Val := []
  /-- The customer image's bytes (R229) and the patch payload's bytes in force (R227). -/
  image   : List Byte := []
  patchBytes : List Byte := []
  patchSeq : Nat := 0
  sram    : SMap Byte := []
  /-- Spare of each cluster: true once it serves an identity (R344, R348). -/
  spareUsed : BitVec 8 := 0
  restarting : BitVec 8 := 0
  /-- Trigger of each cluster restart in progress (R350). -/
  trigger : SMap Nat := []
  lostCores : BitVec 64 := 0
  /-- Failed cores that are to have their cluster's spare (R344, R348), and cores stopped in guarded mode during a run whose tasks are not
  yet withdrawn (R342). -/
  claims  : List Claim := []
  lockups : BitVec 64 := 0
  /-- Trigger of the warm restart in progress, whether it has begun again, and whether AUTORUN applies (R354, R355). -/
  warm    : Option Nat := none
  warmAgain : Bool := false
  autoPending : Bool := false
  /-- DEVICE_RESET answered after the restart; the source of the last RUN_START in a trigger. -/
  deferred : List Deferred := []
  /-- Inbox entries kept until a core's inbox of 4 has room (R340). -/
  tpWait  : List (CoreId × List Word) := []
  /-- Boot arguments in force while a boot is held or running (R361, R392). -/
  bootHeld : Bool := false
  bootStop : Bool := false
  bootCause : Nat := 0
  challenge : Option (List Byte) := none
  /-- The source served last: 0 the host, 1 + n CORE[n] (R326). -/
  turn    : Nat := 64
  /-- The arguments of the command last taken, as the lockkeeper read them: ARGS of a slot, or the words of an argument block
  (R325, R339). -/
  argBytes : List Byte := []
  argWords : List Word := []
  deriving DecidableEq, Repr

/-! ### Power, vault, black box, debug, pins (chapters 10, 16 to 18) -/

structure Pwr where
  on     : BitVec 240 := 0
  busy   : BitVec 240 := 0
  /-- Direction of a transition in progress, and the last request that waits behind it (R371). -/
  toOn   : BitVec 240 := 0
  want   : SMap (Option Bool) := []
  count  : Nat := 0
  dom    : Nat := 0
  reason : Nat := 0
  deriving DecidableEq, Repr

/-- A calibration set (Table 17.3), fields in physical form. -/
structure CalSet where
  bytes : List Byte
  wrcnt : Nat
  crc   : BitVec 32
  deriving DecidableEq, Repr

/-- A patch bundle as stored in a slot (Table 10.5). -/
structure Bundle where
  seq   : Nat
  bytes : List Byte
  deriving DecidableEq, Repr

/-- The boot and patch partition (R228, R316, R365): bundle slots and floor, instance counter, boot count, serial number. -/
structure BootPart where
  slotA     : Option Bundle := none
  slotB     : Option Bundle := none
  floor     : Nat := 0
  instance_ : BitVec 32 := 0
  boots     : Nat := 0
  serial    : Val := 0
  deriving DecidableEq, Repr

/-- A copy of it, with its write count (R361). -/
structure BootCopy where
  part   : BootPart := {}
  writes : Nat := 0
  deriving DecidableEq, Repr

/-- A manifest flush image (R318, R319). -/
structure Image where
  seq : Nat
  man : Manifest
  /-- Base of the mirrored region (MEM_MIRCTL), and the words of the backlog store as they were read from it. -/
  mirBase : Nat
  store : List (Nat × Word)
  deriving DecidableEq, Repr

/-- A black-box entry (Table 16.5): RTIME is `boots` and `micros`; the CRC follows from the rest. -/
structure BbxEntry where
  index : Nat
  when_ : Val
  boots : Nat
  /-- Microseconds since power good. -/
  micros : Nat
  code  : Nat
  unit  : Nat
  count : Nat
  data  : List Nat
  deriving DecidableEq, Repr

/-- The dies (Table 17.2): copies 0 and 1 of the boot and patch partition and of the calibration set lie on dies 0 and 1; a failed die
holds none. -/
structure Vault where
  boot0    : Option BootCopy := some {}
  boot1    : Option BootCopy := some {}
  cal0     : Option CalSet := none
  cal1     : Option CalSet := none
  /-- The bundle slot in use: 1 A, 2 B, 0 neither. -/
  inUse    : Nat := 0
  user     : SMap Byte := []
  area0    : Option Image := none
  area1    : Option Image := none
  /-- Flush areas whose erase is in progress (R319, R320). -/
  erasing  : BitVec 2 := 0
  failed   : BitVec 4 := 0
  deriving DecidableEq, Repr

structure Bbx where
  /-- The programmed entries, as copies 0 and 1 on dies 0 and 1 hold them, and which copies are held (R356, Table 17.2). -/
  copy0   : List BbxEntry := []
  copy1   : List BbxEntry := []
  dies    : BitVec 2 := 3
  queued  : List BbxEntry := []
  nextIx  : Nat := 0
  oldest  : Nat := 0
  deriving DecidableEq, Repr

/-- The SMBus target: its strap as read at power good, and the snapshot it answers from (R338). -/
structure Smb where
  strap   : BitVec 2 := 0
  state   : List Byte := []
  pound   : Val := 0
  next    : Nat := 0
  durable : Nat := 0
  thermal : List Byte := List.replicate 34 0
  bbx     : Val := 0
  id      : Val := 0
  deriving DecidableEq, Repr

/-- Calibration in force (Table 17.5). -/
structure Cal where
  valid  : Bool := false
  bytes  : List Byte := []
  wrcnt  : Nat := 0
  crc    : BitVec 32 := 0
  factory : Bool := false
  copies : BitVec 2 := 0
  /-- TICKOUT and TICKIN apply from the next completed POUND_CONFIG (R367). -/
  tickOut : BitVec 32 := 0
  tickIn  : BitVec 32 := 0
  deriving DecidableEq, Repr

structure Dbg where
  level  : BitVec 2 := 0
  armed  : Bool := false
  frozen : Bool := false
  held   : Bool := false
  igncnt : Nat := 0
  /-- The period in which the part froze, and whether the PCI Express link was up (R391). -/
  since  : Option (Nat × Bool) := none
  /-- The PCI Express group was reset while the part was frozen: the lockkeeper writes the entry once it runs again. -/
  regroup : Bool := false
  /-- Register writes held at the crossing into a block whose clock is stopped (R372). -/
  crossing : List (Requester × Nat × Val) := []
  deriving DecidableEq, Repr

/-- States of the test access port, as IEEE 1149.1 names them (log 66). -/
inductive TapSt where
  | reset | idle | selDr | captureDr | shiftDr | exit1Dr | pauseDr | exit2Dr | updateDr
  | selIr | captureIr | shiftIr | exit1Ir | pauseIr | exit2Ir | updateIr
  deriving DecidableEq, Repr

/-- The test access port (R377, R386): its state, the instruction shifted in and the one in force, boundary cells by ball. -/
structure Tap where
  st    : TapSt := .reset
  next  : TapInstr := .idcode
  ir    : TapInstr := .idcode
  cells : List (Ball × Bool) := []
  deriving DecidableEq, Repr

/-- Power-fail flush (Table 14.5, R392). -/
inductive FlushSt where
  | none | flushing | done
  deriving DecidableEq, Repr

structure Pins where
  pwrOk    : Bool := false
  perst    : Bool := true
  abortIn  : Bool := false
  freezeN  : Bool := false
  pfailN   : Bool := false
  thermtrip : Bool := false
  linkUp   : Bool := false
  width    : Nat := 16
  speed    : Nat := 32
  flush    : FlushSt := .none
  /-- Sensors and monitors whose limit entry has been written in this pound (R396). -/
  limited  : BitVec 28 := 0
  /-- Periods of 10 ns since the boot began (Table 16.5). -/
  since    : Nat := 0
  /-- The period in which a power failure, a warm restart or a freeze stopped the engines, and the manifest's state before it (R30). -/
  stopAt   : Option (Nat × ManSt) := none
  /-- PWR_OK has fallen since the thermal trip (R396). -/
  tripFell : Bool := false
  /-- PWR_OK rose with a monitor out of range (R384). -/
  railBad  : Bool := false
  /-- What the board and the boot found at the last start: used by a cold start that no power good brings (log 36). -/
  boot     : BootArgs := ⟨true, false, true, 16, 0, 3, 0, 3, true⟩
  tap      : Tap := {}
  deriving DecidableEq, Repr

/-- The calibration set as written at manufacture: FACTORY set, WRCNT 0, serial number and every trim 0 (R366, log 4). -/
def factoryBody : List Byte := [0x43, 0x41, 0x4C, 0x53, 1, 0, 1, 0] ++ List.replicate 500 0
def factoryCal : CalSet := ⟨factoryBody ++ leBytes 4 (crc32c factoryBody).toNat, 0, crc32c factoryBody⟩

/-- The whole block. -/
structure State where
  pending : List Instr
  free    : Nat
  out     : List Out
  mem     : SMap Word
  dir     : SMap DirEntry
  cores   : SMap Core
  banks   : SMap Bank
  l2      : SMap L2
  memc    : MemCtl
  weir    : Weir
  twl     : Towline
  sil     : Sill
  slu     : Sluice
  man     : Manifest
  evt     : Evt
  mbx     : Mbx
  lk      : Lk
  pwr     : Pwr
  cal     : Cal
  vault   : Vault
  bbx     : Bbx
  dbg     : Dbg
  pins    : Pins
  smb     : Smb
  deriving DecidableEq, Repr

/-- The device in reset, before power good: every register at its reset value, every sparse map empty, the queue empty
(R78, R86, R187 and the reset columns of every field map; values the spec does not give are in log 4). -/
def State.reset : State where
  pending := []
  free := 0
  out := []
  mem := []
  dir := []
  cores := []
  banks := []
  l2 := []
  memc := {}
  weir := {}
  twl := {}
  sil := {}
  slu := {}
  man := {}
  evt := {}
  mbx := {}
  lk := {}
  pwr := {}
  cal := {}
  vault := { cal0 := some factoryCal, cal1 := some factoryCal }
  bbx := {}
  dbg := {}
  pins := {}
  smb := {}

end Sys2Proof.Machine
end

