-- ==== Sys2Proof/Machine/Words.lean ====
section
/-!
DEFINITION. Tag values (Table 3.2), the words built from them, trap causes (Tables 7.3, 7.5, 8.7) and error codes
(Table 15.10).
-/

namespace Sys2Proof.Machine

/-! ### Tags -/

def tUNBOUND : Tag := 0x00
def tNIL : Tag := 0x01
def tTRUE : Tag := 0x02
def tCHAR : Tag := 0x03
def tFIX : Tag := 0x04
def tFLT : Tag := 0x05
def tMEAS : Tag := 0x06
def tTIME : Tag := 0x07
def tCONS : Tag := 0x10
def tGATE : Tag := 0x16
def tCREF : Tag := 0x17
def tHDR : Tag := 0x20
def tFWD : Tag := 0x21
def tRAWD : Tag := 0x22
def tCODE : Tag := 0x30
def tPTE : Tag := 0x31
def tDESC : Tag := 0x32
def tPOISON : Tag := 0x3F

def wNil : Word := ⟨tNIL, 0⟩
def wTrue : Word := ⟨tTRUE, 0⟩
def wBool (b : Bool) : Word := if b then wTrue else wNil
def fix (v : Val) : Word := ⟨tFIX, v⟩
def fixN (n : Nat) : Word := fix (BitVec.ofNat 64 n)
def fixI (i : Int) : Word := fix (BitVec.ofInt 64 i)
/-- CREF of a parcel address (R87). -/
def cref (p : BitVec 62) : Word := ⟨tCREF, p.setWidth 64⟩
def rawd (v : Val) : Word := ⟨tRAWD, v⟩

/-- A POISON word (Table 3.16). -/
def poison (origin pa : Nat) : Word := ⟨tPOISON, put origin 56 8 ||| put pa 0 36⟩

def isPoison (w : Word) : Bool := w.tag == tPOISON
def isFix (w : Word) : Bool := w.tag == tFIX
/-- Heap pointer tags 10h to 15h (R60). -/
def isHeap (w : Word) : Bool := decide (0x10 ≤ w.tag.toNat) && decide (w.tag.toNat ≤ 0x15)
/-- Space number of a heap pointer, of a base register or of ALLOC (Table 3.3). -/
def spaceOf (v : Val) : Nat := fld v 60 4
/-- Bits 59:0: a virtual word address. -/
def vaOf (v : Val) : Nat := fld v 0 60

/-- Reserved tags (R57). -/
def reservedTag (t : Tag) : Bool :=
  let n := t.toNat
  (0x08 ≤ n && n ≤ 0x0F) || (0x18 ≤ n && n ≤ 0x1F) || (0x23 ≤ n && n ≤ 0x2F) || (0x33 ≤ n && n ≤ 0x3E)
    || (0x40 ≤ n && n ≤ 0x7F) || 0xC0 ≤ n

/-- Customer tags 80h to BFh (Table 3.2). -/
def customerTag (t : Tag) : Bool := 0x80 ≤ t.toNat && t.toNat ≤ 0xBF

/-- The highest-numbered ring that may create a listed tag with SETTAG; none for CODE (Table 3.2). -/
def setTagRing (t : Tag) : Option Nat :=
  if t == tCODE then none
  else if t == tGATE || t == tPTE || t == tDESC || t == tPOISON then some 0
  else if (0x10 ≤ t.toNat && t.toNat ≤ 0x17) || t == tHDR || t == tFWD then some 1
  else some 3

/-- A CHAR whose value is not a Unicode scalar value (R59). -/
def malformedChar (w : Word) : Bool :=
  w.tag == tCHAR && (decide (0x10FFFF < w.val.toNat) || (decide (0xD800 ≤ w.val.toNat) && decide (w.val.toNat ≤ 0xDFFF)))

/-! Fields of MEAS (Table 3.7) -/

def measValue (v : Val) : Nat := fld v 32 32
def measQual (v : Val) : Nat := fld v 24 8
def measChan (v : Val) : Nat := fld v 0 24
def meas (value qual chan : Nat) : Word := ⟨tMEAS, put value 32 32 ||| put qual 24 8 ||| put chan 0 24⟩
def derived : Nat := 0xFFFFFF

/-- A MEAS whose quality code is 6 or above (R64). -/
def malformedMeas (w : Word) : Bool := w.tag == tMEAS && decide (6 ≤ measQual w.val)

def malformed (w : Word) : Bool := malformedChar w || malformedMeas w

/-- Byte k of a RAWD word (R66). -/
def byteOf (v : Val) (k : Nat) : Byte := BitVec.ofNat 8 (fld v (8 * k) 8)

/-- Replace byte k of a RAWD word (R66). -/
def setByte (v : Val) (k : Nat) (b : Byte) : Val := setFld v (8 * k) 8 b.toNat

/-! ### Trap causes -/

inductive Cause where
  | event | type | ovf | quality
  | alloc | cardTag | rbLarge | rbNospace | rbHdr | rbChain
  | illegalOp | privOp | privCreg | privTag | privWsel | codeLoad | gateTag | gateRing | privTret | privRetg
  | addrRange | zlineDevice | walkDevice | walkTag | notValid | rights | user | ad | fetchTag | physAbsent | deviceOp
  | walkFormat
  | vecUnavail | budget | wovf | spillFull | wunf | stackEmpty | tstackLow
  | poisonUse | walkPoison | escalated | vector | stkLimit | stkFault
  deriving DecidableEq, Repr

/-- Cause codes (Table 7.5, Table 8.7). -/
def Cause.code : Cause → Nat
  | .event => 0x01 | .type => 0x04 | .ovf => 0x05 | .quality => 0x06
  | .alloc => 0x10 | .cardTag => 0x11 | .rbLarge => 0x12 | .rbNospace => 0x13 | .rbHdr => 0x14 | .rbChain => 0x15
  | .illegalOp => 0x20 | .privOp => 0x21 | .privCreg => 0x22 | .privTag => 0x23 | .privWsel => 0x24
  | .codeLoad => 0x25 | .gateTag => 0x26 | .gateRing => 0x27 | .privTret => 0x28 | .privRetg => 0x29
  | .addrRange => 0x30 | .zlineDevice => 0x31 | .walkDevice => 0x32 | .walkTag => 0x33 | .notValid => 0x34
  | .rights => 0x35 | .user => 0x36 | .ad => 0x37 | .fetchTag => 0x38 | .physAbsent => 0x39 | .deviceOp => 0x3A
  | .walkFormat => 0x3B
  | .vecUnavail => 0x40 | .budget => 0x48 | .wovf => 0x49 | .spillFull => 0x4A | .wunf => 0x4B
  | .stackEmpty => 0x4C | .tstackLow => 0x4D
  | .poisonUse => 0x50 | .walkPoison => 0x51 | .escalated => 0x52 | .vector => 0x53 | .stkLimit => 0x54
  | .stkFault => 0x55

/-- Mask level of a synchronous or pended cause (Table 7.3); an event takes the level of its route. -/
def Cause.level : Cause → Nat
  | .event => 0
  | .type | .ovf | .quality => 4
  | .alloc | .cardTag | .rbLarge | .rbNospace | .rbHdr | .rbChain => 10
  | .illegalOp | .privOp | .privCreg | .privTag | .privWsel | .codeLoad | .gateTag | .gateRing | .privTret
  | .privRetg => 11
  | .addrRange | .zlineDevice | .walkDevice | .walkTag | .notValid | .rights | .user | .ad | .fetchTag | .physAbsent
  | .deviceOp | .walkFormat => 12
  | .vecUnavail => 13
  | .budget | .wovf | .spillFull | .wunf | .stackEmpty | .tstackLow => 14
  | .poisonUse | .walkPoison | .escalated | .vector | .stkLimit | .stkFault => 15

/-- Table ring (Table 7.3); level 4 goes to the faulting ring, level 10 to ring 1, the rest to ring 0. -/
def Cause.ring (c : Cause) (cur : Nat) : Nat :=
  if c.level = 4 then cur else if c.level = 10 then 1 else 0

/-- A trap raised by an instruction, step or transfer: its cause and the words for t3 and t4, none where the spec states
none (a free value, log 3). -/
structure Trap where
  cause : Cause
  t3    : Option Word := none
  t4    : Option Word := none
  deriving DecidableEq, Repr

/-! ### Error codes -/

inductive Err where
  | ok | badOp | arg | argCrc | notReady | denied | tag | runActive | abandoned | busy | noMem | auth | taskTimeout
  | poundParam | admitParam | admitPrio | admitDeadline | admitCredit | admitRate | admitLink
  | linkParam | linkRate | feTimeout | guardArmed | guardParam | guardNonce | guardUnarmed
  | manRing | manParam | manBusy | manClosed | patchFail | ucodeInvalid | vault
  deriving DecidableEq, Repr

def Err.code : Err → Nat
  | .ok => 0x00 | .badOp => 0x01 | .arg => 0x02 | .argCrc => 0x03 | .notReady => 0x04 | .denied => 0x05 | .tag => 0x06
  | .runActive => 0x07 | .abandoned => 0x08 | .busy => 0x09 | .noMem => 0x0A | .auth => 0x0B | .taskTimeout => 0x0C
  | .poundParam => 0x10 | .admitParam => 0x18 | .admitPrio => 0x19 | .admitDeadline => 0x1A | .admitCredit => 0x1B
  | .admitRate => 0x1C | .admitLink => 0x1D
  | .linkParam => 0x20 | .linkRate => 0x21 | .feTimeout => 0x22 | .guardArmed => 0x28 | .guardParam => 0x29
  | .guardNonce => 0x2A | .guardUnarmed => 0x2B
  | .manRing => 0x30 | .manParam => 0x31 | .manBusy => 0x32 | .manClosed => 0x33 | .patchFail => 0x38
  | .ucodeInvalid => 0x39 | .vault => 0x40

end Sys2Proof.Machine
end

