-- ==== Sys2Proof/Machine/Access.lean ====
section
/-!
DEFINITION. Every named part of the state behind one reader and one writer, time, free values, outputs, and the raw
registers that are packed from fields (PSW, WINPOS, SPILL and so on).
-/

namespace Sys2Proof.Machine

/-! ### Unlisted values: what a part reads as before anything has changed it -/

def coreD (k : Nat) : Core := { phys := k % 8 }
/-- Bank b leaves reset at priority b (R45, Table 7.12). -/
def bankD (k : Nat) : Bank := { x := { prio := BitVec.ofNat 3 k } }
def ctxD (k : Nat) : BankCtx := (bankD k).x
def l2D (_ : Nat) : L2 := {}
def linkD (_ : Nat) : Link := {}
def laneD (_ : Nat) : Lane := {}
def streamD (_ : Nat) : Stream := {}
def chanD (_ : Nat) : Chan := {}
def wordD (_ : Nat) : Word := unbound
def valD (_ : Nat) : Val := 0
def natD (_ : Nat) : Nat := 0
def byteD (_ : Nat) : Byte := 0
def boolD (_ : Nat) : Bool := false
def vecD (_ : Nat) : BitVec 512 := 0
def tstatD (_ : Nat) : TStat := {}
def entryD (_ : Nat) : Entry := {}
def chanStD (_ : Nat) : ChanSt := {}
def profD (_ : Nat) : Prof := {}
def eccD (_ : Nat) : EccCnt := {}
def wselD (_ : Nat) : BitVec 3 := 0
def wantD (_ : Nat) : Option Bool := none
def dirD (_ : Nat) : DirEntry := ⟨0, []⟩

/-! ### Cores and banks -/

/-- Index of bank b of core c; also the task id (Table 2.8). -/
def bk (c : CoreId) (b : Fin 8) : Nat := 8 * c.val + b.val

def coreOfId (k : Nat) : CoreId := ⟨k / 8 % 64, Nat.mod_lt _ (by decide)⟩
def bankOfId (k : Nat) : Fin 8 := ⟨k % 8, Nat.mod_lt _ (by decide)⟩

def State.coreOf (s : State) (c : CoreId) : Core := mget coreD s.cores c.val
def State.modCore (s : State) (c : CoreId) (f : Core → Core) : State :=
  { s with cores := mset coreD s.cores c.val (f (s.coreOf c)) }

def State.bankOf (s : State) (k : Nat) : Bank := mget bankD s.banks k
def State.modBank (s : State) (k : Nat) (f : Bank → Bank) : State :=
  { s with banks := mset bankD s.banks k (f (s.bankOf k)) }

/-- A bank's context. -/
def State.ctx (s : State) (k : Nat) : BankCtx := (s.bankOf k).x
def State.modCtx (s : State) (k : Nat) (f : BankCtx → BankCtx) : State :=
  s.modBank k fun b => { b with x := f b.x }

def clusterOf (c : CoreId) : ClusterId := ⟨c.val / 8, by omega⟩
def posOf (c : CoreId) : Nat := c.val % 8
/-- Cluster and position of a bank's core. -/
def clOf (k : Nat) : ClusterId := clusterOf (coreOfId k)
def posOfBank (k : Nat) : Nat := posOf (coreOfId k)
def coreAt (cl : ClusterId) (k : Fin 8) : CoreId := ⟨8 * cl.val + k.val, by omega⟩
def allCores : List CoreId := List.finRange 64
def allClusters : List ClusterId := List.finRange 8
def allBanks : List (Fin 8) := List.finRange 8
/-- The logical cores of a cluster. -/
def coresOf (cl : ClusterId) : List CoreId := (List.finRange 8).map (coreAt cl)

def State.l2Of (s : State) (cl : ClusterId) : L2 := mget l2D s.l2 cl.val
def State.modL2 (s : State) (cl : ClusterId) (f : L2 → L2) : State := { s with l2 := mset l2D s.l2 cl.val (f (s.l2Of cl)) }

/-! ### Links, lanes, streams, channels -/

def State.linkOf (s : State) (n : Nat) : Link := mget linkD s.twl.links n
def State.modLink (s : State) (n : Nat) (f : Link → Link) : State :=
  { s with twl := { s.twl with links := mset linkD s.twl.links n (f (s.linkOf n)) } }
def State.laneOf (s : State) (n : Nat) : Lane := mget laneD s.twl.lanes n
def State.modLane (s : State) (n : Nat) (f : Lane → Lane) : State :=
  { s with twl := { s.twl with lanes := mset laneD s.twl.lanes n (f (s.laneOf n)) } }
def State.streamOf (s : State) (k : Nat) : Stream := mget streamD s.twl.streams k
def State.modStream (s : State) (k : Nat) (f : Stream → Stream) : State :=
  { s with twl := { s.twl with streams := mset streamD s.twl.streams k (f (s.streamOf k)) } }
def State.chanOf (s : State) (c : Nat) : Chan := mget chanD s.slu.chans c
def State.modChan (s : State) (c : Nat) (f : Chan → Chan) : State :=
  { s with slu := { s.slu with chans := mset chanD s.slu.chans c (f (s.chanOf c)) } }

/-! ### Weir parts -/

def State.tstatOf (s : State) (id : Nat) : TStat := mget tstatD s.weir.tstat id
def State.modTstat (s : State) (id : Nat) (f : TStat → TStat) : State :=
  { s with weir := { s.weir with tstat := mset tstatD s.weir.tstat id (f (s.tstatOf id)) } }
/-- The admitted task with an id. -/
def State.taskOf (s : State) (id : Nat) : Option Task := s.weir.tasks.find? fun t => t.args.id.val = id
def State.modTask (s : State) (id : Nat) (f : Task → Task) : State :=
  { s with weir := { s.weir with tasks := s.weir.tasks.map fun t => if t.args.id.val = id then f t else t } }
/-- Whether a bank holds an admitted frame task. -/
def State.isFrame (s : State) (id : Nat) : Bool := (s.taskOf id).isSome

def State.sillOf (s : State) (g : Nat) : Val := mget valD s.sil.grp g

/-! ### Outputs, free values, time -/

/-- Something leaves the device. -/
def State.emit (s : State) (o : Out) : State := { s with out := o :: s.out }

/-- The next free value, and the state that has used it (log 3). -/
def State.fresh (s : State) : Val × State := (Config.freeVal s.free, { s with free := s.free + 1 })

/-- Elapsed fraction of the nominal P in units of 1/65,536, held at FFFFh past P (R26). -/
def State.frac (s : State) : Nat :=
  if s.weir.len = 0 then 0 else min (s.weir.elapsed * 65536 / s.weir.len) 0xFFFF

/-- A TIME value (Table 3.9). -/
def timeVal (pound : BitVec 48) (frac : Nat) : Val := put pound.toNat 16 48 ||| put frac 0 16

/-- TIME now, as WEI_POUNDNUM reads (R26, R65). -/
def State.now (s : State) : Val := timeVal s.weir.pound s.frac

def timeW (v : Val) : Word := ⟨tTIME, v⟩

/-! ### Fields of packed bank registers -/

def pswRing (v : Val) : Nat := fld v 0 2
def pswMl (v : Val) : Nat := fld v 8 4
def pswQstrict (v : Val) : Bool := bit v 12
def pswGuard (v : Val) : Bool := bit v 16
def pswInlast (v : Val) : Bool := bit v 17
/-- Bits a PSW can hold: reserved fields read 0 (R8). -/
def pswMask : Val := 0x31F03

def winCur (v : Val) : Nat := fld v 0 3
def winRes (v : Val) : Nat := fld v 4 3
def winTw (v : Val) : Bool := bit v 7
def winSdepth (v : Val) : Nat := fld v 16 16
def winMask : Val := 0xFFFF00F7
/-- The bits that BASIN and ALIMIT hold (Tables 4.9 and 6.7, R8). -/
def basinMask : Val := ~~~0x1FF
def alimitMask : Val := 0x0FFFFFFFFFFFFFFF
def mkWin (cur res : Nat) (tw : Bool) (sdepth : Nat) : Val := put cur 0 3 ||| put res 4 3 ||| flag tw 7 ||| put sdepth 16 16

def Quad.get (q : Quad) : Nat → Val
  | 0 => q.q0 | 1 => q.q1 | 2 => q.q2 | _ => q.q3
def Quad.set (q : Quad) (n : Nat) (v : Val) : Quad :=
  match n with
  | 0 => { q with q0 := v } | 1 => { q with q1 := v } | 2 => { q with q2 := v } | _ => { q with q3 := v }

/-- TDEPTH.D[r] (Table 7.8). -/
def depthOf (v : Val) (r : Nat) : Nat := fld v (16 * r) 16

/-- BUDGET as MFC reads it (Table 2.6). -/
def budgetReg (x : BankCtx) : Val := flag x.isOver 63 ||| flag x.frame 62 ||| put x.grace 32 11 ||| put x.remain 0 32

def BankSt.code : BankSt → Nat | .idle => 0 | .ready => 1 | .running => 2 | .waite => 3 | .waitt => 4
def RunSt.code : RunSt → Nat | .stopped => 0 | .starting => 1 | .running => 2 | .stopping => 3
def LinkSt.code : LinkSt → Nat | .down => 0 | .train => 1 | .align => 2 | .up => 3 | .degraded => 4
def ChSt.code : ChSt → Nat
  | .idle => 0 | .wait => 1 | .active => 2 | .retry => 3 | .parked => 4 | .ended => 5 | .stopped => 6 | .halted => 7
def ManSt.code : ManSt → Nat | .closed => 0 | .opened => 1 | .restored => 2 | .flushing => 3 | .lost => 4
def LkSt.code : LkSt → Nat | .booting => 0 | .ready => 1 | .restarting => 2 | .flushing => 3 | .failed => 4

/-- Apply a state change to each element in turn. -/
def forEach {α : Type} (l : List α) (s : State) (f : State → α → State) : State := l.foldl f s

/-- Change the state only when a condition holds. -/
def State.when_ (s : State) (c : Bool) (f : State → State) : State := if c then f s else s

end Sys2Proof.Machine
end

