-- ==== Sys2Proof/Machine/CacheSets.lean ====
section
/-!
DEFINITION. The caches of a cluster as arrays of line addresses (Table 9.1, R202): sets with tree pseudo-LRU, the victim caches,
the L2 with its locked slots (R210, R211). Data is the coherent memory's; an array says which lines it holds.
-/

namespace Sys2Proof.Machine

/-! ### Tree pseudo-LRU over 2^d ways: node 1 is the root, node n has children 2n and 2n + 1, a set bit points right -/

/-- After a use of a way every node on its path points away from it. -/
def treeTouch (way : Nat) : Nat → Nat → BitVec 16 → BitVec 16
  | 0, _, t => t
  | d + 1, n, t => treeTouch way d (2 * n + (way.testBit d).toNat) (setBit t n !way.testBit d)

/-- The way the tree points to among those allowed, from `base`. -/
def treeVictim (t : BitVec 16) (ok : Nat → Bool) : Nat → Nat → Nat → Nat
  | 0, _, base => base
  | d + 1, n, base =>
    let has (b : Nat) : Bool := (List.range (2 ^ d)).any fun i => ok (base + b * 2 ^ d + i)
    let b := if bit t n then (if has 1 then 1 else 0) else if has 0 then 0 else 1
    treeVictim t ok d (2 * n + b) (base + b * 2 ^ d)

/-! ### A set -/

def csetD (_ : Nat) : CSet := {}
def victD (_ : Nat) : List Way := []
def flawD (_ : Nat) : BitVec 768 := 0

def CSet.find (c : CSet) (line : Nat) : Option Way := c.held.find? fun w => w.line == line
def CSet.drop (c : CSet) (line : Nat) : CSet := { c with held := c.held.filter fun w => w.line != line }
def CSet.mark (c : CSet) (line : Nat) (dirty : Bool) : CSet :=
  { c with held := c.held.map fun w => if w.line == line then { w with dirty := dirty } else w }
def CSet.touch (d : Nat) (c : CSet) (way : Nat) : CSet := { c with tree := treeTouch way d 1 c.tree }

/-- The way a miss fills: the lowest invalid one allowed, else the one the tree points to (log 60). -/
def CSet.pick (d : Nat) (c : CSet) (ok : Nat → Bool) : Nat :=
  match (List.range (2 ^ d)).find? fun w => ok w && !(c.held.any fun x => x.way == w) with
  | some w => w
  | none => treeVictim c.tree ok d 1 0

/-- Fill a way with a line; what it held goes. -/
def CSet.place (d : Nat) (c : CSet) (ok : Nat → Bool) (line : Nat) (dirty : Bool) : CSet × Option Way :=
  let w := c.pick d ok
  ({ held := (c.held.filter fun x => x.way != w) ++ [{ way := w, line := line, dirty := dirty }], tree := treeTouch w d 1 c.tree },
    c.held.find? fun x => x.way == w)

/-! ### The copies of a line in a cluster: place 0 is its L2 slot, 1 + p the L1 data or victim slot of position p, 9 + p its code slot -/

def copyKey (place line : Nat) : Nat := 17 * line + place
def keptD (_ : Nat) : List Word := []
def codeD (_ : Nat) : BitVec 8 := 0

def L2.flawAt (l : L2) (place line : Nat) : Nat := (mget flawD l.flaws (copyKey place line)).toNat
def L2.setFlawAt (l : L2) (place line f : Nat) : L2 := { l with flaws := mset flawD l.flaws (copyKey place line) (BitVec.ofNat 768 f) }
def L2.keptAt (l : L2) (place line : Nat) : List Word := mget keptD l.kept (copyKey place line)
def L2.setKept (l : L2) (place line : Nat) (ws : List Word) : L2 := { l with kept := mset keptD l.kept (copyKey place line) ws }
def L2.codeBadAt (l : L2) (pos line : Nat) : BitVec 8 := mget codeD l.codeBad (copyKey (9 + pos) line)

/-- A copy goes, with what its slot held. -/
def L2.forget (l : L2) (place line : Nat) : L2 :=
  { l with flaws := mset flawD l.flaws (copyKey place line) 0, kept := mset keptD l.kept (copyKey place line) [],
           codeBad := mset codeD l.codeBad (copyKey place line) 0 }

/-- Every copy of a line has the line's words again: one of them is modified. -/
def L2.unkeep (l : L2) (line : Nat) : L2 := { l with kept := l.kept.filter fun kw => kw.1 / 17 != line }

/-! ### The L1 and victim caches of the positions -/

/-- Key of the L1 set of a line at a position: physical word address bits 9:3 (Table 9.1). -/
def l1Key (pos line : Nat) : Nat := 128 * pos + line % 128

def L2.l1 (l : L2) (code : Bool) (pos line : Nat) : CSet := mget csetD (if code then l.l1c else l.l1d) (l1Key pos line)
def L2.setL1 (l : L2) (code : Bool) (pos line : Nat) (c : CSet) : L2 :=
  if code then { l with l1c := mset csetD l.l1c (l1Key pos line) c } else { l with l1d := mset csetD l.l1d (l1Key pos line) c }
def L2.victOf (l : L2) (pos : Nat) : List Way := mget victD l.vict pos
def L2.setVict (l : L2) (pos : Nat) (v : List Way) : L2 := { l with vict := mset victD l.vict pos v }

/-- Remove a line from the L1 and victim caches of a position. -/
def L2.shedAt (l : L2) (line pos : Nat) : L2 :=
  let l1 := if ((l.l1 false pos line).find line).isSome then l.setL1 false pos line ((l.l1 false pos line).drop line) else l
  let l2 := if ((l1.l1 true pos line).find line).isSome then l1.setL1 true pos line ((l1.l1 true pos line).drop line) else l1
  let l3 := if (l2.victOf pos).any fun w => w.line == line then l2.setVict pos ((l2.victOf pos).filter fun w => w.line != line) else l2
  (l3.forget (1 + pos) line).forget (9 + pos) line

/-- The L1 data or victim cache of a position holds a line. -/
def L2.inL1 (l : L2) (pos line : Nat) : Bool := ((l.l1 false pos line).find line).isSome || (l.victOf pos).any fun w => w.line == line
/-- It holds it modified. -/
def L2.dirtyL1 (l : L2) (pos line : Nat) : Bool :=
  ((l.l1 false pos line).find line).any Way.dirty || (l.victOf pos).any fun w => w.line == line && w.dirty

/-- The copy that delivers a line's data: the asking position's own, one modified at another position, else the L2's (R204). -/
def L2.source (l : L2) (pos : Option Nat) (line : Nat) : Nat :=
  match pos.filter fun p => l.inL1 p line with
  | some p => 1 + p
  | none => (((List.range 8).find? fun p => l.dirtyL1 p line).map (1 + ·)).getD 0

/-- Remove a line from the L1 and victim caches of every position but one. -/
def L2.shed (l : L2) (line : Nat) (keep : Option Nat) : L2 :=
  ((List.range 8).filter fun p => keep != some p).foldl (fun l p => l.shedAt line p) l

/-- A modified copy at another position gives its data to the L2 and stays, unmodified (R204). -/
def L2.share (l : L2) (line pos : Nat) : L2 :=
  ((List.range 8).filter (· != pos)).foldl (fun l p =>
    let l1 := if ((l.l1 false p line).find line).any Way.dirty then l.setL1 false p line ((l.l1 false p line).mark line false) else l
    if (l1.victOf p).any fun w => w.line == line && w.dirty then
      l1.setVict p ((l1.victOf p).map fun w => if w.line == line then { w with dirty := false } else w)
    else l1) l

/-- The lines a position holds modified in its L1 data and victim caches. -/
def L2.dirtyAt (l : L2) (pos : Nat) : List Nat :=
  ((l.l1d.filter fun kc => kc.1 / 128 == pos).flatMap fun kc => (kc.2.held.filter Way.dirty).map Way.line)
    ++ ((l.victOf pos).filter Way.dirty).map Way.line

/-- Empty the L1 data and victim caches of a position, its L1 code cache, or both. -/
def L2.emptyL1 (l : L2) (pos : Nat) (data code : Bool) : L2 :=
  { l with l1d := if data then l.l1d.filter fun kc => kc.1 / 128 != pos else l.l1d,
           vict := if data then mset victD l.vict pos [] else l.vict,
           l1c := if code then l.l1c.filter fun kc => kc.1 / 128 != pos else l.l1c,
           flaws := l.flaws.filter fun kx => !gone kx.1, kept := l.kept.filter fun kx => !gone kx.1,
           codeBad := l.codeBad.filter fun kx => !gone kx.1 }
where
  /-- The key is that of a copy which goes. -/
  gone (k : Nat) : Bool := (data && k % 17 == 1 + pos) || (code && k % 17 == 9 + pos)

/-- A line leaves a position to the L2; a modified one's data goes there with its check bits (R202, R204). -/
def L2.leave (l : L2) (pos : Nat) (w : Way) : L2 :=
  let l1 := l.forget (1 + pos) w.line
  if w.dirty && l.flawAt (1 + pos) w.line != 0 then l1.setFlawAt 0 w.line (l.flawAt (1 + pos) w.line) else l1

/-- Fill the L1 data cache of a position. The line it evicts moves to the victim cache, whose oldest line leaves to the L2 (R202). -/
def L2.fillL1d (l : L2) (pos line : Nat) (dirty : Bool) : L2 :=
  let (c, out) := (l.l1 false pos line).place 2 (fun _ => true) line dirty
  let l1 := l.setL1 false pos line c
  match out with
  | none => l1
  | some w =>
    let v := l1.victOf pos ++ [{ w with way := 0 }]
    (v.take (v.length - 16)).foldl (fun l w => l.leave pos w) (l1.setVict pos (v.drop (v.length - 16)))

/-- Fill the L1 code cache of a position; nothing there is ever modified. -/
def L2.fillL1c (l : L2) (pos line : Nat) : L2 :=
  let (c, out) := (l.l1 true pos line).place 2 (fun _ => true) line false
  let l1 := l.setL1 true pos line c
  match out with | none => l1 | some w => l1.forget (9 + pos) w.line

/-! ### The L2 -/

def L2.setOf (l : L2) (line : Nat) : CSet := mget csetD l.sets (line % 2048)
def L2.putSet (l : L2) (line : Nat) (c : CSet) : L2 := { l with sets := mset csetD l.sets (line % 2048) c }

/-- The locked slot that holds a line. -/
def L2.locked (l : L2) (line : Nat) : Option LockSlot := l.slots.find? fun k => k.line == line && !k.hole
/-- Whether the L2 holds a line. -/
def L2.holds (l : L2) (line : Nat) : Bool := (l.locked line).isSome || ((l.setOf line).find line).isSome

/-- A use of a line moves the tree of its set; a locked slot has no part in it. -/
def L2.use (l : L2) (line : Nat) : L2 :=
  match (l.setOf line).find line with
  | some w => l.putSet line ((l.setOf line).touch 4 w.way)
  | none => l

/-- The way of the slot that holds a line, 0 when none does. -/
def L2.wayOf (l : L2) (line : Nat) : Nat :=
  match l.locked line with | some k => k.way | none => (((l.setOf line).find line).map Way.way).getD 0

/-- Drop a line from every unlocked slot and every L1 and victim cache, with the flaws of its data. -/
def L2.drop (l : L2) (line : Nat) : L2 :=
  let l1 := l.shed line none
  let l2 := if ((l1.setOf line).find line).isSome then l1.putSet line ((l1.setOf line).drop line) else l1
  l2.forget 0 line

/-- A removal takes the line from every slot; a locked slot becomes a hole (R211). -/
def L2.punch (l : L2) (line : Nat) : L2 :=
  let hit (k : LockSlot) : Bool := k.line == line && !k.hole
  let n := (l.slots.filter hit).length
  let l1 := l.drop line
  if n = 0 then l1
  else { l1 with slots := l.slots.map fun k => if hit k then { k with hole := true } else k, holeev := satInc 16 l.holeev n }

end Sys2Proof.Machine
end

