-- ==== Sys2Proof/Machine/Events.lean ====
section
/-!
DEFINITION. The event router (R181 to R185) and the trigger latches of the sluice (R281): raising a source, level
sources, pending bits, the events deliverable to a bank.
-/

namespace Sys2Proof.Machine

/-! ### Trigger occurrences (R281, Table 13.5) -/

def trigOf (d : Desc) : Nat := fld d.w5 57 3
def tselOf (d : Desc) : Nat := fld d.w5 44 12

/-- Whether an occurrence of the kind and selector is the one a descriptor waits for. -/
def trigMatch (d : Desc) (kind sel : Nat) : Bool := trigOf d == kind && (kind == 1 || kind == 2 || tselOf d == sel)

/-- One channel meets an occurrence of its trigger: the latch records it; while ACTIVE, TRIGOVF is set. -/
def Chan.latchTrig (c : Chan) (kind sel : Nat) : Chan :=
  match c.desc with
  | some d =>
    if trigMatch d kind sel then { c with latch := true, trigovf := c.trigovf || c.st == .active } else c
  | none => c

/-- An occurrence of a trigger at every channel that selects it. -/
def State.trigOcc (s : State) (kind sel : Nat) : State :=
  { s with slu := { s.slu with chans := s.slu.chans.map fun kc => (kc.1, kc.2.latchTrig kind sel) } }

/-! ### Routes (Table 7.18) -/

def rtEn (r : Val) : Bool := bit r 63
def rtDest (r : Val) : Nat := fld r 61 2
def rtLevel (r : Val) : Nat := fld r 48 4
def rtRing (r : Val) : Nat := fld r 42 2
def rtVector (r : Val) : Nat := fld r 32 8
/-- The bank a route of DEST 0 names, as an index of `banks`. -/
def rtBank (r : Val) : Nat := 8 * fld r 8 6 + fld r 0 3
/-- Bits a route can hold (R8). -/
def rtMask : Val := 0xF00F0CFF00003F07

/-- Level sources (Table 7.16). -/
def levelSource (n : Nat) : Bool := (decide (320 ≤ n) && decide (n ≤ 323)) || n == 336 || n == 337 ||
  (decide (384 ≤ n) && decide (n ≤ 447))

def State.route (s : State) (n : Nat) : Val := mget valD s.evt.route n
/-- Level trigger mode; software sources are always edge mode (R182). -/
def State.levelMode (s : State) (n : Nat) : Bool := decide (n < 1024) && bit (s.route n) 60
def State.pendBit (s : State) (n : Nat) : Bool := bit (mget valD s.evt.pend (n / 64)) (n % 64)
def State.putPend (s : State) (n : Nat) (b : Bool) : State :=
  { s with evt := { s.evt with pend := mset valD s.evt.pend (n / 64) (setBit (mget valD s.evt.pend (n / 64)) (n % 64) b) } }

/-- Every source whose pending bit is set, in ascending number. -/
def State.pendingSources (s : State) : List Nat :=
  s.evt.pend.flatMap fun kv => ((List.range 64).filter fun i => bit kv.2 i).map fun i => 64 * kv.1 + i

/-- Pending sources whose route in force names the bank (R181). -/
def State.eventsFor (s : State) (k : Nat) : List Nat :=
  s.pendingSources.filter fun n => rtEn (s.route n) && rtDest (s.route n) == 0 && rtBank (s.route n) == k

/-- BSTATE.EVLVL: the highest level of events pending for the bank (Table 7.12). -/
def State.evlvl (s : State) (k : Nat) : Nat := (s.eventsFor k).foldl (fun a n => max a (rtLevel (s.route n))) 0

/-- The event a boundary of the bank delivers: highest level above the mask level, then ascending source (R172). -/
def State.nextEvent (s : State) (k ml : Nat) : Option Nat :=
  let top := s.evlvl k
  if ml < top then (s.eventsFor k).find? fun n => rtLevel (s.route n) == top else none

/-- A bank in WAITE with an event pending above its mask level becomes ready (R176). -/
def State.wakeBank (s : State) (k : Nat) : State :=
  if (s.ctx k).st = .waite ∧ pswMl (s.ctx k).psw < s.evlvl k then s.modCtx k fun x => { x with st := .ready } else s

/-- What a source's newly set pending bit leads to under its route: a level-mode MSI-X message owed (R185), or a
waiting bank made ready. -/
def State.pended (s : State) (n : Nat) : State :=
  let r := s.route n
  if rtEn r = false then s
  else if rtDest r = 0 then s.wakeBank (rtBank r)
  else if rtDest r = 2 ∧ s.levelMode n then { s with evt := { s.evt with owed := s.evt.owed ++ [n] } }
  else s

/-- Set a pending bit; a bit already set coalesces (R182). -/
def State.pend (s : State) (n : Nat) : State := if s.pendBit n then s else (s.putPend n true).pended n

/-- A pulse of source n: channels triggered by the source, then its pending bit (R182, Table 13.5). -/
def State.raise (s : State) (n : Nat) : State := (s.trigOcc 5 n).pend n

/-- The level of a level source: in level mode the pending bit follows it, in edge mode a rising edge sets it. -/
def State.setLevel (s : State) (n : Nat) (b : Bool) : State :=
  let was := mget boolD s.evt.lvl n
  if was = b then s
  else
    let s1 := { s with evt := { s.evt with lvl := mset boolD s.evt.lvl n b } }
    if b then (s1.trigOcc 5 n).pend n else if s1.levelMode n then s1.putPend n false else s1

/-- The pending bit after a delivery: cleared in edge mode, left in level mode (R182). -/
def State.delivered (s : State) (n : Nat) : State := if s.levelMode n then s else s.putPend n false

/-! ### Sources by name (Table 7.16) -/

def evTick : Nat := 208
def evTickLost : Nat := 209
def evRun : Nat := 210
def evLink (n : Nat) : Nat := 256 + n
def evLane (m : Nat) : Nat := 280 + m
def evSill (g : Nat) : Nat := 320 + g
def evSillEntry : Nat := 324
def evBacklog : Nat := 336
def evRefusing : Nat := 337
def evMem : Nat := 352
def evMemThr : Nat := 353
def evL2 (cl : ClusterId) : Nat := 368 + cl.val
def evTowpath (c : CoreId) : Nat := 384 + c.val
def evLk : Nat := 448

/-- The level of an inbox: high while it is not empty (R340). -/
def State.syncInbox (s : State) (c : CoreId) : State := s.setLevel (evTowpath c) (!(s.coreOf c).inbox.isEmpty)

/-- Levels of the sill guard's four groups. -/
def State.syncSill (s : State) : State :=
  forEach [0, 1, 2, 3] s fun s g => s.setLevel (evSill g) (bit s.sil.aborted g)

/-! ### Register writes of the router -/

/-- A write of EVT_RAISE: a source below 1024 is ignored and counted (Table 7.19). -/
def State.evtRaise (s : State) (v : Val) : State :=
  let n := fld v 0 12
  if n < 1024 then { s with evt := { s.evt with raiseign := satInc 16 s.evt.raiseign } } else s.raise n

/-- A W1C write of EVT_PEND[k] (R182): a level source in level mode keeps its bit while it asserts. -/
def State.evtW1c (s : State) (k : Nat) (v : Val) : State :=
  let old := mget valD s.evt.pend k
  let hold (i : Nat) : Bool := levelSource (64 * k + i) && s.levelMode (64 * k + i) && mget boolD s.evt.lvl (64 * k + i)
  let new := (List.range 64).foldl (fun a i => if bit v i && !hold i then setBit a i false else a) old
  { s with evt := { s.evt with pend := mset valD s.evt.pend k new } }

/-- Whether a route is permitted (R184). -/
def routeOk (v : Val) : Bool :=
  rtDest v != 3 && (rtEn v == false || rtDest v != 0 ||
    (decide (1 ≤ rtLevel v) && decide (rtLevel v ≤ 12) && decide (rtRing v ≤ 1)))

/-- A write of EVT_ROUTE[n] (R184, R185); a level source in level mode shows its level at once (R182). -/
def State.evtRoute (s : State) (n : Nat) (v : Val) : State :=
  if routeOk v then
    let s1 := { s with evt := { s.evt with route := mset valD s.evt.route n (v &&& rtMask), owed := s.evt.owed.filter (· ≠ n) } }
    let s2 := if levelSource n && s1.levelMode n then s1.putPend n (mget boolD s.evt.lvl n) else s1
    if s2.pendBit n then s2.pended n else s2
  else { s with evt := { s.evt with badwr := satInc 16 s.evt.badwr } }

/-- A register of the router (Tables 7.17 and 7.19). -/
def State.evtRead (s : State) (off : Nat) : Val :=
  if off = 0 then put s.evt.badwr 16 16 ||| put s.evt.raiseign 0 16
  else if 0x40 ≤ off ∧ off ≤ 0x7F then mget valD s.evt.pend (off - 0x40)
  else if 0x1000 ≤ off ∧ off ≤ 0x1FFF then s.route (off - 0x1000)
  else 0

def State.evtWrite (s : State) (off : Nat) (v : Val) : State :=
  if off = 1 then s.evtRaise v
  else if 0x40 ≤ off ∧ off ≤ 0x7F then s.evtW1c (off - 0x40) v
  else if 0x1000 ≤ off ∧ off ≤ 0x1FFF then s.evtRoute (off - 0x1000) v
  else s

end Sys2Proof.Machine
end

