-- ==== Sys2Proof/Machine/BlackBox.lean ====
section
/-!
DEFINITION. Writing the black box (R358, R359): entries, unit numbers (Table 16.5) and event codes (Table 16.6).
-/

namespace Sys2Proof.Machine

/-- UNIT of Table 16.5: class in bits 15:12, index in bits 11:0. -/
def unitOf (cls ix : Nat) : Nat := 4096 * cls + ix % 4096
def uDevice : Nat := 0
def uCore (c : CoreId) : Nat := unitOf 1 c.val
def uCluster (cl : ClusterId) : Nat := unitOf 2 cl.val
def uLane (m : Nat) : Nat := unitOf 3 m
def uLink (n : Nat) : Nat := unitOf 4 n
def uTriplet (t : Nat) : Nat := unitOf 6 t
def uDie (d : Nat) : Nat := unitOf 7 d
def uSensor (n : Nat) : Nat := unitOf 9 n

/-- The programmed entries, from the copy on die 0 while it is held (R356). -/
def Bbx.entries (b : Bbx) : List BbxEntry := if bit b.dies 0 then b.copy0 else b.copy1

/-- The boot and patch partition as the lockkeeper uses it: the copy with the higher write count, of those held (R361, R365). -/
def Vault.boot (v : Vault) : BootPart :=
  (match v.boot0, v.boot1 with
    | some a, some b => if a.writes < b.writes then b else a
    | some a, none => a
    | none, b => b.getD {}).part

def Vault.slotA (v : Vault) : Option Bundle := v.boot.slotA
def Vault.slotB (v : Vault) : Option Bundle := v.boot.slotB
def Vault.floor (v : Vault) : Nat := v.boot.floor
def Vault.instance_ (v : Vault) : BitVec 32 := v.boot.instance_
def Vault.boots (v : Vault) : Nat := v.boot.boots
def Vault.serial (v : Vault) : Val := v.boot.serial

/-- The lockkeeper programs a copy on each die that works. -/
def Vault.putBoot (v : Vault) (x : BootCopy) : Vault := { v with boot0 := v.boot0.map fun _ => x, boot1 := v.boot1.map fun _ => x }

/-- A write of the partition: both copies, with the next write count (R361). -/
def Vault.modBoot (v : Vault) (f : BootPart → BootPart) : Vault :=
  let n := max ((v.boot0.map BootCopy.writes).getD 0) ((v.boot1.map BootCopy.writes).getD 0)
  v.putBoot ⟨f v.boot, n + 1⟩

/-- The oldest queued entry is programmed into each copy that is held; a full part first erases the oldest 2,048 entries (R359). -/
def Bbx.program (b : Bbx) : Bbx :=
  match b.queued with
  | [] => b
  | e :: rest =>
    let full := decide (8388608 ≤ e.index - b.oldest)
    let old := if full then b.oldest + 2048 else b.oldest
    let put (d : Nat) (l : List BbxEntry) : List BbxEntry := if bit b.dies d then (l.filter fun x => decide (old ≤ x.index)) ++ [e] else l
    { b with copy0 := put 0 b.copy0, copy1 := put 1 b.copy1, queued := rest, oldest := old }

/-! ### Staging a lockkeeper record (R303, R306, R336) -/

/-- Length of a record with a payload of n bytes. -/
def recLenOf (n : Nat) : Nat := 32 + 32 * ((n + 31) / 32)
def Record.len (r : Record) : Nat := recLenOf r.payload.length

def State.modMan (s : State) (f : Manifest → Manifest) : State := { s with man := f s.man }

/-- A record is staged; its words go into the staging area as the record port drains (R299, R316). -/
def State.stage (s : State) (r : Record) : State := s.modMan fun m => { m with staged := m.staged ++ [r], toStore := m.toStore ++ [r] }

def wordsRecord (cls typ srcid : Nat) (when_ : Val) (ws : List Word) : Record :=
  { cls := cls, typ := typ, srcid := srcid, when_ := when_, wordsF := true, payload := serialise ws }

/-- A lockkeeper record staged at an instant: its payload begins with the TIME word of that instant (R336). -/
def lkRecord (when_ : Val) (typ : Nat) (ws : List Word) : Record := wordsRecord 4 typ 0 when_ (timeW when_ :: ws)

/-- Stage a lockkeeper record: at most 64 KiB of them in a pound, further ones held for a later pound (R303). -/
def State.stageLk (s : State) (typ : Nat) (ws : List Word) : State :=
  let r := lkRecord s.now typ ws
  if s.man.lkHeld.isEmpty && decide (s.man.lkBytes + r.len ≤ 65536) then
    (s.stage r).modMan fun m => { m with lkBytes := m.lkBytes + r.len }
  else s.modMan fun m => { m with lkHeld := m.lkHeld ++ [(typ, ws)] }

/-! ### Entries -/

/-- Codes of Table 16.6 that report a fault of a unit, each with its fault record (Table 15.12); which codes these are is the
model's reading (log 58). -/
def faultCodes : List Nat := [0x10, 0x12, 0x13, 0x20, 0x21, 0x22, 0x24, 0x30, 0x31, 0x38, 0x52, 0x78]

/-- Microseconds since power good, corrected by FREQ of the calibration set in force (Table 16.5, R367, log 20). -/
def State.micros (s : State) : Nat :=
  let ppb : Int := if s.cal.valid then sx 32 (leAt s.cal.bytes 280 4) else 0
  ((s.pins.since * 1000000000 : Nat) / (100 * (1000000000 + ppb))).toNat

/-- Queue a black-box entry; the queue holds at most 256 (R359). -/
def State.enqueue (s : State) (code unit : Nat) (data : List Nat) : State :=
  let b := if 256 ≤ s.bbx.queued.length then s.bbx.program else s.bbx
  let e : BbxEntry := { index := b.nextIx, when_ := s.now, boots := s.vault.boots, micros := s.micros, code := code, unit := unit,
                        count := 1, data := data }
  { s with bbx := { b with queued := b.queued ++ [e], nextIx := b.nextIx + 1 } }

/-- A black-box entry, and for a fault its record: unit, cause code, black-box index (Table 15.12). -/
def State.log (s : State) (code unit : Nat) (data : List Nat := []) : State :=
  let s1 := s.enqueue code unit data
  if faultCodes.contains code then s1.stageLk 0x12 [fixN unit, fixN code, fixN s.bbx.nextIx] else s1

/-- Whether a queued entry can take a repetition: same code and unit, same pound (R358). -/
def BbxEntry.sameUnit (e : BbxEntry) (code unit : Nat) (when_ : Val) : Bool :=
  e.code == code && e.unit == unit && fld e.when_ 16 48 == fld when_ 16 48

/-- An entry for a repeated poisoning: one entry per unit per pound, with a count (R358). -/
def State.logCount (s : State) (code unit : Nat) (data : List Nat) : State :=
  if s.bbx.queued.any fun e => e.sameUnit code unit s.now then
    let bump (e : BbxEntry) : BbxEntry := if e.sameUnit code unit s.now then { e with count := satInc 16 e.count } else e
    { s with bbx := { s.bbx with queued := s.bbx.queued.map bump } }
  else s.log code unit data

/-- The 64 bytes of an entry (Table 16.5); each DATA item takes 8 bytes while they last (log 20). -/
def BbxEntry.bytes (e : BbxEntry) : List Byte :=
  let body := leBytes 8 e.index ++ leBytes 8 e.when_.toNat ++ leBytes 8 ((e.boots <<< 48) + e.micros % 2 ^ 48) ++ leBytes 2 e.code
    ++ leBytes 2 e.unit ++ leBytes 2 e.count ++ leBytes 2 0 ++ fit 28 (e.data.flatMap (leBytes 8))
  body ++ leBytes 4 (crc32c body).toNat

/-- CODE and UNIT of the last entry (Table 16.7). -/
def State.bbxLast (s : State) : Val :=
  match (s.bbx.entries ++ s.bbx.queued).getLast? with
  | some e => put e.code 16 16 ||| put e.unit 0 16
  | none => 0

end Sys2Proof.Machine
end

