-- ==== Sys2Proof/Machine/Smbus.lean ====
section
/-!
DEFINITION. The snapshot that the SMBus target answers from (R338, Table 15.13), and the Packet Error Code of a block read.
-/

namespace Sys2Proof.Machine

def State.silStat (s : State) : Val :=
  put s.sil.aborted.toNat 60 4 ||| flag s.sil.permit 59 ||| flag s.sil.abin 58 ||| flag s.sil.about 57 ||| put s.sil.src 48 4

def State.lkpId (s : State) : Val := put s.lk.romver.toNat 16 16 ||| put 0x00A1 0 16

/-- The states that command 00h shows: one byte each in the table's order, then two of 0; the spec gives no layout (log 38). -/
def State.smbState (s : State) : List Byte :=
  ([s.lk.st.code, s.weir.runSt.code, fld s.silStat 57 7, s.man.st.code,
    (s.cores.any fun kc => kc.2.run == .lockup).toNat, s.mbx.halted.toNat].map (BitVec.ofNat 8)) ++ [0, 0]

/-- The maximum Tj of the ordering code in units of 0.5 °C (Table 0.1). -/
def maxTj : Int := if Config.extended then 210 else 190

/-- THERM[n] and VMON[n] of the calibration set in force (R367, Table 17.3). -/
def State.therm (s : State) (n : Nat) : Int := if s.cal.valid then sx 16 (leAt s.cal.bytes (224 + 2 * n) 2) else 0
def State.vmon (s : State) (n : Nat) : Int := if s.cal.valid then sx 16 (leAt s.cal.bytes (256 + 2 * n) 2) else 0

/-- The corrected reading of a sensor (0 to 15), in 0.5 °C, from what it measures in 1/16 °C; of a monitor (16 to 27), in mV, from what it
measures in 0.5 mV (R367, log 49). -/
def State.corrected (s : State) (n : Nat) (raw : Int) : Nat :=
  let v : Int := if n < 16 then (raw + s.therm n) / 8 else (raw + s.vmon (n - 16)) / 2
  (v % 65536).toNat

/-- The sensors' readings: corrected measurements, which are free values (log 3); the index and the flag follow from them. -/
def State.thermal (s : State) : List Byte × State :=
  let r := (List.range 16).foldl (fun (a : List Nat × State) n =>
    let (v, s1) := a.2.fresh; (a.1 ++ [s.corrected n (sx 16 (fld v 0 16))], s1)) ([], s)
  let top := r.1.zipIdx.foldl (fun (a : Nat × Nat) vi => if sx 16 a.1 < sx 16 vi.1 then vi else a) (r.1.headD 0, 0)
  (r.1.flatMap (leBytes 2) ++ [BitVec.ofNat 8 top.2, BitVec.ofNat 8 (decide (maxTj < sx 16 top.1)).toNat], r.2)

/-- The snapshot is taken, with the sensors read: at every tick, and at every change of state. -/
def State.smbSnap (s : State) : State :=
  let t := s.thermal
  { t.2 with smb := { t.2.smb with state := s.smbState, pound := s.now, next := s.man.next, durable := s.man.durable, bbx := s.bbxLast,
                                   id := s.lkpId, thermal := t.1 } }

/-- The snapshot follows a change of state. -/
def State.smbSync (s : State) : State := if s.smb.state = s.smbState then s else s.smbSnap

/-! ### Packet Error Checking: the CRC-8 of the SMBus specification, polynomial x^8 + x^2 + x + 1 (log 59) -/

def pecBit (c : BitVec 8) : BitVec 8 := if bit c 7 then (c <<< 1) ^^^ 0x07#8 else c <<< 1
def pecByte (c b : Byte) : Byte := pecBit (pecBit (pecBit (pecBit (pecBit (pecBit (pecBit (pecBit (c ^^^ b))))))))
def pec (bs : List Byte) : Byte := bs.foldl pecByte 0

/-- The target's 7-bit address: 58h plus the strap (R338). -/
def State.smbAddr (s : State) : BitVec 8 := 0x58 + s.smb.strap.setWidth 8

/-- What a Block Read of a command sends: the byte count, the bytes, and the PEC over the whole transaction. -/
def State.smbBlock (s : State) (cmd : Byte) (bs : List Byte) : List Byte :=
  let n := BitVec.ofNat 8 bs.length
  n :: bs ++ [pec ([s.smbAddr <<< 1, cmd, (s.smbAddr <<< 1) ||| 1, n] ++ bs)]

end Sys2Proof.Machine
end

