-- ==== Sys2Proof/Machine/Memory.lean ====
section
/-!
DEFINITION. The tagged store behind its home agents: regions (R189), failed triplets and the mirrored region (R220,
R222), the directory of modified lines (R204, R208), locked slots (R210, R211), and the error checks of a line read
from the SGRAM devices (R72 to R75, R221).
-/

namespace Sys2Proof.Machine

/-! ### Regions (Table 8.5) -/

inductive Region where
  | store | device | absent
  deriving DecidableEq, Repr

def devBase : Nat := 0xF00000000

def State.region (s : State) (pa : Nat) : Region :=
  if pa < 2 ^ 31 then .store
  else if pa < 2 ^ 32 then (if s.memc.clamshell then .store else .absent)
  else if devBase ≤ pa ∧ pa < devBase + 0x2000 then .device
  else .absent

/-- Whether the address lies in the mirrored region (R220). -/
def State.inMirror (s : State) (pa : Nat) : Bool :=
  decide (s.memc.mirBase ≤ pa) && decide (pa < s.memc.mirBase + s.memc.mirLen * 65536)

/-- A copy line of the mirrored region, which only a home agent addresses (R220). -/
def State.copyLine (s : State) (pa : Nat) : Bool := s.inMirror pa && pa.testBit 5

/-- An addressable line of the mirrored region: its copy stands 32 words above it (R220). -/
def State.primary (s : State) (pa : Nat) : Bool := s.inMirror pa && !pa.testBit 5

/-- An address a core or a channel may use in the tagged store class. -/
def State.storeOk (s : State) (pa : Nat) : Bool := s.region pa == .store && !s.copyLine pa

/-- A run of words of the tagged store. -/
def State.storeRange (s : State) (a n : Nat) : Bool :=
  n == 0 || (s.region a == .store && s.region (a + n - 1) == .store && decide (a + n ≤ 2 ^ 32))

/-- A run of words that an agent other than a home agent may address: no copy line lies in it (R220). Of 64 words in the region some are
a copy line's. -/
def State.rangeOk (s : State) (a n : Nat) : Bool :=
  let lo := max a s.memc.mirBase
  s.storeRange a n && (List.range (min 64 (a + n - lo))).all fun i => !s.copyLine (lo + i)

def tripOf (pa : Nat) : Nat := pa / 8 % 8
def State.tfailed (s : State) (pa : Nat) : Bool := bit s.memc.tfail (tripOf pa)

/-! ### What the SGRAM devices hold and the directory -/

def State.modMemc (s : State) (f : MemCtl → MemCtl) : State := { s with memc := f s.memc }

/-- What one SGRAM copy answers: POISON of origin 4 from a failed triplet (R222). -/
def State.cell (s : State) (pa : Nat) : Word := if s.tfailed pa then poison 4 pa else mget wordD s.mem pa

/-- What the home agent delivers for a word no cache holds modified; in the mirrored region the copy stands in for a
poisoned primary (R220). -/
def State.sgram (s : State) (pa : Nat) : Word :=
  if s.primary pa && isPoison (s.cell pa) && !isPoison (s.cell (pa + 32)) then s.cell (pa + 32) else s.cell pa

def State.dirEnt (s : State) (line : Nat) : DirEntry := mget dirD s.dir line
/-- Whether some cluster holds the line modified. -/
def State.dirty (s : State) (line : Nat) : Bool := !(s.dirEnt line).old.isEmpty
/-- Whether a given cluster does. -/
def State.dirtyIn (s : State) (cl : ClusterId) (line : Nat) : Bool := s.dirty line && (s.dirEnt line).owner == cl

/-- The latest data of a word (R204, R206). -/
def State.rd (s : State) (pa : Nat) : Word := if s.dirty (pa / 8) then mget wordD s.mem pa else s.sgram pa

def lineWords (line : Nat) : List Nat := (List.range 8).map fun k => 8 * line + k
def State.rdLine (s : State) (line : Nat) : List Word := (lineWords line).map s.rd

def State.putMem (s : State) (pa : Nat) (w : Word) : State := { s with mem := mset wordD s.mem pa w }
def State.putDir (s : State) (line : Nat) (d : DirEntry) : State := { s with dir := mset dirD s.dir line d }

/-- A write of one word to the SGRAM devices: both copies in the mirrored region; discarded by a failed triplet. -/
def State.putSgram (s : State) (pa : Nat) (w : Word) : State :=
  let s1 := if s.tfailed pa then s else s.putMem pa w
  if s.primary pa && !s.tfailed (pa + 32) then s1.putMem (pa + 32) w else s1

/-- The flipped bits of a line's stored image, and the line with others. -/
def State.flawOf (s : State) (line : Nat) : Nat := (mget flawD s.memc.flaws line).toNat
def State.setFlaw (s : State) (line f : Nat) : State :=
  s.modMemc fun m => { m with flaws := mset flawD m.flaws line (BitVec.ofNat 768 f) }

/-- A whole line has been written: its image is the code of its words (R77), and in the mirrored region the copy's too. -/
def State.soundLine (s : State) (line : Nat) : State :=
  let s1 := if s.flawOf line = 0 then s else s.setFlaw line 0
  if s.primary (8 * line) && s1.flawOf (line + 4) != 0 then s1.setFlaw (line + 4) 0 else s1

/-- Write a whole line of the SGRAM devices. -/
def State.putLine (s : State) (line : Nat) (ws : List Word) : State :=
  (forEach ws.zipIdx s fun s wi => s.putSgram (8 * line + wi.2) wi.1).soundLine line

/-- Write a modified line back; every copy is then unmodified (CLEAN of R208), and stays as it was where a failed triplet discards the
write (R222). -/
def State.writeBack (s : State) (line : Nat) : State :=
  if s.dirty line then
    let ws := s.rdLine line
    let s1 := ((s.putDir line ⟨0, []⟩).putLine line ws).modL2 (s.dirEnt line).owner fun l => l.share line 8
    if s.tfailed (8 * line) && (s1.l2Of (s.dirEnt line).owner).holds line then s1.modL2 (s.dirEnt line).owner fun l => l.setKept 0 line ws
    else s1
  else s

/-- A snoop removes the line from the caches of every cluster but one; locked slots become holes (R204, R211). -/
def State.snoop (s : State) (line : Nat) (own : Option ClusterId) : State :=
  { s with l2 := s.l2.map fun kl => if own.map Fin.val = some kl.1 then kl else (kl.1, kl.2.punch line) }

/-- A store to a word ends every reservation on it (R124). -/
def State.endResv (s : State) (pa : Nat) : State :=
  forEach (allCores.filter fun c => (s.coreOf c).resv.any fun r => r.2 == pa) s fun s c =>
    s.modCore c fun x => { x with resv := none }

/-! ### Counters of the memory controllers -/

def State.eccOf (s : State) (t : Nat) : EccCnt := mget eccD s.memc.ecc t
def State.modEcc (s : State) (t : Nat) (f : EccCnt → EccCnt) : State :=
  s.modMemc fun m => { m with ecc := mset eccD m.ecc t (f (s.eccOf t)) }

/-- Count corrected sections of a triplet; at MEM_ECCTHR the count returns to 0 and EV[353] is raised (R221). -/
def State.countCorr (s : State) (t n : Nat) : State :=
  if n = 0 then s
  else
    let thr := (s.eccOf t).thr + n
    let s1 := s.modEcc t fun e => { e with corr := (e.corr + n) % 65536, thr := thr }
    if s.memc.eccthr ≤ thr then (s1.modEcc t fun e => { e with thr := 0 }).raise evMemThr else s1

/-! ### Reading a line from the SGRAM devices (R72 to R75, R221) -/

/-- The errors of a burst on the 768 bits of a line (R76). -/
def burstMask (b : Burst) : Nat := b.ch0.toNat + b.ch1.toNat <<< 256 + b.ch2.toNat <<< 512

/-- The words that the SGRAM devices hold of a line. -/
def State.sgramLine (s : State) (line : Nat) : List Word :=
  if s.dirty line then (s.dirEnt line).old else (lineWords line).map fun pa => mget wordD s.mem pa

/-- The stored image of a line. -/
def State.stored (s : State) (line : Nat) : Nat := encodeLine line (s.sgramLine line) ^^^ s.flawOf line

def sigBad (line img : Nat) : Bool := imageSig (img % 2 ^ 744) != signature line

/-- The word that the devices would deliver at an address, none when it is lost or POISON. -/
def State.soundWord (s : State) (pa : Nat) : Option Word :=
  if s.tfailed pa then none
  else
    let line := pa / 8
    let w :=
      if s.flawOf line = 0 then (s.sgramLine line)[pa % 8]?
      else if sigBad line (s.stored line) then none
      else (decodeWord (s.stored line) (pa % 8)).map Prod.fst
    w.filter fun w => !isPoison w

/-- The word of the other copy of a mirrored line, when it is sound (R220, R221). -/
def State.otherCopy (s : State) (pa : Nat) : Option Word :=
  if s.inMirror pa then s.soundWord (if pa.testBit 5 then pa - 32 else pa + 32) else none

/-- What the devices deliver of a line changes: the caches that hold it keep their words. -/
def State.keepCopies (s : State) (line : Nat) : State :=
  if s.dirty line then s
  else forEach (allClusters.filter fun cl => (s.l2Of cl).holds line && (s.l2Of cl).keptAt 0 line == []) s fun s cl =>
    s.modL2 cl fun l => l.setKept 0 line (s.rdLine line)

/-- Replace what the SGRAM devices hold at word k of a line, under the cached copies if there are any. -/
def State.putLineWord (s : State) (line k : Nat) (w : Word) : State :=
  if s.dirty line then s.putDir line { s.dirEnt line with old := (s.dirEnt line).old.set k w }
  else (if s.rd (8 * line + k) = w then s else s.keepCopies line).putMem (8 * line + k) w

/-- One word lost: from the sound copy in the mirrored region, counted as a correction, else POISON. -/
def State.loseWord (s : State) (line k origin : Nat) : State :=
  let pa := 8 * line + k
  match s.otherCopy pa with
  | some w => (s.putLineWord line k w).countCorr (tripOf pa) 1
  | none =>
    let s1 := (s.putLineWord line k (poison origin pa)).modEcc (tripOf pa) fun e => { e with pois := (e.pois + 1) % 65536 }
    s1.logCount 0x24 (uTriplet (tripOf pa)) [origin, pa]

/-- One checked word of a line: corrected in the devices, or lost. -/
def State.checkedWord (s : State) (line origin : Nat) (wk : Option (Word × Nat) × Nat) : State :=
  match wk.1 with
  | some (w, n) => if n = 0 then s else (s.putLineWord line wk.2 w).countCorr (tripOf (8 * line)) n
  | none => s.loseWord line wk.2 origin

/-- Check the words of an image read from the devices: what was corrected is delivered, what was lost becomes POISON and is written,
with the rest of the line as checked; without a rewrite the devices keep their stored bits (R72, R73, R77, R221). -/
def State.checkImage (s : State) (line img origin : Nat) (rewrite : Bool) : State :=
  let was := s.stored line
  let ws := (List.range 8).map fun k => decodeWord img k
  let s1 := forEach ws.zipIdx s fun s wk => s.checkedWord line origin wk
  let lost := ws.any Option.isNone
  let fixed := ws.any fun w => w.any fun wn => wn.2 != 0
  if lost || (rewrite && fixed) then s1.setFlaw line 0
  else s1.setFlaw line (was ^^^ encodeLine line (s1.sgramLine line))

/-- A read of a line of the SGRAM devices, whose bits arrive with the errors of `e`: the address signature, with a second read
where it mismatches (R75), then the words. `origin` is 4, or 6 for the patrol scrub. -/
def State.readLine (s : State) (line : Nat) (e : ReadErr) (origin : Nat) (rewrite : Bool) : State :=
  let t := tripOf (8 * line)
  if s.tfailed (8 * line) then s
  else
    let s0 := s.setFlaw line (s.flawOf line ^^^ burstMask e.stored)
    let i1 := s0.stored line ^^^ burstMask e.first
    let count (s : State) : State := s.modEcc t fun e => { e with sig := (e.sig + 1) % 65536 }
    if sigBad line i1 then
      let i2 := s0.stored line ^^^ burstMask e.second
      if sigBad line i2 then
        ((forEach (List.range 8) (count (count s0)) fun s k => s.loseWord line k 3).setFlaw line 0).raise evMem
      else (count s0).checkImage line i2 origin rewrite
    else s0.checkImage line i1 origin rewrite

/-- A line with flipped bits is checked as it is read. -/
def State.checkLine (s : State) (line : Nat) (rewrite : Bool) : State :=
  if s.flawOf line = 0 then s else s.readLine line {} 4 rewrite

/-- Where the primary of the mirrored region delivers POISON the copy is read; a sound one repairs the primary, and is counted (R220). -/
def State.mirrorWord (s : State) (pa : Nat) : State :=
  if s.primary pa && !s.dirty (pa / 8) && isPoison (s.cell pa) then
    let s1 := s.checkLine (pa / 8 + 4) false
    match s1.soundWord (pa + 32) with
    | some w => if s1.tfailed pa then s1 else (s1.putMem pa w).countCorr (tripOf pa) 1
    | none => s1
  else s

/-! ### Errors in the arrays of a cluster (R214) -/

/-- Log an error of the arrays and raise the cluster's event (Table 9.12). -/
def State.l2Error (s : State) (cl : ClusterId) (log : Val) (f : L2 → L2) : State :=
  (s.modL2 cl fun l => { f l with errlog := log }).raise (evL2 cl)

def errLog (kind pos way set pa : Nat) : Val := put kind 60 4 ||| put pos 57 3 ||| put way 53 4 ||| put set 42 11 ||| put pa 0 36

/-- A line becomes 8 POISON words of origin 2 at its home agent, and every copy goes. -/
def State.poisonLine (s : State) (line : Nat) : State :=
  ((s.putDir line ⟨0, []⟩).snoop line none).putLine line ((lineWords line).map (poison 2))

/-- A modified line has been lost: kind 3, or 4 with its directory entry. -/
def State.loseLine (s : State) (cl : ClusterId) (kind line : Nat) : State :=
  ((s.poisonLine line).l2Error cl (errLog kind 0 0 (line % 2048) (8 * line)) fun l => { l with dlost := (l.dlost + 1) % 65536 }).logCount
    0x24 (uTriplet (tripOf (8 * line))) [2, 8 * line]

/-- A slot without parity: the lookup is a miss and the slot invalid; a line that was modified there is lost. -/
def State.tagError (s : State) (cl : ClusterId) (b : BadTag) : State :=
  let l := s.l2Of cl
  let count (l : L2) : L2 := { l with tpar := (l.tpar + 1) % 65536 }
  match b.l1 with
  | none =>
    if l.holds b.line then
      let s1 := (s.l2Error cl (errLog 2 0 (l.wayOf b.line) (b.line % 2048) 0) count).modL2 cl fun l =>
        { l.drop b.line with slots := l.slots.filter fun k => k.line != b.line || k.hole }
      if s.dirtyIn cl b.line then s1.loseLine cl 3 b.line else s1
    else s
  | some (pos, code) =>
    let slot := if code then (l.l1 true pos b.line).find b.line
      else ((l.l1 false pos b.line).find b.line).or ((l.victOf pos).find? fun w => w.line == b.line)
    match slot with
    | none => s
    | some w =>
      let s1 := (s.l2Error cl (errLog 2 pos 0 (b.line % 128) 0) count).modL2 cl fun l => l.shedAt b.line pos
      if w.dirty then s1.loseLine cl 3 b.line else s1

/-- The lookups of a line in a cluster meet the slots that have lost their parity. -/
def State.checkTags (s : State) (cl : ClusterId) (line : Nat) : State :=
  let bad := (s.l2Of cl).badTags.filter fun b => b.line == line
  if bad.isEmpty then s
  else forEach bad (s.modL2 cl fun l => { l with badTags := l.badTags.filter fun b => b.line != line }) fun s b => s.tagError cl b

/-- A word as a copy of a cluster holds it: its own where it has kept it, else the L2's, else the line's. -/
def State.copyWord (s : State) (cl : ClusterId) (place pa : Nat) : Word :=
  match (s.l2Of cl).keptAt place (pa / 8), (s.l2Of cl).keptAt 0 (pa / 8) with
  | [], [] => s.rd pa
  | [], ws => ws.getD (pa % 8) unbound
  | ws, _ => ws.getD (pa % 8) unbound
def State.copyLineWords (s : State) (cl : ClusterId) (place line : Nat) : List Word := (lineWords line).map (s.copyWord cl place)

/-- The word that an access of a bank finds: at the home agent, or in the copy that delivers it (R204, R206). -/
def State.see (s : State) (k pa : Nat) (unc : Bool) : Word :=
  if unc then s.rd pa else s.copyWord (clOf k) ((s.l2Of (clOf k)).source (some (posOfBank k)) (pa / 8)) pa

/-- The same for a code fetch. -/
def State.seeCode (s : State) (k pa : Nat) (unc : Bool) : Word :=
  if !unc && (((s.l2Of (clOf k)).l1 true (posOfBank k) (pa / 8)).find (pa / 8)).isSome then s.copyWord (clOf k) (9 + posOfBank k) pa
  else s.see k pa unc

/-- Make the access of a position the holder of a modified line, with the words its copy has; `old` keeps what the SGRAM devices hold
(R204). -/
def State.own (s : State) (cl : ClusterId) (pos line : Nat) : State :=
  if s.dirtyIn cl line then s
  else
    let s1 := s.writeBack line
    let ws := s1.copyLineWords cl ((s1.l2Of cl).source (some pos) line) line
    let s2 := (forEach ws.zipIdx s1 fun s wi => s.putMem (8 * line + wi.2) wi.1).putDir line ⟨cl, s1.rdLine line⟩
    s2.modL2 cl fun l => l.unkeep line

/-- The copies of a line in the L1 and code caches of a cluster keep their words as the L2's copy or the modified one changes. -/
def State.keepL1 (s : State) (cl : ClusterId) (line : Nat) : State :=
  let l := s.l2Of cl
  let has (place : Nat) : Bool := if place < 9 then l.inL1 (place - 1) line else ((l.l1 true (place - 9) line).find line).isSome
  forEach (((List.range 17).drop 1).filter fun p => has p && l.keptAt p line == []) s fun s p =>
    s.modL2 cl fun l => l.setKept p line (s.copyLineWords cl p line)

/-- Rewrite a word of one copy (R73): the modified one is the line itself. DEDUCED (log 60): an unmodified copy changes alone, and its
cluster does not become the holder of a modified line. -/
def State.putCopy (s : State) (cl : ClusterId) (place line k : Nat) (w : Word) : State :=
  if s.copyWord cl place (8 * line + k) = w then s
  else if s.dirtyIn cl line && place == (s.l2Of cl).source none line then
    (if place = 0 then s.keepL1 cl line else s).putMem (8 * line + k) w
  else
    let s1 := if place = 0 then s.keepL1 cl line else s
    s1.modL2 cl fun l => l.setKept place line ((s.copyLineWords cl place line).set k w)

/-- A word of a copy is corrected, or lost: counted in L2C_ECC, and a lost one logged (R73, R214, Table 9.12). -/
def State.checkArrayWord (cl : ClusterId) (place line img : Nat) (s : State) (k : Nat) : State :=
  let pa := 8 * line + k
  match decodeWord img k with
  | some (w, n) =>
    let s1 := s.putCopy cl place line k w
    if n = 0 then s1 else s1.modL2 cl fun l => { l with dcorr := (l.dcorr + n) % 65536 }
  | none =>
    let log := if place = 0 then errLog 1 0 ((s.l2Of cl).wayOf line) (line % 2048) (8 * line)
      else errLog 1 (place - 1) 0 (line % 128) (8 * line)
    (((s.putCopy cl place line k (poison 2 pa)).l2Error cl log fun l => { l with dpois := (l.dpois + 1) % 65536 }).logCount 0x24
      (uCluster cl) [2, pa])

/-- The data of a line comes from one of a cluster's copies with its check bits, whatever flipped in the array and the errors `e` on the
way (R56, R204). -/
def State.checkArrays (s : State) (cl : ClusterId) (place line e : Nat) : State :=
  let f := (s.l2Of cl).flawAt place line ^^^ e
  if f = 0 then s
  else
    let img := encodeLine line (s.copyLineWords cl place line) ^^^ f
    forEach (List.range 8) (s.modL2 cl fun l => l.setFlawAt place line 0) (State.checkArrayWord cl place line img)

/-- An uncorrectable directory entry poisons its line (R214). Logged by the cluster that asks, else by the one the entry named (log 60). -/
def State.checkDir (s : State) (line : Nat) (by_ : Option ClusterId) : State :=
  if s.memc.dirBad.contains line then
    (s.modMemc fun m => { m with dirBad := m.dirBad.filter (· != line) }).loseLine (by_.getD (s.dirEnt line).owner) 4 line
  else s

/-- A request for a line reaches its home agent: the directory entry, and the cluster that holds the line modified. -/
def State.settle (s : State) (line : Nat) (by_ : Option ClusterId) : State :=
  let s1 := s.checkDir line by_
  if s1.dirty line then
    let s2 := s1.checkTags (s1.dirEnt line).owner line
    let cl := (s2.dirEnt line).owner
    if s2.dirty line then s2.checkArrays cl ((s2.l2Of cl).source none line) line 0 else s2
  else s1

/-! ### Accesses at the home agent -/

/-- What a read of a word leaves behind (R204, R220). -/
def State.homeRead (s : State) (pa : Nat) : State :=
  let s1 := s.settle (pa / 8) none
  (if s1.dirty (pa / 8) then s1 else s1.checkLine (pa / 8) false).mirrorWord pa

/-- Words read at the home agent: the state after the reads, and what they delivered. -/
def State.homeReads (s : State) (pas : List Nat) : State := forEach pas s State.homeRead

/-- A write of a word performed at the home agent: every cached copy is invalidated first, and the line is read, checked, merged and
written (R77, R204, R205). -/
def State.wrAt (s : State) (pa : Nat) (w : Word) : State :=
  let s1 := ((s.settle (pa / 8) none).writeBack (pa / 8)).snoop (pa / 8) none
  ((s1.checkLine (pa / 8) true).putSgram pa w).soundLine (pa / 8)
def State.wr (s : State) (pa : Nat) (w : Word) : State := (s.endResv pa).wrAt pa w

/-- A whole line written at the home agent, without a read (R77, R154). -/
def State.wrLine (s : State) (line : Nat) (ws : List Word) : State :=
  let s1 := forEach (lineWords line) (s.checkDir line none) State.endResv
  ((s1.putDir line ⟨0, []⟩).snoop line none).putLine line ws

/-- The lines that the caches of a cluster hold. -/
def L2.lines (l : L2) : List Nat :=
  (l.slots.filter fun k => !k.hole).map LockSlot.line ++ l.sets.flatMap fun kc => kc.2.held.map Way.line

/-- Fail a triplet (R222): EV[352] and an entry; the mirrored region, when one is set up, runs on the other copy. What the caches hold of
its lines stays. -/
def State.failTriplet (s : State) (t ch reason : Nat) : State :=
  if bit s.memc.tfail t then s
  else
    let mir := decide (0 < s.memc.mirLen) && !s.memc.mirdeg
    let lines := allClusters.flatMap fun cl => (s.l2Of cl).lines.filter fun n => tripOf (8 * n) == t
    let s1 := (forEach lines s State.keepCopies).modMemc fun m => { m with tfail := setBit m.tfail t true, mirdeg := m.mirdeg || mir }
    let s2 := (s1.log 0x20 (uTriplet t) [ch, reason]).raise evMem
    if mir then (s2.log 0x21 (uTriplet t) [(t + 4) % 8]).raise evMem else s2

end Sys2Proof.Machine
end

