-- ==== Sys2Proof/Machine/Manifest.lean ====
section
/-!
DEFINITION. The manifest (chapter 14): records in host format, staging, the tick commit with its order, limits and
placement, delivery to the host ring, release and resumption; and the lockkeeper records of R336.
-/

namespace Sys2Proof.Machine

/-! ### Records in host format (R306) -/

/-- FLAGS of Table 14.2. -/
def Record.flags (r : Record) : Nat := r.qual % 8 + 8 * r.wordsF.toNat + 16 * r.trunc.toNat + 32 * r.bg.toNat

/-- Header bytes 0 to 27. -/
def header (msn when_ srcid cls typ flags plen : Nat) : List Byte :=
  leBytes 8 msn ++ leBytes 8 when_ ++ leBytes 3 srcid ++ leBytes 1 cls ++ leBytes 2 typ ++ leBytes 2 flags ++ leBytes 4 plen

def Record.bytes (r : Record) (msn : Nat) : List Byte :=
  let h := header msn r.when_.toNat r.srcid r.cls r.typ r.flags r.payload.length
  let body := fit (r.len - 32) r.payload
  h ++ leBytes 4 (crc32c (h ++ body)).toNat ++ body

/-- The header of a PAD of the given length (R307). -/
def padBytes (len : Nat) : List Byte :=
  let h := header 0 0 0 0 0 0 (len - 32)
  h ++ leBytes 4 (crc32c h).toNat

/-- Protected records: guard, GAP and lockkeeper (Table 14.3). -/
def Record.prot (r : Record) : Bool := r.cls == 2 || r.cls == 4 || (r.cls == 3 && r.typ == 3)
def Record.lane (r : Record) : Bool := r.cls == 1
def Record.task (r : Record) : Bool := !r.prot && !r.lane

/-! ### Merge order (Table 14.1) -/

/-- Sort keys of a record within its position. -/
def Record.keys (r : Record) : Nat × Nat :=
  match r.cls with
  | 1 => (r.link, r.srcid)
  | 2 => (r.key, r.srcid)
  | 3 => (r.srcid, 0)
  | _ => (if r.typ = 0x20 then 0 else 1, 0)

def Record.before (a b : Record) : Bool :=
  if a.cls ≠ b.cls then decide (a.cls < b.cls)
  else if a.keys.1 ≠ b.keys.1 then decide (a.keys.1 < b.keys.1) else decide (a.keys.2 ≤ b.keys.2)

def insertRec (r : Record) : List Record → List Record
  | [] => [r]
  | x :: xs => if r.before x then r :: x :: xs else x :: insertRec r xs

/-- Records in merge order; equal keys keep their staging order. -/
def mergeOrder (l : List Record) : List Record := l.foldr insertRec []

/-! ### Placement (R307, R309) -/

/-- Ring size S. -/
def Manifest.size (m : Manifest) : Nat := 2 ^ m.sz

/-- Place records in order from an RBP and an MSN, with the PADs they need: entries, the next RBP and the next MSN. -/
def placeAll (sz : Nat) : Nat → Nat → List Record → List Placed × Nat × Nat
  | rbp, msn, [] => ([], rbp, msn)
  | rbp, msn, r :: rs =>
    if sz < rbp % sz + r.len then
      let gap := sz - rbp % sz
      let rest := placeAll sz (rbp + gap + r.len) (msn + 1) rs
      (⟨0, rbp, gap, none⟩ :: ⟨msn, rbp + gap, r.len, some r⟩ :: rest.1, rest.2)
    else
      let rest := placeAll sz (rbp + r.len) (msn + 1) rs
      (⟨msn, rbp, r.len, some r⟩ :: rest.1, rest.2)

/-- The backlog after a commit that accepts these records (R313). -/
def Manifest.backlogWith (m : Manifest) (rs : List Record) : Nat :=
  (placeAll m.size m.rbp m.next (mergeOrder rs)).2.1 - m.durEnd

/-- Take records of one class in merge order while the backlog stays within the limit; the first that does not fit
and every later one are refused (R313). Answers what is accepted so far and what is refused. -/
def takeClass (m : Manifest) (limit : Nat) : List Record → List Record → List Record × List Record
  | acc, [] => (acc, [])
  | acc, r :: rs => if m.backlogWith (acc ++ [r]) ≤ limit then takeClass m limit (acc ++ [r]) rs else (acc, r :: rs)

def mib : Nat := 1048576

/-- What a commit accepts and refuses of the staged records (R313). -/
def Manifest.judge (m : Manifest) (staged : List Record) : List Record × List Record :=
  let l := mergeOrder staged
  let p := takeClass m (64 * mib) [] (l.filter Record.prot)
  let t := takeClass m (63 * mib) p.1 (l.filter Record.task)
  let s := takeClass m (63 * mib) t.1 (l.filter Record.lane)
  (s.1, p.2 ++ t.2 ++ s.2)

/-- MAN_BACKLOG: BYTES and PROT. -/
def Manifest.backlogBytes (m : Manifest) : Nat := m.rbp - m.durEnd
def Manifest.protBytes (m : Manifest) : Nat :=
  (m.backlog.filter fun p => (p.record.map Record.prot).getD false).foldl (fun a p => a + p.len) 0

/-! ### Levels and staging -/

/-- EV[336] and EV[337] follow their conditions (Table 7.16). -/
def State.syncMan (s : State) : State :=
  (s.setLevel evBacklog (decide (s.man.thresh < s.man.backlogBytes))).setLevel evRefusing s.man.refusing

/-- Held lockkeeper records are staged in a new pound while they fit, at its first instant (R303, R306). -/
def releaseHeld (when_ : Val) : Nat → List (Nat × List Word) → List Record × List (Nat × List Word)
  | _, [] => ([], [])
  | room, (typ, ws) :: rs =>
    let r := lkRecord when_ typ ws
    if r.len ≤ room then let x := releaseHeld when_ (room - r.len) rs; (r :: x.1, x.2) else ([], (typ, ws) :: rs)

/-- A configuration record (Table 15.12). -/
def State.stageConfig (s : State) (op : Nat) (tag : BitVec 32) (source : Nat) : State :=
  s.stageLk 0x11 [fixN op, fixN tag.toNat, fixN source]

/-- A task-lost record (Table 15.12). -/
def State.stageLost (s : State) (id reason : Nat) : State := s.stageLk 0x13 [fixN id, fixN reason]

/-- A GAP record of an abandoned frame task (R31, Table 14.3). -/
def State.stageGap (s : State) (id code : Nat) : State := s.stage (wordsRecord 3 3 id s.now [fixN code])

/-- Bytes of the background records staged (R303). -/
def Manifest.bgBytes (m : Manifest) : Nat := (m.staged.filter Record.bg).foldl (fun a r => a + r.len) 0

/-! ### The commit (R304, R313 to R315) -/

def kib32 (n : Nat) : Nat := min n (2 ^ 32 - 1)
/-- MAN_REFCNT: records and KiB refused since the last REFUSED record. -/
def Refusals.recs (r : Refusals) : Nat := kib32 (r.laneN + r.taskN + r.protN)
def Refusals.kib (r : Refusals) : Nat := kib32 ((r.laneB + r.taskB + r.protB) / 1024)
def Refusals.any (r : Refusals) : Bool := decide (0 < r.laneN + r.taskN + r.protN)

def sumLen (l : List Record) : Nat := l.foldl (fun a r => a + r.len) 0

/-- Add a commit's refusals to the totals. -/
def Refusals.add (t : Refusals) (when_ : Val) (l : List Record) : Refusals :=
  let ln := l.filter Record.lane
  let tk := l.filter Record.task
  let pr := l.filter Record.prot
  { firstP := if t.any then t.firstP else when_, lastP := when_
    laneN := t.laneN + ln.length, laneB := t.laneB + sumLen ln
    taskN := t.taskN + tk.length, taskB := t.taskB + sumLen tk
    protN := t.protN + pr.length, protB := t.protB + sumLen pr }

/-- The REFUSED record (R315). -/
def Refusals.record (t : Refusals) (when_ : Val) : Record :=
  wordsRecord 4 0x20 0 when_ [timeW t.firstP, timeW t.lastP, fixN t.laneN, fixN t.laneB, fixN t.taskN, fixN t.taskB,
    fixN t.protN, fixN t.protB]

/-! ### The mirrored region (R304, R316; its layout is log 63) -/

/-- Addressable word j of the mirrored region: its lines with bit 5 of the address clear (R220). -/
def State.regionAt (s : State) (j : Nat) : Nat := s.memc.mirBase + 64 * (j / 32) + j % 32

def State.putRegion (s : State) (j : Nat) (w : Word) : State := if s.memc.mirLen = 0 then s else s.wr (s.regionAt j) w

def Manifest.entryBytes (p : Placed) : List Byte :=
  match p.record with | some r => r.bytes p.msn | none => padBytes p.len

/-- Words of the backlog store, of 64 MiB; the word of a copy of the commit word. -/
def backlogWords : Nat := 2 ^ 23
def commitAt (n : Nat) : Nat := 3 * 2 ^ 23 + 8 * n

/-- Bytes as RAWD words at words of the region. -/
def wordsAt (at_ : Nat → Nat) (bs : List Byte) : List (Nat × Word) :=
  (List.range (bs.length / 8)).map fun i => (at_ i, rawd (BitVec.ofNat 64 (leAt bs (8 * i) 8)))

/-- An accepted entry in the backlog store, at its RBP. -/
def Placed.words (p : Placed) : List (Nat × Word) := wordsAt (fun i => (p.rbp / 8 + i) % backlogWords) (Manifest.entryBytes p)

def State.putWordsAt (s : State) (ws : List (Nat × Word)) : State := forEach ws s fun s jw => s.putRegion jw.1 jw.2

/-- The home agent reads words of the region, with the checks of every such read (R72, R75). -/
def State.readRegion (s : State) (js : List Nat) : State := if s.memc.mirLen = 0 then s else s.homeReads (js.map s.regionAt)

/-- The words that the region holds for an accepted entry. -/
def State.entryAt (s : State) (p : Placed) : List (Nat × Word) :=
  if s.memc.mirLen = 0 then p.words else p.words.map fun jw => (jw.1, s.rd (s.regionAt jw.1))

/-- The bytes of an accepted entry as the region holds them. -/
def State.entryRead (s : State) (p : Placed) : List Byte := (s.entryAt p).flatMap fun jw => leBytes 8 jw.2.val.toNat

/-- Every line of the backlog is read, as a flush and a change of region do. -/
def State.readBacklog (s : State) : State := forEach s.man.backlog s fun s p => s.readRegion (p.words.map Prod.fst)

/-! ### The staging area (R299, R302, R303, R316) -/

/-- Words of the staging area, of 67 MiB, which follows the backlog store. -/
def stagingWords : Nat := 67 * 2 ^ 17
def stagingAt (i : Nat) : Nat := backlogWords + i % stagingWords

/-- A staged record's words go into the staging area behind those before it; its MSN is not known yet and stands as 0. -/
def State.putStaged (s : State) (r : Record) : State :=
  let n := s.man.stageNext
  (s.putWordsAt (wordsAt (fun i => stagingAt (n + i)) (r.bytes 0))).modMan fun m => { m with stageNext := n + r.len / 8 }

/-- The records that are staged and not yet in the area are written to it. -/
def State.storeStaged (s : State) : State := forEach s.man.toStore (s.modMan fun m => { m with toStore := [] }) State.putStaged

/-- A commit reads what the pound has staged, and frees it. -/
def State.takeStaged (s0 : State) : State :=
  let s := s0.storeStaged
  let m := s.man
  (s.readRegion ((List.range (m.stageNext - m.stageFrom)).map fun i => stagingAt (m.stageFrom + i))).modMan fun m =>
    { m with stageFrom := m.stageNext }

/-- The words of a copy of the commit word: commit count, MAN_NEXT, MAN_RBP, entries of the commit, CRC. -/
def commitWords (count next rbp index : Nat) : List Word :=
  let vs := [count, next, rbp, index]
  (vs ++ [(crc32c (vs.flatMap (leBytes 8))).toNat]).map fun v => rawd (BitVec.ofNat 64 v)

/-- Both copies of the commit word are written. -/
def State.putCommit (s : State) (index : Nat) : State :=
  let ws := commitWords s.man.commits s.man.next s.man.rbp index
  forEach [0, 1] s fun s n => forEach ws.zipIdx s fun s wi => s.putRegion (commitAt n + wi.2) wi.1

/-- What a copy of the commit word holds when its CRC is good: commit count, MAN_NEXT, MAN_RBP. -/
def State.commitCopy (s : State) (n : Nat) : Option (Nat × Nat × Nat) :=
  let ws := (List.range 5).map fun i => s.rd (s.regionAt (commitAt n + i))
  let v (i : Nat) : Nat := (ws.getD i unbound).val.toNat
  if ws == commitWords (v 0) (v 1) (v 2) (v 3) then some (v 0, v 1, v 2) else none

/-- The commit word is performed: its records are accepted (R304); with a REFUSED record the totals clear (R315). -/
def State.performCommit (s : State) : State :=
  match s.man.inCommit with
  | none => s
  | some c =>
    let told := c.placed.any fun p => (p.record.map fun r => r.typ == 0x20 && r.cls == 4).getD false
    let s1 := (s.putWordsAt (c.placed.flatMap Placed.words)).modMan fun m =>
      { m with next := c.next, rbp := c.rbp, commits := m.commits + 1, backlog := m.backlog ++ c.placed, inCommit := none,
               ref := if told then {} else m.ref, refusing := m.refusing && !told }
    (s1.putCommit c.placed.length).syncMan

/-- The manifest's part of a tick commit: staged records are judged and placed, and wait for the commit word. Staged
records that the commit does not accept are freed. `when_` is TIME of the pound committed, which the refusals name. -/
def State.commitRecords (s0 : State) (when_ : Val) : State :=
  let s := s0.performCommit.takeStaged
  let m := s.man
  let staged := m.staged
  let held := releaseHeld (timeVal (s.weir.pound + 1) 0) 65536 m.lkHeld
  let base := { m with staged := held.1, toStore := held.1, lkHeld := held.2, lkBytes := sumLen held.1 }
  if m.st ≠ .opened then { s with man := base }
  else
    let j := m.judge staged
    let r := m.ref.record s.now
    let all := if j.2.isEmpty && m.ref.any && decide (m.backlogWith (j.1 ++ [r]) ≤ 64 * mib) then j.1 ++ [r] else j.1
    let pl := placeAll m.size m.rbp m.next (mergeOrder all)
    let ref := if j.2.isEmpty then m.ref else m.ref.add when_ j.2
    let busy := m.refusing || !j.2.isEmpty
    ({ s with man := { base with inCommit := some ⟨pl.2.2, pl.2.1, pl.1⟩, ref := ref, refusing := busy } }).syncMan

/-! ### Delivery (R309, R311) -/

/-- The entries one batch writes: from the writing position, within the ring space, until 256 KiB have been written (of a PAD
only the header is written, R307). Answers the entries and the position after them. -/
def batchOf (sz durEnd : Nat) : Nat → Nat → List Placed → List Placed × Nat
  | _, pos, [] => ([], pos)
  | room, pos, p :: ps =>
    if p.rbp < pos then batchOf sz durEnd room pos ps
    else if durEnd + sz < p.rbp + p.len || room = 0 then ([], pos)
    else
      let rest := batchOf sz durEnd (room - (if p.record.isSome then p.len else 32)) (p.rbp + p.len) ps
      (p :: rest.1, rest.2)

/-- One batch of delivery: the records as the mirrored region holds them, then the produced-through word once the writing has reached the value it last
held (R311). -/
def State.batch (s : State) : State :=
  let m := s.man
  if m.st ≠ .opened || !s.pins.linkUp then s
  else
    let b := batchOf m.size m.durEnd 262144 (max m.written m.durEnd) m.backlog
    let s1 := forEach b.1 s fun s p =>
      let s1 := s.readRegion (p.words.map Prod.fst)
      s1.emit (.hostWrite (m.ring + p.rbp % m.size) (s1.entryRead p))
    let s2 := s1.modMan fun m => { m with written := b.2 }
    match (b.1.filter fun p => p.record.isSome).getLast? with
    | none => s2
    | some p =>
      if p.rbp + p.len < m.ptRbp then s2
      else
        (s2.emit (.hostWrite m.ptaddr (leBytes 8 p.msn ++ leBytes 8 (p.rbp + p.len)))).modMan fun m =>
          { m with pt := p.msn, ptRbp := p.rbp + p.len }

/-- A resumption: writing starts again at the durable end (R311). -/
def State.resumeDelivery (s : State) : State := s.modMan fun m => { m with written := m.durEnd }

/-- The host declares records durable (R310). -/
def State.manDurable (s : State) (v : Val) : State :=
  let n := fld v 0 48
  let m := s.man
  if m.st = .opened ∧ m.durable < n ∧ n ≤ m.pt then
    let upTo := m.backlog.filter fun p => p.record.isSome && decide (p.msn ≤ n)
    let stop := match upTo.getLast? with | some p => p.rbp + p.len | none => m.durEnd
    (s.modMan fun m =>
      { m with durable := n, durEnd := stop, written := max m.written stop,
               backlog := m.backlog.filter fun p => decide (stop < p.rbp + p.len) }).syncMan
  else s.modMan fun m => { m with durbad := satInc 16 m.durbad }

/-! ### The longest record of a configuration (R308) -/

def longestOk (sz len : Nat) : Bool := decide (4 * len ≤ sz)

/-- The manifest is lost: both copies of the mirrored region are gone (R316). -/
def State.manLost (s : State) : State :=
  if s.man.st = .lost then s
  else ((s.log 0x22 uDevice [s.man.next, s.man.durable]).modMan fun m => { m with st := .lost, inCommit := none }).smbSync

/-- The lockkeeper sets up the mirrored region and writes the backlog's words and the commit word into it: on one copy while a triplet has
failed, with EV[352] (R220, R316); nothing is kept where both triplets of a pair have. -/
def State.setRegion (s : State) (base : Nat) (store : List (Nat × Word)) : State :=
  let deg := s.memc.tfail != 0
  let s1 := s.modMemc fun m => { m with mirBase := base, mirLen := 1024, mirdeg := deg }
  let s2 := ((s1.when_ deg fun s => s.raise evMem).putWordsAt store).putCommit s.man.backlog.length
  let both := (List.range 4).any fun t => bit s.memc.tfail t && bit s.memc.tfail (t + 4)
  if both && !s.man.backlog.isEmpty then s2.manLost else s2

/-- The warm reopening of the manifest from the sound copy of its commit word with the higher count (R317). -/
def State.reopen (s : State) : State :=
  if s.man.st ≠ .opened then s
  else
    let s1 := s.homeReads ([0, 1].flatMap fun n => (List.range 5).map fun i => s.regionAt (commitAt n + i))
    let best := match s1.commitCopy 0, s1.commitCopy 1 with
      | some a, some b => some (if a.1 < b.1 then b else a)
      | some a, none => some a
      | none, b => b
    match best with
    | some (n, next, rbp) => s1.modMan fun m => { m with commits := n, next := next, rbp := rbp, st := .opened }
    | none => s1.manLost

/-! ### Registers (Table 14.7) -/

def State.manRead (s : State) (off : Nat) : Val :=
  let m := s.man
  match off with
  | 0 => flag m.en 63 ||| put m.sz 32 6 ||| put m.thresh 0 27
  | 1 => BitVec.ofNat 64 m.ring
  | 2 => BitVec.ofNat 64 m.ptaddr
  | 3 => put m.next 0 48
  | 4 => BitVec.ofNat 64 m.rbp
  | 5 => put m.pt 0 48
  | 6 => put m.durable 0 48
  | 7 => put m.protBytes 32 27 ||| put m.backlogBytes 0 27
  | 8 => put m.st.code 60 4 ||| flag m.refusing 59 ||| flag (m.en && s.memc.mirdeg) 58 ||| flag (m.en && !s.pins.linkUp) 57 ||| put m.durbad 32 16
      ||| put m.bgdrop 16 16
  | 9 => put m.ref.recs 32 32 ||| put m.ref.kib 0 32
  | 10 => put m.flushSeq 48 16 ||| put m.flushArea 46 2
      ||| flag (s.vault.area0.isSome || s.vault.area1.isSome) 45
  | _ => 0

/-- An SGRAM channel fails and with it its triplet (R222); when the other triplet of its pair has failed too, the backlog is
lost (R316). TRIP[t] holds channels 3t to 3t + 2 (R216). -/
def State.failChannel (s : State) (ch reason : Nat) : State :=
  let t := ch / 3
  let s1 := (s.modMemc fun m => { m with cfail := setBit m.cfail ch true }).failTriplet t ch reason
  let both := bit s1.memc.tfail t && bit s1.memc.tfail ((t + 4) % 8)
  if both && decide (0 < s1.memc.mirLen) then s1.manLost else s1

/-- The EDC check of a read or write burst with n mismatches: up to 3 repeats, each counted; a fourth fails the channel (R215, R222). -/
def State.edcCheck (s : State) (line : Nat) (ch : Fin 3) (n : Fin 5) : State :=
  let t := tripOf (8 * line)
  if n = 0 || s.tfailed (8 * line) then s
  else
    let s1 := s.modEcc t fun x => { x with edc := (x.edc + min n.val 3) % 65536 }
    if n = 4 then s1.failChannel (3 * t + ch.val) 2 else s1

end Sys2Proof.Machine
end

