-- ==== Sys2Proof/Machine/Hub.lean ====
section
/-!
DEFINITION. The run state, PERMIT and the abort outputs (R268), the Towline hub's cells, links and streams (chapter 11),
DRIVE, HOLD and SAFE cells (R32, R253, R255, R267), and the abort operation (R264).
-/

namespace Sys2Proof.Machine

def State.modWeir (s : State) (f : Weir → Weir) : State := { s with weir := f s.weir }
def State.modSil (s : State) (f : Sill → Sill) : State := { s with sil := f s.sil }
def State.modLk (s : State) (f : Lk → Lk) : State := { s with lk := f s.lk }
def State.modMbx (s : State) (f : Mbx → Mbx) : State := { s with mbx := f s.mbx }
def State.modPins (s : State) (f : Pins → Pins) : State := { s with pins := f s.pins }
def State.modDbg (s : State) (f : Dbg → Dbg) : State := { s with dbg := f s.dbg }

/-! ### What is running -/

/-- Powered and out of reset (R384, R396). -/
def State.on (s : State) : Bool := s.pins.pwrOk && !s.pins.thermtrip && !s.pins.railBad
/-- Neither frozen nor held (R374, R375). -/
def State.clocked (s : State) : Bool := s.on && !s.dbg.frozen && !s.dbg.held
/-- Engines and fabric run: no freeze, no warm restart, no power-fail flush (R354, R374, Table 14.5). -/
def State.engines (s : State) : Bool := s.clocked && s.lk.warm.isNone && s.pins.flush == .none

/-! ### PERMIT and ABORT_OUT_N (R265, R268) -/

def grpPermit (v : Val) : Bool := bit v 63
def grpOuten (v : Val) : Bool := bit v 62
def grpStop (v : Val) : Bool := bit v 61
def grpLinks (v : Val) (n : Nat) : Bool := bit v n && decide (n < 24)

def State.anyAborted (s : State) (p : Val → Bool) : Bool :=
  [0, 1, 2, 3].any fun g => bit s.sil.aborted g && p (s.sillOf g)

/-- A pound of a run is open: RUNNING, or STOPPING once the first pound has begun (R268). -/
def State.runOpen (s : State) : Bool :=
  s.weir.runSt == .running || (s.weir.runSt == .stopping && decide (s.weir.first.toNat ≤ s.weir.pound.toNat))

def State.permitHigh (s : State) : Bool :=
  s.sil.armed && s.runOpen && !s.anyAborted grpPermit && !s.pins.abortIn && !s.pins.freezeN && !s.pins.pfailN
    && s.engines && s.lk.st != .failed

def State.syncPermit (s : State) : State :=
  (s.modSil fun x => { x with permit := s.permitHigh, abin := s.pins.abortIn,
                              about := s.anyAborted grpOuten || s.pins.freezeN || s.pins.pfailN }).smbSync

/-! ### The run state (Table 2.17, R336) -/

/-- A change of WEI_RUN.STATE: its record, its black-box entry, EV[210] and PERMIT. -/
def State.setRun (s : State) (new : RunSt) (cause : Nat) : State :=
  let old := s.weir.runSt
  if old = new then s
  else
    let s1 := (s.log 0x60 uDevice [old.code, new.code, cause]).stageLk 0x10 [fixN old.code, fixN new.code, fixN cause]
    ((s1.modWeir fun w => { w with runSt := new }).raise evRun).syncPermit

/-- An orderly stop (R34): the tick that ends the pound in progress makes the run STOPPED. -/
def State.orderlyStop (s : State) (cause : Nat) : State :=
  match s.weir.runSt with
  | .running | .starting => (s.setRun .stopping cause).modWeir fun w => { w with stopCause := cause, startIn := 0 }
  | _ => s

/-! ### Streams (Tables 11.17, 11.18) -/

def sEn (v : Val) : Bool := bit v 63
def sKind (v : Val) : Nat := fld v 61 2
def sLog (v : Val) : Bool := bit v 60
def sFmt (v : Val) : Nat := fld v 58 2
def sSid (v : Val) : Nat := fld v 48 8
def sLink (v : Val) : Nat := fld v 40 5
def sNch (v : Val) : Nat := fld v 0 13
def gNsamp (v : Val) : Nat := fld v 48 16
def gFirst (v : Val) : Nat := fld v 24 14
def gCells (v : Val) : Nat := fld v 0 24
def elemSize (fmt : Nat) : Nat := if fmt = 1 then 2 else 4

def Stream.bytes (x : Stream) : Nat := sNch x.scfg * gNsamp x.sgeom * elemSize (sFmt x.scfg)
def Stream.isOn (x : Stream) (n kind : Nat) : Bool := sEn x.scfg && sLink x.scfg == n && sKind x.scfg == kind

/-- Streams of a kind on a link, in ascending SID order. -/
def insertSid (kx : Nat × Stream) : List (Nat × Stream) → List (Nat × Stream)
  | [] => [kx]
  | y :: ys => if sSid kx.2.scfg ≤ sSid y.2.scfg then kx :: y :: ys else y :: insertSid kx ys

def State.streamsOn (s : State) (n kind : Nat) : List (Nat × Stream) :=
  (s.twl.streams.filter fun kx => kx.2.isOn n kind).foldr insertSid []

/-- The stream of a kind with a SID on a link. -/
def State.streamBySid (s : State) (n kind sid : Nat) : Option (Nat × Stream) :=
  s.twl.streams.find? fun kx => kx.2.isOn n kind && sSid kx.2.scfg == sid

/-! ### Links (Table 11.12) -/

def lEn (v : Val) : Bool := bit v 63
def lRate (v : Val) : Nat := fld v 61 2
def lSpen (v : Val) : Bool := bit v 60
def lWidth (v : Val) : Nat := fld v 58 2 + 1
def lSpare (v : Val) : Nat := fld v 40 5
def lLane (v : Val) (p : Nat) : Nat := fld v (20 + 5 * p) 5
def lDrive (v : Val) : Bool := bit v 16
def lcfgMask : Val := 0xFC01FFFFFFF1FFFF

/-- ALIGN, UP or DEGRADED. -/
def LinkSt.alive : LinkSt → Bool | .align | .up | .degraded => true | _ => false
def LinkSt.carries : LinkSt → Bool | .up | .degraded => true | _ => false

/-- Groups aborted on a link: those whose abort named it (R264). -/
def State.abortedOn (s : State) (n : Nat) : Nat := (s.linkOf n).aborted.toNat

/-- A cell becomes ready on a link, behind the ready cells of its kind (R243). -/
def State.queueCell (s : State) (n : Nat) (c : TxCell) : State := s.modLink n fun l => { l with waitq := l.waitq ++ [c] }

/-- Bits 15:0 of the current pound. -/
def State.pound16 (s : State) : Nat := s.weir.pound.toNat % 65536

/-- Cut a byte string into cells of 116 bytes of one stream (R250). -/
def cellsOf (typ pound sid : Nat) (bytes : List Byte) : List TxCell :=
  let parts := chunks 116 bytes.length bytes
  parts.zipIdx.map fun pi =>
    { typ := typ, last := pi.2 + 1 == parts.length, pound := pound, sid := sid, index := pi.2, payload := pi.1 }

/-- Discard staged drive bytes of a link and close its staging (R32, R253). -/
def State.closeStaging (s : State) (n : Nat) : State :=
  forEach (s.streamsOn n 1) s fun s kx => s.modStream kx.1 fun x => { x with stag := [], opened := false }

/-- HOLD for the pound on a link that is not aborted (R32, R255). -/
def State.issueHold (s : State) (n : Nat) : State :=
  let l := s.linkOf n
  if l.drvSent || s.abortedOn n != 0 then s
  else
    let s1 := (s.closeStaging n).modLink n fun l => { l with drvSent := true }
    if l.st.alive then s1.queueCell n { typ := 4, pound := s.pound16, repl := true } else s1

/-- Every writer of a link has completed: its DRIVE cells, or HOLD when a stream holds fewer bytes than its count, the link is in ALIGN, or a
writer was withdrawn at its restart (R32, R38, R253, Table 11.3). -/
def State.issueDrive (s : State) (n : Nat) : State :=
  let l := s.linkOf n
  if l.drvSent || s.abortedOn n != 0 then s
  else
    let xs := s.streamsOn n 1
    if l.lost || (xs.any fun kx => kx.2.stag.length != kx.2.bytes) || l.st == .align then s.issueHold n
    else
      let cs := xs.flatMap fun kx => cellsOf 3 s.pound16 (sSid kx.2.scfg) kx.2.stag
      (s.closeStaging n).modLink n fun l => { l with drvSent := true, waitq := l.waitq ++ cs }

/-- Lanes of a link's positions that still work. -/
def State.workingLanes (s : State) (n : Nat) : Nat :=
  ((s.linkOf n).map.filter fun m => (s.laneOf m).st != 4).length

def TxCell.isDrive (c : TxCell) : Bool := c.typ == 3 && !c.safe

/-- D_out at a drive link (R32): DRIVE cells that wait in a link without working lanes count as not sent (R253). -/
def State.dOutLink (s : State) (n : Nat) : State :=
  let l := s.linkOf n
  if !lEn l.lcfg || !lDrive l.lcfg then s
  else
    let stuck := l.waitq.any TxCell.isDrive && (!l.st.carries || s.workingLanes n == 0)
    let s1 := if stuck then
        s.modLink n fun l => { l with waitq := l.waitq.filter fun c => !c.isDrive, drvSent := false }
      else s
    s1.issueHold n

/-! ### Safe-frame profiles (R267) -/

/-- Sizes of one frame's values in order. -/
def State.frameSizes (s : State) (n : Nat) : List Nat :=
  (s.streamsOn n 1).flatMap fun kx => List.replicate (sNch kx.2.scfg) (elemSize (sFmt kx.2.scfg))

/-- Largest NSAMP among the drive streams of a link. -/
def State.gridM (s : State) (n : Nat) : Nat := (s.streamsOn n 1).foldl (fun a kx => max a (gNsamp kx.2.sgeom)) 0

/-- Pack values into payloads of at most 116 bytes without splitting a value. -/
def packValues : List Nat → List Byte → List Byte → List (List Byte)
  | [], cur, _ => if cur.isEmpty then [] else [cur]
  | sz :: rest, cur, bs =>
    if 116 < cur.length + sz then cur :: packValues rest (bs.take sz) (bs.drop sz)
    else packValues rest (cur ++ bs.take sz) (bs.drop sz)

/-- The next frames of an aborted link's profile as SAFE cells. -/
def State.safeBatch (s : State) (n count : Nat) : State :=
  let p := mget profD s.sil.prof n
  match (s.linkOf n).safePos with
  | none => s
  | some pos =>
    let k := min count (p.frames - pos)
    if k = 0 || !(s.linkOf n).st.alive then s
    else
      let sizes := s.frameSizes n
      let frame := sizes.foldl (· + ·) 0
      let parts := packValues (List.flatten (List.replicate k sizes)) [] (slice p.bytes (pos * frame) (k * frame))
      let cs := parts.zipIdx.map fun pi =>
        { typ := 3, last := pi.2 + 1 == parts.length, safe := true, pound := s.pound16, sid := 0xFF, index := pi.2,
          payload := pi.1 : TxCell }
      s.modLink n fun l => { l with safePos := some (pos + k), waitq := l.waitq ++ cs }

/-- The ABORT cell of a link: the pound number and every group aborted on the link (R255). -/
def State.abortCell (s : State) (n : Nat) : TxCell :=
  { typ := 2, pound := s.pound16, repl := true, payload := leBytes 6 s.weir.pound.toNat ++ leBytes 1 (s.abortedOn n) }

/-- The abort sequence on one link (R255, R264): staged and waiting drive data go; the profile starts unless the link
was already aborted (R267). -/
def State.abortLink (s : State) (n : Nat) : State :=
  let l := s.linkOf n
  let first := l.safePos.isNone
  let keep (c : TxCell) : Bool := !(c.isDrive || c.typ == 4)
  let s1 := (s.closeStaging n).modLink n fun l =>
    { l with waitq := l.waitq.filter keep, safePos := if first then some 0 else l.safePos }
  let s2 := if l.st.alive then s1.queueCell n (s1.abortCell n) else s1
  if first then s2.safeBatch n (2 * s2.gridM n) else s2

/-- The groups of a mask. -/
def groupsOf (groups : Nat) : List Nat := [0, 1, 2, 3].filter fun g => groups.testBit g

/-- Groups latch aborted, and with them every link that they name (R264). -/
def State.latchAbort (s : State) (gs : List Nat) : State :=
  let s1 := (s.modSil fun x => { x with aborted := gs.foldl (fun a g => setBit a g true) x.aborted }).syncSill
  let names (n : Nat) : List Nat := gs.filter fun g => grpLinks (s1.sillOf g) n
  let links := (List.range 24).filter fun n => !(names n).isEmpty
  (forEach links s1 fun s n =>
    let s1 := s.modLink n fun l => { l with aborted := (names n).foldl (fun m g => setBit m g true) l.aborted }
    if lEn (s1.linkOf n).lcfg then s1.abortLink n else s1).syncPermit

/-- Groups whose abort has latched in the current REFCLK period. -/
def State.freshAborts (s : State) : BitVec 4 :=
  match s.sil.fresh with | some (n, gs) => if n = s.pins.since then gs else 0 | none => 0

/-- An abort of a set of groups (R264). `src` is SIL_STAT.SRC; `chan` the channel of a firing. -/
def State.abort (s : State) (groups src chan : Nat) : State :=
  let gs := groupsOf groups
  let fresh := gs.foldl (fun a g => setBit a g true) s.freshAborts
  let s1 := (s.modSil fun x => { x with src := src, aborts := satInc 16 x.aborts, fresh := some (s.pins.since, fresh) }).log 0x68 uDevice
    [groups, src, chan]
  let s2 := s1.latchAbort gs
  if gs.any fun g => grpStop (s2.sillOf g) then s2.orderlyStop 3 else s2

/-- The tick that opens the first pound of a run clears the aborts (R265), and the guard starts without previous samples
(R262); the TICK cell carries ABCLR. -/
def State.clearAborts (s : State) : State :=
  let s1 := (s.modSil fun x =>
    { x with aborted := 0, chan := (x.chan.map fun kc => (kc.1, { kc.2 with prev := none })).filter fun kc => kc.2 != {} }).syncSill
  forEach (List.range 24) s1 fun s n => s.modLink n fun l => { l with safePos := none, aborted := 0 }

/-- What stands after that tick: an abort that latched in its REFCLK period (R265), and while ABORT_IN_N stays low the abort of all groups
(R390). -/
def State.standingAborts (s : State) : State :=
  s.latchAbort (groupsOf (if s.pins.abortIn then 15 else s.freshAborts.toNat))

/-! ### CONTROL cells (Table 11.9) -/

def ctlPayload (op seq addr count result : Nat) (data : List Val) : List Byte :=
  leBytes 2 op ++ leBytes 2 seq ++ leBytes 4 addr ++ leBytes 1 count ++ leBytes 1 result ++ leBytes 6 0
    ++ data.flatMap fun v => leBytes 8 v.toNat

/-- A CONTROL request with the link's next SEQ, on any position or on one. -/
def State.queueCtl (s : State) (n op addr count : Nat) (data : List Val) (pos : Option Nat) : State :=
  let q := (s.linkOf n).ctlSeq
  let c : TxCell := { typ := 6, pound := s.pound16, pos := pos, payload := ctlPayload op q.toNat addr count 0 data }
  (s.modLink n fun l => { l with ctlSeq := l.ctlSeq + 1 }).queueCell n c

/-- ECHO requests on each position (R248). -/
def State.queueEcho (s : State) (n : Nat) : State :=
  forEach (List.range (s.linkOf n).map.length) s fun s p => s.queueCtl n 3 0 0 [] (some p)

/-! ### Link states (Table 11.3) -/

/-- A change of a link's state raises its event; DOWN is entered in the black box with the previous state. -/
def State.setLinkSt (s : State) (n : Nat) (st : LinkSt) : State :=
  let old := (s.linkOf n).st
  if old = st then s
  else
    let s1 := (s.modLink n fun l => { l with st := st }).raise (evLink n)
    if st = .down then s1.log 0x31 (uLink n) [old.code] else s1

def State.setLaneSt (s : State) (m st : Nat) : State := s.modLane m fun l => { l with st := st }

/-- Lanes of a link: its positions, then its spare if one is configured. -/
def Link.lanes (l : Link) : List Nat :=
  (List.range (lWidth l.lcfg)).map (lLane l.lcfg) ++ (if lSpen l.lcfg then [lSpare l.lcfg] else [])

/-- A link goes DOWN: its lanes go electrically idle, what waits for the wire goes but drive, control and bulk cells. -/
def State.linkDown (s : State) (n : Nat) : State :=
  let s1 := s.setLinkSt n .down
  s1.modLink n fun l =>
    { l with restripe := none, lastLock := none, earlyRun := 0,
             waitq := l.waitq.filter fun c => c.isDrive || c.typ == 6 || c.typ == 7 }

/-- TRAIN: every lane of the link trains again, the map is that of LINK_CONFIG. -/
def State.linkTrain (s : State) (n : Nat) : State :=
  let l := s.linkOf n
  let s1 := forEach l.lanes s fun s m =>
    s.modLane m fun x => { x with st := 1, los := false, cdrlk := false, feclk := false, link := n }
  (s1.modLink n fun l =>
    { l with map := (List.range (lWidth l.lcfg)).map (lLane l.lcfg), spuse := false, spfail := false, nrz := false, slots := 0,
             restripe := none, lastLock := none, earlyRun := 0 }).setLinkSt n .train

/-- CAL_LANE[m]: TXOFS and RXOFS of the set in force (Table 17.5). -/
def State.calLane (s : State) (m : Nat) : Val :=
  if s.cal.valid then put (leAt s.cal.bytes (24 + 8 * m) 4) 32 32 ||| put (leAt s.cal.bytes (28 + 8 * m) 4) 0 32 else 0

/-- ALIGN: calibrated offsets apply from this entry (R367), ECHO requests leave (R248); an aborted link receives ABORT in
place of HOLD. -/
def State.linkAlign (s : State) (n : Nat) : State :=
  let s1 := forEach (s.linkOf n).lanes s fun s m => s.modLane m fun x => { x with ofs := s.calLane m }
  let s2 := ((s1.modLink n fun l => { l with lastLock := none, earlyRun := 0 }).setLinkSt n .align).queueEcho n
  if s2.abortedOn n != 0 then s2.abortLink n else s2

/-- Where the STATUS pair takes a link in ALIGN: DEGRADED with the spare in use or at NRZ, UP otherwise (Table 11.3, row ALIGN). -/
def Link.alignTarget (l : Link) : LinkSt := if l.spuse || l.nrz then .degraded else .up

/-- The link of a lane that is in use. -/
def State.linkOfLane (s : State) (m : Nat) : Option Nat :=
  if (s.laneOf m).st = 0 then none else some (s.laneOf m).link

/-- Whether the spare of a link is trained and unused. -/
def State.spareReady (s : State) (n : Nat) : Bool :=
  let l := s.linkOf n
  lSpen l.lcfg && !l.spuse && !l.spfail && (s.laneOf (lSpare l.lcfg)).st == 3

/-- What the lane and link registers show of a lane declared failed for cause 1 to 5 in R238's order: loss of signal, loss of clock
recovery, and the four uncorrectable codewords of cause 3. -/
def State.laneSymptoms (s : State) (n m cause : Nat) : State :=
  let unc := if cause = 3 then 4 else 0
  (s.modLane m fun x =>
    { x with los := x.los || cause == 1, cdrlk := x.cdrlk && cause != 2, fecunc := satInc 16 x.fecunc unc }).modLink n fun l =>
    { l with fecunc := satInc 16 l.fecunc unc }

/-- A lane is declared failed (R238 to R240): its event and entry, then a re-stripe, DOWN, or a lost spare. -/
def State.failLane (s : State) (m cause : Nat) : State :=
  match s.linkOfLane m with
  | none => s
  | some n =>
    if (s.laneOf m).st = 4 then s
    else
      let wasSpare := !(s.linkOf n).map.contains m
      let s1 := (((s.laneSymptoms n m cause).setLaneSt m 4).log 0x30 (uLane m) [cause]).raise (evLane m)
      let s2 := s1.modLink n fun l => { l with faillane := m }
      let l := s2.linkOf n
      if wasSpare then
        let s3 := s2.modLink n fun l => { l with spfail := true }
        if l.restripe.isSome then s3.linkDown n
        else if l.st = .up then s3.setLinkSt n .degraded else s3
      else if l.st = .down then s2
      else if s2.spareReady n && l.restripe.isNone then
        s2.modLink n fun l => { l with restripe := some (l.map.idxOf m, false) }
      else s2.linkDown n

/-- LANEMAP DATA word 0: the connector that serves each position; position p keeps connector p (R257). -/
def lanemapWord (width pos : Nat) : Val :=
  (List.range width).foldl (fun a p => a ||| put (if p = pos then 4 else p) (3 * p) 3) 0

/-! ### Slots and positions (R234, R237, R242; log 64) -/

/-- The header of a cell (Table 11.4). -/
def TxCell.header (c : TxCell) : Val :=
  put c.typ 60 4 ||| flag c.last 59 ||| flag c.safe 58 ||| flag c.lmark 57 ||| put c.pound 40 16 ||| put c.sid 32 8 ||| put c.index 8 24 |||
    put c.payload.length 0 8

/-- The 128 bytes of a cell: header, payload with zeros behind it, CRC-32C. -/
def TxCell.bytes (c : TxCell) : List Byte :=
  let body := leBytes 8 c.header.toNat ++ (c.payload ++ List.replicate (116 - c.payload.length) 0).take 116
  body ++ leBytes 4 (crc32c body).toNat

/-- Position and slot of it that come next on a link of 1 to 4 positions. -/
def Link.width (l : Link) : Nat := max 1 l.map.length
def Link.posNext (l : Link) : Nat := l.slots % l.width
def Link.slotNext (l : Link) : Nat := l.slots / l.width

/-- In every 256th codeword the first of its five slots carries a lane marker. -/
def markerSlot (slot : Nat) : Bool := slot % 1280 == 0

/-- Whether the spare of a link carries cells of its own: trained and unused, or in TRAIN with the link. -/
def State.spareSends (s : State) (n : Nat) : Bool :=
  let l := s.linkOf n
  s.spareReady n || (lSpen l.lcfg && l.st == .train && !l.spfail)

/-- Lane and position of everything a link sends on. -/
def State.places (s : State) (n : Nat) : List (Nat × Nat) :=
  (s.linkOf n).map.zipIdx ++ (if s.spareSends n then [(lSpare (s.linkOf n).lcfg, 4)] else [])

/-- A cell leaves in a slot of a position; nothing leaves on a failed lane. -/
def State.sendOn (s : State) (n pos lane slot : Nat) (c : TxCell) : State :=
  if (s.laneOf lane).st = 4 then s else s.emit (.cell n pos slot c.bytes)

/-- The same slot of every position and of the spare, each with its own cell. -/
def State.sendRow (s : State) (n : Nat) (cell : State → Nat × Nat → TxCell × State) : State :=
  let l := s.linkOf n
  (forEach (s.places n) s fun s mp => let r := cell s mp; r.2.sendOn n mp.2 mp.1 l.slotNext r.1).modLink n fun l =>
    { l with slots := (l.slotNext + 1) * l.width }

def State.idleCell (s : State) : TxCell := { typ := 0, pound := s.pound16 }

/-- A lane marker: link number and position. -/
def State.markerCell (s : State) (n pos : Nat) : TxCell :=
  { typ := 0, lmark := true, pound := s.pound16, payload := [BitVec.ofNat 8 n, BitVec.ofNat 8 pos] }

/-- The lane markers leave when their slot has come. -/
def State.sendMarkers (s : State) (n : Nat) : State :=
  let l := s.linkOf n
  if l.posNext = 0 ∧ markerSlot l.slotNext then s.sendRow n fun s mp => (s.markerCell n mp.2, s) else s

/-- One slot of one position; the spare sends IDLE with the first. -/
def State.sendSlot (s : State) (n : Nat) (c : TxCell) : State :=
  let l := s.linkOf n
  let s1 := if l.posNext = 0 && s.spareSends n then s.sendOn n 4 (lSpare l.lcfg) l.slotNext s.idleCell else s
  let s2 := match l.map[l.posNext]? with | some m => s1.sendOn n l.posNext m l.slotNext c | none => s1
  s2.modLink n fun l => { l with slots := l.slots + 1 }

/-- IDLE cells in what is left of a row of slots, so that a replicated cell can follow. -/
def State.fillRow (s : State) (n : Nat) : State :=
  let l := s.linkOf n
  if l.posNext = 0 then s else forEach (List.range (l.width - l.posNext)) s fun s _ => s.sendSlot n s.idleCell

/-- The LANEMAP request leaves (R239): the spare takes the position, and the cell is the first of the new map. -/
def State.reStripe (s : State) (n : Nat) : State :=
  let l := s.linkOf n
  match l.restripe with
  | some (pos, false) =>
    let sp := lSpare l.lcfg
    let seq := l.ctlSeq
    let c : TxCell :=
      { typ := 6, pound := s.pound16, repl := true,
        payload := ctlPayload 4 seq.toNat 0 0 0 [lanemapWord (lWidth l.lcfg) pos] }
    let s1 := ((s.fillRow n).sendMarkers n).modLink n fun l =>
      { l with restripe := some (pos, true), map := l.map.set pos sp, spuse := true, ctlSeq := seq + 1 }
    (s1.sendRow n fun s _ => (c, s)).setLaneSt sp 2
  | _ => s

/-- The LANEMAP response ends a re-stripe (R239): UP becomes DEGRADED, ALIGN stays; ECHO requests follow (R248). -/
def State.lanemapDone (s : State) (n : Nat) : State :=
  let l := s.linkOf n
  match l.restripe with
  | some (_, true) =>
    let s1 := s.modLink n fun l => { l with restripe := none, failcnt := satInc 4 l.failcnt }
    (if l.st = .up then s1.setLinkSt n .degraded else s1).queueEcho n
  | _ => s

/-! ### The cell slot (R243, R245) -/

/-- Priority of a waiting cell (Table 11.5). -/
def TxCell.rank (c : TxCell) : Nat := match c.typ with | 1 => 1 | 2 => 2 | 3 => 3 | 4 => 3 | 6 => 5 | 7 => 6 | _ => 7

/-- Whether a link may send a waiting cell now (Table 11.3, R239, R255, R259). -/
def State.maySend (s : State) (n : Nat) (c : TxCell) : Bool :=
  let l := s.linkOf n
  if l.restripe.isSome then c.typ == 1 || c.typ == 2
  else match l.st with
    | .up | .degraded => c.typ != 7 || decide (l.bulkDn < l.dbulk.toNat)
    | .align => c.typ == 1 || c.typ == 2 || c.typ == 4 || c.safe || (c.typ == 6 && leAt c.payload 0 2 == 3)
    | _ => false

/-- The waiting cell to send on a position, of the lowest rank, in the order the cells became ready. -/
def State.pickCell (s : State) (n : Nat) : Option TxCell :=
  let l := s.linkOf n
  let ready := l.waitq.filter fun c => s.maySend n c && (c.pos == none || c.pos == some l.posNext)
  let best := ready.foldl (fun a c => min a c.rank) 9
  ready.find? fun c => c.rank == best

/-- A copy of a TICK cell: TDLY, LATOFS and LINKPOS of its position (Table 11.6). TDLY is the time to the copy's first symbol, which the
spec fixes only as a bound: a free value (log 3). -/
def State.tickCopy (n : Nat) (c : TxCell) (s : State) (mp : Nat × Nat) : TxCell × State :=
  let (v, s1) := s.fresh
  let body := c.payload.take 16 ++ leBytes 4 v.toNat ++ leBytes 4 (fld (s.laneOf mp.1).ofs 32 32)
    ++ (c.payload.drop 24).take 8 ++ [BitVec.ofNat 8 n, BitVec.ofNat 8 mp.2]
  ({ c with payload := body }, s1)

/-- A waiting cell leaves: a copy on every position, or the slot that comes next. -/
def State.sendCell (s : State) (n : Nat) (c : TxCell) : State :=
  let s1 := s.modLink n fun l => { l with waitq := l.waitq.erase c, bulkDn := if c.typ = 7 then l.bulkDn + 1 else l.bulkDn }
  if !c.repl then s1.sendSlot n c else s1.sendRow n (if c.typ = 1 then State.tickCopy n c else fun s _ => (c, s))

/-- One free cell slot of a link: the highest-priority waiting cell, else IDLE; lane markers before it when they are due. A replicated
cell waits for a slot that all positions share. DOWN sends nothing, TRAIN only IDLE cells (Table 11.3). -/
def State.cellSlot (s : State) (n : Nat) : State :=
  if (s.linkOf n).st = .down then s
  else
    let s1 := s.sendMarkers n
    match s1.pickCell n with
    | some c => if c.repl && (s1.linkOf n).posNext != 0 then s1.sendSlot n s1.idleCell else s1.sendCell n c
    | none => s1.sendSlot n s1.idleCell

/-- TICK cells on every link in ALIGN, UP or DEGRADED, with the next frames of a profile behind them (R245, R267). -/
def State.tickCells (s : State) (synth abclr : Bool) : State :=
  forEach (List.range 24) s fun s n =>
    let l := s.linkOf n
    let occ := (s.streamsOn n 2).foldl (fun a kx =>
      a + ((s.slu.chans.filter fun kc => kc.2.desc.isSome && kx.2.holder.map Fin.val == some kc.1).foldl
        (fun b kc => b + kc.2.inbuf.length) 0)) 0
    let cred := (65536 - occ) / 116
    let s0 := s.modLink n fun l =>
      { l with bulkUp := 0, bulkDn := 0, bulkCred := if l.st.alive then cred else 0, drvSent := false,
               earlyRun := if l.earlyNow then l.earlyRun else 0, earlyNow := false }
    if l.st.alive then
      let flags := synth.toNat + 2 * (s.weir.runSt == .running).toNat + 4 * abclr.toNat + 8 * s.weir.src.toNat
      let body := leBytes 6 s.weir.pound.toNat ++ leBytes 1 flags ++ leBytes 1 (s.abortedOn n) ++ leBytes 4 s.weir.len
        ++ leBytes 4 s.weir.lastLen ++ leBytes 8 0 ++ leBytes 4 s.weir.din ++ leBytes 4 cred
      let s1 := s0.queueCell n { typ := 1, pound := s.pound16, repl := true, payload := body }
      if s.abortedOn n != 0 then s1.safeBatch n (s1.gridM n) else s1
    else s0

end Sys2Proof.Machine
end

