-- ==== Sys2Proof/Machine/Responses.lean ====
section
/-!
DEFINITION. What the wharf and the lockkeeper send back: MSI-X messages (R185), response entries (R327), inbox entries
(R340), results at OUTADDR (R327, R334).
-/

namespace Sys2Proof.Machine

/-! ### MSI-X (R185) -/

/-- An MSI-X table word as the PCI Express specification resets it: the mask bit of every vector set (log 21). -/
def msixD (k : Nat) : Val := if k % 2 = 1 then 0x100000000 else 0

def State.msixWord (s : State) (k : Nat) : Val := mget msixD s.mbx.msix k
def State.msixMasked (s : State) (v : Nat) : Bool := bit (s.msixWord (2 * v + 1)) 32

/-- Send a message on a vector, or record it as pending while the vector is masked. -/
def State.sendMsix (s : State) (v : Nat) : State :=
  if s.msixMasked v then s.modMbx fun m => { m with pba := setBit m.pba v true } else s.emit (.msix v)

/-- A write of the table; unmasking a pending vector sends its message. -/
def State.putMsix (s : State) (k : Nat) (v : Val) : State :=
  let s1 := s.modMbx fun m => { m with msix := mset msixD m.msix k v }
  if s1.mbx.pba.getLsbD (k / 2) && !s1.msixMasked (k / 2) then
    (s1.modMbx fun m => { m with pba := setBit m.pba (k / 2) false }).emit (.msix (k / 2))
  else s1

/-! ### The response ring (R327) -/

def State.ringSize (s : State) : Nat := 2 ^ s.mbx.log2n.toNat
/-- TAIL − HEAD modulo 2^32. -/
def State.ringUsed (s : State) : Nat := (s.mbx.tail - s.mbx.head).toNat
def State.ringFull (s : State) : Bool := s.mbx.en && decide (s.ringSize ≤ s.ringUsed)

/-- The 64 bytes of an entry (Table 15.7). -/
def Response.bytes (r : Response) : List Byte :=
  leBytes 4 r.tag.toNat ++ leBytes 2 r.op ++ leBytes 2 r.status ++ leBytes 4 r.out.length ++ [0, 0, 0] ++
    [BitVec.ofNat 8 (r.prio.toNat + 2 * r.tick.toNat)] ++ fit 48 r.result

/-- Write a long result, the entry, the tail word and, with RSPIRQ, the message. -/
def State.writeEntry (s : State) (r : Response) : State :=
  let m := s.mbx
  let at_ := m.rspbase.toNat + 64 * (m.tail.toNat % s.ringSize)
  let s0 := if r.out.isEmpty then s else s.emit (.hostWrite r.outAddr r.out)
  let s1 := (s0.emit (.hostWrite at_ r.bytes)).emit (.hostWrite m.rsptaddr.toNat (leBytes 8 (m.tail + 1).toNat))
  let s2 := s1.modMbx fun m => { m with tail := m.tail + 1 }
  if m.rspirq then s2.sendMsix m.rspvec.toNat else s2

/-- Write waiting responses in order while the ring is enabled and has space and the link is up. -/
def drainResponses : Nat → State → State
  | 0, s => s
  | n + 1, s =>
    match s.mbx.rspWait with
    | [] => s
    | r :: rest =>
      if s.mbx.en && !s.ringFull && s.pins.linkUp then
        drainResponses n ((s.modMbx fun m => { m with rspWait := rest }).writeEntry r)
      else s

def State.drain (s : State) : State := drainResponses s.mbx.rspWait.length s

/-- A response of the lockkeeper to the host, in the order in which commands complete. -/
def State.hostResponse (s : State) (r : Response) : State :=
  (s.modMbx fun m => { m with rspWait := m.rspWait ++ [r] }).drain

/-- A response of the wharf to a priority command goes ahead of those not yet written; with the ring disabled or full
the outcome stands in MBX_PSTAT only (R328). -/
def State.prioResponse (s : State) (op : Nat) (tag : BitVec 32) (status : Nat) : State :=
  let s1 := s.modMbx fun m => { m with pcount := m.pcount + 1, pstatus := status, pop := op }
  if s1.mbx.en && !s1.ringFull && s1.pins.linkUp then
    s1.writeEntry { tag := tag, op := op, status := status, prio := true }
  else s1

/-! ### Inboxes (R340) -/

/-- The header word of an inbox entry. -/
def inboxHeader (op status : Nat) (tag : BitVec 32) : Word :=
  fix (put op 0 16 ||| put status 16 16 ||| put tag.toNat 32 32)

def padWords (n : Nat) (ws : List Word) : List Word := (ws ++ List.replicate n unbound).take n

/-- Move kept entries into inboxes that have room, in order. -/
def fillInboxes : List (CoreId × List Word) → State → State × List (CoreId × List Word)
  | [], s => (s, [])
  | (c, e) :: rest, s =>
    if (s.coreOf c).inbox.length < 4 then
      fillInboxes rest ((s.modCore c fun x => { x with inbox := x.inbox ++ [e] }).syncInbox c)
    else let r := fillInboxes rest s; (r.1, (c, e) :: r.2)

def State.fillInbox (s : State) : State :=
  let r := fillInboxes s.lk.tpWait (s.modLk fun l => { l with tpWait := [] })
  r.1.modLk fun l => { l with tpWait := r.2 }

/-- An entry for a core: word 0 and up to seven further words. -/
def State.toInbox (s : State) (c : CoreId) (header : Word) (ws : List Word) : State :=
  (s.modLk fun l => { l with tpWait := l.tpWait ++ [(c, header :: padWords 7 ws)] }).fillInbox

/-! ### Answering a command -/

/-- RAWD words of a byte string (R66). -/
def rawWords (bs : List Byte) : List Word := (chunks 8 bs.length bs).map fun b => rawd (BitVec.ofNat 64 (leNat b))

def putWords : Nat → List Word → State → State
  | _, [], s => s
  | pa, w :: ws, s => putWords (pa + 1) ws (s.wr pa w)

/-- Whether a long result fits where the command names it (R327). -/
def State.outFits (s : State) (src : Src) (n : Nat) : Bool :=
  match src with
  | .host _ _ len => decide (n ≤ len)
  | .towpath _ _ a => s.rangeOk a.toNat ((n + 7) / 8)

/-- An entry of the host's ring, or a message to the core's inbox with the result as FIX words; a long result `out` goes ahead of it, to
OUTADDR or as RAWD words of the tagged store (R327, R340). -/
def State.entry (s : State) (src : Src) (op status : Nat) (result out : List Byte) (tick : Bool) : State :=
  match src with
  | .host tag a _ =>
    s.hostResponse { tag := tag, op := op, status := status, outAddr := a.toNat, out := out, tick := tick, result := result }
  | .towpath c tag a =>
    (putWords a.toNat (rawWords out) s).toInbox c (inboxHeader op status tag) ((chunks 8 result.length result).map fun b => fix (BitVec.ofNat 64 (leNat b)))

/-- Values of a result, 8 bytes each (log 15). -/
def valBytes (vs : List Val) : List Byte := vs.flatMap fun v => leBytes 8 v.toNat

/-- Bytes of result that an answer itself holds: 48 of a response (Table 15.7), words 1 to 7 of an inbox entry (R340). -/
def resultRoom : Src → Nat | .host .. => 48 | .towpath .. => 56

/-- Whether the bytes of a result have a place: in the answer itself, else at OUTADDR (R327). -/
def State.resultFits (s : State) (src : Src) (n : Nat) : Bool := decide (n ≤ resultRoom src) || s.outFits src n

/-- Answer with a result: in the entry while it has room for it, else at OUTADDR (Table 15.6), else E_ARG (R327). -/
def State.answerBytes (s : State) (src : Src) (op status : Nat) (bs : List Byte) (tick : Bool := false) : State :=
  if bs.length ≤ resultRoom src then s.entry src op status bs [] tick
  else if s.outFits src bs.length then s.entry src op status [] bs tick
  else s.entry src op Err.arg.code [] [] tick

/-- Answer with values, or with words in their serialisation (R81, Table 15.7). -/
def State.answerStatus (s : State) (src : Src) (op status : Nat) (result : List Val := []) (words : List Word := [])
    (tick : Bool := false) : State :=
  s.answerBytes src op status (valBytes result ++ serialise words) tick

def State.answer (s : State) (src : Src) (op : Nat) (e : Err) (result : List Val := []) (words : List Word := [])
    (tick : Bool := false) : State :=
  s.answerStatus src op e.code result words tick

/-- Answer with a result that Table 15.9 writes at OUTADDR, or E_ARG when it does not fit. -/
def State.answerOut (s : State) (src : Src) (op : Nat) (bs : List Byte) (result : List Val := []) : State :=
  if s.outFits src bs.length then s.entry src op Err.ok.code (valBytes result) bs false
  else s.answer src op .arg

/-- The words of the tagged store that a B2 argument of a towpath command names are read. -/
def State.readB2 (s : State) (src : Src) (b : B2) : State :=
  match src with
  | .host .. => s
  | .towpath .. => s.homeReads (((List.range ((b.len + 7) / 8)).map (b.off + ·)).filter s.storeOk)

/-- The bytes a B2 argument names (R332, R334): a BAR_2 range, or RAWD words of the tagged store; none when the range
lies outside, or a word is not RAWD, with the error. -/
def State.b2Bytes (s : State) (src : Src) (b : B2) : Except Err (List Byte) :=
  match src with
  | .host .. =>
    if 0x1000000 < b.off + b.len then .error .arg
    else
      let bs := (List.range b.len).map fun i => mget byteD s.mbx.bar2 (b.off + i)
      if crc32c bs = b.crc then .ok bs else .error .argCrc
  | .towpath .. =>
    let n := (b.len + 7) / 8
    if b.len = 0 then (if crc32c [] = b.crc then .ok [] else .error .argCrc)
    else if !s.rangeOk b.off n then .error .arg
    else
      let ws := (List.range n).map fun i => s.rd (b.off + i)
      if ws.any fun w => w.tag != tRAWD then .error .tag
      else
        let bs := (ws.flatMap fun w => leBytes 8 w.val.toNat).take b.len
        if crc32c bs = b.crc then .ok bs else .error .argCrc

end Sys2Proof.Machine
end

