-- ==== Sys2Proof/Machine/Regfile.lean ====
section
/-!
DEFINITION. The registers of a bank (R83 to R86): specifiers in the normal and the trap window, the tagged registers by
index of Table 7.14, and the registers that CARRYMASK names (Table 2.7).
-/

namespace Sys2Proof.Machine

/-- Index of RF[k][j] (Table 7.14). -/
def rfIx (k j : Nat) : Nat := 8 + 16 * (k % 8) + j
/-- Index of TW[j]. -/
def twIx (j : Nat) : Nat := 136 + j

/-- A specifier resolved in normal window w (Tables 4.2, 4.3). -/
def normalIx (w n : Nat) : Nat :=
  if n < 8 then n
  else if n < 16 then rfIx w n
  else if n < 24 then rfIx w (n - 16)
  else rfIx (w + 7) (n - 16)

/-- A specifier resolved in the trap window over interrupted window w. -/
def trapIx (w n : Nat) : Nat :=
  if n < 8 then n
  else if n < 16 then rfIx w n
  else twIx (n - 16)

/-- A 5-bit specifier as the bank's window state resolves it (R84). -/
def BankCtx.ix (x : BankCtx) (n : Nat) : Nat :=
  if winTw x.winpos then trapIx (winCur x.winpos) n else normalIx (winCur x.winpos) n

/-- The 5-bit specifier of a 4-bit field (R84). -/
def wide (v : R4) : R5 := if v.toNat < 8 then BitVec.ofNat 5 (16 + v.toNat) else BitVec.ofNat 5 v.toNat

def BankCtx.at_ (x : BankCtx) (i : Nat) : Word := mget wordD x.regs i
def regFlawD (_ : Nat) : BitVec 91 := 0
/-- Write a register: its stored bits are the code of the word. -/
def BankCtx.put (x : BankCtx) (i : Nat) (w : Word) : BankCtx :=
  { x with regs := mset wordD x.regs i w, flaws := mset regFlawD x.flaws i 0 }

/-- A register is read: flipped bits are corrected, or its word becomes POISON of origin 1, counted with the cluster's arrays
(R56, R72, R73, log 61). -/
def State.checkReg (s : State) (k i : Nat) : State :=
  let x := s.ctx k
  let f := mget regFlawD x.flaws i
  if f = 0 then s
  else
    match decodeBits (storedBits (x.at_ i) ^^^ f) with
    | some (w, n) => (s.modCtx k fun x => x.put i w).modL2 (clOf k) fun l => { l with dcorr := (l.dcorr + n) % 65536 }
    | none =>
      ((s.modCtx k fun x => x.put i (poison 1 0)).modL2 (clOf k) fun l => { l with dpois := (l.dpois + 1) % 65536 }).logCount 0x24
        (uCore (coreOfId k)) [1, 0]

/-- The register a specifier names. -/
def BankCtx.get (x : BankCtx) (r : R5) : Word := x.at_ (x.ix r.toNat)
def BankCtx.set (x : BankCtx) (r : R5) (w : Word) : BankCtx := x.put (x.ix r.toNat) w

/-- t0 to t15. -/
def BankCtx.tw (x : BankCtx) (j : Nat) : Word := x.at_ (twIx j)
def BankCtx.putTw (x : BankCtx) (j : Nat) (w : Word) : BankCtx := x.put (twIx j) w
def BankCtx.putTws (x : BankCtx) (ws : List Word) : BankCtx := ws.zipIdx.foldl (fun x wi => x.putTw wi.2 wi.1) x

/-- Indices of the carried registers in window w, in ascending bit order of CARRYMASK (Table 2.7). -/
def carryIxs (mask : Val) (w : Nat) : List Nat :=
  ((List.range 32).filter fun i => bit mask i).map fun i =>
    if i < 8 then normalIx w i
    else if i < 16 then normalIx w (24 + (i - 8))
    else if i < 24 then normalIx w (16 + (i - 16))
    else normalIx w (8 + (i - 24))

/-- The 32 words of a carry area (Table 2.5). -/
def carryWords (when_ : Val) (pc : BitVec 62) (psw winpos mask basin alloc alimit : Val) (carried : List Word) : List Word :=
  [timeW when_, cref pc, fix psw, fix winpos, fix mask, fix basin, fix alloc, fix alimit]
    ++ List.replicate 8 unbound ++ padWords 16 carried

end Sys2Proof.Machine
end

