-- ==== Sys2Proof/Machine/Tasks.lean ====
section
/-!
DEFINITION. Frame tasks in the pound (chapter 02): completion with the carry area (R37), abandonment (R31 to R33),
start offsets and restart from carry (R38, R39, R403), withdrawal (R49), budgets (R39), and the tick with its commit
(R22 to R36).
-/

namespace Sys2Proof.Machine

/-! ### Bank state -/

/-- Put a bank in a scheduler state; a bank that stops running leaves its core. -/
def State.setBankSt (s : State) (k : Nat) (st : BankSt) : State :=
  let c := coreOfId k
  let s1 := s.modCtx k fun x => { x with st := st }
  if (s.coreOf c).cur = some (bankOfId k) ∧ st ≠ .running then s1.modCore c fun x => { x with cur := none } else s1

/-- Drop an open load shadow with its held stores and return to the state before its load (R50, R104). -/
def State.cancelShadow (s : State) (k : Nat) : State :=
  match (s.bankOf k).shadow with
  | none => s
  | some h =>
    (s.modBank k fun b =>
      { x := { b.x with regs := h.saved.regs, flaws := h.saved.flaws, pc := h.saved.pc, alloc := h.saved.alloc, openRec := h.saved.openRec },
        shadow := none }).modCore (coreOfId k) fun x =>
      { x with vregs := h.vregs, vstat := h.vstat }

/-- Whether a task still has the pound to complete (R31). -/
def Phase.isOpen : Phase → Bool | .waiting => true | .active => true | _ => false
def Phase.inPound : Phase → Bool | .joining _ => false | _ => true

/-- Tasks that write a link in the current pound. -/
def State.writersOf (s : State) (n : Nat) : List Task :=
  s.weir.tasks.filter fun t => t.phase.inPound && bit t.args.links n

def linksOf (t : Task) : List Nat := (List.range 24).filter fun n => bit t.args.links n

/-! ### Abandonment -/

/-- Abandon a frame task that has not completed the pound (R31, R32, Table 2.4). Outside the pounds of a run no task has a pound to
complete. -/
def State.abandonTask (s : State) (id code : Nat) : State :=
  match s.taskOf id with
  | none => s
  | some t =>
    if t.phase.isOpen && s.runOpen then
      let s1 := s.modTstat id fun x => { x with abcnt := satInc 16 x.abcnt, lastcause := code }
      let s2 := s1.modTask id fun t => { t with phase := .abandoned, restart := true, staged := 0 }
      let s3 := (s2.cancelShadow id).modCtx id fun x =>
        { x with openRec := none, due := none, pendBudget := false, pendTstack := none }
      let s4 := s3.setBankSt id .waitt
      let s5 := s4.modMan fun m => { m with staged := m.staged.filter fun r => !(r.task && r.srcid == id) }
      let s6 := s5.modLk fun l =>
        { l with replies := l.replies.map fun r => if r.id = id ∧ r.pound = s.weir.pound then { r with abandoned := true } else r }
      let s7 := s6.modCore (coreOfId id) fun x =>
        { x with sendq := x.sendq.map fun m => if m.op = 0x305 ∧ m.bank = bankOfId id ∧ m.pound = s.weir.pound then { m with dead := true } else m }
      forEach (linksOf t) (s7.stageGap id code) State.issueHold
    else s

/-- A forced abandonment (Table 2.4, codes 2, 3 and 6): at once at a boundary, else when the running bank's load shadow
closes (R105, R172). -/
def State.forceAbandon (s : State) (id code : Nat) : State :=
  if (s.bankOf id).shadow.isSome && (s.taskOf id).any (fun t => t.phase.isOpen) then
    s.modCtx id fun x => { x with due := some code }
  else s.abandonTask id code

/-! ### Completion (R37) -/

/-- Drive links all of whose writers have completed send their DRIVE cells (R32). -/
def State.driveIfDone (s : State) (n : Nat) : State :=
  if (s.writersOf n).all fun t => t.phase == .completed then s.issueDrive n else s

/-- WAITT retires in a frame bank: carry area, high-water mark, CREDX (R48), WAITT state, drive links. `pc` is the parcel after WAITT.
A BUDGET trap raised and not yet delivered stays pended into the next pound (DESIGN CHOICE, log 24): the spec has neither WAITT nor the
next start drop it. -/
def State.completeTask (s : State) (id : Nat) (pc : BitVec 62) : State :=
  match s.taskOf id with
  | none => s
  | some t =>
    let x := s.ctx id
    let ixs := carryIxs x.carrymask (winCur x.winpos)
    let s := forEach ixs s fun s i => s.checkReg id i
    let carried := ixs.map (s.ctx id).at_
    let ws := carryWords s.now pc x.psw x.winpos x.carrymask x.basin x.alloc x.alimit carried
    let s2 := (putWords t.args.carryBase ws s).modTstat id fun y => { y with hwm := max y.hwm s.weir.elapsed, credx := t.credOut }
    let s3 := s2.modTask id fun t => { t with phase := .completed, restart := false }
    let s4 := (s3.modCtx id fun x => { x with pc := pc }).setBankSt id .waitt
    forEach (linksOf t) s4 State.driveIfDone

/-! ### Withdrawal (R49) -/

/-- Declared credits and record volume (Table 2.18, R404): recomputed at each change of the task set or the streams. -/
def State.declaredVolume (s : State) : Nat :=
  let lanes := s.twl.streams.foldl (fun a kx => if sEn kx.2.scfg && sLog kx.2.scfg then a + recLenOf kx.2.bytes else a) 0
  lanes + s.weir.tasks.foldl (fun a t => a + t.args.recBudget) 0 + 4096

def State.recount (s : State) : State :=
  let v := s.declaredVolume
  s.modWeir fun w => { w with recvol := v, cused := w.tasks.foldl (fun a t => a + t.args.credits) 0 }

/-- Remove a task from the admitted set: its bank keeps its priority and becomes idle (R45). CARRYMASK, which only admission writes in the
spec's words, returns to its reset value 0 (DESIGN CHOICE, log 24). -/
def State.withdrawTask (s : State) (id : Nat) : State :=
  if s.isFrame id then
    let s1 := s.modWeir fun w => { w with tasks := w.tasks.filter fun t => t.args.id.val ≠ id }
    let s2 := (s1.modTstat id fun x => { x with adm := false }).modCtx id fun x => { x with frame := false, carrymask := 0 }
    (s2.setBankSt id .idle).recount
  else s

/-- The lockkeeper withdraws a task it reports lost (R38, R342, R347). -/
def State.loseTask (s : State) (id reason : Nat) : State :=
  if s.isFrame id then (s.withdrawTask id).stageLost id reason else s

/-- Ids of the admitted tasks of a core. -/
def State.tasksOfCore (s : State) (c : CoreId) : List Nat :=
  (s.weir.tasks.filter fun t => t.args.id.val / 8 == c.val).map fun t => t.args.id.val

/-! ### Starting (R38, R39, R403) -/

/-- Load a bank from its carry area; a POISON word withdraws the task, and its links carry HOLD until a task that writes them is admitted
(R38, log 24). In a recovery the bank starts in guarded mode (R171). -/
def State.restartFromCarry (s : State) (id base : Nat) (guarded : Bool) : State :=
  let s := s.homeReads ((List.range 32).map fun i => base + i)
  let ws := (List.range 32).map fun i => s.rd (base + i)
  if ws.any isPoison then
    (forEach ((s.taskOf id).map linksOf |>.getD []) s fun s n => (s.issueHold n).modLink n fun l => { l with lost := true }).loseTask id 1
  else
    let w (i : Nat) : Val := (ws.getD i unbound).val
    s.modCtx id fun x =>
      let win := w 3 &&& winMask
      let ixs := carryIxs x.carrymask (winCur win)
      let y := { x with regs := [], flaws := [], pc := BitVec.ofNat 62 (w 1).toNat, psw := setFld (w 2 &&& pswMask) 16 1 (bit (w 2) 16 || guarded).toNat,
                        winpos := win, basin := w 5 &&& basinMask, alloc := w 6, alimit := w 7 &&& alimitMask, tdepth := 0, openRec := none }
      ixs.zipIdx.foldl (fun y ij => y.put ij.1 (ws.getD (16 + ij.2) unbound)) y

/-- What a core that cannot run a frame task does to it at its start offset (R403); none when it can run. -/
def State.startCause (s : State) (c : CoreId) : Option Nat :=
  match (s.coreOf c).run with
  | .running => if bit s.lk.restarting (clusterOf c).val then some 4 else none
  | .lockup => some 7
  | _ => some 4

/-- A task's start offset arrives (R39). -/
def State.startTask (s : State) (id : Nat) : State :=
  match s.taskOf id with
  | none => s
  | some t =>
    if t.phase = .waiting ∧ s.runOpen then
      match s.startCause (coreOfId id) with
      | some code => s.abandonTask id code
      | none =>
        let s1 := s.modTask id fun t => { t with phase := .active, restart := false, begun := true, credLeft := t.args.credits, credOut := false, staged := 0, guarded := false }
        let s2 := s1.modCtx id fun x => { x with isOver := false, grace := 2000, remain := t.args.budget }
        let s3 := if t.restart then s2.restartFromCarry id t.args.carryBase t.guarded else s2
        if s3.isFrame id then s3.setBankSt id .ready else s3
    else s

/-! ### Budgets (R39) -/

/-- GRACE reaches 0: the task is abandoned with code 2 at the first boundary. -/
def State.graceOut (s : State) (k : Nat) : State := (s.modCtx k fun x => { x with grace := 0 }).forceAbandon k 2

/-- REMAIN reaches 0: OVER, the pended BUDGET trap, and GRACE starts. -/
def State.budgetOut (s : State) (k : Nat) : State :=
  s.modCtx k fun x => { x with remain := 0, isOver := true, pendBudget := true }

/-- GRACE counts the cycles of the bank after the one in which REMAIN reached 0. -/
def State.burnGrace (s : State) (k n : Nat) : State :=
  if (s.ctx k).grace ≤ n then s.graceOut k else s.modCtx k fun x => { x with grace := x.grace - n }

/-- One bank's counters over n cycles in which it holds the core. -/
def State.burn (s : State) (k n : Nat) : State :=
  match s.taskOf k with
  | none => s
  | some t =>
    let x := s.ctx k
    if t.phase ≠ .active then s
    else if x.isOver then s.burnGrace k n
    else if x.remain < n then (s.budgetOut k).burnGrace k (n - x.remain)
    else if x.remain = n then s.budgetOut k
    else s.modCtx k fun x => { x with remain := x.remain - n }

/-! ### The tick -/

/-- Release of the staged mailbox results (R30, R31, R335). -/
def State.releaseReplies (s : State) : State :=
  let rs := s.lk.replies
  forEach rs (s.modLk fun l => { l with replies := [] }) fun s r =>
    match s.lk.msgs.find? fun m => m.tag = r.hostTag with
    | none => s
    | some m =>
      let s1 := s.modLk fun l => { l with msgs := l.msgs.filter fun m => m.tag ≠ r.hostTag }
      if r.abandoned then s1.answer m.src 0x304 .abandoned [] [] true else s1.answer m.src 0x304 .ok [] r.words true

/-- The tick snapshot (R345): the registers of every bank of the cores that run. -/
def State.snapshot (s : State) : State :=
  let live (k : Nat) : Bool := (s.coreOf (coreOfId k)).run == .running || (s.coreOf (coreOfId k)).run == .halted
  let old := s.lk.snap.filter fun kx => !live kx.1
  let now := s.banks.filterMap fun kb => if live kb.1 && kb.2.x != ctxD kb.1 then some (kb.1, kb.2.x) else none
  s.modLk fun l => { l with snap := (old ++ now).foldl (fun m kx => mset ctxD m kx.1 kx.2) [] }

/-- The run's part of a tick: the first pound, the last pound, lost ticks when this one is synthesised (R24, R34, R36). Answers whether
this tick opens the first pound of a run. -/
def State.runTick (s : State) (synth : Bool) : State × Bool :=
  let w := s.weir
  let lost := synth && decide (0 < w.synlim) && decide (w.synlim ≤ w.synrun)
  match w.runSt with
  | .stopping => ((if lost then s.log 0x61 uDevice [w.synrun] else s).setRun .stopped w.stopCause, false)
  | .running =>
    if lost then ((s.log 0x61 uDevice [w.synrun]).setRun .stopped 4, false) else (s, false)
  | .starting =>
    if lost then ((s.log 0x61 uDevice [w.synrun]).setRun .stopped 4, false)
    else if w.startIn ≤ 1 then ((s.modWeir fun w => { w with startIn := 0 }).setRun .running 0, true)
    else (s.modWeir fun w => { w with startIn := w.startIn - 1 }, false)
  | .stopped => (s, false)

/-- Open the staging of the new pound on every drive stream of a link that is not aborted (R253). -/
def State.openStaging (s : State) : State :=
  forEach ((s.twl.streams.filter fun kx => sEn kx.2.scfg && sKind kx.2.scfg == 1).map Prod.fst) s fun s k =>
    s.modStream k fun x => { x with stag := [], opened := s.abortedOn (sLink x.scfg) == 0 }

/-- The tasks at a tick: the phases of the next pound; a leaving task goes at the first tick at which it has completed or been
abandoned (R49), and with the end of the run if it never had a pound of its own (log 24). -/
def State.turnTasks (s : State) : State :=
  let done (t : Task) : Bool := t.phase == .completed || t.phase == .abandoned || s.weir.runSt == .stopped
  let gone := (s.weir.tasks.filter fun t => t.leaving && done t).map fun t => t.args.id.val
  let s1 := forEach gone s State.withdrawTask
  s1.modWeir fun w =>
    { w with tasks := w.tasks.map fun t =>
        { t with phase := match t.phase with
            | .joining n => if n ≤ 1 then .waiting else .joining (n - 1)
            | _ => .waiting } }

/-- Banks without a frame task leave WAITT at the tick (Table 7.11). -/
def State.wakeWaitt (s : State) : State :=
  forEach (s.banks.map Prod.fst) s fun s k =>
    if (s.ctx k).st = .waitt ∧ s.isFrame k = false then s.setBankSt k .ready else s

/-- A tick: the commit of the pound that ends, then the pound it opens (R26, R30, R245). `len` is the length of the pound
that ends, in 10 ns. -/
def State.doTick (s : State) (len : Nat) (synth : Bool) : State :=
  -- every frame task is resolved by D_out (Table 2.3); one that is not has passed its deadline
  let late := if s.runOpen then (s.weir.tasks.filter fun t => t.phase.isOpen).map fun t => t.args.id.val else []
  let s1 := forEach late (s.modWeir fun w => { w with elapsed := len, lastLen := len }) fun s id => s.abandonTask id 3
  let r := s1.runTick synth
  let s2 := (r.1.releaseReplies.commitRecords (timeVal s.weir.pound 0)).snapshot
  let s3 := s2.modWeir fun w => { w with pound := w.pound + 1, elapsed := 0, lead := 0, hasTick := true }
  let s4 := if r.2 then s3.clearAborts else s3
  let s5 := s4.turnTasks.openStaging
  let s6 := ((s5.tickCells synth r.2).when_ r.2 State.standingAborts).syncPermit
  let s7 := if s6.weir.outen then s6.emit (.tickOut (12000 + sx 32 s6.cal.tickOut.toNat)) else s6
  let s8 := (s7.raise evTick).trigOcc 2 0
  let s9 := s8.wakeWaitt
  let s10 := s9.modLk fun l => { l with msgs := l.msgs.map fun m => { m with left := m.left - 1 } }
  (s10.modPins fun p => { p with limited := 0 }).smbSnap

/-- A tick of the internal generator (R22): a pound ends P after its tick, or at once when a new P has passed. -/
def State.tick (s : State) : State :=
  if s.weir.ticking && !s.weir.src then s.doTick (max s.weir.elapsed s.weir.len) false else s

/-- What separates a TICK_IN edge at the ball from its sampling, in ps: 1.5 ns with the trim TICKIN, from 0 to 11.5 ns (R388). -/
def State.tickInDelay (s : State) : Nat := (min 11500 (1500 + sx 32 s.cal.tickIn.toNat)).toNat

/-- The period of the pound at whose end an edge is taken that reaches the ball `ps` into the current one: the first REFCLK edge after its
sampling; within 0.2 ns of a REFCLK edge it may be that edge or the next, a free value (R388, log 23). -/
def State.edgeTaken (s : State) (ps : Nat) : Nat × State :=
  let r := ps + s.tickInDelay
  let n := s.weir.elapsed + r / 10000
  if r % 10000 ≤ 200 then let (v, s1) := s.fresh; (if bit v 0 then n - 1 else n, s1)
  else if 9800 ≤ r % 10000 then let (v, s1) := s.fresh; (if bit v 0 then n + 1 else n, s1)
  else (n, s)

/-- A tick at period n of the pound, which lies up to two periods off the one in which its edge is told (log 23): the pound it opens counts
its own periods. -/
def State.tickAt (s : State) (n : Nat) : State :=
  let e := s.weir.elapsed
  (s.doTick n false).modWeir fun w => { w with elapsed := e - n, lead := n - e }

/-- A TICK_IN edge (Table 2.1). -/
def State.tickIn (s0 : State) (falling : Bool) (ps : Nat) : State :=
  let w := s0.weir
  if !w.ticking || !w.src || w.edge != falling then s0
  else
    let (n, s) := s0.edgeTaken ps
    if w.firstEdge then (s.modWeir fun w => { w with firstEdge := false }).tickAt n
    else if n < w.len - w.tol then s.modWeir fun w => { w with earlycnt := satInc 16 w.earlycnt }
    else (s.modWeir fun w => { w with synrun := 0 }).tickAt n

/-- No edge by T + P + TOL, T being the instant of the last tick: a synthesised tick (Table 2.1, R24). It does not use up the first
edge after POUND_CONFIG, which is accepted whenever it comes. -/
def State.tickLost (s : State) : State :=
  let w := s.weir
  if !w.ticking || !w.src || !w.hasTick then s
  else
    let s1 := (s.modWeir fun w => { w with syncnt := satInc 16 w.syncnt, synrun := satInc 8 w.synrun }).raise evTickLost
    s1.doTick (w.len + w.tol) true

/-- The engines stop; a tick of the same REFCLK period still takes place. -/
def State.markStop (s : State) : State := if s.engines then s.modPins fun p => { p with stopAt := some (p.since, s.man.st) } else s

/-- A tick. In the REFCLK period in which a power failure, a reset or a freeze has stopped the engines its commit still takes place, as if
before (R30, log 23). -/
def State.tickOnce (s : State) (run : State → State) : State :=
  if s.engines then run s
  else match s.pins.stopAt with
    | some (n, st) =>
      if s.on && n == s.pins.since then
        let s1 := (run (s.modMan fun m => { m with st := st })).performCommit
        (s1.modMan fun m => { m with st := if m.st = st then s.man.st else m.st }).modPins fun p => { p with stopAt := none }
      else s
    | none => s

/-- One 10 ns period of REFCLK: time in the pound, and the counters of the frame banks that hold a core (18 cc). -/
def State.period (s : State) : State :=
  let s1 := if s.weir.ticking then s.modWeir fun w => { w with elapsed := if w.lead = 0 then w.elapsed + 1 else w.elapsed, lead := w.lead - 1 } else s
  forEach (s.cores.filterMap fun kc => if kc.2.run = .running then kc.2.cur.map fun b => 8 * kc.1 + b.val else none) s1
    fun s k => s.burn k 18

/-! ### Registers (Tables 2.11 to 2.19) -/

def TStat.val (t : TStat) : Val :=
  put t.hwm 37 27 ||| put t.abcnt 16 16 ||| put t.lastcause 12 4 ||| flag t.adm 11 ||| flag t.credx 10 ||| put t.recdrop 0 8

def State.weiRead (s : State) (off : Nat) : Val :=
  let w := s.weir
  if 0x200 ≤ off ∧ off ≤ 0x3FF then (s.tstatOf (off - 0x200)).val
  else match off with
  | 0 => put w.len 0 27
  | 1 => put w.dout 32 27 ||| put w.din 0 27
  | 2 => put w.synlim 32 8 ||| put w.tol 16 16 ||| flag w.outen 2 ||| flag w.edge 1 ||| flag w.src 0
  | 3 => put w.earlycnt 48 16 ||| put w.syncnt 32 16 ||| put w.synrun 0 8
  | 4 => s.now
  | 5 => put w.first.toNat 16 48 ||| put w.runSt.code 0 4
  | 6 => put w.ccap 0 32
  | 7 => put w.cused 0 32
  | 8 => put w.recvol 0 32
  | _ => 0

end Sys2Proof.Machine
end

