-- ==== Sys2Proof/Machine/Sluice.lean ====
section
/-!
DEFINITION. The sluice (chapter 13): descriptors and their checks, loading, beats, hand-over, starting, stopping, errors
and registers; and the bytes the hub exchanges with it (R252, R253, R259, R277).
-/

namespace Sys2Proof.Machine

def State.modSlu (s : State) (f : Sluice → Sluice) : State := { s with slu := f s.slu }

/-! ### Descriptor fields (Tables 13.2, 13.3) -/

def Desc.kindS (d : Desc) : Nat := fld d.w0 62 2
def Desc.baseS (d : Desc) : Nat := fld d.w0 0 62
def Desc.kindD (d : Desc) : Nat := fld d.w1 62 2
def Desc.baseD (d : Desc) : Nat := fld d.w1 0 62
def Desc.count0 (d : Desc) : Nat := fld d.w2 40 24
def Desc.count1 (d : Desc) : Nat := fld d.w3 40 24
def Desc.count2 (d : Desc) : Nat := fld d.w4 40 24
def Desc.stride0 (d : Desc) : Int := sx 40 (fld d.w2 0 40)
def Desc.stride1 (d : Desc) : Int := sx 40 (fld d.w3 0 40)
def Desc.stride2 (d : Desc) : Int := sx 40 (fld d.w4 0 40)
def Desc.esize (d : Desc) : Nat := fld d.w5 61 3
def Desc.wordMode (d : Desc) : Bool := d.esize == 4
def Desc.walk (d : Desc) : Bool := bit d.w5 60
def Desc.hev (d : Desc) : Bool := bit d.w5 43
def Desc.fev (d : Desc) : Bool := bit d.w5 42
def Desc.crcm (d : Desc) : Nat := fld d.w5 40 2
def Desc.crcx (d : Desc) : Nat := fld d.w6 0 32
/-- Element size in bytes. -/
def Desc.elem (d : Desc) : Nat := if d.wordMode then 8 else 2 ^ d.esize
/-- Elements of one outer iteration, and of the descriptor. -/
def Desc.iter (d : Desc) : Nat := d.count0 * d.count1
def Desc.total (d : Desc) : Nat := d.iter * d.count2
/-- Elements of a burst: at most 512 bytes, or 64 words (R272). -/
def Desc.burstLen (d : Desc) : Nat := if d.wordMode then 64 else 512 / d.elem

/-- Offset of element n on the walked side (R276). -/
def Desc.offset (d : Desc) (n : Nat) : Int :=
  let i0 := n % d.count0
  let i1 := n / d.count0 % d.count1
  let i2 := n / d.iter
  (i0 : Int) * d.stride0 + (i1 : Int) * d.stride1 + (i2 : Int) * d.stride2

def Desc.srcAddr (d : Desc) (n : Nat) : Int :=
  (d.baseS : Int) + (if d.walk then ((n * d.elem : Nat) : Int) else d.offset n)
def Desc.dstAddr (d : Desc) (n : Nat) : Int :=
  (d.baseD : Int) + (if d.walk then d.offset n else ((n * d.elem : Nat) : Int))

/-- Streams a descriptor names. -/
def Desc.streams (d : Desc) : List Nat :=
  (if d.kindS = 2 then [d.baseS] else []) ++ (if d.kindD = 2 then [d.baseD] else [])

/-! ### Events and errors of a channel -/

/-- What a channel that moves nothing keeps: no staged data, no position (R272). -/
def Chan.idleEngine (x : Chan) : Chan :=
  { x with stopping := false, stopAt := 0, bl16stop := false, failed := none, attempt := 0, part := [], stage := [], held := none, req := none,
           stuck := none, taken := none, atPoint := false, cutAt := none, crcDone := 0 }

/-- A channel that stops moving leaves the burst it was in (R274). -/
def State.leaveBurst (s : State) (c : Nat) : State :=
  s.modSlu fun g => { g with curB := g.curB.filter fun b => b.val != c }

/-- Enter PARKED, ENDED, STOPPED or HALTED: EV[128 + c] (R272). -/
def State.endState (s : State) (c : Nat) (st : ChSt) : State :=
  ((s.leaveBurst c).modChan c fun x => { x.idleEngine with st := st }).raise (128 + c)

/-- An access that failed: code, side, kind and address. -/
abbrev ChErr := Nat × Nat × Nat × Nat

def storeSpan (s : State) (a : Int) (n : Nat) : Bool :=
  decide (0 ≤ a) && (List.range n).all fun i => s.storeOk ((a.toNat + i) / 8)

/-- Halt a channel with an error (R295): the code, the side, and the kind and address of SLU_ERRADDR. -/
def State.haltChan (s : State) (c code side kind addr : Nat) : State :=
  let s1 := s.modChan c fun x =>
    { x with errV := true, errAtt := x.attempt, errSide := side, errCode := code, errKind := kind, errAddr := addr, attempt := 0 }
  s1.endState c .halted

/-! ### Checks at load (Table 13.4) -/

def endpointOk (w : Val) : Bool :=
  match fld w 62 2 with
  | 0 => fld w 39 23 == 0
  | 1 => true
  | 2 => fld w 9 53 == 0
  | _ => false

def Desc.reservedOk (d : Desc) : Bool :=
  endpointOk d.w0 && endpointOk d.w1 && decide (d.esize ≤ 4) && decide (trigOf d ≤ 5) && !bit d.w5 56
    && fld d.w5 0 40 == 0 && fld d.w6 32 32 == 0
    && (match trigOf d with | 3 => decide (tselOf d < 16) | 4 => decide (tselOf d < 64) | 5 => true | _ => tselOf d == 0)

def Desc.countsOk (d : Desc) : Bool :=
  decide (1 ≤ d.count0) && decide (1 ≤ d.count1) && decide (1 ≤ d.count2) && decide (d.total ≤ 2 ^ 48 - 1)

/-- A channel that holds a loaded descriptor on a stream (R277). -/
def Chan.holds (x : Chan) (k : Nat) : Bool :=
  (x.st == .wait || x.st == .active || x.st == .retry) && x.desc.any fun d => d.streams.contains k

def State.streamFits (s : State) (c k : Nat) (src tclass : Bool) : Bool :=
  let x := s.streamOf k
  let kind := sKind x.scfg
  sEn x.scfg && (if src then kind == 0 || kind == 2 else kind == 1 || kind == 3)
    && (tclass == (kind == 0 || kind == 1))
    && !(s.slu.chans.any fun kc => kc.1 != c && kc.2.holds k)

def State.endpointsOk (s : State) (c : Nat) (d : Desc) : Bool :=
  let t := (s.chanOf c).cls
  !(d.kindS == 2 && d.kindD == 2) && !(d.kindS == 2 && !d.walk) && !(d.kindD == 2 && d.walk)
    && (d.kindS != 2 || s.streamFits c d.baseS true t) && (d.kindD != 2 || s.streamFits c d.baseD false t)
    && !(t && (d.kindS == 1 || d.kindD == 1))

def Desc.wordOk (d : Desc) : Bool :=
  !d.wordMode || (d.kindS == 0 && d.kindD == 0 && d.baseS % 8 == 0 && d.baseD % 8 == 0
    && d.stride0 % 8 == 0 && d.stride1 % 8 == 0 && d.stride2 % 8 == 0)

def State.crcOk (s : State) (d : Desc) : Bool :=
  match d.crcm with
  | 1 => !d.walk && !(d.kindD == 2 && sKind (s.streamOf d.baseD).scfg == 1)
  | 3 => d.walk && !(d.kindS == 2 && sKind (s.streamOf d.baseS).scfg == 0)
  | _ => true

/-- Every check of a descriptor but its tags (R280). -/
def State.descOk (s : State) (c : Nat) (d : Desc) : Bool :=
  d.reservedOk && d.countsOk && s.endpointsOk c d && d.wordOk && s.crcOk d

/-! ### Loading (R280, R281) -/

/-- Take a descriptor whose words have been read: WAIT, or ACTIVE when TRIG = 0. -/
def State.accept (s : State) (c : Nat) (d : Desc) (shd : Bool) (addr : Nat) : State :=
  let x := s.chanOf c
  let same := x.desc.any fun e => e.kindS == 2 && d.kindS == 2 && e.baseS == d.baseS
  let s1 := s.modChan c fun x =>
    { x.idleEngine with
             desc := some d, curShd := shd, curAddr := addr, latch := false, done := 0, wr := 0, crc := 0, halfDone := false,
             burst := 0, burstCrc := 0, burstIn := [], tail := [],
             inbuf := if same then x.inbuf else [], st := if trigOf d = 0 then .active else .wait }
  forEach d.streams s1 fun s k => s.modStream k fun y => { y with holder := some ⟨c % 64, Nat.mod_lt _ (by decide)⟩ }

/-- The channel has a descriptor that fails to load: what SLU_CUR shows, then the halt. -/
def State.badLoad (s : State) (c code : Nat) (shd : Bool) (addr : Nat) : State :=
  (s.modChan c fun x => { x with desc := none, curShd := shd, curAddr := addr }).haltChan c code 2 0 (if shd then 0 else 8 * addr)

/-- Load the descriptor at a physical word address (R275, R280, R291). -/
def State.loadDesc (s : State) (c addr : Nat) : State :=
  let s0 := s.modChan c fun x => { x with shadowTaken := false }
  if addr % 8 ≠ 0 ∨ s.storeOk addr = false then s0.badLoad c 0x14 false addr
  else
    let s0 := s0.homeReads ((List.range 7).map fun i => addr + i)
    let ws := (List.range 7).map fun i => s0.rd (addr + i)
    match ws.find? fun w => w.tag != tDESC with
    | some w => s0.badLoad c (if isPoison w then 0x20 else 0x21) false addr
    | none =>
      let v (i : Nat) : Val := (ws.getD i unbound).val
      let d : Desc := ⟨v 0, v 1, v 2, v 3, v 4, v 5, v 6, 0⟩
      if s0.descOk c d then s0.accept c d false addr else s0.badLoad c 0x22 false addr

def shdD (_ : Nat) : Val := 0
/-- The shadow words of a channel as a descriptor (R287). -/
def Chan.shadowDesc (x : Chan) : Desc :=
  let v (i : Nat) : Val := mget shdD x.shd i
  ⟨v 0, v 1, v 2, v 3, v 4, v 5, v 6, v 7⟩

/-- Take the shadow: ARM clears, SHADOW_TAKEN and SHCNT, and the load with its checks (R286, R287). -/
def State.takeShadow (s : State) (c : Nat) : State :=
  let d := (s.chanOf c).shadowDesc
  let s1 := s.modChan c fun x => { x with arm := false, shadowTaken := true, shcnt := (x.shcnt + 1) % 256 }
  let linkOk := !bit d.w7 63 || (fld d.w7 0 3 == 0 && fld d.w7 36 27 == 0)
  if s1.descOk c d && linkOk then s1.accept c d true 0 else s1.badLoad c 0x22 true 0

/-- Read the link word of the descriptor at an address and act on it (R286, R288); its reserved bits are 0, or DFMT (Table 13.4). -/
def State.followLink (s : State) (c tail : Nat) : State :=
  let s := s.homeRead (tail + 7)
  let w := s.rd (tail + 7)
  if w.tag = tDESC then (if fld w.val 36 28 = 0 then s.loadDesc c (fld w.val 0 36) else s.haltChan c 0x22 2 0 (8 * tail))
  else if w.tag = tNIL then
    (s.modChan c fun x => { x with parkV := true, parkAddr := tail, desc := none }).endState c .parked
  else if isPoison w then s.haltChan c 0x20 2 0 (8 * tail)
  else s.haltChan c 0x21 2 0 (8 * tail)

/-! ### Bytes of streams (R252, R253, R259, R277) -/

/-- Bytes a stream delivers to its channel, or discards (R277). -/
def State.feed (s : State) (k : Nat) (bs : List Byte) : State :=
  match s.slu.chans.find? fun kc => kc.2.st == .active && kc.2.desc.any fun d => d.kindS == 2 && d.baseS == k with
  | some kc => s.modChan kc.1 fun x => { x with inbuf := x.inbuf ++ bs }
  | none =>
    match (s.streamOf k).holder with
    | some c => s.modChan c.val fun x => { x with sdisc := satInc 16 x.sdisc bs.length }
    | none => s

/-- Bytes a channel sends to a drive or downstream bulk stream: staged, sent as BULK cells, or discarded (R253, R259). -/
def State.streamOut (s : State) (k : Nat) (bs : List Byte) : State :=
  let x := s.streamOf k
  let n := sLink x.scfg
  if sKind x.scfg = 1 then
    if x.opened then
      let room := x.bytes - x.stag.length
      let s1 := s.modStream k fun y => { y with stag := y.stag ++ bs.take room }
      if room < bs.length then s1.modLink n fun l => { l with drvdisc := satInc 4 l.drvdisc } else s1
    else s.modLink n fun l => { l with drvdisc := satInc 4 l.drvdisc }
  else
    let c : TxCell := { typ := 7, pound := s.pound16, sid := sSid x.scfg, index := x.bulkIx, payload := bs }
    (s.modStream k fun y => { y with bulkIx := (y.bulkIx + 1) % 2 ^ 24 }).queueCell n c

/-! ### Units: bytes, or words in word mode (R276, R278, R279) -/

/-- Units of an element, of a line, of the staging buffer of 4 lines, of a burst. -/
def Desc.unit (d : Desc) : Nat := if d.wordMode then 1 else d.elem
def Desc.span (d : Desc) : Nat := if d.wordMode then 8 else 64
def Desc.room (d : Desc) : Nat := 4 * d.span
def Desc.burstU (d : Desc) : Nat := if d.wordMode then 64 else 512
/-- Units of the descriptor and of one outer iteration. -/
def Desc.totalU (d : Desc) : Nat := d.total * d.unit
def Desc.iterU (d : Desc) : Nat := d.iter * d.unit

/-- Address of unit p: a byte address, or a word address in word mode. -/
def Desc.srcU (d : Desc) (p : Nat) : Int := if d.wordMode then d.srcAddr p / 8 else d.srcAddr (p / d.elem) + (p % d.elem : Nat)
def Desc.dstU (d : Desc) (p : Nat) : Int := if d.wordMode then d.dstAddr p / 8 else d.dstAddr (p / d.elem) + (p % d.elem : Nat)

/-- The physical word of a unit address in the tagged store. -/
def Desc.wordOf (d : Desc) (a : Int) : Nat := if d.wordMode then a.toNat else a.toNat / 8

/-- Whether a unit address lies in the tagged store, or in the host's memory (R277). -/
def State.unitOk (s : State) (d : Desc) (a : Int) : Bool := decide (0 ≤ a) && s.storeOk (d.wordOf a)
def hostOk (a : Int) : Bool := decide (0 ≤ a) && decide (a < 2 ^ 62)

/-- The end of the run that starts at unit p, within its line; a line of 0 units is no bound. -/
def Desc.runEnd (d : Desc) (addr : Nat → Int) (line : Nat) : Nat → Nat → Nat
  | 0, p => p + 1
  | f + 1, p =>
    if p + 1 < d.totalU ∧ addr (p + 1) = addr p + 1 ∧ addr (p + 1) / line = addr p / line then d.runEnd addr line f (p + 1) else p + 1

/-- How far an access over units p to q gets: an element with a unit outside its endpoint's space stays unperformed (R276, R295). -/
def Desc.reach (d : Desc) (addr : Nat → Int) (ok : Int → Bool) (p q : Nat) : Nat :=
  match ((List.range ((q + d.unit - 1) / d.unit * d.unit - p)).map (p + ·)).find? fun u => !ok (addr u) with
  | none => q
  | some u => min q (u / d.unit * d.unit)

/-- CRC-32C over units in element order (R284). -/
def Desc.crcOver (d : Desc) (crc : BitVec 32) (us : List Word) : BitVec 32 :=
  crcFin (crcRun (crcFin crc) (us.flatMap fun w => if d.wordMode then leBytes 8 w.val.toNat ++ [w.tag] else [byteOf w.val 0]))

/-- Bytes as units of the staging buffer. -/
def unitsOf (bs : List Byte) : List Word := bs.map fun b => rawd (b.setWidth 64)
def bytesOf (us : List Word) : List Byte := us.map fun w => byteOf w.val 0

/-! ### Positions and limits of a channel (R272, R278, R286, R292, R295) -/

/-- The next unit to read. -/
def Chan.rdPos (x : Chan) : Nat := x.wr + x.stage.length

/-- Where the channel's accesses end: at the descriptor's end or the cut, an element in error, or the end of the burst that a stop lets
complete. -/
def Chan.lastU (x : Chan) (d : Desc) : Nat :=
  let n := match x.cutAt with | some u => min d.totalU u | none => d.totalU
  let e := match x.stuck with | some m => min n (m.1 * d.unit) | none => n
  if x.stopping then min e x.stopAt else e

def Chan.burstEnd (x : Chan) (d : Desc) : Nat := (x.wr / d.burstU + 1) * d.burstU

/-- A write stays in the outer iteration that hands over, and a transfer to the host or a stream in its burst. -/
def Chan.writeTo (x : Chan) (d : Desc) : Nat :=
  let a := if x.arm && x.taken.isNone then min (x.lastU d) ((x.wr / d.iterU + 1) * d.iterU) else x.lastU d
  if d.kindD = 0 then a else min a (x.burstEnd d)

/-- Reads go no further than the burst, and than the target line that its last unit lies in. -/
def Chan.readTo (x : Chan) (d : Desc) : Nat :=
  let b := x.burstEnd d
  min (x.lastU d) (if d.kindD = 0 then d.runEnd d.dstU d.span 64 (b - 1) else b)

/-- The end of the write the channel can issue: one line of a run, or up to 64 bytes, once they are staged. -/
def Chan.canWrite (x : Chan) (d : Desc) : Option Nat :=
  let run :=
    match d.kindD with
    | 0 => d.runEnd d.dstU d.span 64 x.wr
    | 1 => min (x.wr + 64) (d.runEnd d.dstU 0 64 x.wr)
    | _ => x.wr + 64
  let q := min (x.writeTo d) run
  if x.wr < q ∧ q ≤ x.rdPos then some q else none

/-- Units that the staging buffer can take. -/
def Chan.canRead (x : Chan) (d : Desc) : Nat := if x.stuck.isSome then 0 else min (x.readTo d - x.rdPos) (d.room - x.stage.length)

/-- The tail of CRCM = 3 is still to be read; the CRC of CRCM = 1 is still to be written, after a cut too (R285). -/
def Chan.tailDue (x : Chan) (d : Desc) : Bool := d.crcm == 3 && decide (d.total ≤ x.done) && decide (x.tail.length < 4)
def Chan.crcDue (x : Chan) (d : Desc) : Bool := d.crcm == 1 && decide (x.crcDone < 4)

/-! ### Reads (R277 to R279) -/

/-- Words of the tagged store as a byte access reads them: the first that is no RAWD ends it. -/
def notRaw (w : Word) : Option Nat := if isPoison w then some 0x10 else if w.tag != tRAWD then some 0x11 else none
def notWord (w : Word) : Option Nat := if isPoison w then some 0x10 else if w.tag == tCODE then some 0x11 else none

/-- Units p to p + n as far as the line last read holds them, and the element in error that ends them. -/
def Desc.draw (d : Desc) (line : Nat) (ws : List Word) : Nat → Nat → List Word × Option (Nat × ChErr)
  | 0, _ => ([], none)
  | n + 1, p =>
    let a := d.srcU p
    let pa := d.wordOf a
    if a < 0 ∨ pa / 8 ≠ line then ([], none)
    else
      let w := ws.getD (pa % 8) unbound
      match if d.wordMode then notWord w else notRaw w with
      | some code => ([], some (p / d.unit, (code, 0, 0, 8 * pa)))
      | none =>
        let r := d.draw line ws n (p + 1)
        ((if d.wordMode then w else rawd ((byteOf w.val (a.toNat % 8)).setWidth 64)) :: r.1, r.2)

/-- Fill the staging buffer from the line last read, which is not read again (R278); then an element in error fails the channel once
every element before it is performed. -/
def Chan.pull (x : Chan) (d : Desc) : Chan :=
  let y :=
    match x.held with
    | some (line, ws) =>
      if x.atPoint then x
      else
        let r := d.draw line ws (x.canRead d) x.rdPos
        { x with stage := x.stage ++ r.1, stuck := r.2.or x.stuck }
    | none => x
  match y.stuck with
  | some (n, e) => if n * d.unit ≤ y.wr then { y with failed := some e } else y
  | none => y

/-- The channel cannot read an element. -/
def State.sticks (s : State) (c n : Nat) (e : ChErr) : State := s.modChan c fun x => { x with stuck := some (n, e) }

/-- One read access: a line of the tagged store, the request of a host read or its answer, bytes of a stream. -/
def State.readAccess (s : State) (c : Nat) (d : Desc) (host : List Byte) : State :=
  let x := s.chanOf c
  let p := x.rdPos
  let n := p / d.unit
  match d.kindS with
  | 0 =>
    let line := d.wordOf (d.srcU p) / 8
    if s.unitOk d (d.srcU p) then
      let s1 := s.homeReads (lineWords line)
      s1.modChan c fun x => { x with held := some (line, (lineWords line).map s1.rd) }
    else s.sticks c n (0x14, 0, 0, (d.srcAddr n).toNat)
  | 1 =>
    match x.req with
    | some (_, m) => s.modChan c fun x => { x with stage := x.stage ++ unitsOf (host.take m), req := none }
    | none =>
      let q := d.reach d.srcU hostOk p (min (p + min 64 (x.canRead d)) (d.runEnd d.srcU 0 64 p))
      if q ≤ p then s.sticks c n (0x14, 0, 1, (d.srcAddr n).toNat)
      else (s.emit (.hostRead c (d.srcU p).toNat (q - p))).modChan c fun x => { x with req := some ((d.srcU p).toNat, q - p) }
  | _ =>
    let bs := x.inbuf.take (min 64 (x.canRead d))
    s.modChan c fun x =>
      { x with stage := x.stage ++ unitsOf bs, inbuf := x.inbuf.drop bs.length, burstIn := if d.kindD = 1 then x.burstIn ++ bs else [] }

/-- The 4 source bytes of the tail that CRCM = 3 compares with (R285); those of a tail that lies in two lines take two accesses. -/
def State.tailAccess (s : State) (c : Nat) (d : Desc) (host : List Byte) : State :=
  let x := s.chanOf c
  let a := d.srcAddr d.total
  match d.kindS with
  | 0 =>
    if storeSpan s a 4 then
      let b := a.toNat + x.tail.length
      let n := min (4 - x.tail.length) (64 - b % 64)
      let pas := (List.range n).map fun i => (b + i) / 8
      let s1 := s.homeReads pas.eraseDups
      let bad := pas.findSome? fun pa => ((if d.wordMode then notWord else notRaw) (s1.rd pa)).map fun code => (code, 0, 0, 8 * pa)
      s1.modChan c fun x =>
        { x with failed := bad, tail := x.tail ++ (List.range n).map fun i => byteOf (s1.rd ((b + i) / 8)).val ((b + i) % 8) }
    else s.modChan c fun x => { x with failed := some (0x14, 0, 0, a.toNat) }
  | 1 =>
    match x.req with
    | some (_, m) => s.modChan c fun x => { x with tail := host.take m, req := none }
    | none =>
      if hostOk a && hostOk (a + 3) then (s.emit (.hostRead c a.toNat 4)).modChan c fun x => { x with req := some (a.toNat, 4) }
      else s.modChan c fun x => { x with failed := some (0x14, 0, 1, a.toNat) }
  | _ =>
    let bs := x.inbuf.take (4 - x.tail.length)
    s.modChan c fun x => { x with tail := x.tail ++ bs, inbuf := x.inbuf.drop bs.length }

/-! ### Writes (R278, R279) -/

/-- Write bytes at a byte address; `lo` and `hi` bound what the run covers. A word the run covers in part must be RAWD; a word it covers
whole is not read (R278). -/
def State.writeBytes (s : State) (a lo hi : Nat) (bs : List Byte) : State × Option ChErr :=
  let ws := (List.range ((a + bs.length - 1) / 8 - a / 8 + 1)).map fun i => a / 8 + i
  let part := ws.filter fun w => !(decide (lo ≤ 8 * w) && decide (8 * w + 8 ≤ hi))
  let s1 := s.homeReads part
  match part.find? fun w => (s1.rd w).tag != tRAWD with
  | some w => (s1, some (if isPoison (s1.rd w) then 0x12 else 0x13, 1, 0, 8 * w))
  | none =>
    let merged (s : State) (w : Nat) : Word :=
      let old := if (s.rd w).tag = tRAWD then (s.rd w).val else 0
      rawd ((List.range 8).foldl (fun v k =>
        if a ≤ 8 * w + k ∧ 8 * w + k < a + bs.length then setByte v k (bs.getD (8 * w + k - a) 0) else v) old)
    if a % 64 = 0 ∧ bs.length = 64 then (s1.wrLine (a / 64) (ws.map (merged s1)), none)
    else (forEach ws s1 fun s w => s.wr w (merged s w), none)

/-- Units that the run around p covers before it, and after it, up to a word's worth; the CRC of CRCM = 1 follows the last (R285). -/
def Desc.runBack (d : Desc) : Nat → Nat → Nat
  | 0, _ => 0
  | _, 0 => 0
  | f + 1, p + 1 => if d.dstU p + 1 = d.dstU (p + 1) then d.runBack f p + 1 else 0
def Desc.runOn (d : Desc) : Nat → Nat → Nat
  | 0, _ => 0
  | f + 1, p =>
    if p + 1 < d.totalU + (if d.crcm = 1 then 4 else 0) ∧ d.dstU p + 1 = d.dstU (p + 1) then d.runOn f (p + 1) + 1 else 0

/-- One write access of units `us` from unit p on: a line, or up to 64 bytes. -/
def State.putUnits (s : State) (d : Desc) (p : Nat) (us : List Word) : State × Option ChErr :=
  let a := d.dstU p
  match d.kindD with
  | 0 =>
    if d.wordMode then
      if a.toNat % 8 = 0 ∧ us.length = 8 then (s.wrLine (a.toNat / 8) us, none)
      else (forEach us.zipIdx s fun s wi => s.wr (a.toNat + wi.2) wi.1, none)
    else s.writeBytes a.toNat (a.toNat - d.runBack 7 p) (a.toNat + us.length + d.runOn 7 (p + us.length - 1)) (bytesOf us)
  | 1 => (s.emit (.hostWrite a.toNat (bytesOf us)), none)
  | _ => (s.streamOut d.baseD (bytesOf us), none)

/-- The hand-over cycle: the iteration's last access has been issued, and ARM is sampled, once (R286, R296). What was staged beyond it goes
back. -/
def Chan.handPoint (x : Chan) (d : Desc) : Chan :=
  let take := x.arm && x.taken.isNone
  { x with atPoint := true, taken := if take then some x.shadowDesc else x.taken, cutAt := if take then some x.wr else x.cutAt,
           arm := x.arm && !take, stage := [], held := none, req := none,
           inbuf := if d.kindS = 2 then bytesOf x.stage ++ x.inbuf else x.inbuf }

/-- The units up to q have been performed: counts, the CRC of whole elements, and the last burst boundary reached (R272, R284, R296). -/
def Chan.advance (x : Chan) (d : Desc) (q : Nat) : Chan :=
  let us := x.part ++ x.stage.take (q - x.wr)
  let n := us.length / d.unit * d.unit
  let b := q / d.burstU * d.burstU
  let edge := decide (x.wr < b)
  let y := { x with
    wr := q, done := q / d.unit, stage := x.stage.drop (q - x.wr), part := us.drop n, crc := d.crcOver x.crc (us.take n), attempt := if edge then 0 else x.attempt,
    burst := if edge then b else x.burst, burstCrc := if edge then d.crcOver x.crc (us.take (x.part.length + b - x.wr)) else x.burstCrc,
    burstIn := if edge then [] else x.burstIn }
  if q = d.totalU ∨ x.cutAt = some q ∨ (x.arm = true ∧ x.taken = none ∧ q % d.iterU = 0) then y.handPoint d else y

/-- One write access: the elements in their endpoint's space; the first outside it fails the channel. -/
def State.writeAccess (s : State) (c : Nat) (d : Desc) (q : Nat) : State :=
  let x := s.chanOf c
  let ok : Int → Bool := match d.kindD with | 0 => s.unitOk d | 1 => hostOk | _ => fun _ => true
  let q1 := d.reach d.dstU ok x.wr q
  if q1 ≤ x.wr then
    let n := (x.wr + d.unit - 1) / d.unit
    s.modChan c fun x => { x with failed := some (0x14, 1, d.kindD, (d.dstAddr n).toNat) }
  else
    let r := s.putUnits d x.wr (x.stage.take (q1 - x.wr))
    match r.2 with
    | some e => r.1.modChan c fun x => { x with failed := some e }
    | none => r.1.modChan c fun x => x.advance d q1

/-- The CRC of CRCM = 1 goes to the destination directly after the last element, each line of it in one access (R285). -/
def State.crcAccess (s : State) (c : Nat) (d : Desc) : State :=
  let x := s.chanOf c
  let a := (d.baseD : Int) + (x.done * d.elem : Nat)
  let n := if d.kindD = 0 then min (4 - x.crcDone) (64 - (a.toNat + x.crcDone) % 64) else 4
  let bs := ((leBytes 4 x.crc.toNat).drop x.crcDone).take n
  let fails (e : ChErr) : State := s.modChan c fun x => { x with failed := some e }
  let wrote (s : State) : State := s.modChan c fun x => { x with crcDone := x.crcDone + n }
  match d.kindD with
  | 0 =>
    if !storeSpan s a 4 then fails (0x14, 1, 0, a.toNat)
    else
      let r := s.writeBytes (a.toNat + x.crcDone) (a.toNat - if d.wordMode then 0 else d.runBack 7 x.wr) (a.toNat + 4) bs
      match r.2 with | some e => r.1.modChan c fun x => { x with failed := some e } | none => wrote r.1
  | 1 => if hostOk a && hostOk (a + 3) then wrote (s.emit (.hostWrite a.toNat bs)) else fails (0x14, 1, 1, a.toNat)
  | _ => wrote (s.streamOut d.baseD bs)

/-! ### Beats (R272 to R274) -/

/-- Whether a source can answer a read of the channel now; `host` is what the wharf holds for the read it has outstanding. -/
def Chan.answered (x : Chan) (d : Desc) (host : List Byte) : Bool :=
  match d.kindS with
  | 0 => true
  | 1 => match x.req with | some r => decide (r.2 ≤ host.length) | none => true
  | _ => !x.inbuf.isEmpty

/-- Whether a channel can issue an access now. -/
def State.chanReady (s : State) (c : Nat) (host : List Byte) : Bool :=
  let x := s.chanOf c
  match x.desc with
  | none => false
  | some d =>
    x.en && x.st == .active && x.failed.isNone &&
      (if x.atPoint then !x.stopping && ((x.tailDue d && x.answered d host) || x.crcDue d)
       else (x.canWrite d).isSome || (decide (0 < x.canRead d) && x.answered d host))

/-- The first ready channel in ascending order after the one served last. -/
def nextInTurn (ready : List Nat) (last : Nat) : Option Nat :=
  match ready.find? fun c => last < c with
  | some c => some c
  | none => ready.head?

/-- A B channel inside a burst keeps the engine from every other B channel, also while it waits for data (R274). -/
def State.inBurst (s : State) : Option Nat :=
  (s.slu.curB.map Fin.val).filter fun c =>
    let x := s.chanOf c
    x.en && x.st == .active && x.failed.isNone && !x.atPoint && !x.cls

/-- The channel that takes the beat. -/
def State.pickChan (s : State) (host : List Byte) : Option Nat :=
  let ready := (s.slu.chans.map Prod.fst).filter fun c => s.chanReady c host
  let ts := ready.filter fun c => (s.chanOf c).cls
  let bs := ready.filter fun c => !(s.chanOf c).cls
  match nextInTurn ts s.slu.rrT with
  | some c => some c
  | none =>
    match s.inBurst with
    | some c => if bs.contains c then some c else none
    | none =>
      let top := bs.foldl (fun a c => max a (s.chanOf c).prio.toNat) 0
      nextInTurn (bs.filter fun c => (s.chanOf c).prio.toNat == top) s.slu.rrB

/-- The turn after a beat of a channel that stood at unit p: a B channel stays in its burst until a boundary (R273, R274). -/
def State.served (s : State) (c p : Nat) : State :=
  let x := s.chanOf c
  let edge := match x.desc with | some d => decide (p / d.burstU < x.wr / d.burstU) || x.atPoint | none => true
  s.modSlu fun g => if x.cls then { g with rrT := c } else
    { g with rrB := c, curB := if edge then none else some ⟨c % 64, Nat.mod_lt _ (by decide)⟩ }

/-! ### Bus errors (R296, R297) -/

/-- Return to the last burst boundary: the failing burst counts as not performed. -/
def Chan.rewind (x : Chan) (d : Desc) : Chan :=
  { x with wr := x.burst, done := x.burst / d.unit, crc := x.burstCrc, inbuf := x.burstIn ++ x.inbuf, burstIn := [], part := [], stage := [],
           held := none, req := none, stuck := none, tail := [], crcDone := 0, atPoint := x.atPoint && x.wr == x.burst }

/-- A channel completes the burst in progress and stops (R292). -/
def Chan.toStop (x : Chan) : Chan :=
  match x.desc with
  | some d =>
    let begun := x.wr % d.burstU != 0 || !x.stage.isEmpty || x.req.isSome
    { x with stopping := true, stopAt := if begun then x.burstEnd d else x.wr }
  | none => { x with stopping := true }

/-- Side and address of the host access that a bus error concerns: a read answered with an error, or the access that meets a link that is
down: the posted write once it can be issued, else the read (Table 13.6). -/
def State.hostAccess (s : State) (x : Chan) (d : Desc) (code : Nat) : Option (Nat × Nat) :=
  let down := code == 3 && !s.pins.linkUp
  let writes := if x.atPoint then x.crcDue d else (x.canWrite d).isSome
  if down && d.kindD = 1 && (writes || d.kindS ≠ 1) then some (1, (d.dstU x.wr).toNat)
  else if d.kindS = 1 then
    match x.req with
    | some r => if down || code == 1 || code == 2 || code == 4 then some (0, r.1) else none
    | none => if down then some (0, (d.srcU x.rdPos).toNat) else none
  else none

/-- The first bus error in BL16 mode stops every other channel that is not IDLE (R297). -/
def State.bl16Stop (s : State) (c : Option Nat) : State :=
  forEach (s.slu.chans.map Prod.fst) s fun s k =>
    if c = some k then s
    else match (s.chanOf k).st with
      | .wait | .retry | .parked | .ended | .stopped => s.haltChan k 0x31 3 0 0
      | .active => s.modChan k fun x => { (if x.stopping then x else x.toStop) with bl16stop := true }
      | _ => s

def State.busError (s : State) (c code : Nat) : State :=
  let x := s.chanOf c
  match x.desc with
  | none =>
    -- a completion timeout that arrives after its channel has been disabled (R297)
    if code = 2 && s.slu.bl16 && !s.slu.bl16halt then
      (s.modSlu fun g => { g with bl16halt := true, echanv := false, ecode := code }).bl16Stop none
    else s
  | some d =>
    match s.hostAccess x d code with
    | none => s
    | some (side, addr) =>
      if x.st != .active then s
      else if s.slu.bl16 then
        if s.slu.bl16halt then (s.modChan c fun x => x.rewind d).haltChan c 0x31 3 0 0
        else
          let s1 := s.modSlu fun g => { g with bl16halt := true, echanv := true, echan := c, ecode := code }
          ((s1.modChan c fun x => x.rewind d).haltChan c code side 1 addr).bl16Stop (some c)
      else if x.stopping || decide (x.attempt < s.slu.retrymax.toNat) then
        let s1 := (s.leaveBurst c).modChan c fun x =>
          { x.rewind d with st := .retry, attempt := x.attempt + 1 }
        if x.stopping then s1.endState c .stopped else s1
      else (s.modChan c fun x => x.rewind d).haltChan c code side 1 addr

/-- One access of a channel: a write that is complete goes before a read; a host access over a link that is down is a bus error. -/
def State.access (s : State) (c : Nat) (host : List Byte) : State :=
  let x := s.chanOf c
  match x.desc with
  | none => s
  | some d =>
    if x.atPoint then
      if x.tailDue d then (if d.kindS = 1 && !s.pins.linkUp then s.busError c 3 else s.tailAccess c d host)
      else if d.kindD = 1 && !s.pins.linkUp then s.busError c 3
      else s.crcAccess c d
    else match x.canWrite d with
      | some q => if d.kindD = 1 && !s.pins.linkUp then s.busError c 3 else (s.writeAccess c d q).modChan c fun x => x.pull d
      | none => if d.kindS = 1 && !s.pins.linkUp then s.busError c 3 else (s.readAccess c d host).modChan c fun x => x.pull d

/-- A beat. `host` is what the wharf returns for the host read outstanding. -/
def State.beat (s : State) (host : List Byte) : State :=
  match s.pickChan host with
  | some c => (s.access c host).served c (s.chanOf c).wr
  | none => s

/-! ### Completion and hand-over (R282, R285, R286) -/

/-- Half completion, once. -/
def State.half (s : State) (c : Nat) : State :=
  let x := s.chanOf c
  match x.desc with
  | none => s
  | some d =>
    if x.halfDone then s
    else
      let s1 := s.modChan c fun x => { x with halfDone := true }
      if d.hev then s1.raise c else s1

/-- Full completion: EV[64 + c] and the trigger of channels that wait on c. -/
def State.full (s : State) (c : Nat) (d : Desc) : State :=
  let s1 := if d.fev then s.raise (64 + c) else s
  s1.trigOcc 4 c

/-- The comparison of CRCM = 2 or 3 at the end of a descriptor fails (R285). -/
def Chan.crcError (x : Chan) (d : Desc) : Option ChErr :=
  let want := match d.crcm with | 2 => some d.crcx | 3 => some (leNat x.tail) | _ => none
  if d.total ≤ x.done && want.any (· != x.crc.toNat) then some (0x30, 3, 0, if x.curShd then 0 else 8 * x.curAddr) else none

/-- What follows the descriptor: the shadow taken, the shadow's own link, or the link word (R286). -/
def State.whatNext (s : State) (c : Nat) (d : Desc) (taken : Option Desc) : State :=
  let x := s.chanOf c
  match taken with
  | some e =>
    let s1 := s.modChan c fun x => { x with shadowTaken := true, shcnt := (x.shcnt + 1) % 256 }
    let linkOk := !bit e.w7 63 || (fld e.w7 0 3 == 0 && fld e.w7 36 27 == 0)
    if s1.descOk c e && linkOk then s1.accept c e true 0 else s1.badLoad c 0x22 true 0
  | none =>
    if x.curShd then
      if bit d.w7 63 then s.loadDesc c (fld d.w7 0 36)
      else (s.modChan c fun x => { x with desc := none }).endState c .ended
    else s.followLink c x.curAddr

/-- The end of a descriptor at a hand-over point, its CRC written: the comparison, the completions, then what follows (R286). -/
def State.handOver (s : State) (c : Nat) : State :=
  let x := s.chanOf c
  match x.desc with
  | none => s
  | some d =>
    if !x.atPoint || x.st != .active || x.stopping || x.failed.isSome || x.tailDue d || x.crcDue d then s
    else
      match x.crcError d with
      | some e => s.haltChan c e.1 e.2.1 e.2.2.1 e.2.2.2
      | none =>
        let s2 := ((s.half c).full c d).modChan c fun x => { x with cut := decide (x.done < d.total) }
        -- the channel that holds the stream no longer counts as its holder while it loads the next descriptor
        (s2.modChan c fun x => { x with st := .idle }).whatNext c d x.taken

/-! ### Commands (R287 to R293) -/

def startable : ChSt → Bool | .idle => true | .ended => true | .stopped => true | .halted => true | _ => false

/-- A write of SLU_START[c] (R291). -/
def State.sluStart (s : State) (c : Nat) (v : Val) : State :=
  let x := s.chanOf c
  let shd := bit v 63
  if x.en && startable x.st && !s.slu.bl16halt && (!shd || x.arm) then
    let s1 := s.modChan c fun x =>
      { x with errV := false, errAtt := 0, errSide := 0, errCode := 0, done := 0, cut := false, parkV := false, desc := none, inbuf := [] }
    if shd then s1.takeShadow c else s1.loadDesc c (fld v 0 36)
  else s.modChan c fun x => { x with cmdign := satInc 8 x.cmdign }

/-- A write of SLU_RESUME[c] (R290). -/
def State.sluResume (s : State) (c : Nat) : State :=
  let x := s.chanOf c
  if x.st = .parked ∧ x.parkV then s.followLink c x.parkAddr
  else s.modChan c fun x => { x with resign := satInc 16 x.resign }

/-- A write of a shadow word (R287). -/
def State.sluShd (s : State) (c w : Nat) (v : Val) : State :=
  if (s.chanOf c).arm then s.modChan c fun x => { x with shdrej := true }
  else s.modChan c fun x => { x with shd := mset shdD x.shd (w % 8) v }

/-- ARM written (R287, R288): a PARKED or ENDED channel takes the shadow at once. -/
def State.sluArm (s : State) (c : Nat) (arm : Bool) : State :=
  let x := s.chanOf c
  let s1 := s.modChan c fun x => { x with arm := arm }
  if arm && (x.st == .parked || x.st == .ended) && x.en then s1.takeShadow c else s1

/-- EN cleared: IDLE at once; SLU_DONE and SLU_CRC are undefined (R293). -/
def State.sluDisable (s : State) (c : Nat) : State :=
  if (s.chanOf c).en then
    let (v, s1) := s.fresh
    let (w, s2) := s1.fresh
    (s2.leaveBurst c).modChan c fun x =>
      { x.idleEngine with en := false, st := .idle, desc := none, latch := false, arm := false, parkV := false, inbuf := [],
                          done := fld v 0 48, crc := BitVec.ofNat 32 w.toNat }
  else s

def State.sluEnable (s : State) (c : Nat) (en : Bool) : State :=
  if en then s.modChan c fun x => { x with en := true } else s.sluDisable c

/-- CLASS written: ignored outside IDLE. -/
def State.sluClass (s : State) (c : Nat) (t : Bool) : State :=
  if (s.chanOf c).st = .idle then s.modChan c fun x => { x with cls := t } else s

/-- STOP (R292). -/
def State.sluStop (s : State) (c : Nat) : State :=
  match (s.chanOf c).st with
  | .wait | .parked => s.endState c .stopped
  | .retry => s.endState c .stopped
  | .active => if (s.chanOf c).stopping then s else s.modChan c Chan.toStop
  | _ => s

/-- A stopping channel has completed its burst, or its descriptor (R292, R297). -/
def State.sluStopDone (s : State) (c : Nat) : State :=
  let x := s.chanOf c
  let edge := match x.desc with
    | some d => decide (x.stopAt ≤ x.wr) || decide (d.total ≤ x.done) || x.atPoint
    | none => true
  if x.st == .active && x.stopping && x.failed.isNone && edge then
    if x.bl16stop then s.haltChan c 0x31 3 0 0 else s.endState c .stopped
  else s

/-- A write of SLU_CTL[c] (Table 13.9): EN, then the fields it carries. Clearing EN clears ARM with it (R293). -/
def State.sluCtl (s : State) (c : Nat) (v : Val) : State :=
  if !bit v 63 then
    let s1 := if (s.chanOf c).en then s.sluDisable c else s.sluArm c (bit v 61)
    (s1.sluClass c (bit v 62)).modChan c fun x => { x with prio := BitVec.ofNat 3 (fld v 0 3) }
  else
    let s1 := ((s.sluEnable c true).sluClass c (bit v 62)).modChan c fun x => { x with prio := BitVec.ofNat 3 (fld v 0 3) }
    let s2 := s1.sluArm c (bit v 61)
    let s3 := if bit v 60 then s2.sluStop c else s2
    if bit v 59 then s3.modChan c fun x => x.latchTrig 1 0 else s3

/-- W1C bits of SLU_STAT[c]. -/
def State.sluStatW1c (s : State) (c : Nat) (v : Val) : State :=
  s.modChan c fun x => { x with trigovf := x.trigovf && !bit v 58, shdrej := x.shdrej && !bit v 57 }

/-- A write of SLU_GCTL (R298). -/
def State.sluGctl (s : State) (v : Val) : State :=
  if s.weir.runSt ≠ .stopped ∧ bit v 63 ≠ s.slu.bl16 then s.modSlu fun x => { x with grefused := satInc 16 x.grefused }
  else s.modSlu fun x => { x with bl16 := bit v 63 }

def State.sluGstatW1c (s : State) (v : Val) : State := s.modSlu fun x => { x with bl16halt := x.bl16halt && !bit v 63 }

/-- A write of SLU_TIMER[n] (R283). -/
def State.sluTimer (s : State) (n : Nat) (v : Val) : State :=
  if bit v 63 ∧ fld v 0 30 < 10 then s
  else s.modSlu fun x => { x with timers := mset valD x.timers n (v &&& 0xCFFFFFFFFFFFFFFF) }

/-- A timer fires (R283); with SYNC = 1 and OFFSET ≥ P it never does. -/
def State.timerFire (s : State) (n : Nat) : State :=
  let v := mget valD s.slu.timers n
  if bit v 63 && !(bit v 62 && decide (s.weir.len ≤ fld v 30 30)) then (s.trigOcc 3 n).raise (192 + n) else s

/-- The wait between attempts expires. -/
def State.retry (s : State) (c : Nat) : State :=
  if (s.chanOf c).st = .retry then s.modChan c fun x => { x with st := .active } else s

/-- A channel found a non-bus error (R295). -/
def State.actOnError (s : State) (c : Nat) : State :=
  match (s.chanOf c).failed with
  | some e => s.haltChan c e.1 e.2.1 e.2.2.1 e.2.2.2
  | none => s

/-- A WAIT descriptor starts after its latch is set (R281). -/
def State.descStart (s : State) (c : Nat) : State :=
  let x := s.chanOf c
  if x.st = .wait ∧ x.latch then s.modChan c fun x => { x with st := .active, latch := false } else s

/-- Half completion falls due when ⌊N/2⌋ elements are performed (R282). -/
def State.halfDue (s : State) (c : Nat) : State :=
  let x := s.chanOf c
  match x.desc with
  | none => s
  | some d => if 2 ≤ d.total ∧ d.total / 2 ≤ x.done ∧ x.st = .active then s.half c else s

/-- Stop of every engine (R294): each of the 64 channels enters STOPPED. -/
def State.stopSluice (s : State) : State :=
  forEach (List.range 64) s fun s c => if (s.chanOf c).st = .stopped then s else s.endState c .stopped

/-! ### Registers (Tables 13.7 to 13.9) -/

def Chan.ctl (x : Chan) : Val := flag x.en 63 ||| flag x.cls 62 ||| flag x.arm 61 ||| put x.prio.toNat 0 3
def Chan.stat (x : Chan) : Val :=
  put x.st.code 61 3 ||| flag x.shadowTaken 60 ||| flag x.cut 59 ||| flag x.trigovf 58 ||| flag x.shdrej 57
    ||| put x.shcnt 48 8 ||| put x.resign 32 16 ||| put x.sdisc 16 16 ||| put x.cmdign 8 8 ||| put x.attempt 4 4
def Chan.cur (x : Chan) : Val := flag x.desc.isSome 63 ||| flag x.curShd 62 ||| put (if x.curShd then 0 else x.curAddr) 0 36
def Chan.err (x : Chan) : Val := flag x.errV 63 ||| put x.errAtt 56 4 ||| put x.errSide 54 2 ||| put x.errCode 0 8

def chanReg (x : Chan) (r : Nat) : Val :=
  match r with
  | 0 => x.ctl
  | 1 => x.stat
  | 4 => x.cur
  | 5 => flag x.parkV 63 ||| put x.parkAddr 0 36
  | 6 => put x.done 0 48
  | 7 => put x.crc.toNat 0 32
  | 8 => x.err
  | 9 => put x.errKind 62 2 ||| put x.errAddr 0 62
  | r => if 0x10 ≤ r ∧ r ≤ 0x17 then mget shdD x.shd (r - 0x10) else 0

def State.sluRead (s : State) (off : Nat) : Val :=
  if 0x100 ≤ off ∧ off < 0x900 then chanReg (s.chanOf ((off - 0x100) / 32)) (off % 32)
  else if 0x10 ≤ off ∧ off ≤ 0x1F then mget valD s.slu.timers (off - 0x10)
  else match off with
  | 0 => flag s.slu.bl16 63
  | 1 => put s.slu.retrymax.toNat 0 3
  | 2 => flag s.slu.bl16halt 63 ||| flag s.slu.echanv 62 ||| put s.slu.echan 56 6 ||| put s.slu.ecode 48 8
      ||| put s.slu.grefused 32 16
  | _ => 0

def State.sluWrite (s : State) (off : Nat) (v : Val) : State :=
  if 0x100 ≤ off ∧ off < 0x900 then
    let c := (off - 0x100) / 32
    match off % 32 with
    | 0 => s.sluCtl c v
    | 1 => s.sluStatW1c c v
    | 2 => s.sluStart c v
    | 3 => s.sluResume c
    | r => if 0x10 ≤ r ∧ r ≤ 0x17 then s.sluShd c (r - 0x10) v else s
  else if 0x10 ≤ off ∧ off ≤ 0x1F then s.sluTimer (off - 0x10) v
  else match off with
  | 0 => s.sluGctl v
  | 1 => s.modSlu fun x => { x with retrymax := BitVec.ofNat 3 (fld v 0 3) }
  | 2 => s.sluGstatW1c v
  | _ => s

end Sys2Proof.Machine
end

