-- ==== Sys2Proof/Machine/Caches.lean ====
section
/-!
DEFINITION. Cached accesses of a bank (R48, R202, R204, R210 to R214, R219): the lookup in L1, victim cache and L2, the line transfers
and evictions it causes, and the credits they cost. `k` is the bank's index; its core's cluster and position do the access.
-/

namespace Sys2Proof.Machine

/-! ### Credits (R48) -/

/-- Line transfers of a frame task are charged to its credits. -/
def State.spendCredits (s : State) (k n : Nat) : State :=
  if (s.taskOf k).any fun t => t.phase == .active then
    s.modTask k fun t => { t with credLeft := t.credLeft - n, credOut := t.credOut || decide (t.credLeft ≤ n) }
  else s

/-! ### Where a bank's accesses go -/

def l2On (l : L2) : Bool := bit l.ctl 0
def l1dOn (l : L2) (pos : Nat) : Bool := bit l.ctl 0 && bit l.ctl (8 + pos)
def l1cOn (l : L2) (pos : Nat) : Bool := bit l.ctl 0 && bit l.ctl (16 + pos)

/-- The power domain of way group g of a cluster (Table 17.6). -/
def wayDomain (cl : ClusterId) (g : Nat) : Nat := 144 + 4 * cl.val + g
def State.domOn (s : State) (d : Nat) : Bool := bit s.pwr.on d

/-- A way that ordinary misses may fill: not locked, its group powered (R202, R210). -/
def State.wayOk (s : State) (cl : ClusterId) (w : Nat) : Bool := !bit (s.l2Of cl).lockways w && s.domOn (wayDomain cl (w / 4))

/-! ### The L2 -/

/-- An L2 evicts a line: its L1 and victim copies go first, and a modified line is written back at the cost of the bank that made room. -/
def State.evictLine (s : State) (k : Nat) (cl : ClusterId) (line : Nat) : State :=
  let s1 := if s.dirtyIn cl line then s.settle line (some cl) else s
  let s2 := if s1.dirtyIn cl line then (s1.spendCredits k 1).writeBack line else s1
  s2.modL2 cl fun l => l.drop line

/-- The line that makes room for another in the L2: none where a hole or an invalid slot takes it, or no way may. -/
def State.victim (s : State) (cl : ClusterId) (line : Nat) : Option Nat :=
  let l := s.l2Of cl
  if (l.slots.any fun x => x.line == line && x.hole) || !(List.range 16).any (s.wayOk cl) then none
  else ((l.setOf line).held.find? fun w => w.way == (l.setOf line).pick 4 (s.wayOk cl)).map Way.line

/-- Empty a slot of the L2 that is not locked. -/
def State.clearWay (s : State) (k : Nat) (cl : ClusterId) (set way : Nat) : State :=
  match (mget csetD (s.l2Of cl).sets set).held.find? fun w => w.way == way with
  | some w => s.evictLine k cl w.line
  | none => s

/-- Place a line that the L2 does not hold: in its hole when it has one (R211), else in a slot of its set. -/
def State.placeL2 (s : State) (k : Nat) (cl : ClusterId) (line : Nat) : State :=
  let l := s.l2Of cl
  if l.slots.any fun x => x.line == line && x.hole then
    s.modL2 cl fun l => { l with slots := l.slots.map fun x => if x.line == line then { x with hole := false } else x }
  else if (List.range 16).any (s.wayOk cl) then
    (match s.victim cl line with | some v => s.evictLine k cl v | none => s).modL2 cl fun l =>
      l.putSet line ((l.setOf line).place 4 (s.wayOk cl) line false).1
  else s

/-- A line comes to a cluster from its home agent: from the cluster that holds it modified, which writes it back, or from the devices. -/
def State.fetchLine (s : State) (cl : ClusterId) (line : Nat) : State :=
  let s1 := s.settle line (some cl)
  let s2 := if s1.dirty line then (if s1.dirtyIn cl line then s1 else s1.writeBack line) else s1.checkLine line false
  forEach (lineWords line) s2 State.mirrorWord

/-- Have a line in the L2: a hit costs no transfer (R219), a miss one, unless the line is acquired without fetching (R154). -/
def State.obtain (s : State) (k : Nat) (cl : ClusterId) (line : Nat) (fetch : Bool) : State :=
  if (s.l2Of cl).holds line then s.modL2 cl fun l => l.use line
  else (if fetch then (s.spendCredits k 1).fetchLine cl line else s).placeL2 k cl line

/-! ### The L1 and victim caches -/

inductive Use where
  | read | write | code
  /-- A write of the whole line, acquired without fetching it. -/
  | whole
  deriving DecidableEq, Repr

def Use.writes : Use → Bool | .write => true | .whole => true | _ => false

/-- Whether an access hits the L1 or victim cache of its position. -/
def State.l1Hit (s : State) (k line : Nat) (u : Use) : Bool :=
  let l := s.l2Of (clOf k)
  let pos := posOfBank k
  if u = .code then ((l.l1 true pos line).find line).isSome else l.inL1 pos line

/-- The L1 level of an access to a line that the L2 has: a hit, a move back from the victim cache, or a fill (R202). -/
def L2.enterL1 (l : L2) (pos line : Nat) (u : Use) : L2 :=
  let code := u == .code
  if (if code then !l1cOn l pos else !l1dOn l pos) then l
  else match (l.l1 code pos line).find line with
    | some w =>
      let c := (l.l1 code pos line).touch 2 w.way
      l.setL1 code pos line (if u.writes then c.mark line true else c)
    | none =>
      if code then l.fillL1c pos line
      else match (l.victOf pos).find? fun w => w.line == line with
        | some w => (l.setVict pos ((l.victOf pos).filter fun w => w.line != line)).fillL1d pos line (w.dirty || u.writes)
        | none => l.fillL1d pos line u.writes

/-- What an access does to the copies of the other positions, and a write to the code copy of its own (R204). -/
def L2.others (l : L2) (pos line : Nat) (u : Use) : L2 :=
  if u.writes then
    let l1 := l.shed line (some pos)
    (if ((l1.l1 true pos line).find line).isSome then l1.setL1 true pos line ((l1.l1 true pos line).drop line) else l1).forget (9 + pos) line
  else l.share line pos

/-- A cached access of a bank to a line. Where no way may hold the line the L1 does not either: the L2 holds every line of its L1s. -/
def State.reach (s : State) (k line : Nat) (u : Use) : State :=
  let cl := clOf k
  let pos := posOfBank k
  let s0 := s.checkTags cl line
  let s1 := if u = .code && s0.l1Hit k line u then s0 else s0.checkArrays cl ((s0.l2Of cl).source (some pos) line) line 0
  let s2 := if s1.l1Hit k line u then s1 else s1.obtain k cl line (u != .whole)
  s2.modL2 cl fun l => if l.holds line then (l.others pos line u).enterL1 pos line u else l

/-- A cached store of a bank (write-back, write-allocate, Table 9.1). -/
def State.wrCached (s : State) (k pa : Nat) (w : Word) : State :=
  let line := pa / 8
  let s1 := (s.endResv pa).reach k line .write
  if (s1.l2Of (clOf k)).holds line then ((s1.own (clOf k) (posOfBank k) line).snoop line (some (clOf k))).putMem pa w else s1.wrAt pa w

/-- Acquire a whole line without fetching it, and write it (R154). -/
def State.wholeCached (s : State) (k line : Nat) (ws : List Word) : State :=
  let s1 := (forEach (lineWords line) s State.endResv).reach k line .whole
  if (s1.l2Of (clOf k)).holds line then
    forEach ws.zipIdx ((s1.own (clOf k) (posOfBank k) line).snoop line (some (clOf k))) fun s wi => s.putMem (8 * line + wi.2) wi.1
  else s1.wrLine line ws

/-- A word of the L1 code cache whose parity is wrong is a miss: its slot is invalidated (R56, R214). -/
def State.checkCode (s : State) (k pa : Nat) : State :=
  let pos := posOfBank k
  if s.l1Hit k (pa / 8) .code && bit ((s.l2Of (clOf k)).codeBadAt pos (pa / 8)) (pa % 8) then
    s.modL2 (clOf k) fun l => (l.setL1 true pos (pa / 8) ((l.l1 true pos (pa / 8)).drop (pa / 8))).forget (9 + pos) (pa / 8)
  else s

/-- What a data read of a word leaves behind: cached, or at the home agent (R204). -/
def State.noteRead (s : State) (k : Nat) (pa : Nat) (unc : Bool) : State :=
  if unc then s.homeRead pa else s.reach k (pa / 8) .read

end Sys2Proof.Machine
end

