-- ==== Sys2Proof/Machine/Translate.lean ====
section
/-!
DEFINITION. Address translation (chapter 08): the walk, the TLBs and the walk cache, the checks of R192 and the region
checks of R190. `Run` is a computation that may end in a trap and keeps the state it has reached.
-/

namespace Sys2Proof.Machine

/-- A computation over the state that answers a value or raises a trap. -/
abbrev Run (α : Type) := ExceptT Trap (StateM State) α

/-- End the computation in a trap. -/
def raiseTrap {α : Type} (cause : Cause) (t3 t4 : Option Word := none) : Run α := throw ⟨cause, t3, t4⟩

/-- Raise a trap when a condition holds. -/
def trapIf (b : Bool) (cause : Cause) (t3 t4 : Option Word := none) : Run Unit := if b then raiseTrap cause t3 t4 else pure ()

/-- Change the state. -/
def update (f : State → State) : Run Unit := modify f

/-- Run a computation on a state. -/
def State.run {α : Type} (s : State) (m : Run α) : Except Trap α × State := (ExceptT.run m).run s

/-- What a computation answers, or the trap it would raise. -/
def attempt {α : Type} (m : Run α) : Run (Except Trap α) := fun s => let r := s.run m; (.ok r.1, r.2)

/-- Take a free value (log 3). -/
def freshRun : Run Val := do let s ← get; set (s.fresh).2; pure (s.fresh).1

inductive Acc where
  | read | write | fetch | rmw
  deriving DecidableEq, Repr

/-- ACC of R193: a read-modify-write reports as a write. -/
def Acc.code : Acc → Nat | .read => 0 | .write => 1 | .fetch => 2 | .rmw => 1
def Acc.writes : Acc → Bool | .write => true | .rmw => true | _ => false

/-- t4 of R193. -/
def xlInfo (acc : Acc) (lvl eaddr : Nat) : Word := fix (put acc.code 62 2 ||| put lvl 59 3 ||| put eaddr 0 36)

/-- The outcome of a translation: the physical address, whether the access is uncached, the leaf's level and address for
t4, whether the page grants X (R154), and the virtual address and ring it is for. -/
structure Xl where
  pa   : Nat
  unc  : Bool
  lvl  : Nat
  pte  : Nat
  x    : Bool
  va   : Nat
  ring : Nat
  deriving DecidableEq, Repr

/-! ### The context (Table 8.2) -/

/-- The context in force: a write takes effect at the next boundary of the bank, so not inside an open load shadow (R186). -/
def State.tctx (s : State) (k : Nat) : Val :=
  match (s.bankOf k).shadow with
  | some d => d.tctx
  | none => mget valD (s.l2Of (clOf k)).tctx (k % 64)
def tcEn (v : Val) : Bool := bit v 63
def tcLevels (v : Val) : Nat := 3 + fld v 58 2
def tcAsid (v : Val) : Nat := fld v 36 12
def tcRoot (v : Val) : Nat := fld v 0 26
/-- Virtual address width W (R61, R188, Table 8.4). -/
def vaWidth (v : Val) : Nat := if tcEn v then 10 + 10 * tcLevels v else 36

/-- A write of L2C_TCTX[i] (R186): DEPTH = 3 is ignored. -/
def tctxMask : Val := 0x8C00FFF003FFFFFF
def L2.putTctx (l : L2) (i : Nat) (v : Val) : L2 :=
  if fld v 58 2 = 3 then l else { l with tctx := mset valD l.tctx i (v &&& tctxMask) }

/-! ### Leaves (Table 8.6) -/

def pteV (v : Val) : Bool := bit v 63
def pteR (v : Val) : Bool := bit v 62
def pteW (v : Val) : Bool := bit v 61
def pteX (v : Val) : Bool := bit v 60
def pteU (v : Val) : Bool := bit v 59
def pteG (v : Val) : Bool := bit v 58
def pteC (v : Val) : Bool := bit v 57
def pteCC (v : Val) : Nat := fld v 55 2
def pteA (v : Val) : Bool := bit v 54
def pteD (v : Val) : Bool := bit v 53
def pteFrame (v : Val) : Nat := fld v 0 26

/-- A format error of a leaf (R191). -/
def pteBad (v : Val) : Bool := fld v 26 27 != 0 || decide (2 ≤ pteCC v)

/-- Whether a slot covers a virtual page under an ASID (R192, R196). -/
def TlbSlot.covers (t : TlbSlot) (asid vpn : Nat) : Bool :=
  (t.asid == asid || pteG t.leaf) && (if pteC t.leaf then t.vpn / 16 == vpn / 16 else t.vpn == vpn)

/-- The frame a slot gives a virtual page (R196). -/
def TlbSlot.frame (t : TlbSlot) (vpn : Nat) : Nat :=
  if pteC t.leaf then pteFrame t.leaf / 16 * 16 + vpn % 16 else pteFrame t.leaf

/-- Add an entry to a fully associative structure of n slots; a full one loses a random victim (R195). -/
def addEntry {α : Type} (n : Nat) (l : List α) (e : α) (r : Val) : List α :=
  if l.length < n then l ++ [e] else l.eraseIdx (r.toNat % n) ++ [e]

/-- Install a leaf in the instruction or data TLB of a core. -/
def installTlb (c : CoreId) (acc : Acc) (t : TlbSlot) : Run Unit := do
  let s ← get
  let full := if acc = .fetch then decide (16 ≤ (s.coreOf c).itlb.length) else decide (48 ≤ (s.coreOf c).dtlb.length)
  let r ← if full then freshRun else pure 0
  update fun s => s.modCore c fun x =>
    if acc = .fetch then { x with itlb := addEntry 16 x.itlb t r } else { x with dtlb := addEntry 48 x.dtlb t r }

def installWalk (c : CoreId) (e : WalkEnt) : Run Unit := do
  let s ← get
  let r ← if 32 ≤ (s.coreOf c).wcache.length then freshRun else pure 0
  update fun s => s.modCore c fun x => { x with wcache := addEntry 32 x.wcache e r }

/-- The deepest walk-cache entry for a VA among the levels above n. -/
def deepest (wc : List WalkEnt) (asid w va : Nat) : Nat → Option WalkEnt
  | 0 => none
  | l + 1 =>
    match wc.find? (fun e => e.asid = asid ∧ e.lvl = l + 1 ∧ e.pre = va >>> (w - 10 * (l + 1))) with
    | some e => some e
    | none => deepest wc asid w va l

/-- Count a table read of a position's walker (Table 8.3). -/
def State.countWalk (s : State) (c : CoreId) : State :=
  s.modL2 (clusterOf c) fun l => { l with walks := mset natD l.walks (posOf c) ((mget natD l.walks (posOf c) + 1) % 2 ^ 32) }

/-- Whether every slot and walk-cache entry of a core has its parity. -/
def Core.parityOk (x : Core) : Bool := !(x.itlb ++ x.dtlb).any TlbSlot.par && !x.wcache.any WalkEnt.par

/-- A slot or an entry that has lost its parity is a miss, and goes (R195). -/
def dropBad (c : CoreId) (asid w va : Nat) : Run Unit :=
  update fun s =>
    if (s.coreOf c).parityOk then s
    else s.modCore c fun x =>
      { x with itlb := x.itlb.filter fun t => !(t.par && t.covers asid (va / 1024)),
               dtlb := x.dtlb.filter fun t => !(t.par && t.covers asid (va / 1024)),
               wcache := x.wcache.filter fun e => !(e.par && e.asid == asid && e.pre == va >>> (w - 10 * e.lvl)) }

/-- The walk from level l at table `base`; `up` and `upPte` are the level and address of the entry that named the table,
0 and the table itself for ROOT (R192, R193). -/
def walk (c : CoreId) (k : Nat) (acc : Acc) (t3 : Word) (asid w va n : Nat) : Nat → Nat → Nat → Nat → Nat → Run TlbSlot
  | 0, _, _, _, _ => raiseTrap .notValid t3 (xlInfo acc 0 0)
  | fuel + 1, l, base, up, upPte => do
    let s ← get
    let e := base + (va >>> (w - 10 * l)) % 1024
    trapIf (s.region base == .device) .walkDevice t3 (xlInfo acc up upPte)
    trapIf (s.region base == .absent || s.copyLine e) .physAbsent t3 (xlInfo acc up upPte)
    update fun s => ((s.spendCredits k 1).homeRead e).countWalk c
    let s ← get
    let x := s.rd e
    let info := xlInfo acc l e
    trapIf (isPoison x) .walkPoison t3 info
    trapIf (x.tag != tPTE) .walkTag t3 info
    trapIf (!pteV x.val) .notValid t3 info
    if l < n then
      installWalk c ⟨asid, l, va >>> (w - 10 * l), pteFrame x.val, e, w, false⟩
      walk c k acc t3 asid w va n fuel (l + 1) (pteFrame x.val * 1024) l e
    else
      trapIf (pteBad x.val) .walkFormat t3 info
      let slot : TlbSlot := ⟨asid, va / 1024, x.val, l, e, false⟩
      installTlb c acc slot
      pure slot

/-- Whether the right of Table 8.8 is present. -/
def hasRight (acc : Acc) (leaf : Val) : Bool :=
  match acc with
  | .read => pteR leaf | .write => pteW leaf | .fetch => pteX leaf | .rmw => pteR leaf && pteW leaf

/-- Translate an access of a bank in a ring (R188, R192), up to the physical address. -/
def translateVa (c : CoreId) (k ring : Nat) (acc : Acc) (va : Nat) (t3 : Word) : Run Xl := do
  let s ← get
  let x := s.tctx k
  let w := vaWidth x
  trapIf (decide (2 ^ w ≤ va)) .addrRange t3 (xlInfo acc 0 0)
  if tcEn x = false then
    trapIf (decide (1 ≤ ring)) .notValid t3 (xlInfo acc 0 0)
    pure ⟨va, false, 0, 0, false, va, ring⟩
  else
    let vpn := va / 1024
    dropBad c (tcAsid x) w va
    let s ← get
    let tlb := if acc = .fetch then (s.coreOf c).itlb else (s.coreOf c).dtlb
    let slot ← match tlb.find? (fun t => t.covers (tcAsid x) vpn) with
      | some t => pure t
      | none =>
        match deepest (s.coreOf c).wcache (tcAsid x) w va (tcLevels x - 1) with
        | some e => walk c k acc t3 (tcAsid x) w va (tcLevels x) 5 (e.lvl + 1) (e.frame * 1024) e.lvl e.pte
        | none => walk c k acc t3 (tcAsid x) w va (tcLevels x) 5 1 (tcRoot x * 1024) 0 (tcRoot x * 1024)
    let info := xlInfo acc slot.lvl slot.pte
    trapIf (decide (2 ≤ ring) && !pteU slot.leaf) .user t3 info
    trapIf (decide (ring ≤ 1) && acc == .fetch && pteU slot.leaf) .user t3 info
    trapIf (!hasRight acc slot.leaf) .rights t3 info
    trapIf (!pteA slot.leaf || (acc.writes && !pteD slot.leaf)) .ad t3 info
    pure ⟨slot.frame vpn * 1024 + va % 1024, pteCC slot.leaf == 1, slot.lvl, slot.pte, pteX slot.leaf, va, ring⟩

/-- Translate and make the region checks of R190 and R220. `dev` allows a device-region address; `onDev` is the cause
raised otherwise; DEVICE_OP reports the final address, ZLINE_DEVICE the leaf (R193). -/
def translate (c : CoreId) (k ring : Nat) (acc : Acc) (va : Nat) (dev : Bool := false) (t3 : Word := fixN va)
    (onDev : Cause := .deviceOp) : Run Xl := do
  let x ← translateVa c k ring acc va t3
  let s ← get
  let info := xlInfo acc x.lvl x.pa
  trapIf (s.region x.pa == .absent || s.copyLine x.pa) .physAbsent t3 info
  trapIf (s.region x.pa == .device && !dev) onDev t3 (if onDev = .zlineDevice then xlInfo acc x.lvl x.pte else info)
  pure { x with unc := x.unc || s.region x.pa == .device || !bit (s.l2Of (clusterOf c)).ctl 0 }

/-! ### Reading through the caches -/

/-- The next-line prefetch beside an L1 miss (R203): translated without a trap, dropped where that fails (R197). -/
def prefetchNext (c : CoreId) (k : Nat) (x : Xl) (u : Use) : Run Unit := do
  let next := (x.va / 8 + 1) * 8 % 2 ^ 60
  match ← attempt (translate c k x.ring (if u = .code then .fetch else .read) next) with
  | .error _ => update fun s => s.modL2 (clOf k) fun l =>
      { l with drops := mset natD l.drops (posOfBank k) (satInc 32 (mget natD l.drops (posOfBank k))) }
  | .ok y =>
    let s ← get
    if !y.unc && !s.l1Hit k (y.pa / 8) u then update fun s => s.reach k (y.pa / 8) u

/-- Reach a word for reading: at the home agent, or through the caches, with the prefetch that an L1 miss brings. -/
def touch (c : CoreId) (k : Nat) (x : Xl) (u : Use) : Run Unit := do
  let s ← get
  let l := s.l2Of (clOf k)
  let miss := !x.unc && (if u = .code then l1cOn l (posOfBank k) else l1dOn l (posOfBank k)) && !s.l1Hit k (x.pa / 8) u
  if u = .code && !x.unc then update fun s => (s.checkCode k x.pa).reach k (x.pa / 8) .code
  else update fun s => s.noteRead k x.pa x.unc
  if miss && bit l.ctl (24 + posOfBank k) then prefetchNext c k x u

/-! ### Invalidation (Table 8.9) -/

/-- Whether a slot or a walk-cache entry goes. -/
def TlbSlot.gone (t : TlbSlot) (kind va asid : Nat) : Bool :=
  if kind = 0 then t.covers asid (va / 1024)
  else if kind = 1 then t.asid == asid && !pteG t.leaf
  else true

/-- The span of a walk-cache entry meets the words from `va` for `n` words. -/
def WalkEnt.meets (e : WalkEnt) (va n : Nat) : Bool :=
  let sz := 2 ^ (e.width - 10 * e.lvl)
  decide (0 < n) && decide (e.pre * sz < va + n) && decide (va < e.pre * sz + sz)

/-- The local form of TLBI (tlb) or WCI at a core (R198). -/
def Core.invalidate (x : Core) (tlb : Bool) (kind va asid n : Nat) : Core :=
  if tlb then
    { x with itlb := x.itlb.filter fun t => !t.gone kind va asid, dtlb := x.dtlb.filter fun t => !t.gone kind va asid }
  else
    let out (e : WalkEnt) : Bool :=
      if kind = 0 then e.meets va n
      else if kind = 1 then e.asid == asid
      else true
    { x with wcache := x.wcache.filter fun e => !out e }

end Sys2Proof.Machine
end

