-- ==== Sys2Proof/Machine/Regs.lean ====
section
/-!
DEFINITION. The device registers: the register space (Table 15.2), BAR_0 (Table 15.1), who may write what (R6, R7, R322
to R325, R349), the caches' and the power controller's rules (R210 to R213, R370, R371).
-/

namespace Sys2Proof.Machine

/-! ### L2 controllers (R210 to R213) -/

/-- L2C_STAT.RUNLOCK: a run is not STOPPED and a position of the cluster holds an admitted frame task (R213). -/
def State.runLock (s : State) (cl : ClusterId) : Bool :=
  s.weir.runSt != .stopped && s.weir.tasks.any fun t => t.args.id.val / 64 == cl.val

/-- A clean of a cache of the cluster is in progress. -/
def L2.cleaning (l : L2) : Bool := l.l2busy || l.l1dbusy != 0

def l2CtlMask : Val := 0xFFFFFF01
/-- The enable bits of L2C_CTL: L1CEN, L1DEN and L2EN. -/
def l2EnMask : Val := 0x00FFFF01

def State.refuseL2 (s : State) (cl : ClusterId) : State := s.modL2 cl fun l => { l with refused := satInc 16 l.refused }

/-- A value applied to L2C_CTL (R212, R213): a cleared L2EN or L1DEN bit starts a clean. -/
def State.l2Apply (s : State) (cl : ClusterId) (v : Val) : State :=
  let l := s.l2Of cl
  let new := v &&& l2CtlMask
  if s.runLock cl && (l.ctl &&& ~~~new &&& l2EnMask) != 0 then s.refuseL2 cl
  else
    let off := bit l.ctl 0 && !bit new 0
    let busy := if bit l.ctl 0 && !off then BitVec.ofNat 8 (fld (l.ctl &&& ~~~new) 8 8) else 0
    let l1 := ((List.range 8).filter fun p => !bit new (16 + p)).foldl (fun l p => l.emptyL1 p false true) l
    s.modL2 cl fun _ => { l1 with ctl := new, l2busy := off, l1dbusy := busy }

/-- A write of L2C_CTL; one that arrives during a clean is held until the clean completes. -/
def State.l2CtlWrite (s : State) (cl : ClusterId) (by_ : Requester) (v : Val) : State :=
  if (s.l2Of cl).cleaning then s.modL2 cl fun l => { l with heldCtl := l.heldCtl ++ [(by_, v)] } else s.l2Apply cl v

/-- Apply held writes in order until one starts a clean. -/
def applyHeld (cl : ClusterId) : List (Requester × Val) → State → State
  | [], s => s
  | v :: vs, s =>
    if (s.l2Of cl).cleaning then s.modL2 cl fun l => { l with heldCtl := v :: vs } else applyHeld cl vs (s.l2Apply cl v.2)

/-- Every line that a cluster holds modified is written back. -/
def State.cleanCluster (s : State) (cl : ClusterId) : State :=
  forEach ((s.dir.filter fun kd => kd.2.owner == cl && !kd.2.old.isEmpty).map Prod.fst) s fun s line =>
    (s.settle line (some cl)).writeBack line

/-- No cache of the cluster holds a line any more. -/
def L2.emptied (l : L2) : L2 :=
  { l with slots := [], sets := [], l1d := [], l1c := [], vict := [], flaws := [], kept := [], codeBad := [], badTags := [], lockways := 0 }

/-- The L1 data and victim caches of a position are cleaned (R208) and emptied. -/
def State.flushL1 (s : State) (cl : ClusterId) (p : Nat) : State :=
  (forEach ((s.l2Of cl).dirtyAt p) s fun s line => (s.settle line (some cl)).writeBack line).modL2 cl fun l => l.emptyL1 p true false

/-- The clean of a disabled cache finishes (R212). -/
def State.cleanDone (s : State) (cl : ClusterId) : State :=
  let l := s.l2Of cl
  if l.cleaning then
    let s1 :=
      if l.l2busy then (s.cleanCluster cl).modL2 cl L2.emptied
      else forEach ((List.range 8).filter fun p => bit l.l1dbusy p) s fun s p => s.flushL1 cl p
    applyHeld cl l.heldCtl (s1.modL2 cl fun l => { l with l2busy := false, l1dbusy := 0, heldCtl := [] })
  else s

/-- A slot is unlocked: its line stays valid in it until it is invalidated or the slot is claimed; a hole goes (R210). -/
def L2.unlockSlot (l : L2) (k : LockSlot) : L2 :=
  let l1 := { l with slots := l.slots.filter fun x => x != k }
  if k.hole then l1
  else l1.putSet k.line { l1.setOf k.line with held := (l1.setOf k.line).held ++ [{ way := k.way, line := k.line }] }

/-- A write of L2C_LOCKWAYS (R210, R213). -/
def State.lockwaysWrite (s : State) (cl : ClusterId) (v : Val) : State :=
  let ways : BitVec 16 := BitVec.ofNat 16 v.toNat
  let dark := [0, 1, 2, 3].any fun g => fld ways (4 * g) 4 != 0 && !s.domOn (wayDomain cl g)
  if s.runLock cl || decide (12 < popcount ways) || dark then s.refuseL2 cl
  else s.modL2 cl fun l => (l.slots.filter fun k => !bit ways k.way).foldl L2.unlockSlot { l with lockways := ways }

def State.l2cRead (s : State) (cl : ClusterId) (off : Nat) : Val :=
  let l := s.l2Of cl
  if 0x100 ≤ off ∧ off ≤ 0x13F then mget valD l.tctx (off - 0x100)
  else if 0x140 ≤ off ∧ off ≤ 0x147 then put (mget natD l.walks (off - 0x140)) 32 32 ||| put (mget natD l.drops (off - 0x140)) 0 32
  else match off with
  | 0 => l.ctl
  | 1 => put l.refused 48 16 ||| put l.l1dbusy.toNat 8 8 ||| flag l.l2busy 1 ||| flag (s.runLock cl) 0
  | 2 => put l.lockways.toNat 0 16
  | 3 => put (l.slots.filter LockSlot.hole).length 48 16 ||| put l.holeev 32 16 ||| put l.lockmiss 16 16
      ||| put (l.slots.filter fun k => !k.hole).length 0 16
  | 4 => put l.dcorr 48 16 ||| put l.dpois 32 16 ||| put l.tpar 16 16 ||| put l.dlost 0 16
  | 5 => l.errlog
  | _ => 0

def State.l2cWrite (s : State) (cl : ClusterId) (by_ : Requester) (off : Nat) (v : Val) : State :=
  if 0x100 ≤ off ∧ off ≤ 0x13F then s.modL2 cl fun l => l.putTctx (off - 0x100) v
  else match off with
  | 0 => s.l2CtlWrite cl by_ v
  | 2 => s.lockwaysWrite cl v
  | _ => s

/-! ### Power domains (R370, R371) -/

/-- Domains that ring 0 and the host may switch (Table 17.6): vector units, way groups, lanes. -/
def switchable (d : Nat) : Bool := decide (72 ≤ d) && decide (d ≤ 199)

/-- Domain of the vector unit of a logical core. -/
def vecDomain (c : CoreId) : Nat := 72 + c.val

/-- Vector registers after a loss of their state: undefined, with VSTAT 0 (R180). -/
def State.loseVector (s : State) (c : CoreId) : State :=
  let r := (List.range 32).foldl (fun (a : List (BitVec 512) × State) _ =>
    let x := (List.range 8).foldl (fun (b : BitVec 512 × State) _ =>
      let (v, s1) := b.2.fresh
      ((b.1 <<< 64) ||| v.setWidth 512, s1)) (0, a.2)
    (a.1 ++ [x.1], x.2)) ([], s)
  r.2.modCore c fun x => { x with vstat := 0, vregs := r.1.zipIdx.foldl (fun m vi => mset vecD m vi.2 vi.1) [] }

/-- Why a switch-off is refused (R371, Table 17.8); 0 when it is not. -/
def State.offRefusal (s : State) (d : Nat) : Nat :=
  if 239 < d then 6
  else if !switchable d then 1
  else if d < 136 then
    let c : CoreId := coreOfId (8 * (d - 72))
    let held := s.weir.runSt != .stopped && s.weir.tasks.any fun t => t.args.vector && t.args.id.val / 8 == c.val
    if bit (s.coreOf c).vown 3 then 3 else if held then 2 else 0
  else if d < 144 then 0
  else if d < 176 then
    let cl : ClusterId := ⟨(d - 144) / 4 % 8, Nat.mod_lt _ (by decide)⟩
    if s.runLock cl then 2
    else if fld (s.l2Of cl).lockways (4 * ((d - 144) % 4)) 4 != 0 then 4
    else 0
  else
    if (List.range 24).any fun n => (s.linkOf n).st != .down && (s.linkOf n).lanes.contains (d - 176) then 5 else 0

def State.modPwr (s : State) (f : Pwr → Pwr) : State := { s with pwr := f s.pwr }

def State.refusePwr (s : State) (d reason : Nat) : State :=
  s.modPwr fun p => { p with count := satInc 16 p.count, dom := d % 256, reason := reason }

/-- Begin a transition; a request during one waits, and the last of several stands (R371). -/
def State.switch (s : State) (d : Nat) (on : Bool) : State :=
  if bit s.pwr.busy d then s.modPwr fun p => { p with want := mset wantD p.want d (some on) }
  else if bit s.pwr.on d == on then s
  else s.modPwr fun p => { p with busy := setBit p.busy d true, toOn := setBit p.toOn d on }

/-- A link trains; a lane that is off is powered up first, and training waits for it (R371). -/
def State.trainLink (s : State) (n : Nat) : State :=
  forEach (s.linkOf n).lanes (s.linkTrain n) fun s m => s.switch (176 + m) true

def State.pwrSet (s : State) (v : Val) : State :=
  let d := fld v 0 8
  if 239 < d then s.refusePwr d 6 else if !switchable d then s.refusePwr d 1 else s.switch d true

def State.pwrClr (s : State) (v : Val) : State :=
  let d := fld v 0 8
  if s.offRefusal d ≠ 0 then s.refusePwr d (s.offRefusal d) else s.switch d false

/-- The lines of a way group are cleaned and removed as it powers off (R371). -/
def State.cleanGroup (s : State) (cl : ClusterId) (g : Nat) : State :=
  let lines := (s.l2Of cl).sets.flatMap fun kc => (kc.2.held.filter fun w => w.way / 4 == g).map Way.line
  forEach lines s fun s line => s.evictLine 512 cl line

/-- The unit of a core whose admitted task declares vector use has power for the run, from its start or the task's admission on: a
transition ends before the task's first pound (R53, log 47). -/
def State.powerVector (s : State) (c : CoreId) : State :=
  let d := vecDomain c
  if s.domOn d && !bit s.pwr.busy d then s
  else (s.loseVector c).modPwr fun p =>
    { p with on := setBit p.on d true, busy := setBit p.busy d false, toOn := setBit p.toOn d false, want := mset wantD p.want d none }

def State.powerDeclared (s : State) : State :=
  forEach ((s.weir.tasks.filter fun t => t.args.vector).map fun t => coreOfId t.args.id.val) s State.powerVector

/-- Two domains exchange their numbers (R370). -/
def Pwr.exchange (p : Pwr) (i j : Nat) : Pwr :=
  let sw (v : BitVec 240) : BitVec 240 := setBit (setBit v i (bit v j)) j (bit v i)
  { p with on := sw p.on, busy := sw p.busy, toOn := sw p.toOn,
           want := mset wantD (mset wantD p.want i (mget wantD p.want j)) j (mget wantD p.want i) }

/-- A spare takes the number of logical core c, or gives it back: so do the domains of the two cores and of their vector units (R370). -/
def State.remapPower (s : State) (c : CoreId) : State :=
  let cl := (clusterOf c).val
  s.modPwr fun p => (p.exchange c.val (64 + cl)).exchange (vecDomain c) (136 + cl)

/-- What switching a domain off loses; a vector unit comes up undefined with VSTAT 0 (R180). -/
def State.powerOff (s : State) (d : Nat) : State :=
  if 144 ≤ d ∧ d < 176 then s.cleanGroup ⟨(d - 144) / 4 % 8, Nat.mod_lt _ (by decide)⟩ ((d - 144) % 4)
  else if 176 ≤ d ∧ d < 200 then s.modLane (d - 176) fun _ => {}
  else s

/-- A domain finishes switching; a request that waited begins then. -/
def State.powerDone (s : State) (d : Nat) : State :=
  if bit s.pwr.busy d then
    let on := bit s.pwr.toOn d
    let want := mget wantD s.pwr.want d
    let s1 := s.modPwr fun p =>
      { p with on := setBit p.on d on, busy := setBit p.busy d false, toOn := setBit p.toOn d false, want := mset wantD p.want d none }
    let s2 := if 72 ≤ d ∧ d < 136 then s1.loseVector (coreOfId (8 * (d - 72))) else if on then s1 else s1.powerOff d
    match want with
    | some true => s2.switch d true
    | some false => if s2.offRefusal d ≠ 0 then s2.refusePwr d (s2.offRefusal d) else s2.switch d false
    | none => s2
  else s

def State.pwrRead (s : State) (off : Nat) : Val :=
  if off < 4 then BitVec.ofNat 64 (fld s.pwr.on (64 * off) 64)
  else if off < 8 then BitVec.ofNat 64 (fld s.pwr.busy (64 * (off - 4)) 64)
  else if off = 0xA then put s.pwr.count 48 16 ||| put s.pwr.dom 40 8 ||| put s.pwr.reason 36 4
  else 0

/-! ### Other blocks -/

def State.silRead (s : State) (off : Nat) : Val :=
  let x := s.sil
  if 4 ≤ off ∧ off < 8 then s.sillOf (off - 4)
  else if 0x10 ≤ off ∧ off < 0x28 then
    put (mget profD x.prof (off - 0x10)).frames 16 13 ||| put (mget profD x.prof (off - 0x10)).nval 0 13
  else match off with
  | 0 => flag x.armed 63 ||| put x.cfgcrc.toNat 0 32
  | 1 => s.silStat
  | 2 => put x.lastPound.toNat 48 16 ||| put x.lastCause.toNat 45 3 ||| put x.lastAction.toNat 42 3 ||| put x.lastChan.toNat 0 14
  | 3 => put x.fires 32 32 ||| put x.aborts 16 16
  | 8 => put x.entsel.toNat 0 14
  | 9 => (mget entryD x.entries x.entsel.toNat).w0
  | 0xA => (mget entryD x.entries x.entsel.toNat).w1
  | _ => 0

def State.memRead (s : State) (off : Nat) : Val :=
  let m := s.memc
  if 0x10 ≤ off ∧ off < 0x18 then
    let e := s.eccOf (off - 0x10)
    put e.corr 48 16 ||| put e.pois 32 16 ||| put e.sig 16 16 ||| put e.edc 0 16
  else match off with
  | 0 => m.cfg
  | 1 => put m.tfail.toNat 0 8 ||| put m.cfail.toNat 8 24 ||| flag m.mirdeg 32 ||| flag m.zeroed 33
  | 2 => put m.mirBase 0 36 ||| put m.mirLen 48 16
  | 3 => put m.eccthr 0 16
  | 4 => put m.passes 32 32 ||| put (s.eccOf 0).idx 0 32
  | _ => 0

def State.calRead (s : State) (off : Nat) : Val :=
  let c := s.cal
  let at_ (o n : Nat) : Nat := if c.valid then leAt c.bytes o n else 0
  if 0x10 ≤ off ∧ off < 0x28 then s.calLane (off - 0x10)
  else if 0x30 ≤ off ∧ off < 0x40 then put (at_ (224 + 2 * (off - 0x30)) 2) 0 16
  else if 0x40 ≤ off ∧ off < 0x4C then put (at_ (256 + 2 * (off - 0x40)) 2) 0 16
  else match off with
  | 0 => flag c.valid 63 ||| flag c.factory 62 ||| put c.copies.toNat 60 2 ||| put c.wrcnt 32 16 ||| put c.crc.toNat 0 32
  | 1 => put (at_ 216 4) 32 32 ||| put (at_ 220 4) 0 32
  | 2 => put (at_ 280 4) 0 32
  | _ => 0

def State.bbxRead (s : State) (off : Nat) : Val :=
  match off with
  | 0 => BitVec.ofNat 64 s.bbx.oldest
  | 1 => s.bbxLast
  | 2 => put s.bbx.queued.length 0 9
  | 3 => put ((~~~s.vault.failed) &&& 3#4).toNat 0 4
  | _ => 0

def State.dbgRead (s : State) (off : Nat) : Val :=
  match off with
  | 0 => put s.dbg.level.toNat 0 2
  | 1 => flag s.dbg.armed 63 ||| flag s.dbg.held 62 ||| put s.dbg.igncnt 0 16
  | _ => 0

/-! ### Towline registers (Tables 11.12 to 11.18) -/

def Link.stat (l : Link) : Val :=
  put l.st.code 60 4 ||| flag l.nrz 59 ||| flag l.spuse 58 ||| flag l.spfail 57 ||| put l.faillane 52 5 ||| put l.failcnt 48 4
    ||| put l.alarm.toNat 32 16 ||| put l.spound.toNat 16 16 ||| put (min l.dbulk.toNat 255) 8 8 ||| put l.festat.toNat 0 8
def Link.errs (l : Link) : Val :=
  put l.crcerr 48 16 ||| put l.fecunc 32 16 ||| put l.late 24 8 ||| put l.stale 16 8 ||| put l.early 8 8 ||| put l.ctlretry 4 4
    ||| put l.drvdisc 0 4
def intFld (v : Int) (n : Nat) : Nat := (v % (2 ^ n : Nat)).toNat
def Link.align (l : Link) : Val := flag l.calmis 63 ||| put (intFld l.rtt 24) 24 24 ||| put (intFld l.err 24) 0 24
def Lane.stat (x : Lane) : Val :=
  put x.st 60 4 ||| flag x.los 59 ||| flag x.cdrlk 58 ||| flag x.feclk 57 ||| put x.link 52 5 ||| put x.feccorr 32 20 ||| put x.fecunc 16 16

def State.twlRead (s : State) (off : Nat) : Val :=
  if 0x100 ≤ off ∧ off < 0x118 then (s.linkOf (off - 0x100)).lcfg
  else if 0x120 ≤ off ∧ off < 0x138 then (s.linkOf (off - 0x120)).stat
  else if 0x140 ≤ off ∧ off < 0x158 then (s.linkOf (off - 0x140)).errs
  else if 0x158 ≤ off ∧ off < 0x170 then (s.linkOf (off - 0x158)).align
  else if 0x200 ≤ off ∧ off < 0x218 then (s.laneOf (off - 0x200)).stat
  else if 0x400 ≤ off ∧ off < 0x600 then (s.streamOf (off - 0x400)).scfg
  else if 0x600 ≤ off ∧ off < 0x800 then (s.streamOf (off - 0x600)).sgeom
  else if 0x800 ≤ off ∧ off < 0xA00 then (s.streamOf (off - 0x800)).sbase
  else if 0xA00 ≤ off ∧ off < 0xC00 then (s.streamOf (off - 0xA00)).sstat
  else 0

/-! ### The register space (R323, Table 15.2) -/

/-- A register-space word of the blocks. A cluster in restart answers with the reset value (R373). -/
def State.blockRead (s : State) (a : Nat) : Val :=
  if a < 0x400 then s.weiRead a
  else if a < 0x500 then s.silRead (a - 0x400)
  else if a < 0x600 then s.manRead (a - 0x500)
  else if a < 0x800 then s.memRead (a - 0x600)
  else if a < 0xA00 then s.pwrRead (a - 0x800)
  else if a < 0xB00 then 0
  else if a < 0xC00 then s.calRead (a - 0xB00)
  else if a < 0xE00 then s.bbxRead (a - 0xC00)
  else if a < 0x1000 then s.dbgRead (a - 0xE00)
  else if a < 0x2000 then s.sluRead (a - 0x1000)
  else if a < 0x4000 then s.evtRead (a - 0x2000)
  else if a < 0x5000 then s.twlRead (a - 0x4000)
  else if a < 0x6000 then
    if bit s.lk.restarting ((a - 0x5000) / 0x200) then 0
    else s.l2cRead ⟨(a - 0x5000) / 0x200 % 8, Nat.mod_lt _ (by decide)⟩ ((a - 0x5000) % 0x200)
  else 0

/-- A register-space word. In a warm restart every block but the black box answers with its reset value (R373, Table 17.10). -/
def State.spaceRead (s : State) (a : Nat) : Val :=
  if s.lk.warm.isSome && !(decide (0xC00 ≤ a) && decide (a < 0xE00)) then State.reset.blockRead a else s.blockRead a

def isHost : Requester → Bool | .host => true | _ => false

/-- A write of a register-space word. Registers of the weir, the sill guard, the manifest, the memory controllers, the
calibration, the black box, the debug block and the hub are written by the lockkeeper alone but for SIL_ENTSEL,
MAN_DURABLE (the host) and MEM_ECCTHR. Blocks in reset discard it (R373); the crossing into a block whose clock is stopped holds it until
the clock returns (R372, R375). -/
def State.spaceWrite (s : State) (by_ : Requester) (a : Nat) (v : Val) : State :=
  if s.lk.warm.isSome || !s.on then s
  else if !s.clocked then s.modDbg fun d => { d with crossing := d.crossing ++ [(by_, a, v)] }
  else if a = 0x408 then s.modSil fun x => { x with entsel := BitVec.ofNat 14 v.toNat }
  else if a = 0x506 then (if isHost by_ then s.manDurable v else s)
  else if a = 0x603 then s.modMemc fun m => { m with eccthr := fld v 0 16 }
  else if a = 0x808 then s.pwrSet v
  else if a = 0x809 then s.pwrClr v
  else if 0x1000 ≤ a ∧ a < 0x2000 then s.sluWrite (a - 0x1000) v
  else if 0x2000 ≤ a ∧ a < 0x4000 then s.evtWrite (a - 0x2000) v
  else if 0x5000 ≤ a ∧ a < 0x6000 then
    if isHost by_ || bit s.lk.restarting ((a - 0x5000) / 0x200) then s
    else s.l2cWrite ⟨(a - 0x5000) / 0x200 % 8, Nat.mod_lt _ (by decide)⟩ by_ ((a - 0x5000) % 0x200) v
  else s

/-! ### Mailbox and lockkeeper registers (Tables 15.3 to 15.5) -/

/-- Key of a requester's copy of MBX_WINSEL. -/
def reqKey : Requester → Nat | .host => 512 | .bank id => id.val | .lockkeeper => 513

/-- A command of the host executes: it has been taken and its response has still to be written (R326). -/
def State.hostBusy (s : State) : Bool :=
  let host : Src → Bool | .host .. => true | _ => false
  (s.lk.msgs.any fun m => host m.src) || (s.lk.deferred.any fun d => host d.src) ||
    s.twl.links.any fun kl => kl.2.ctl.any fun q => host q.src

def State.mbxStat (s : State) : Val :=
  put s.lk.st.code 60 4 ||| flag s.ringFull 59 ||| flag s.mbx.halted 58 ||| put s.mbx.dbign 32 16
    ||| put s.mbx.slotwr 16 16 ||| put (s.mbx.queue.length + s.hostBusy.toNat) 8 8

def State.mbxCtl (s : State) : Val := flag s.mbx.en 63 ||| flag s.mbx.rspirq 62 ||| put s.mbx.rspvec.toNat 0 8

/-- Entries written to the black box, those queued included. -/
def State.mbxRead (s : State) (by_ : Requester) (w : Nat) : Val :=
  match w with
  | 0 => 1
  | 1 => s.mbxCtl
  | 2 => s.mbxStat
  | 4 => put s.mbx.slotbusy.toNat 0 32
  | 5 => s.mbx.rspbase
  | 6 => put s.mbx.log2n.toNat 0 4
  | 7 => put s.mbx.head.toNat 0 32
  | 8 => put s.mbx.tail.toNat 0 32
  | 9 => s.mbx.rsptaddr
  | 0xA => put (mget wselD s.mbx.winsel (reqKey by_)).toNat 0 3
  | 0xC => put s.mbx.pcount.toNat 32 32 ||| put s.mbx.pstatus 16 16 ||| put s.mbx.pop 0 16
  | 0x100 => s.lkpId
  | 0x101 => put s.lk.step 0 8 ||| put s.lk.patch 8 2
  | 0x102 => BitVec.ofNat 64 s.lk.heart
  | 0x103 => BitVec.ofNat 64 (s.bbx.nextIx - s.bbx.queued.length)
  | 0x104 => Config.tpqLayout (allCores.map fun c => (s.coreOf c).sendq.length)
  | 0x105 => flag s.lk.degrade 63 ||| flag s.lk.autorun 62
  | _ => 0

/-- A word of BAR_0 for a requester; what only the host reaches reads FIX 0 for a core (R322). -/
def State.barRead (s : State) (by_ : Requester) (w : Nat) : Val :=
  if w < 0x200 then s.mbxRead by_ w
  else if 0x1000 ≤ w ∧ w < 0x2000 then
    let page := (mget wselD s.mbx.winsel (reqKey by_)).toNat
    if page < 6 then s.spaceRead (0x1000 * page + (w - 0x1000)) else 0
  else if isHost by_ then
    if 0xC00 ≤ w ∧ w < 0xE00 then s.msixWord (w - 0xC00)
    else if 0xE00 ≤ w ∧ w < 0xE04 then BitVec.ofNat 64 (fld s.mbx.pba (64 * (w - 0xE00)) 64)
    else if (0x400 ≤ w ∧ w < 0x420) ∨ (0x800 ≤ w ∧ w < 0xC00) then
      BitVec.ofNat 64 (leNat ((List.range 8).map fun i => mget byteD s.mbx.slots (8 * w + i)))
    else 0
  else 0

/-- A doorbell (R325): the slot joins the host queue with what it holds (Table 15.6). -/
def State.doorbell (s : State) (v : Val) : State :=
  let k := fld v 0 5
  let m := s.mbx
  if bit m.slotbusy k || !m.en || s.lk.st != .ready then s.modMbx fun m => { m with dbign := satInc 16 m.dbign }
  else
    let b (o n : Nat) : Nat := leNat ((List.range n).map fun i => mget byteD m.slots (0x4000 + 256 * k + o + i))
    s.modMbx fun m =>
      { m with slotbusy := setBit m.slotbusy k true
               queue := m.queue ++ [{ slot := k, op := b 0 2, tag := BitVec.ofNat 32 (b 4 4), outAddr := BitVec.ofNat 64 (b 16 8), outLen := b 24 4,
                                      args := (List.range (min (b 8 4) 224)).map fun i => mget byteD m.slots (0x4000 + 256 * k + 32 + i) }] }

/-- A write of MBX_CTL (R324). -/
def State.mbxCtlWrite (s : State) (v : Val) : State :=
  let m := s.mbx
  let en := bit v 63 && decide (6 ≤ m.log2n.toNat) && decide (m.log2n.toNat ≤ 12)
  let start := en && !m.en
  (s.modMbx fun m =>
    { m with en := en, rspirq := bit v 62, rspvec := BitVec.ofNat 8 v.toNat,
             head := if start then 0 else m.head, tail := if start then 0 else m.tail }).drain

/-- A write of MBX_RSPHEAD: ignored beyond TAIL or more than the ring behind it (R324). -/
def State.rspHead (s : State) (v : Val) : State :=
  let h : BitVec 32 := BitVec.ofNat 32 v.toNat
  if (s.mbx.tail - h).toNat ≤ s.ringSize then (s.modMbx fun m => { m with head := h }).drain else s

/-- Inbound staging drains into the BAR_2 window, oldest first (R331). -/
def drainStaging : List (Nat × List Byte) → SMap Byte → SMap Byte
  | [], m => m
  | (off, bs) :: rest, m => drainStaging rest (bs.zipIdx.foldl (fun m bi => mset byteD m (off + bi.2) bi.1) m)

def State.drainBar2 (s : State) : State :=
  s.modMbx fun m => { m with bar2 := drainStaging m.staging m.bar2, staging := [] }

/-- A write of a mailbox or lockkeeper register. Run control through the mailbox and the response ring are the host's duties, which no
other agent performs (R16): another's write of their registers is discarded. -/
def State.mbxWrite (s : State) (by_ : Requester) (w : Nat) (v : Val) : State :=
  let whenOff (f : Mbx → Mbx) : State := if s.mbx.en then s else s.modMbx f
  if w ≠ 0xA ∧ isHost by_ = false then s
  else match w with
  | 1 => s.mbxCtlWrite v
  | 3 => s.doorbell v
  | 5 => whenOff fun m => { m with rspbase := v &&& ~~~0xFFF }
  | 6 => whenOff fun m => { m with log2n := BitVec.ofNat 4 v.toNat }
  | 7 => s.rspHead v
  | 9 => whenOff fun m => { m with rsptaddr := v &&& ~~~7 }
  | 0xA => s.modMbx fun m => { m with winsel := mset wselD m.winsel (reqKey by_) (BitVec.ofNat 3 v.toNat) }
  | 0x105 =>
    if s.weir.runSt == .stopped then s.modLk fun l => { l with degrade := bit v 63, autorun := bit v 62 } else s
  | _ => s

/-- A register write at a word of BAR_0 or of the device region (R322, R323); slots are not registers. -/
def State.barWrite (s : State) (by_ : Requester) (w : Nat) (v : Val) : State :=
  if w < 0x200 then s.mbxWrite by_ w v
  else if 0x1000 ≤ w ∧ w < 0x2000 then
    let page := (mget wselD s.mbx.winsel (reqKey by_)).toNat
    if page < 6 then s.spaceWrite by_ (0x1000 * page + (w - 0x1000)) v else s
  else if isHost by_ && decide (0xC00 ≤ w) && decide (w < 0xE00) then s.putMsix (w - 0xC00) v
  else s

/-! ### Accesses of cores (R6, R189, R322) -/

/-- The requester that a bank is. -/
def bankReq (k : Nat) : Requester := .bank ⟨k % 512, Nat.mod_lt _ (by decide)⟩

/-- A core's load of device-region word k; a load of MBX_B2SYNC first drains BAR_2 (R332). -/
def State.devRead (s : State) (id k : Nat) : Word × State :=
  (fix (s.barRead (bankReq id) k), if k = 0xB then s.drainBar2 else s)

/-- A core's store: a word that is not FIX is discarded (R6). -/
def State.devWrite (s : State) (id k : Nat) (w : Word) : State :=
  if isFix w then s.barWrite (bankReq id) k w.val else s

/-- A host read at a byte of BAR_0. Of a register, up to 8 bytes that start in one aligned word: the word's bytes, those not requested masked
to 0 (R7). The command slots are memory: up to 64 bytes, as requested (R325). -/
def State.hostRead (s : State) (off size : Nat) : List Byte :=
  if 0x4000 ≤ off ∧ off + size ≤ 0x6000 ∧ size ≤ 64 then (List.range size).map fun i => mget byteD s.mbx.slots (off + i)
  else (List.range 8).map fun i =>
    if off % 8 ≤ i ∧ i < off % 8 + size then BitVec.ofNat 8 (fld (s.barRead .host (off / 8)) (8 * i) 8) else 0

/-- How the function answers a configuration request: Configuration Request Retry Status, or a normal completion that shows the BARs' sizes,
the MSI-X capability (vectors, table and PBA offsets in BAR_0), the link's width and rate, and no Function Level Reset. -/
inductive ConfigAnswer where
  | retry
  | normal (bar0 bar2 vectors table pba width speed : Nat) (flr : Bool)
  deriving DecidableEq, Repr

/-- The answer to a configuration request: none without a link, Retry Status until STEP 9 or LKSTATE = 4 (R362, R363). The table has no row
for the request itself (log 44). -/
def State.configAnswer (s : State) : Option ConfigAnswer :=
  if !s.on || s.pins.perst || !s.pins.linkUp || s.dbg.frozen then none
  else if s.lk.st = .booting then some .retry
  else some (.normal 0x10000 0x1000000 256 0x6000 0x7000 s.pins.width s.pins.speed false)

/-- Whether the host's accesses reach the function: powered, out of PCI Express reset, linked, not frozen, and
configuration has completed (R362, R374). -/
def State.hostReach (s : State) : Bool :=
  s.on && !s.pins.perst && s.pins.linkUp && !s.dbg.frozen && s.lk.st != .booting

end Sys2Proof.Machine
end

