-- ==== Sys2Proof/Machine/Ops.lean ====
section
/-!
DEFINITION. What core instructions share: stores and the load shadow (R50, R103, R104), stopping and failing a core (R170,
R171, R341), taking a trap and returning from one (R162 to R169), and the frame of one instruction.
-/

namespace Sys2Proof.Machine

abbrev Result := Host.Outcome State Fault Refusal

/-- A free word: neither tag nor value is stated (log 3). -/
def State.freshWord (s : State) : Word × State :=
  let (a, s1) := s.fresh
  let (b, s2) := s1.fresh
  (⟨BitVec.ofNat 8 a.toNat, b⟩, s2)

/-- A word, free where none is stated. -/
def State.orFree (s : State) : Option Word → Word × State
  | some w => (w, s)
  | none => s.freshWord

/-! ### Performing what a bank stores -/

/-- A word stored in the tagged store: through the caches, or at the home agent (R204). -/
def State.storeNow (s : State) (k pa : Nat) (w : Word) (unc : Bool) : State :=
  if unc then s.wr pa w else s.wrCached k pa w

/-- The byte merge of a card mark, one operation at the home agent (R143, R144, R206). -/
def State.cardNow (s : State) (pa byte : Nat) : State :=
  let s1 := s.homeRead pa
  s1.wr pa (rawd (setByte (s1.rd pa).val byte 1))

/-- A record over its budget is discarded and counted (R300). -/
def State.dropRecord (s : State) (id : Nat) (background : Bool) : State :=
  if background then s.modMan fun m => { m with bgdrop := satInc 16 m.bgdrop }
  else s.modTstat id fun t => { t with recdrop := satInc 8 t.recdrop }

/-- A record of a bank is staged and counts towards its task's record budget (R44, R300). -/
def State.stageTask (s : State) (r : Record) : State :=
  (s.stage r).modTask r.srcid fun t => { t with staged := t.staged + r.len }

def State.perform (s : State) (k : Nat) : Held → State
  | .store pa w unc => s.storeNow k pa w unc
  | .line n ws unc => if unc then s.wrLine n ws else s.wholeCached k n ws
  | .card pa byte => s.cardNow pa byte
  | .device a w => s.devWrite k a w
  | .port => s.modCore (coreOfId k) fun x => { x with recBuf := x.recBuf + 1 }
  | .stage r => s.stageTask r
  | .drop id bg => s.dropRecord id bg

/-- Every access of a position stalls while a cache that it goes to is being cleaned (R212), or a way group of its cluster powers off
(R371). -/
def State.accessStall (s : State) (c : CoreId) : Bool :=
  let cl := clusterOf c
  (s.l2Of cl).l2busy || bit (s.l2Of cl).l1dbusy (posOf c) ||
    [0, 1, 2, 3].any fun g => bit s.pwr.busy (wayDomain cl g) && !bit s.pwr.toOn (wayDomain cl g)

/-- A store of the bank is not performed yet: a write of an L2C_CTL that a clean holds, or a store that waits behind one (R207, R213). -/
def State.behind (s : State) (k : Nat) : Bool :=
  !(s.bankOf k).waiting.isEmpty || s.l2.any fun kl => kl.2.heldCtl.any fun h => h.1 == bankReq k

/-- Accesses of the running bank wait: for a clean or a switch-off, or behind a device store that is not yet performed. -/
def State.stalled (s : State) (c : CoreId) : Bool := (s.coreOf c).cur.any (fun b => s.behind (bk c b)) || s.accessStall c

/-- An effect that is an access; one on the record port is none. -/
def Held.isAccess : Held → Bool
  | .store .. | .line .. | .card .. | .device .. => true
  | .port | .stage _ | .drop .. => false

/-- Perform an effect, or let it wait while the bank's accesses stall; a bank's accesses keep their order. -/
def State.performOrWait (s : State) (k : Nat) (h : Held) : State :=
  if h.isAccess && (s.behind k || s.accessStall (coreOfId k)) then s.modBank k fun b => { b with waiting := b.waiting ++ [h] }
  else s.perform k h

/-- The waiting stores of every core that runs or is halted are performed as far as nothing stalls them any more. -/
def State.resumeStores (s : State) : State :=
  let ready := s.banks.filter fun kb => !kb.2.waiting.isEmpty && [.running, .halted].contains (s.coreOf (coreOfId kb.1)).run
  forEach ready s fun s kb => forEach kb.2.waiting (s.modBank kb.1 fun b => { b with waiting := [] }) fun s h => s.performOrWait kb.1 h

/-- Perform an effect now, or hold it while the bank's load shadow is open (R50). A device store keeps its place behind one that is held. -/
def effect (k : Nat) (h : Held) : Run Unit :=
  update fun s =>
    if (s.bankOf k).shadow.isSome then
      s.modBank k fun b => { b with shadow := b.shadow.map fun d => { d with held := d.held ++ [h] } }
    else match h with
      | .device a w => s.performOrWait k (.device a w)
      | h => s.perform k h

/-- Store a word where a translation leads. -/
def store (k : Nat) (x : Xl) (w : Word) : Run Unit :=
  effect k (if devBase ≤ x.pa then .device (x.pa - devBase) w else .store x.pa w x.unc)

/-- The word the bank's next access would find, cached or not: its own held stores, then the tagged store (R206.5). -/
def State.view (s : State) (k pa : Nat) (unc : Bool) : Word :=
  match (s.bankOf k).shadow with
  | none => s.see k pa unc
  | some d =>
    d.held.foldl (fun w h => match h with
      | .store p v _ => if p = pa then v else w
      | .line n ws _ => if n = pa / 8 then ws.getD (pa % 8) w else w
      | .card p b => if p = pa then rawd (setByte w.val b 1) else w
      | _ => w) (s.see k pa unc)

/-- Bank register access in the executing bank. -/
def getX (k : Nat) : Run BankCtx := do let s ← get; pure (s.ctx k)
/-- Read a register by its index; an instruction that reads one checks its stored bits (R72). -/
def getAt (k i : Nat) : Run Word := do
  update fun s => s.checkReg k i
  let x ← getX k
  pure (x.at_ i)
def getR (k : Nat) (r : R5) : Run Word := do let x ← getX k; getAt k (x.ix r.toNat)
def setR (k : Nat) (r : R5) (w : Word) : Run Unit := update fun s => s.modCtx k fun x => x.set r w

/-! ### Stopping and failing a core -/

/-- The core stops in guarded mode (R171, R342). -/
def State.lockup (s : State) (c : CoreId) (b : Fin 8) (cw : Val) : State :=
  let s1 := ((s.modCore c fun x => { x with run := .lockup, resv := none, inval := [] }).log 0x13 (uCore c) [b.val, cw.toNat]).smbSync
  let ids := s1.tasksOfCore c
  if s1.weir.runSt = .stopped ∨ ids.isEmpty then s1
  else
    let s2 := (forEach ids s1 fun s id => s.abandonTask id 7).modLk fun l => { l with lockups := setBit l.lockups c.val true }
    if s2.lk.runDegrade then s2 else s2.orderlyStop 0

/-- The cluster of a failed core keeps its spare for it, unless another core has it or was declared before; of two declared in the same
cycle the lower number has it (R344, R348). -/
def State.claimSpare (s : State) (c : CoreId) : State :=
  let k : Claim := ⟨c, s.weir.pound, s.weir.elapsed⟩
  let cl := clusterOf c
  if bit s.lk.spareUsed cl.val then s
  else match s.lk.claims.find? fun x => clusterOf x.core == cl with
    | none => s.modLk fun l => { l with claims := l.claims ++ [k] }
    | some x =>
      if x.pound = k.pound ∧ x.elapsed = k.elapsed ∧ c.val < x.core.val then
        s.modLk fun l => { l with claims := l.claims.map fun y => if y = x then k else y }
      else s

/-- Whether the spare of a core's cluster serves or is kept for an identity already: one more failed core is lost (R347). -/
def State.spareGone (s : State) (c : CoreId) : Bool :=
  bit s.lk.spareUsed (clusterOf c).val || s.lk.claims.any fun x => clusterOf x.core == clusterOf c

/-- A core is declared failed (R341, R343, Table 16.2 to 1 µs): its port closes, its unfinished frame tasks are abandoned.
Without a spare a core is to be lost, and the run stops unless the policy degrades (R347, R348). -/
def State.declareFailed (s : State) (c : CoreId) (cause : Nat) : State :=
  match (s.coreOf c).run with
  | .running | .halted =>
    let bank := ((s.coreOf c).cur.map Fin.val).getD 0
    let pc := (s.ctx (8 * c.val + bank)).pc.toNat
    let phys := (s.coreOf c).phys
    let s1 := s.modCore c fun x => { x with run := .failed, resv := none, inval := [], sendq := [] }
    let s2 := s1.log 0x10 (uCore c) [phys, cause, pc, bank]
    let s3 := forEach (s2.tasksOfCore c) s2 fun s id => s.abandonTask id 4
    let s4 := s3.claimSpare c
    if s3.spareGone c && !s3.lk.runDegrade then s4.orderlyStop 0 else s4
  | _ => s

/-- A trap that cannot be delivered stops the core (R170, R171). -/
def State.stopCore (s : State) (c : CoreId) (b : Fin 8) (cw : Val) : State :=
  if pswGuard (s.ctx (bk c b)).psw then s.lockup c b cw else s.declareFailed c 6

/-! ### Trap entry (R162 to R169) -/

/-- A trap to be delivered: table level and ring, whether it is synchronous, and what t3, t4 and the cause word hold. -/
structure TrapReq where
  cause : Cause
  level : Nat
  ring  : Nat
  sync  : Bool
  t3    : Option Word
  t4    : Option Word
  slot  : Nat := 0
  evsrc : Nat := 0
  deriving DecidableEq, Repr

/-- Cause word (Table 7.4). -/
def causeWord (cause : Cause) (level orig olevel slot evsrc : Nat) : Val :=
  put orig 56 8 ||| put olevel 52 4 ||| put level 48 4 ||| put slot 42 2 ||| put evsrc 28 12 ||| put cause.code 0 8

/-- The vector word of an entry, read under ring 0 translation; anything but a CREF fails (R168). -/
def readVector (c : CoreId) (k idx : Nat) : Run (BitVec 62) := do
  let x ← getX k
  let va := (x.trapv.toNat + idx) % 2 ^ 60
  let t ← translate c k 0 .read va
  touch c k t .read
  let s ← get
  let w := s.see k t.pa t.unc
  trapIf (w.tag != tCREF) .vector
  pure (BitVec.ofNat 62 w.val.toNat)

/-- A store of a new word over an old one (R68, R70). -/
def checkTarget (va : Nat) (old new : Word) : Run Unit := do
  trapIf (old.tag == tCODE) .codeLoad (fixN va) old
  trapIf (old.tag == tRAWD && isHeap new) .type (fixN va) old

/-- Translate and check n consecutive stores, then perform them. -/
def pushWords (c : CoreId) (k ring : Nat) : Nat → List Word → Run Unit
  | _, [] => pure ()
  | va, w :: ws => do
    let x ← translate c k ring .write va
    touch c k x .read
    let s ← get
    checkTarget va (s.view k x.pa x.unc) w
    pushWords c k ring (va + 1) ws
    update fun s => s.storeNow k x.pa w x.unc

/-- Read n consecutive words of a trap-stack frame. -/
def popWords (c : CoreId) (k ring : Nat) : Nat → Nat → Run (List Word)
  | 0, _ => pure []
  | n + 1, va => do
    let x ← translate c k ring .read va
    touch c k x .read
    let s ← get
    let w := s.see k x.pa x.unc
    trapIf (w.tag == tCODE) .codeLoad (fixN va) w
    let rest ← popWords c k ring n (va + 1)
    pure (w :: rest)

/-- The words t0 to t15. -/
def BankCtx.window (x : BankCtx) : List Word := (List.range 16).map x.tw

def BankCtx.putSill (x : BankCtx) (ws : List (Nat × Word)) : BankCtx :=
  ws.foldl (fun x iw => { x with sill := mset wordD x.sill iw.1 iw.2 }) x

/-- PSW with a ring, a mask level and INLAST. -/
def mkPsw (psw : Val) (ring ml : Nat) (inlast : Bool) : Val := setFld (setFld (setFld psw 0 2 ring) 8 4 ml) 17 1 inlast.toNat

/-- Write the trap window and enter a handler. -/
def State.enter (s : State) (c : CoreId) (b : Fin 8) (window : List Word) (ring level : Nat) (inlast : Bool)
    (pc : BitVec 62) : State :=
  let s1 := s.modCtx (bk c b) fun x =>
    { x.putTws window with psw := mkPsw x.psw ring level (inlast || pswInlast x.psw), winpos := setFld x.winpos 7 1 1, pc := pc }
  s1.modCore c fun x => { x with resv := x.resv.filter fun r => r.1 != b }

/-- Enter MCHK_LAST through entry 0; where that fails too the core stops (R168, R170). -/
def State.enterLast (s : State) (c : CoreId) (b : Fin 8) (window : List Word) (cw : Val) : State :=
  match s.run (readVector c (bk c b) 0) with
  | (.ok v, s1) => s1.enter c b window 0 15 true v
  | (.error _, s1) => s1.stopCore c b cw

/-- A trap stack cannot take or give a frame: the sill area of Table 7.9, then MCHK_LAST (R169). `cw`, t3 and t4 are those
of the trap being delivered, FIX 0 for a failed reload. -/
def State.stackFault (s : State) (c : CoreId) (b : Fin 8) (cause : Cause) (pc : BitVec 62) (cw : Val) (t3 t4 : Word)
    (ring : Nat) (frame : Int) : State :=
  let k := bk c b
  let x := s.ctx k
  let a := fixN ((frame % (2 ^ 60 : Nat)).toNat)
  let head := [cref pc, fix x.psw, fix cw, t3, t4, fix x.winpos, fixN ring, a, fix x.tdepth] ++ List.replicate 7 unbound
  let s1 := s.modCtx k fun x => x.putSill ((head ++ x.window).zipIdx.map fun wi => (wi.2, wi.1))
  let t2 := causeWord cause 15 (fld cw 0 8) (fld cw 48 4) 0 0
  s1.enterLast c b [cref pc, fix x.psw, fix t2, a, fixN ring, fix x.winpos] t2

/-- Deliver through the vector table, after any push (R164, R168). -/
def State.vectorTo (s : State) (c : CoreId) (b : Fin 8) (pc : BitVec 62) (cw : Val) (t3 t4 : Word) (ring level : Nat) : State :=
  let k := bk c b
  let x := s.ctx k
  let window (t2 : Val) (t3 t4 : Word) : List Word := [cref pc, fix x.psw, fix t2, t3, t4, fix x.winpos]
  match s.run (readVector c k (16 * ring + level)) with
  | (.ok v, s1) => s1.enter c b (window cw t3 t4) ring level false v
  | (.error _, s1) =>
    let t2 := causeWord .vector 15 (fld cw 0 8) (fld cw 48 4) 0 0
    let entry := fixN ((x.trapv.toNat + 16 * ring + level) % 2 ^ 60)
    let (w4, s2) := s1.freshWord
    match s2.run (readVector c k 15) with
    | (.ok v, s3) => s3.enter c b (window t2 entry w4) 0 15 false v
    | (.error _, s3) => s3.enterLast c b (window t2 entry w4) t2

/-- TSP and TSL fields (Table 7.7). -/
def spTop (v : Val) : Nat := 16 * fld v 4 56
def slReserve (v : Val) : Nat := fld v 0 4

/-- Trap entry (R164). DESIGN CHOICE (log 26): TSTACK_LOW is pended once, and a later push that leaves fewer than RESERVE frames
replaces the ring and the TDEPTH that it will carry. -/
def State.takeTrap (s : State) (c : CoreId) (b : Fin 8) (q : TrapReq) (pc : BitVec 62) : State :=
  let k := bk c b
  let x := s.ctx k
  let esc := q.sync && decide (q.level < 15) && decide (q.level ≤ pswMl x.psw)
  let level := if esc then 15 else q.level
  let tr := min (if esc then 0 else q.ring) (pswRing x.psw)
  let cw :=
    if esc then causeWord .escalated 15 q.cause.code q.level q.slot q.evsrc else causeWord q.cause level 0 0 q.slot q.evsrc
  if (winTw x.winpos && pswGuard x.psw) || pswInlast x.psw then s.stopCore c b cw
  else
    let (t3, s1) := s.orFree q.t3
    let (t4, s2) := s1.orFree q.t4
    if winTw x.winpos then
      let d := depthOf x.tdepth tr
      let a : Int := (spTop (x.tsp.get tr) : Int) - 16 * (d + 1 : Nat)
      let limit : Int := spTop (x.tsl.get tr)
      if a < limit then s2.stackFault c b .stkLimit pc cw t3 t4 tr a
      else
        let s2 := forEach ((List.range 16).map twIx) s2 fun s i => s.checkReg k i
        match s2.run (pushWords c k tr a.toNat (s2.ctx k).window) with
        | (.error _, s3) => s3.stackFault c b .stkFault pc cw t3 t4 tr a
        | (.ok _, s3) =>
          let depth := setFld x.tdepth (16 * tr) 16 (d + 1)
          let low := decide ((a - limit) / 16 < (slReserve (x.tsl.get tr) : Int))
          let s4 := s3.modCtx k fun y =>
            { y with tdepth := depth, pendTstack := if low then some (BitVec.ofNat 64 tr, depth) else y.pendTstack }
          s4.vectorTo c b pc cw t3 t4 tr level
    else s2.vectorTo c b pc cw t3 t4 tr level

/-- A synchronous trap as a request. -/
def Trap.req (t : Trap) (cur slot : Nat) : TrapReq :=
  { cause := t.cause, level := t.cause.level, ring := t.cause.ring cur, sync := true, t3 := t.t3, t4 := t.t4, slot := slot }

/-! ### The load shadow (R103, R104) -/

/-- The shadow closes: held effects are performed, the load writes its destination, and an abandonment that fell due takes
place (R172). -/
def State.closeShadow (s : State) (k : Nat) : State :=
  match (s.bankOf k).shadow with
  | none => s
  | some d =>
    let s1 := s.modBank k fun b => { b with x := b.x.put d.dest d.word, shadow := none }
    let s2 := forEach d.held s1 fun s h => s.performOrWait k h
    match (s2.ctx k).due with
    | some code => (s2.modCtx k fun x => { x with due := none }).abandonTask k code
    | none => s2

/-- A load retires: its shadow opens. -/
def State.openShadow (s : State) (c : CoreId) (k len : Nat) (dest : Nat) (w : Word) : State :=
  s.modBank k fun b =>
    { b with
      x := { b.x with pc := b.x.pc + BitVec.ofNat 62 len },
      shadow := some { dest := dest, word := w, slot := 0, pc := b.x.pc, saved := b.x, vregs := (s.coreOf c).vregs,
                       vstat := (s.coreOf c).vstat, tctx := s.tctx k, held := [] } }

/-! ### One instruction -/

/-- How an instruction ends: on to the next parcel, to another parcel, still at the instruction, as a load with its
destination index and word, or with the bank's state already settled. -/
inductive Ending where
  | next
  | jump (p : BitVec 62)
  | stay
  | loaded (dest : Nat) (w : Word)
  | settled
  deriving DecidableEq, Repr

/-- The bank that executes on a core; none while the core issues nothing. -/
def State.executing (s : State) (c : CoreId) : Option (Fin 8) :=
  let cl := clusterOf c
  if s.engines && (s.coreOf c).run == .running && !bit s.lk.restarting cl.val && !(s.l2Of cl).l2busy then (s.coreOf c).cur
  else none

/-- A trap of an instruction is delivered at the boundary: before the load when a shadow is open (R104), else at the
instruction. An abandonment that has fallen due discards it (R172). -/
def State.trapAt (s : State) (c : CoreId) (b : Fin 8) (t : Trap) : State :=
  let k := bk c b
  match (s.bankOf k).shadow with
  | none => s.takeTrap c b (t.req (pswRing (s.ctx k).psw) 0) (s.ctx k).pc
  | some d =>
    let s1 := s.cancelShadow k
    match (s1.ctx k).due with
    | some code => (s1.modCtx k fun x => { x with due := none }).abandonTask k code
    | none => s1.takeTrap c b (t.req (pswRing (s1.ctx k).psw) (d.slot + 1)) d.pc

/-- A slot of an open shadow has been filled. -/
def State.countSlot (s : State) (k : Nat) : State :=
  match (s.bankOf k).shadow with
  | none => s
  | some d =>
    if d.slot = 0 then s.modBank k fun b => { b with shadow := some { d with slot := 1 } } else s.closeShadow k

def State.endInstr (s : State) (c : CoreId) (k len : Nat) (e : Ending) : State :=
  match e with
  | .next => (s.modCtx k fun x => { x with pc := x.pc + BitVec.ofNat 62 len }).countSlot k
  | .jump p => s.modCtx k fun x => { x with pc := p }
  | .loaded dest w => s.openShadow c k len dest w
  | .stay | .settled => s

/-- Execute one instruction of `len` parcels on a core. An instruction that may occupy a shadow slot fills one; any other
first closes the shadow (R103), and waits behind the stores that this performs. While accesses stall, a load waits with its shadow, and
a trap waits to be entered; `wait` says what else the instruction itself waits for. -/
def State.issue (s : State) (c : CoreId) (len : Nat) (slot : Bool) (wait : State → Nat → Bool) (body : Fin 8 → Run Ending) : State :=
  match s.executing c with
  | none => s
  | some b =>
    let k := bk c b
    if (s.stalled c && (s.bankOf k).shadow.isSome) || wait s k then s else
    let s1 := if slot then s else s.closeShadow k
    if s1.executing c ≠ some b || wait s1 k then s1
    else match s1.run (body b) with
      | (.ok e, s2) => s2.endInstr c k len e
      | (.error t, s2) => if s1.stalled c then s1 else s2.trapAt c b t

/-- An instruction that does not wait for stores. -/
def State.instr (s : State) (c : CoreId) (len : Nat) (slot : Bool) (body : Fin 8 → Run Ending) : State :=
  s.issue c len slot (fun _ _ => false) body

/-- An instruction that accesses memory waits while accesses stall. -/
def State.memInstr (s : State) (c : CoreId) (len : Nat) (slot : Bool) (body : Fin 8 → Run Ending) : State :=
  s.issue c len slot (fun s _ => s.stalled c) body

/-- The ring in which a bank executes. -/
def ringOf (k : Nat) : Run Nat := do let x ← getX k; pure (pswRing x.psw)

/-- Opcodes marked "ring 0" (R101). -/
def ring0 (k : Nat) : Run Unit := do let r ← ringOf k; trapIf (r != 0) .privOp

/-- A reserved sub-function or a field that must be 0 (R100, R101). -/
def legal (ok : Bool) : Run Unit := trapIf (!ok) .illegalOp

end Sys2Proof.Machine
end

