-- ==== Sys2Proof/Machine/Operands.lean ====
section
/-!
DEFINITION. Operand forms: the operands and lengths of each format (R84, R100, R102), address formation (R102, R122), loads
and stores with their tag checks (R68, R70, R80), the write barrier (R141 to R145) and the read barrier (R146 to R151).
-/

namespace Sys2Proof.Machine

/-! ### Formats (Table 4.11) -/

/-- Destination, operands a and b, and parcels of a two-operand form. -/
structure Opd2 where
  d   : R5
  a   : R5
  b   : R5
  len : Nat
  deriving DecidableEq, Repr

def aluOf : AluF → Opd2
  | .s A B => ⟨wide A, wide A, wide B, 1⟩
  | .rrr d a b => ⟨d, a, b, 2⟩

/-- Destination, operand and parcels of a one-operand form. -/
structure Opd1 where
  d   : R5
  a   : R5
  len : Nat
  deriving DecidableEq, Repr

def unOf : UnF → Opd1
  | .s A B => ⟨wide A, wide B, 1⟩
  | .rrr d a => ⟨d, a, 2⟩

/-- A register operand with a word to add to it: the immediate as FIX (R102). -/
structure OpdI where
  d   : R5
  a   : R5
  imm : Word
  len : Nat
  deriving DecidableEq, Repr

/-- A signed immediate field as FIX. -/
def immW {n : Nat} (i : BitVec n) : Word := fix (i.signExtend 64)
/-- An unsigned immediate field as FIX. -/
def immU {n : Nat} (i : BitVec n) : Word := fix (i.setWidth 64)

def immOf : ImmF → OpdI
  | .s A i => ⟨wide A, wide A, immU i, 1⟩
  | .rri d a i => ⟨d, a, immW i, 2⟩

/-- Register, base, offset and parcels of LD and ST. -/
structure OpdM where
  d   : R5
  a   : R5
  off : Int
  len : Nat
  deriving DecidableEq, Repr

/-- LD: A := [B]. -/
def memOf : MemF → OpdM
  | .s A B => ⟨wide A, wide B, 0, 1⟩
  | .rri d a i => ⟨d, a, i.toInt, 2⟩

/-- Operand and target of a branch on a value: PC + 1 + B, or PC + imm13 (R97). -/
def brOf : BrF → R5 × (BitVec 62 → BitVec 62) × Nat
  | .s A B => (wide A, fun p => p + 1 + B.setWidth 62, 1)
  | .ri d i => (d, fun p => p + i.signExtend 62, 2)

/-! ### Consuming operands (R80, R111) -/

/-- A POISON register operand raises POISON_USE with t3 0. -/
def notPoison (w : Word) : Run Unit := trapIf (isPoison w) .poisonUse (fix 0) w

/-- TYPE of an operation on register operands (R111). -/
def typeIf (bad : Bool) (a b : Word) : Run Unit := trapIf bad .type a b

/-- The result of a pure operation. -/
def lift_ {α : Type} : Except Trap α → Run α
  | .ok a => pure a
  | .error t => throw t

/-- Address formation (R102, R122): base and offset modulo 2^60. -/
def formAddr (ring : Nat) (base : Word) (off : Int) : Except Trap Nat :=
  if isPoison base then .error ⟨.poisonUse, some (fix 0), some base⟩
  else if isHeap base || (isFix base && decide (ring ≤ 1)) then .ok (((vaOf base.val : Int) + off) % (2 ^ 60 : Nat)).toNat
  else .error ⟨.type, some base, some (fixI off)⟩

/-- The address a base register and an offset give in the bank's ring. -/
def addrOf (k : Nat) (base : Word) (off : Int) : Run Nat := do
  let r ← ringOf k
  lift_ (formAddr r base off)

/-- Address of the basin word at an offset (R95). -/
def basinVa (x : BankCtx) (off : BitVec 9) : Nat := (fld x.basin 9 51 * 512 + off.toNat) % 2 ^ 60

/-! ### Reading -/

/-- Read the word where a translation leads: a device register or the tagged store (R190, R206). -/
def readAt (c : CoreId) (k : Nat) (x : Xl) : Run Word := do
  let s ← get
  if devBase ≤ x.pa then
    let r := s.devRead k (x.pa - devBase)
    set r.2
    pure r.1
  else
    touch c k x .read
    let s ← get
    pure (s.see k x.pa x.unc)

/-- A data read that may not take a CODE word (R70). -/
def readData (c : CoreId) (k ring va : Nat) (dev : Bool) : Run (Word × Xl) := do
  let x ← translate c k ring .read va dev
  let w ← readAt c k x
  trapIf (w.tag == tCODE) .codeLoad (fixN va) w
  pure (w, x)

/-! ### The write barrier (R141 to R145) -/

/-- The bit of BMAT for a target and a value space (Table 6.1). -/
def BankCtx.bmatBit (x : BankCtx) (target value : Nat) : Bool := bit (x.bmat.get (target / 4)) (16 * (target % 4) + value)

/-- Word address and byte of the card of a target word (R143). -/
def BankCtx.card (x : BankCtx) (va : Nat) : Nat × Nat := ((fld x.cardbase 0 60 + va / 512) % 2 ^ 60, va / 64 % 8)

/-- The card to mark for a pointer stored at an address, translated and checked (R145); none when the barrier does no work. -/
def cardPlan (c : CoreId) (k ring target va : Nat) (value : Word) : Run (Option (Xl × Nat)) := do
  let x ← getX k
  if isHeap value && bit x.cardbase 63 && x.bmatBit target (spaceOf value.val) then
    let (cva, byte) := x.card va
    let t ← translate c k ring .write cva
    update fun s => s.homeRead t.pa
    let s ← get
    let w := s.view k t.pa true
    trapIf (isPoison w) .poisonUse (fixN cva) w
    trapIf (w.tag != tRAWD) .cardTag (fixN cva) w
    pure (some (t, byte))
  else pure none

def markCard (k : Nat) : Option (Xl × Nat) → Run Unit
  | none => pure ()
  | some (t, byte) => effect k (.card t.pa byte)

/-- A store of a word with its checks and the write barrier (R68, R70, R122, R141); a device register holds no tag to check. -/
def storeChecked (c : CoreId) (k ring va target : Nat) (value : Word) (dev : Bool) : Run Unit := do
  let x ← translate c k ring .write va dev
  if x.pa < devBase then
    touch c k x .read
    let s ← get
    checkTarget va (s.view k x.pa x.unc) value
  let card ← cardPlan c k ring target va value
  store k x value
  markCard k card

/-! ### The read barrier (R146 to R151, R194) -/

def BankCtx.condemned (x : BankCtx) (space : Nat) : Bool := decide (space < 14) && bit x.cmask space

/-- Translate a run of consecutive words, in order. -/
def translateRun (c : CoreId) (k ring : Nat) (acc : Acc) : Nat → Nat → Run (List Xl)
  | 0, _ => pure []
  | n + 1, va => do
    let x ← translate c k ring acc va
    let rest ← translateRun c k ring acc n (va + 1)
    pure (x :: rest)

/-- Read the words of an object; a CODE word among them is none to load (R70). -/
def readRun (c : CoreId) (k : Nat) : List Xl → Run (List Word)
  | [] => pure []
  | x :: xs => do
    let w ← readAt c k x
    trapIf (w.tag == tCODE) .codeLoad (fixN x.va) w
    let rest ← readRun c k xs
    pure (w :: rest)

/-- What the copy of an object writes over in a line that it does not acquire whole is checked as any store (R68, R70); a line
acquired whole is checked as ZLINE checks one (R154, log 62). -/
def checkCopy (c : CoreId) (k n0 : Nat) : Nat → List (Xl × Word) → Run Unit
  | _, [] => pure ()
  | va, (x, w) :: rest => do
    if va / 8 * 8 < n0 then
      touch c k x .read
      let s ← get
      checkTarget va (s.view k x.pa x.unc) w
    else trapIf x.x .codeLoad (fixN va) (fix 0)
    checkCopy c k n0 (va + 1) rest

def cardPlans (c : CoreId) (k ring target : Nat) : Nat → List Word → Run (List (Option (Xl × Nat)))
  | _, [] => pure []
  | va, w :: ws => do
    let p ← cardPlan c k ring target va w
    let rest ← cardPlans c k ring target (va + 1) ws
    pure (p :: rest)

/-- Whether a bank writes a line acquired whole at the home agent: an uncached page, or its L1 data cache disabled (R154). -/
def State.wholeUnc (s : State) (k : Nat) (x : Xl) : Bool := x.unc || !l1dOn (s.l2Of (clOf k)) (posOfBank k)

/-- Write the copy of an object at N. A line that begins at or after N is acquired without fetching: the words of it beyond the copy
become UNBOUND 0, as ZLINE leaves them (R149, log 62). -/
def State.writeCopy (s : State) (k n0 : Nat) (l : List (Xl × Word)) : State :=
  forEach l.zipIdx s fun s xi =>
    let (x, w) := xi.1
    let va := n0 + xi.2
    if va / 8 * 8 < n0 then s.storeNow k x.pa w x.unc
    else if va % 8 = 0 then s.perform k (.line (x.pa / 8) (padWords 8 (((l.drop xi.2).take 8).map Prod.snd)) (s.wholeUnc k x))
    else s

/-- What a heal of the slot needs: its write translation and its card; none when the translation lacks W or D, and no other failure is
passed over (R194). -/
def healPlan (c : CoreId) (k ring slot target : Nat) (result : Word) : Run (Option (Xl × Option (Xl × Nat))) := do
  match ← attempt (translate c k ring .write slot) with
  | .error t => if t.cause = .rights ∨ t.cause = .ad then pure none else throw t
  | .ok x => do
    let card ← cardPlan c k ring target slot result
    pure (some (x, card))

/-- One compare-and-replace at the home agent (R148, R149, R206): what the word was, and the new word where it was `old`. -/
def compareReplace (pa : Nat) (old new : Word) : Run Word := do
  update fun s => s.homeRead pa
  let s ← get
  if s.rd pa = old then update fun s => s.wr pa new
  pure (s.rd pa)

/-- Replace the slot if it still holds the loaded word, then mark its card (R148). -/
def heal (k : Nat) (old new : Word) : Option (Xl × Option (Xl × Nat)) → Run Unit
  | none => pure ()
  | some (x, card) => do
    let was ← compareReplace x.pa old new
    if was = old then markCard k card

/-- Whether a copy of n words fits TOALLOC (R149). -/
def BankCtx.copyFits (x : BankCtx) (n : Nat) : Bool :=
  let sp := spaceOf x.toalloc
  let next := vaOf x.toalloc
  sp != 0 && !x.condemned sp && next % 2 == 0 && decide (next % 1024 + (n + n % 2) ≤ 1024)

/-- Inline evacuation (R149): reads, translations and checks first, then the copy, its cards, the FWD install and the heal. -/
def evacuate (c : CoreId) (k ring slot : Nat) (w first : Word) (n target : Nat) : Run Word := do
  let x ← getX k
  let a := vaOf w.val
  let sp := spaceOf x.toalloc
  let n0 := vaOf x.toalloc
  let src ← translateRun c k ring .read n a
  let ws ← readRun c k src
  let dst ← translateRun c k ring .write n n0
  checkCopy c k n0 n0 (dst.zip ws)
  let cards ← cardPlans c k ring sp n0 ws
  let install ← translate c k ring .rmw a
  let moved : Val := x.toalloc
  let result : Word := ⟨w.tag, moved⟩
  let plan ← healPlan c k ring slot target result
  update fun s => s.writeCopy k n0 (dst.zip ws)
  cards.forM (markCard k)
  let now ← compareReplace install.pa first ⟨tFWD, moved⟩
  if now = first then
    update fun s => s.modCtx k fun y => { y with toalloc := put (n0 + n + n % 2) 0 60 ||| put sp 60 4 }
    heal k w result plan
    pure result
  else
    trapIf (now.tag != tFWD) .rbHdr (fixN slot) w
    heal k w ⟨w.tag, now.val⟩ plan
    pure ⟨w.tag, now.val⟩

/-- A cause of the read-barrier slow path. For an object that a block instruction meets and could have been copied inline,
R130 does not say which: a free choice. -/
def slowCause (v : Val) : Cause :=
  match v.toNat % 4 with | 0 => .rbLarge | 1 => .rbNospace | 2 => .rbHdr | _ => .rbChain

/-- The read barrier on a word loaded from a slot (R146, R147). `copy` is false for the block instructions, which never
evacuate (R130). DEDUCED (log 29): a CODE word as the first word at the target raises CODE_LOAD (R70, R192), not RB_HDR. -/
def readBarrier (c : CoreId) (k ring slot target : Nat) (w : Word) (copy : Bool := true) : Run Word := do
  let x ← getX k
  if isHeap w && x.condemned (spaceOf w.val) then
    let a := vaOf w.val
    let hx ← translate c k ring .read a
    let h ← readAt c k hx
    trapIf (isPoison h) .poisonUse (fixN a) h
    trapIf (h.tag == tCODE) .codeLoad (fixN a) h
    if h.tag == tFWD then
      trapIf (x.condemned (spaceOf h.val)) .rbChain (fixN slot) w
      let result : Word := ⟨w.tag, h.val⟩
      let plan ← healPlan c k ring slot target result
      heal k w result plan
      pure result
    else
      trapIf (w.tag != tCONS && h.tag != tHDR) .rbHdr (fixN slot) w
      let n := if w.tag == tCONS then 2 else fld h.val 0 32 + 1
      trapIf (decide (32 < n)) .rbLarge (fixN slot) w
      trapIf (!x.copyFits n) .rbNospace (fixN slot) w
      if copy then evacuate c k ring slot w h n target
      else
        let v ← freshRun
        raiseTrap (slowCause v) (fixN slot) w
  else pure w

/-- A load with the read barrier (R146). -/
def loadWord (c : CoreId) (k ring va target : Nat) (dev : Bool) : Run (Word × Xl) := do
  let (w, x) ← readData c k ring va dev
  let v ← if devBase ≤ x.pa then pure w else readBarrier c k ring va target w
  pure (v, x)

/-- The ending of a load into a register: its shadow opens (R103). -/
def loadEnd (k : Nat) (d : R5) (w : Word) : Run Ending := do
  let x ← getX k
  pure (.loaded (x.ix d.toNat) w)

end Sys2Proof.Machine
end

