-- ==== Sys2Proof/Machine/Flags.lean ====
section
/-!
DEFINITION. Flags: the comparison relation with its quality check (R112 to R114), and the sticky flags of VSTAT (R134,
Table 5.8).
-/

namespace Sys2Proof.Machine

/-! ### Comparison (R112 to R114) -/

def isNumber (w : Word) : Bool := w.tag == tFIX || w.tag == tFLT || w.tag == tMEAS

/-- The exact value of a number (R113). -/
def exactOf (w : Word) : FP :=
  if w.tag == tFIX then .fin (decide (w.val.toInt < 0)) w.val.toInt.natAbs 0
  else if w.tag == tFLT then unpack b64 w.val.toNat
  else unpack b32 (measValue w.val)

/-- Whether a comparison under QSTRICT refuses a word: quality CLIPPED or MISSING (R114). -/
def poorQuality (w : Word) : Bool := w.tag == tMEAS && (measQual w.val == 3 || measQual w.val == 5)

/-- The relation of two words: none for an unordered pair. Checks in the order of R112. -/
def compareWords (qstrict : Bool) (a b : Word) : Except Trap (Option Ordering) :=
  if isPoison a then .error ⟨.poisonUse, some (fix 0), some a⟩
  else if isPoison b then .error ⟨.poisonUse, some (fix 0), some b⟩
  else
    let same := (a.tag == tTIME && b.tag == tTIME) || (a.tag == tCHAR && b.tag == tCHAR)
    if malformed a || malformed b || !((isNumber a && isNumber b) || same) then .error ⟨.type, some a, some b⟩
    else if qstrict && (poorQuality a || poorQuality b) then .error ⟨.quality, some a, some b⟩
    else if same then .ok (some (compare a.val.toNat b.val.toNat))
    else .ok (fpCmp (exactOf a) (exactOf b))

/-- CMP's result (R113). -/
def cmpWord : Option Ordering → Word
  | some .lt => fixI (-1)
  | some .eq => fix 0
  | some .gt => fix 1
  | none => fix 2

/-! ### VSTAT (Table 5.8) -/

def vstatMask : Val := 0x133F
def vsRm (v : Val) : Rm := Rm.ofCode (fld v 8 2)
def vsFtz (v : Val) : Bool := bit v 12

/-- IEEE exceptions ORed into the sticky flags; none is cleared (R134). -/
def orFlags (v : Val) (e : Exc) (sat : Bool) : Val :=
  v ||| flag sat 5 ||| flag e.nx 4 ||| flag e.uf 3 ||| flag e.of 2 ||| flag e.dz 1 ||| flag e.iv 0

end Sys2Proof.Machine
end

