-- ==== Sys2Proof/Machine/Arith.lean ====
section
/-!
DEFINITION. Scalar arithmetic, comparison, bit operations, moves, tags and conversion (R58, R102, R106 to R118).
-/

namespace Sys2Proof.Machine

/-! ### Generic arithmetic (R106 to R110) -/

inductive AOp where
  | add | sub | mul | div | rem
  deriving DecidableEq, Repr

/-- Whether Table 5.1 accepts a tag pair. -/
def accepts (op : AOp) (a b : Tag) : Bool :=
  let num (t : Tag) : Bool := t == tFIX || t == tFLT || t == tMEAS
  if num a && num b then op != .rem || (a == tFIX && b == tFIX)
  else if a == tTIME && b == tFIX then op == .add || op == .sub
  else if a == tFIX && b == tTIME then op == .add
  else a == tTIME && b == tTIME && op == .sub

/-- A number outside the signed 64-bit range has no FIX value. -/
def fixOf (v : Int) : Option Word := if -(2 : Int) ^ 63 ≤ v ∧ v < (2 : Int) ^ 63 then some (fixI v) else none

/-- FIX with FIX (R107). -/
def fixArith (op : AOp) (a b : Val) : Option Word :=
  let x := a.toInt
  let y := b.toInt
  match op with
  | .add => fixOf (x + y)
  | .sub => fixOf (x - y)
  | .mul => fixOf (x * y)
  | .div => if y = 0 then none else fixOf (x.tdiv y)
  | .rem => if y = 0 then none else some (fixI (x.tmod y))

/-- One operation of a format with round-to-nearest-even (R108, R109). -/
def fltArith (f : Fmt) (op : AOp) (a b : Nat) : Nat :=
  match op with
  | .add => (fpAdd f .rne a b).1
  | .sub => (fpSub f .rne a b).1
  | .mul => (fpMul f .rne a b).1
  | _ => (fpDiv f .rne a b).1

/-- A FIX or FLT operand in binary64. -/
def toB64 (w : Word) : Nat := if w.tag == tFIX then (fpOfInt b64 .rne w.val.toInt).1 else w.val.toNat

/-- An operand in binary32: MEAS unchanged, the others rounded to nearest even (R109). -/
def toB32 (w : Word) : Nat :=
  if w.tag == tMEAS then measValue w.val
  else if w.tag == tFIX then (fpOfInt b32 .rne w.val.toInt).1
  else (fpConv b64 b32 .rne w.val.toNat).1

def qualOf (w : Word) : Nat := if w.tag == tMEAS then measQual w.val else 0

/-- Result channel (R109). -/
def chanOfPair (a b : Word) : Nat :=
  if a.tag == tMEAS && b.tag == tMEAS then (if measChan a.val = measChan b.val then measChan a.val else derived)
  else if a.tag == tMEAS then measChan a.val else measChan b.val

/-- TIME operands (R110). -/
def timeArith (op : AOp) (a b : Word) : Option Word :=
  if a.tag == tTIME && b.tag == tTIME then fixOf ((a.val.toNat : Int) - b.val.toNat)
  else
    let t := if a.tag == tTIME then a.val.toNat else b.val.toNat
    let n := if a.tag == tTIME then b.val.toInt else a.val.toInt
    let v : Int := if op = .sub then t - n else t + n
    if 0 ≤ v ∧ v < (2 : Int) ^ 64 then some (timeW (BitVec.ofInt 64 v)) else none

/-- The result of an accepted pair; none raises OVF. -/
def arithResult (op : AOp) (a b : Word) : Option Word :=
  if a.tag == tMEAS || b.tag == tMEAS then
    some (meas (fltArith b32 op (toB32 a) (toB32 b)) (max (qualOf a) (qualOf b)) (chanOfPair a b))
  else if a.tag == tTIME || b.tag == tTIME then timeArith op a b
  else if a.tag == tFLT || b.tag == tFLT then some ⟨tFLT, BitVec.ofNat 64 (fltArith b64 op (toB64 a) (toB64 b))⟩
  else fixArith op a.val b.val

/-- A generic arithmetic operation (R106). -/
def arith (op : AOp) (a b : Word) : Except Trap Word :=
  if isPoison a then .error ⟨.poisonUse, some (fix 0), some a⟩
  else if isPoison b then .error ⟨.poisonUse, some (fix 0), some b⟩
  else if malformed a || malformed b || !accepts op a.tag b.tag then .error ⟨.type, some a, some b⟩
  else match arithResult op a b with
    | some w => .ok w
    | none => .error ⟨.ovf, some a, some b⟩

/-! ### Bit operations (R116) -/

inductive BOp where
  | and | or | xor | shl | shr | sar
  deriving DecidableEq, Repr

def bitResult (op : BOp) (a b : Val) : Val :=
  let n := b.toNat % 64
  match op with
  | .and => a &&& b
  | .or => a ||| b
  | .xor => a ^^^ b
  | .shl => a <<< n
  | .shr => a >>> n
  | .sar => a.sshiftRight n

def bitOp (op : BOp) (a b : Word) : Except Trap Word :=
  if isPoison a then .error ⟨.poisonUse, some (fix 0), some a⟩
  else if isPoison b then .error ⟨.poisonUse, some (fix 0), some b⟩
  else if isFix a && isFix b then .ok (fix (bitResult op a.val b.val))
  else .error ⟨.type, some a, some b⟩

/-! ### Conversion (R117, Table 5.3) -/

/-- Integer of a number, rounded; none for a NaN or outside the FIX range. -/
def toFix (rm : Rm) (w : Word) : Option Word :=
  if w.tag == tFIX then some w
  else
    let r := if w.tag == tFLT then fpToInt b64 rm w.val.toNat else fpToInt b32 rm (measValue w.val)
    match r with | some (v, _) => fixOf v | none => none

def toFlt (w : Word) : Word :=
  if w.tag == tFLT then w
  else if w.tag == tFIX then ⟨tFLT, BitVec.ofNat 64 (fpOfInt b64 .rne w.val.toInt).1⟩
  else ⟨tFLT, BitVec.ofNat 64 (fpConv b32 b64 .rne (measValue w.val)).1⟩

/-- Whether a CVT row reads b. -/
def cvtReadsB (x : Nat) : Bool := x == 3 || x == 5

/-- Whether a CVT row accepts the tags. -/
def cvtAccepts (x : Nat) (a b : Word) : Bool :=
  (match x with
    | 0 | 1 | 2 | 3 => isNumber a
    | 4 | 5 | 6 => a.tag == tMEAS
    | _ => a.tag == tTIME || isFix a) && (!cvtReadsB x || isFix b)

/-- A CVT row on accepted tags: OVF, TYPE, or a result. -/
def cvtResult (x : Nat) (a b : Word) : Except Cause Word :=
  let ovf : Option Word → Except Cause Word := fun o => match o with | some w => .ok w | none => .error .ovf
  match x with
  | 0 => .ok (toFlt a)
  | 1 => ovf (toFix .rtz a)
  | 2 => ovf (toFix .rne a)
  | 3 => if 6 ≤ fld b.val 24 8 then .error .type else .ok (meas (toB32 a) (fld b.val 24 8) (fld b.val 0 24))
  | 4 => .ok (fixN (measQual a.val))
  | 5 => if 5 < b.val.toNat then .error .type else .ok (meas (measValue a.val) (max (measQual a.val) b.val.toNat) (measChan a.val))
  | 6 => .ok (fixN (measChan a.val))
  | _ =>
    if a.tag == tTIME then ovf (fixOf a.val.toNat) else if a.val.toInt < 0 then .error .ovf else .ok (timeW a.val)

def cvt (x : Nat) (a b : Word) : Except Trap Word :=
  let t4 := if cvtReadsB x then some b else none
  if isPoison a then .error ⟨.poisonUse, some (fix 0), some a⟩
  else if cvtReadsB x && isPoison b then .error ⟨.poisonUse, some (fix 0), some b⟩
  else if malformedMeas a || (cvtReadsB x && malformedMeas b) || !cvtAccepts x a b then .error ⟨.type, some a, t4⟩
  else match cvtResult x a b with | .ok w => .ok w | .error e => .error ⟨e, some a, t4⟩

/-! ### SETTAG (R58) -/

/-- The word that SETTAG gives: a's value with the tag (R118). The POISON it creates records origin 5 and address 0 (R79), and a POISON word
that it gives the POISON tag moves unchanged (R118; DEDUCED, log 29). -/
def tagged (a : Word) (t : Tag) : Word := if t = tPOISON ∧ !isPoison a then poison 5 0 else ⟨t, a.val⟩

/-- SETTAG checks the tag, then the ring (R57, R58). -/
def setTag (ring : Nat) (a : Word) (t : Tag) : Except Trap Word :=
  if reservedTag t then .error ⟨.type, some a, some (immU t)⟩
  else match setTagRing t with
    | none => .error { cause := .privTag }
    | some r => if ring ≤ r then .ok (tagged a t) else .error { cause := .privTag }

/-! ### Shapes of these instructions -/

/-- d := f(a, b) of register operands. -/
def binary (f : Word → Word → Except Trap Word) (c : CoreId) (o : Opd2) (s : State) : Result :=
  .next (s.instr c o.len true fun b => do
    let k := bk c b
    let wa ← getR k o.a
    let wb ← getR k o.b
    let w ← lift_ (f wa wb)
    setR k o.d w
    pure .next)

/-- d := f(a, immediate). -/
def withImm (f : Word → Word → Except Trap Word) (c : CoreId) (o : OpdI) (s : State) : Result :=
  .next (s.instr c o.len true fun b => do
    let k := bk c b
    let wa ← getR k o.a
    let w ← lift_ (f wa o.imm)
    setR k o.d w
    pure .next)

/-- d := f(a) without a check. -/
def unary (f : Word → Word) (c : CoreId) (o : Opd1) (s : State) : Result :=
  .next (s.instr c o.len true fun b => do
    let k := bk c b
    let wa ← getR k o.a
    setR k o.d (f wa)
    pure .next)

/-- d := a word that needs no operand. -/
def constant (w : BankCtx → Word) (c : CoreId) (d : R5) (len : Nat) (s : State) : Result :=
  .next (s.instr c len true fun b => do
    let k := bk c b
    let x ← getX k
    setR k d (w x)
    pure .next)

/-- A comparison of register operands, or of a register and an immediate, with its result word. -/
def comparison (f : Option Ordering → Word) (c : CoreId) (d : R5) (len : Nat) (a : R5) (other : Nat → Run Word)
    (s : State) : Result :=
  .next (s.instr c len true fun b => do
    let k := bk c b
    let u ← getR k a
    let v ← other k
    let x ← getX k
    let r ← lift_ (compareWords (pswQstrict x.psw) u v)
    setR k d (f r)
    pure .next)

def isEq (r : Option Ordering) : Word := wBool (r == some .eq)
def isLt (r : Option Ordering) : Word := wBool (r == some .lt)
def isLe (r : Option Ordering) : Word := wBool (r == some .lt || r == some .eq)

/-! ### The instructions -/

/-- NOP: A and B must be 0 (Table 4.12). -/
def execNop (c : CoreId) (A B : R4) (s : State) : Result :=
  .next (s.instr c 1 (A == 0 && B == 0) fun _ => do
    legal (A == 0 && B == 0)
    pure .next)

def execMov (c : CoreId) (f : UnF) (s : State) : Result := unary id c (unOf f) s

def execAdd (c : CoreId) (f : AluF) (s : State) : Result := binary (arith .add) c (aluOf f) s
def execSub (c : CoreId) (f : AluF) (s : State) : Result := binary (arith .sub) c (aluOf f) s
def execMul (c : CoreId) (f : AluF) (s : State) : Result := binary (arith .mul) c (aluOf f) s
def execDiv (c : CoreId) (d a b : R5) (s : State) : Result := binary (arith .div) c ⟨d, a, b, 2⟩ s
def execRem (c : CoreId) (d a b : R5) (s : State) : Result := binary (arith .rem) c ⟨d, a, b, 2⟩ s
def execAddi (c : CoreId) (f : ImmF) (s : State) : Result := withImm (arith .add) c (immOf f) s
def execSubi (c : CoreId) (A imm : BitVec 4) (s : State) : Result :=
  withImm (arith .sub) c ⟨wide A, wide A, immU imm, 1⟩ s
def execMuli (c : CoreId) (d a : R5) (imm : BitVec 8) (s : State) : Result := withImm (arith .mul) c ⟨d, a, immW imm, 2⟩ s
def execAddk (c : CoreId) (d : R5) (imm : BitVec 13) (s : State) : Result := withImm (arith .add) c ⟨d, d, immW imm, 2⟩ s
def execAddl (c : CoreId) (d : R5) (imm : BitVec 27) (s : State) : Result := withImm (arith .add) c ⟨d, d, immW imm, 3⟩ s

def execCmp (c : CoreId) (f : AluF) (s : State) : Result :=
  comparison cmpWord c (aluOf f).d (aluOf f).len (aluOf f).a (fun k => getR k (aluOf f).b) s
def execCmpeq (c : CoreId) (d a b : R5) (s : State) : Result := comparison isEq c d 2 a (fun k => getR k b) s
def execCmplt (c : CoreId) (d a b : R5) (s : State) : Result := comparison isLt c d 2 a (fun k => getR k b) s
def execCmple (c : CoreId) (d a b : R5) (s : State) : Result := comparison isLe c d 2 a (fun k => getR k b) s
def execCmpeqi (c : CoreId) (d a : R5) (imm : BitVec 8) (s : State) : Result := comparison isEq c d 2 a (fun _ => pure (immW imm)) s
def execCmplti (c : CoreId) (d a : R5) (imm : BitVec 8) (s : State) : Result := comparison isLt c d 2 a (fun _ => pure (immW imm)) s

/-- EQ: identity of all 72 bits (R115). -/
def execEq (c : CoreId) (d a b : R5) (s : State) : Result :=
  .next (s.instr c 2 true fun bank => do
    let k := bk c bank
    let wa ← getR k a
    let wb ← getR k b
    notPoison wa
    notPoison wb
    setR k d (wBool (wa == wb))
    pure .next)

def execAnd (c : CoreId) (d a b : R5) (s : State) : Result := binary (bitOp .and) c ⟨d, a, b, 2⟩ s
def execOr (c : CoreId) (d a b : R5) (s : State) : Result := binary (bitOp .or) c ⟨d, a, b, 2⟩ s
def execXor (c : CoreId) (d a b : R5) (s : State) : Result := binary (bitOp .xor) c ⟨d, a, b, 2⟩ s
def execShl (c : CoreId) (d a b : R5) (s : State) : Result := binary (bitOp .shl) c ⟨d, a, b, 2⟩ s
def execShr (c : CoreId) (d a b : R5) (s : State) : Result := binary (bitOp .shr) c ⟨d, a, b, 2⟩ s
def execSar (c : CoreId) (d a b : R5) (s : State) : Result := binary (bitOp .sar) c ⟨d, a, b, 2⟩ s
def execAndi (c : CoreId) (d a : R5) (imm : BitVec 8) (s : State) : Result := withImm (bitOp .and) c ⟨d, a, immW imm, 2⟩ s
def execOri (c : CoreId) (d a : R5) (imm : BitVec 8) (s : State) : Result := withImm (bitOp .or) c ⟨d, a, immW imm, 2⟩ s
def execXori (c : CoreId) (d a : R5) (imm : BitVec 8) (s : State) : Result := withImm (bitOp .xor) c ⟨d, a, immW imm, 2⟩ s
def execShli (c : CoreId) (d a : R5) (imm : BitVec 8) (s : State) : Result := withImm (bitOp .shl) c ⟨d, a, immW imm, 2⟩ s
def execShri (c : CoreId) (d a : R5) (imm : BitVec 8) (s : State) : Result := withImm (bitOp .shr) c ⟨d, a, immW imm, 2⟩ s
def execSari (c : CoreId) (d a : R5) (imm : BitVec 8) (s : State) : Result := withImm (bitOp .sar) c ⟨d, a, immW imm, 2⟩ s

/-- MOVI (R102): an unsigned 4-bit or a signed 13-bit immediate. -/
def execMovi (c : CoreId) (f : ConstF) (s : State) : Result :=
  match f with
  | .s A B => constant (fun _ => immU B) c (wide A) 1 s
  | .ri d imm => constant (fun _ => immW imm) c d 2 s

/-- MOVK (R102): code 0 UNBOUND, 1 NIL, 2 TRUE; any other raises ILLEGAL_OP. -/
def constWord : Nat → Option Word
  | 0 => some unbound
  | 1 => some wNil
  | 2 => some wTrue
  | _ => none

/-- Destination, code and parcels of MOVK. -/
def movkOf : ConstF → R5 × Nat × Nat
  | .s A B => (wide A, B.toNat, 1)
  | .ri d imm => (d, imm.toNat, 2)

def execMovk (c : CoreId) (f : ConstF) (s : State) : Result :=
  let (d, code, len) := movkOf f
  .next (s.instr c len (constWord code).isSome fun b =>
    match constWord code with
    | none => raiseTrap .illegalOp
    | some w => do
      setR (bk c b) d w
      pure .next)

def execMovl (c : CoreId) (d : R5) (imm : BitVec 27) (s : State) : Result := constant (fun _ => immW imm) c d 3 s
/-- LEA: CREF of PC + imm27 (Table 4.14). -/
def execLea (c : CoreId) (d : R5) (imm : BitVec 27) (s : State) : Result :=
  constant (fun x => cref (x.pc + imm.signExtend 62)) c d 3 s

def execTagof (c : CoreId) (f : UnF) (s : State) : Result := unary (fun w => immU w.tag) c (unOf f) s
def execTageq (c : CoreId) (d a : R5) (imm : BitVec 8) (s : State) : Result := unary (fun w => wBool (w.tag == imm)) c ⟨d, a, 2⟩ s

def execSettag (c : CoreId) (d a : R5) (imm : BitVec 8) (s : State) : Result :=
  .next (s.instr c 2 true fun b => do
    let k := bk c b
    let ring ← ringOf k
    let wa ← getR k a
    let w ← lift_ (setTag ring wa imm)
    setR k d w
    pure .next)

/-- CVT: a field that its row does not use must be 0 (R100, R117). -/
def execCvt (c : CoreId) (d a b : R5) (x : BitVec 3) (s : State) : Result :=
  let ok := cvtReadsB x.toNat || b == 0
  .next (s.instr c 2 ok fun bank => do
    legal ok
    let k := bk c bank
    let wa ← getR k a
    let wb ← getR k b
    let w ← lift_ (cvt x.toNat wa wb)
    setR k d w
    pure .next)

end Sys2Proof.Machine
end

