-- ==== Sys2Proof/Machine/Channels.lean ====
section
/-!
DEFINITION. The rows of the sluice (chapter 13) and of the event router (R181 to R185): register writes as commands, the
beat, and what happens to a channel on its own.
-/

namespace Sys2Proof.Machine

/-- Blocks whose registers take a write: clocked and out of a warm restart (R373, R375). -/
def State.writable (s : State) : Bool := s.clocked && s.lk.warm.isNone

/-- A register write of a block. -/
def State.regDo (s : State) (f : State → State) : Result := .next (if s.writable then f s else s)

/-- Something an engine does on its own. -/
def State.engDo (s : State) (f : State → State) : Result := .next (if s.engines then f s else s)

/-! ### Beats and what follows from them -/

def execBeat (host : List Byte) (s : State) : Result := s.engDo fun s => s.beat host
def execDescriptorStart (ch : ChanId) (s : State) : Result := s.engDo fun s => s.descStart ch.val
def execHalfCompletion (ch : ChanId) (s : State) : Result := s.engDo fun s => s.halfDue ch.val
def execHandOver (ch : ChanId) (s : State) : Result := s.engDo fun s => s.handOver ch.val
def execBusError (ch : ChanId) (code : BitVec 8) (s : State) : Result := s.engDo fun s => s.busError ch.val code.toNat
def execRetryAttempt (ch : ChanId) (s : State) : Result := s.engDo fun s => s.retry ch.val
def execChannelHalt (ch : ChanId) (s : State) : Result := s.engDo fun s => s.actOnError ch.val
def execSluiceStopComplete (ch : ChanId) (s : State) : Result := s.engDo fun s => s.sluStopDone ch.val
def execSluTimerFire (n : Fin 16) (s : State) : Result := s.engDo fun s => s.timerFire n.val

/-! ### Registers of the sluice -/

def execSluStart (ch : ChanId) (v : Val) (s : State) : Result := s.regDo fun s => s.sluStart ch.val v

/-- SLU_RESUME takes no field of the value written (R290). -/
def execSluResume (ch : ChanId) (_v : Val) (s : State) : Result := s.regDo fun s => s.sluResume ch.val

def execSluShdWrite (ch : ChanId) (w : Fin 8) (v : Val) (s : State) : Result := s.regDo fun s => s.sluShd ch.val w.val v
def execSluEn (ch : ChanId) (en : Bool) (s : State) : Result := s.regDo fun s => s.sluEnable ch.val en
def execSluClass (ch : ChanId) (t : Bool) (s : State) : Result := s.regDo fun s => s.sluClass ch.val t
def execSluArm (ch : ChanId) (arm : Bool) (s : State) : Result := s.regDo fun s => s.sluArm ch.val arm
def execSluStop (ch : ChanId) (s : State) : Result := s.regDo fun s => s.sluStop ch.val

/-- GO: one occurrence of the software trigger (Table 13.5). -/
def execSluGo (ch : ChanId) (s : State) : Result := s.regDo fun s => s.modChan ch.val fun x => x.latchTrig 1 0

def execSluPrio (ch : ChanId) (p : BitVec 3) (s : State) : Result := s.regDo fun s => s.modChan ch.val fun x => { x with prio := p }
def execSluStatW1c (ch : ChanId) (v : Val) (s : State) : Result := s.regDo fun s => s.sluStatW1c ch.val v
def execSluGctlWrite (v : Val) (s : State) : Result := s.regDo fun s => s.sluGctl v
def execBl16haltClear (v : Val) (s : State) : Result := s.regDo fun s => s.sluGstatW1c v
def execSluTimerWrite (n : Fin 16) (v : Val) (s : State) : Result := s.regDo fun s => s.sluTimer n.val v

/-! ### The event router -/

def execEvtRaise (v : Val) (s : State) : Result := s.regDo fun s => s.evtRaise v
def execEvtPendW1c (k : Fin 64) (v : Val) (s : State) : Result := s.regDo fun s => s.evtW1c k.val v
def execEvtRouteWrite (n : Fin 4096) (v : Val) (s : State) : Result := s.regDo fun s => s.evtRoute n.val v

/-- The lockkeeper acknowledges an event routed to it and takes no other action (R181). -/
def execLockkeeperEventDelivery (src : Fin 4096) (s : State) : Result :=
  s.engDo fun s =>
    let r := s.route src.val
    if s.pendBit src.val && rtEn r && rtDest r == 1 then s.delivered src.val else s

/-- A message of an event routed to a vector: for each edge-mode delivery, or one owed in level mode (R185). -/
def State.eventMsix (s : State) (n : Nat) : State :=
  let r := s.route n
  if !rtEn r || rtDest r != 2 || !s.pins.linkUp then s
  else if s.levelMode n then
    if s.evt.owed.contains n then
      { s with evt := { s.evt with owed := s.evt.owed.erase n } }.sendMsix (rtVector r)
    else s
  else if s.pendBit n then (s.delivered n).sendMsix (rtVector r)
  else s

def execMsixMessage (src : Fin 4096) (s : State) : Result := s.engDo fun s => s.eventMsix src.val

end Sys2Proof.Machine
end

