-- ==== Sys2Proof/Machine/Arrays.lean ====
section
/-!
DEFINITION. The rows of the memory controllers (R215 to R222), the L2 controllers (R210 to R213, R187) and the power
controller (R370, R371).
-/

namespace Sys2Proof.Machine

/-! ### Memory controllers -/

/-- Lines of a triplet. -/
def State.tripLines (s : State) : Nat := if s.memc.clamshell then 2 ^ 26 else 2 ^ 25

/-- The next patrol read of a triplet: a failed triplet is not read (R222). A line in which it finds an error is rewritten. The pass
count follows TRIP[0] (log 35). -/
def State.patrol (s : State) (t : Nat) (e : ReadErr) : State :=
  let i := (s.eccOf t).idx
  let line := 8 * i + t
  let s0 := (s.edcCheck line e.ch e.edc).readLine line e 6 true
  let found := (s0.eccOf t).corr != (s.eccOf t).corr || (s0.eccOf t).pois != (s.eccOf t).pois
  let s1 := if found then s0.edcCheck line e.wch e.wedc else s0
  let last := i + 1 = s.tripLines
  let s2 := s1.modEcc t fun e => { e with idx := if last then 0 else i + 1 }
  if last && t == 0 then s2.modMemc fun m => { m with passes := (m.passes + 1) % 2 ^ 32 } else s2

def execPatrolScrubRead (t : Fin 8) (stored : Burst) (e : PassingErr) (s : State) : Result :=
  s.engDo fun s => s.patrol t.val { e with stored }

def execChannelFailed (ch : Fin 24) (reason : BitVec 8) (s : State) : Result :=
  s.engDo fun s => s.failChannel ch.val reason.toNat

/-! ### L2 controllers -/

/-- A write of a cluster's registers; a cluster in restart discards it (R373). -/
def State.l2Do (s : State) (cl : ClusterId) (f : State → State) : Result :=
  s.regDo fun s => if bit s.lk.restarting cl.val then s else f s

def execCacheCleanComplete (cl : ClusterId) (s : State) : Result := s.engDo fun s => (s.cleanDone cl).resumeStores

def execL2en (cl : ClusterId) (on : Bool) (s : State) : Result :=
  s.l2Do cl fun s => s.l2CtlWrite cl .lockkeeper (setFld (s.l2Of cl).ctl 0 1 on.toNat)

def execL1den (cl : ClusterId) (k : Fin 8) (on : Bool) (s : State) : Result :=
  s.l2Do cl fun s => s.l2CtlWrite cl .lockkeeper (setFld (s.l2Of cl).ctl (8 + k.val) 1 on.toNat)

def execL1cen (cl : ClusterId) (k : Fin 8) (on : Bool) (s : State) : Result :=
  s.l2Do cl fun s => s.l2CtlWrite cl .lockkeeper (setFld (s.l2Of cl).ctl (16 + k.val) 1 on.toNat)

def execPfen (cl : ClusterId) (k : Fin 8) (on : Bool) (s : State) : Result :=
  s.l2Do cl fun s => s.l2CtlWrite cl .lockkeeper (setFld (s.l2Of cl).ctl (24 + k.val) 1 on.toNat)

def execL2cLockwaysWrite (cl : ClusterId) (v : Val) (s : State) : Result := s.l2Do cl fun s => s.lockwaysWrite cl v

/-- A translation context (R187); host writes to the L2 controllers are discarded. -/
def execL2cTctxWrite (cl : ClusterId) (i : Fin 64) (by_ : Requester) (v : Val) (s : State) : Result :=
  s.l2Do cl fun s => if isHost by_ then s else s.modL2 cl fun l => l.putTctx i.val v

/-! ### Power -/

def execPwrSet (v : Val) (s : State) : Result := s.regDo fun s => s.pwrSet v
def execPwrClr (v : Val) (s : State) : Result := s.regDo fun s => s.pwrClr v
def execPowerTransitionComplete (dom : Fin 240) (s : State) : Result := s.regDo fun s => (s.powerDone dom.val).resumeStores

end Sys2Proof.Machine
end

