-- ==== Sys2Proof/Machine/Block.lean ====
section
/-!
DEFINITION. The resumable block instructions (R126 to R130), STM and LDM (R131, R132, R90) and the record port (R299 to
R301).
-/

namespace Sys2Proof.Machine

/-! ### Steps (R127, R128) -/

/-- An address register advances: 1 is added to bits 59:0; its tag and space stay. -/
def advance (w : Word) (n : Nat := 1) : Word := ⟨w.tag, put (vaOf w.val + n) 0 60 ||| put (spaceOf w.val) 60 4⟩

/-- Advance an address register of the bank. -/
def bump (k : Nat) (r : R5) : Run Unit := do let w ← getR k r; setR k r (advance w)

/-- One word of the count is done. -/
def countDown (k : Nat) (b : R5) : Run Unit := do let w ← getR k b; setR k b (fix (w.val - 1))

/-- Up to n words of a step. `word` performs one word and answers whether the instruction has ended. -/
def words (k : Nat) (b : R5) (word : Run Bool) : Nat → Run Ending
  | 0 => do let n ← getR k b; pure (if n.val == 0 then .next else .stay)
  | m + 1 => do
    let n ← getR k b
    if n.val == 0 then pure .next
    else
      let ended ← word
      if ended then pure .next else words k b word m

/-- One step of a block instruction with its checks. `pre` is the instruction's own check before the first word. -/
def blockStep (c : CoreId) (d a b : R5) (pre : Nat → Run Unit) (word : Nat → Run Bool) (s : State) : Result :=
  .next (s.memInstr c 2 false fun bank => do
    let k := bk c bank
    legal (d != a && d != b && a != b)
    let n ← getR k b
    let av ← getR k a
    notPoison n
    trapIf (!isFix n || decide (n.val.toInt < 0)) .type av n
    if n.val == 0 then pure .next
    else
      pre k
      words k b (word k) 16)

/-- One word of MOVB: read, read barrier without evacuation, store with the write barrier. -/
def movbWord (c : CoreId) (d a b : R5) (k : Nat) : Run Bool := do
  let ring ← ringOf k
  let src ← getR k a
  let dst ← getR k d
  let sva ← addrOf k src 0
  let dva ← addrOf k dst 0
  let (w, _) ← readData c k ring sva false
  let v ← readBarrier c k ring sva (spaceOf src.val) w (copy := false)
  storeChecked c k ring dva (spaceOf dst.val) v false
  bump k d
  bump k a
  countDown k b
  pure false

def execMovb (c : CoreId) (d a b : R5) (s : State) : Result := blockStep c d a b (fun _ => pure ()) (movbWord c d a b) s

/-- One word of FILLB. -/
def fillbWord (c : CoreId) (d a b : R5) (k : Nat) : Run Bool := do
  let ring ← ringOf k
  let v ← getR k a
  let dst ← getR k d
  let dva ← addrOf k dst 0
  storeChecked c k ring dva (spaceOf dst.val) v false
  bump k d
  countDown k b
  pure false

/-- A POISON fill word or key raises POISON_USE before the first word (R129). -/
def checkKey (a : R5) (k : Nat) : Run Unit := do let w ← getR k a; notPoison w

def execFillb (c : CoreId) (d a b : R5) (s : State) : Result := blockStep c d a b (checkKey a) (fillbWord c d a b) s

/-- A word of memory that an instruction consumes (R80). -/
def consume (c : CoreId) (k ring va : Nat) : Run Word := do
  let (w, _) ← readData c k ring va false
  trapIf (isPoison w) .poisonUse (fixN va) w
  pure w

/-- One word of CMPB: stored bits, no read barrier. -/
def cmpbWord (c : CoreId) (d a b : R5) (k : Nat) : Run Bool := do
  let ring ← ringOf k
  let x ← getR k d
  let y ← getR k a
  let xva ← addrOf k x 0
  let yva ← addrOf k y 0
  let v ← consume c k ring xva
  let w ← consume c k ring yva
  if v == w then
    bump k d
    bump k a
    countDown k b
    pure false
  else pure true

def execCmpb (c : CoreId) (d a b : R5) (s : State) : Result := blockStep c d a b (fun _ => pure ()) (cmpbWord c d a b) s

/-- One cell of SCANL. It consumes the cell and its car; the cdr only moves to d (Table 3.18). -/
def scanlWord (c : CoreId) (d a b : R5) (k : Nat) : Run Bool := do
  let ring ← ringOf k
  let cell ← getR k d
  let key ← getR k a
  let n ← getR k b
  notPoison cell
  trapIf (cell.tag != tCONS && cell.tag != tNIL) .type key n
  if cell.tag == tNIL then pure true
  else
    let va := vaOf cell.val
    let car ← consume c k ring va
    let head ← readBarrier c k ring va (spaceOf cell.val) car (copy := false)
    if head == key then pure true
    else
      let dva := (va + 1) % 2 ^ 60
      let (cdr, _) ← readData c k ring dva false
      let tail ← readBarrier c k ring dva (spaceOf cell.val) cdr (copy := false)
      setR k d tail
      countDown k b
      pure false

def execScanl (c : CoreId) (d a b : R5) (s : State) : Result := blockStep c d a b (checkKey a) (scanlWord c d a b) s

/-! ### STM and LDM (R90, R131, R132) -/

def maskWsel (v : Val) : Bool := bit v 35

/-- Index of the register that mask bit n names. -/
def maskIx (x : BankCtx) (v : Val) (n : Nat) : Nat := if maskWsel v then normalIx (fld v 32 3) n else x.ix n

/-- The lowest bit of a mask. -/
def firstBit (v : Val) : Option Nat := (List.range 32).find? fun n => bit v n

/-- One transfer of STM or LDM: the checks, then the register of the lowest mask bit. -/
def multiStep (c : CoreId) (m a : R5) (move : Nat → Nat → Nat → Nat → Run Unit) (s : State) : Result :=
  .next (s.memInstr c 2 false fun bank => do
    let k := bk c bank
    let mask ← getR k m
    let base ← getR k a
    notPoison mask
    trapIf (!isFix mask) .type base
    legal (fld mask.val 36 28 == 0)
    let x ← getX k
    trapIf (maskWsel mask.val && !(pswRing x.psw == 0 && winTw x.winpos)) .privWsel
    let own (n : Nat) : Bool :=
      bit mask.val n && (maskIx x mask.val n == x.ix m.toNat || maskIx x mask.val n == x.ix a.toNat)
    legal (!(List.range 32).any own)
    match firstBit mask.val with
    | none => pure .next
    | some n =>
      let ring ← ringOf k
      let va ← addrOf k base 0
      move k ring va (maskIx x mask.val n)
      let rest := fix (setBit mask.val n false)
      setR k m rest
      setR k a (advance base)
      pure (if (firstBit rest.val).isNone then .next else .stay))

/-- Store a register as it stands: tag rules of a store, no barrier. -/
def stmMove (c : CoreId) (k ring va ix : Nat) : Run Unit := do
  let w ← getAt k ix
  let x ← translate c k ring .write va
  touch c k x .read
  let s ← get
  checkTarget va (s.see k x.pa x.unc) w
  store k x w

def execStm (c : CoreId) (m a : R5) (s : State) : Result := multiStep c m a (stmMove c) s

/-- Load a register as it stands. -/
def ldmMove (c : CoreId) (k ring va ix : Nat) : Run Unit := do
  let (w, _) ← readData c k ring va false
  update fun s => s.modCtx k fun y => y.put ix w

def execLdm (c : CoreId) (m a : R5) (s : State) : Result := multiStep c m a (ldmMove c) s

/-! ### The record port (R299 to R301) -/

/-- RECB: opens a record of a type from 8000h to FFFFh. -/
def execRecb (c : CoreId) (a : R5) (s : State) : Result :=
  .next (s.instr c 2 true fun b => do
    let k := bk c b
    let w ← getR k a
    let x ← getX k
    notPoison w
    trapIf (!(isFix w && decide (0x8000 ≤ w.val.toNat) && decide (w.val.toNat ≤ 0xFFFF))) .type w
    legal x.openRec.isNone
    update fun s => s.modCtx k fun y => { y with openRec := some ⟨w.val.toNat, [], false⟩ }
    pure .next)

/-- Words that RECWs in the slots of an open load shadow have still to pass to the record port. -/
def State.heldPorts (s : State) (k : Nat) : Nat :=
  match (s.bankOf k).shadow with
  | none => 0
  | some d => (d.held.filter fun h => h == .port).length

/-- RECW: appends a word; it waits while the core's buffer of 64 words is full. -/
def execRecw (c : CoreId) (a : R5) (s : State) : Result :=
  .next (s.instr c 2 true fun b => do
    let k := bk c b
    let w ← getR k a
    let x ← getX k
    match x.openRec with
    | none => raiseTrap .illegalOp
    | some o =>
      let s ← get
      if 64 ≤ (s.coreOf c).recBuf + s.heldPorts k then pure .stay
      else if 32768 ≤ o.words.length then
        update fun s => s.modCtx k fun y => { y with openRec := some { o with trunc := true } }
        pure .next
      else
        update fun s => s.modCtx k fun y => { y with openRec := some { o with words := o.words ++ [w] } }
        effect k .port
        pure .next)

/-- The record that closes, in the bank's name (Tables 14.2, 14.3). -/
def closeRecord (s : State) (k : Nat) (o : OpenRec) : Record :=
  { cls := 3, typ := o.typ, srcid := k, when_ := s.now, wordsF := true, trunc := o.trunc, bg := !s.isFrame k,
    payload := serialise o.words }

/-- Whether the manifest stages a bank's record: within the task's record budget, or in the background part (R300). -/
def recordFits (s : State) (k : Nat) (r : Record) : Bool :=
  match s.taskOf k with
  | some t => decide (t.staged + r.len ≤ t.args.recBudget)
  | none => decide (s.man.bgBytes + r.len ≤ mib)

/-- RECE: closes the record and stages or discards it. -/
def execRece (c : CoreId) (d : R5) (s : State) : Result :=
  .next (s.instr c 2 true fun b => do
    let k := bk c b
    let x ← getX k
    match x.openRec with
    | none => raiseTrap .illegalOp
    | some o =>
      let s ← get
      let r := closeRecord s k o
      update fun s => s.modCtx k fun y => { y with openRec := none }
      if !recordFits s k r then
        effect k (.drop k r.bg)
        setR k d wNil
      else if s.man.st != .opened then setR k d wNil
      else
        effect k (.stage r)
        setR k d wTrue
      pure .next)

end Sys2Proof.Machine
end

