-- ==== Sys2Proof/Machine/Stores.lean ====
section
/-!
DEFINITION. The control stores of the cores (R223, R226, R227): the words of a customer image, the words a core fetches, and the
lockkeeper's load of them.
-/

namespace Sys2Proof.Machine

/-! ### The customer image (R229, log 42) -/

/-- Counts of micro-words and nano-words in the header. -/
def imgMicros (img : List Byte) : Nat := leAt img 0 2
def imgNanos (img : List Byte) : Nat := leAt img 2 2

/-- Header, 32 entries of 8 bytes, micro-words of 3 and nano-words of 24, each little-endian; DESIGN CHOICE (log 42): header bytes 4 to 7
that are not 0 make the size wrong. -/
def imgSizeOk (img : List Byte) : Bool :=
  decide (imgMicros img ≤ 2048) && decide (imgNanos img ≤ 128) && leAt img 4 4 == 0 &&
    img.length == 264 + 3 * imgMicros img + 24 * imgNanos img

def imgCxd (img : List Byte) (n : Nat) : Val := BitVec.ofNat 64 (leAt img (8 + 8 * n) 8)

/-- The user micro-word and the user nano-word at an index of an image. -/
def imgMicroAt (img : List Byte) (i : Nat) : BitVec 24 := BitVec.ofNat 24 (leAt img (264 + 3 * i) 3)
def imgNanoAt (img : List Byte) (i : Nat) : BitVec 192 := BitVec.ofNat 192 (leAt img (264 + 3 * imgMicros img + 24 * i) 24)

/-! ### Micro-words and nano-words (Tables 10.2, 10.4) -/

def microNano (m : BitVec 24) : Nat := m.toNat / 2048 % 4 * 2048 + m.toNat / 8192
def microSeq (m : BitVec 24) : Nat := m.toNat / 256 % 8
def microSarg (m : BitVec 24) : Nat := m.toNat % 256
def nanoTarget (n : BitVec 192) : Nat := (n >>> 112).toNat % 65536
def nanoSys (n : BitVec 192) : Nat := (n >>> 104).toNat % 256

/-! ### Fetching (R223, R226) -/

/-- Where a micro address is fetched from: a ROM address of the match table from its patch RAM word (R226). -/
def Stores.matched (st : Stores) (a : Nat) : Nat :=
  if a < 0x4000 then ((st.pairs.find? fun p => p.1 == a).map Prod.snd).getD a else a

/-- The micro-word at an address, none where no store has a word. -/
def Stores.micro (st : Stores) (a : Nat) : Option (BitVec 24) :=
  let a := st.matched a
  if a < 0x4000 then some (Config.romMicro a)
  else if a < 0x4800 then st.patMicro[a - 0x4000]?
  else if 0x8000 ≤ a ∧ a < 0x8800 then st.userMicro[a - 0x8000]?
  else none

def Stores.nano (st : Stores) (a : Nat) : Option (BitVec 192) :=
  if a < 0x1000 then some (Config.romNano a)
  else if a < 0x1100 then st.patNano[a - 0x1000]?
  else if 0x1800 ≤ a ∧ a < 0x1880 then st.userNano[a - 0x1800]?
  else none

/-- A fetch of a micro-word and of the nano-word it names. -/
def Stores.fetch (st : Stores) (a : Nat) : Option (BitVec 24 × BitVec 192) := do
  let m ← st.micro a
  let n ← st.nano (microNano m)
  some (m, n)

/-- Whether a word of a fetch has the wrong parity (R224). -/
def Stores.badFetch (st : Stores) (a : Nat) : Bool :=
  st.bad.contains (st.matched a) || (st.micro a).any fun m => st.bad.contains (0x10000 + microNano m)

/-! ### Loading (R223, R227) -/

/-- What the lockkeeper loads: the bundle in use and the image it holds. With no bundle in use the match table is empty: ROM microcode
alone (R225, R226). -/
def State.lkStores (s : State) : Stores :=
  let img := s.lk.image
  let of (α : Type) (l : List α) : List α := if s.lk.patch = 1 || s.lk.patch = 2 then l else []
  { pairs := of _ ((Config.matchTable s.lk.patchBytes).take 32)
    patMicro := of _ ((Config.microPatch s.lk.patchBytes).take 2048)
    patNano := of _ ((Config.nanoPatch s.lk.patchBytes).take 256)
    userMicro := (List.range (imgMicros img)).map (imgMicroAt img)
    userNano := (List.range (imgNanos img)).map (imgNanoAt img)
    bad := [] }

/-- The lockkeeper writes the stores of a core. -/
def State.loadStores (s : State) (c : CoreId) : State :=
  let st := s.lkStores
  s.modCore c fun x => { x with stores := st }

end Sys2Proof.Machine
end

