-- ==== Sys2Proof/Machine/Vector.lean ====
section
/-!
DEFINITION. The vector unit (R133 to R137, R179, R180, Tables 5.6 to 5.8).
-/

namespace Sys2Proof.Machine

/-! ### Lanes (R133, Table 3.10) -/

def lanesOf (v : BitVec 512) : List Nat := (List.range 16).map fun e => fld v (32 * e) 32
/-- Elements of n bits, element 0 at the least significant end. -/
def packBits (n : Nat) (l : List Nat) : BitVec 512 := BitVec.ofNat 512 (l.foldr (fun x a => a <<< n + x % 2 ^ n) 0)
def ofLanes (l : List Nat) : BitVec 512 := packBits 32 l
def vword (v : BitVec 512) (k : Nat) : Val := BitVec.ofNat 64 (fld v (64 * k) 64)

def Core.vget (x : Core) (r : R5) : BitVec 512 := mget vecD x.vregs r.toNat
def Core.vset (x : Core) (r : R5) (v : BitVec 512) : Core := { x with vregs := mset vecD x.vregs r.toNat v }

/-! ### One rounded operation under VSTAT (R134) -/

/-- Rounding mode and flush control. -/
structure VMode where
  rm  : Rm
  ftz : Bool
  deriving DecidableEq, Repr

def vmode (vstat : Val) : VMode := ⟨vsRm vstat, vsFtz vstat⟩

def VMode.inp (m : VMode) (a : Nat) : Nat := flush b32 m.ftz a
/-- A result under FTZ. The flush itself raises nothing: the flags are those of the rounded result (log 28). -/
def VMode.out (m : VMode) (r : Nat × Exc) : Nat × Exc := (flush b32 m.ftz r.1, r.2)

def vAdd (m : VMode) (a b : Nat) : Nat × Exc := m.out (fpAdd b32 m.rm (m.inp a) (m.inp b))
def vSub (m : VMode) (a b : Nat) : Nat × Exc := m.out (fpSub b32 m.rm (m.inp a) (m.inp b))
def vMul (m : VMode) (a b : Nat) : Nat × Exc := m.out (fpMul b32 m.rm (m.inp a) (m.inp b))
/-- a ± b × c with one rounding. -/
def vFma (m : VMode) (neg : Bool) (a b c : Nat) : Nat × Exc :=
  m.out (fpFma b32 m.rm (m.inp a) (if neg then fpNeg b32 (m.inp b) else m.inp b) (m.inp c))
/-- x1 × y1 ± x2 × y2 with one rounding. -/
def vDot (m : VMode) (x1 y1 x2 y2 : Nat) (sub : Bool) : Nat × Exc :=
  m.out (fpDot b32 m.rm (m.inp x1) (m.inp y1) (m.inp x2) (m.inp y2) sub)

/-- Minimum or maximum: a NaN yields to the other operand; −0 is below +0. -/
def vExt (m : VMode) (isMax : Bool) (a b : Nat) : Nat × Exc :=
  let x := m.inp a
  let y := m.inp b
  let sig (z : Nat) : Bool := unpack b32 z == .nan true
  let e : Exc := { iv := sig x || sig y }
  match unpack b32 x, unpack b32 y with
  | .nan _, .nan _ => (nanOf b32 x y, e)
  | .nan _, _ => (y, e)
  | _, .nan _ => (x, e)
  | u, v =>
    let less := match fpCmp u v with
      | some .lt => true
      | some .eq => x.testBit 31 && !y.testBit 31
      | _ => false
    (if less == isMax then y else x, e)

/-- Results of several lanes with their exceptions joined. -/
def joinExc (l : List (Nat × Exc)) : List Nat × Exc := (l.map Prod.fst, l.foldl (fun e r => e.or r.2) {})

def laneWise (f : Nat → Nat → Nat × Exc) (a b : List Nat) : List Nat × Exc := joinExc (List.zipWith f a b)

/-! ### Complex elements -/

/-- Lane pairs: real part in the even lane. -/
def pairsOf (l : List Nat) : List (Nat × Nat) := (chunks 2 l.length l).map fun p => (p.getD 0 0, p.getD 1 0)
def ofPairs (l : List (Nat × Nat)) : List Nat := l.flatMap fun p => [p.1, p.2]

/-- Complex product a × b, or a × conj(b), with one rounding per component; the spec says so of VBFLY4 alone (log 28). -/
def cMul (m : VMode) (conj : Bool) (a b : Nat × Nat) : (Nat × Nat) × Exc :=
  let re := vDot m a.1 b.1 a.2 b.2 (!conj)
  let im := if conj then vDot m a.2 b.1 a.1 b.2 true else vDot m a.1 b.2 a.2 b.1 false
  ((re.1, im.1), re.2.or im.2)

def cMulAll (m : VMode) (conj : Bool) (a b : List Nat) : List Nat × Exc :=
  let r := List.zipWith (cMul m conj) (pairsOf a) (pairsOf b)
  (ofPairs (r.map Prod.fst), r.foldl (fun e x => e.or x.2) {})

/-- Accumulate a term, added or subtracted. -/
def accum (m : VMode) (a : Nat) (neg : Bool) (b : Nat) : Nat × Exc := if neg then vSub m a b else vAdd m a b

/-- Add x × s^e to a complex sum, for s = −j, or s = +j when `inv` (R135). -/
def cAccum (m : VMode) (inv : Bool) (e : Nat) (a x : Nat × Nat) : (Nat × Nat) × Exc :=
  let q := if inv then (4 - e % 4) % 4 else e % 4
  -- x × (−j)^q
  let r := match q with
    | 0 => (accum m a.1 false x.1, accum m a.2 false x.2)
    | 1 => (accum m a.1 false x.2, accum m a.2 true x.1)
    | 2 => (accum m a.1 true x.1, accum m a.2 true x.2)
    | _ => (accum m a.1 true x.2, accum m a.2 false x.1)
  ((r.1.1, r.2.1), r.1.2.or r.2.2)

/-- One group of four of the butterfly. -/
def bfly (m : VMode) (inv : Bool) (x : List (Nat × Nat)) : List (Nat × Nat) × Exc :=
  let p (i : Nat) : Nat × Nat := x.getD i (0, 0)
  let r := (List.range 4).map fun n =>
    let s1 := cAccum m inv n (p 0) (p 1)
    let s2 := cAccum m inv (2 * n) s1.1 (p 2)
    let s3 := cAccum m inv (3 * n) s2.1 (p 3)
    (s3.1, (s1.2.or s2.2).or s3.2)
  (r.map Prod.fst, r.foldl (fun e y => e.or y.2) {})

def bflyAll (m : VMode) (inv : Bool) (a b : List Nat) : List Nat × Exc :=
  let p := cMulAll m false a b
  let xs := pairsOf p.1
  let g0 := bfly m inv (xs.take 4)
  let g1 := bfly m inv (xs.drop 4)
  (ofPairs (g0.1 ++ g1.1), (p.2.or g0.2).or g1.2)

/-! ### Reduction (R136) -/

/-- One level of the tree. -/
def treeLevel (f : Nat → Nat → Nat × Exc) (l : List Nat) : List Nat × Exc :=
  joinExc ((pairsOf l).map fun p => f p.1 p.2)

/-- Four levels: the root and the exceptions. -/
def treeReduce (f : Nat → Nat → Nat × Exc) (l : List Nat) : Nat × Exc :=
  let a := treeLevel f l
  let b := treeLevel f a.1
  let c := treeLevel f b.1
  let d := treeLevel f c.1
  (d.1.getD 0 0, ((a.2.or b.2).or c.2).or d.2)

/-! ### Format conversion (Table 5.7) -/

/-- A signed integer of n bits as binary32; exact for int16 and int24. -/
def intLane (n v : Nat) : Nat := (fpOfInt b32 .rne (sx n v)).1

/-- A binary32 lane rounded and saturated to n bits: the integer, its exceptions, and whether SAT is set. -/
def toIntLane (m : VMode) (n a : Nat) : Int × Exc × Bool :=
  let x := m.inp a
  let top : Int := 2 ^ (n - 1) - 1
  match unpack b32 x with
  | .nan _ => (0, { iv := true }, true)
  | .inf neg => (if neg then -top - 1 else top, {}, true)
  | .fin .. =>
    match fpToInt b32 m.rm x with
    | some (v, nx) =>
      if v < -top - 1 then (-top - 1, {}, true)
      else if top < v then (top, {}, true)
      else (v, { nx := nx }, false)
    | none => (0, {}, false)

/-- Lanes converted to integers of n bits, each in a container of w bits. -/
def toInts (m : VMode) (n w : Nat) (l : List Nat) : BitVec 512 × Exc × Bool :=
  let r := l.map (toIntLane m n)
  (packBits w (r.map fun x => intFld x.1 w), r.foldl (fun e x => e.or x.2.1) {}, r.any fun x => x.2.2)

/-- int16 elements from element i on, 16 of them. -/
def shorts (v : BitVec 512) (i : Nat) : List Nat := (List.range 16).map fun e => fld v (16 * (i + e)) 16

def vcvt (m : VMode) (x : Nat) (a b : BitVec 512) : BitVec 512 × Exc × Bool :=
  match x with
  | 0 => (ofLanes ((lanesOf a).map (intLane 24)), {}, false)
  | 1 => (ofLanes ((shorts a 0).map (intLane 16)), {}, false)
  | 2 => (ofLanes ((shorts a 16).map (intLane 16)), {}, false)
  | 3 => toInts m 24 32 (lanesOf a)
  | _ => toInts m 16 16 (lanesOf a ++ lanesOf b)

/-! ### The frame of a vector instruction -/

/-- Whether a bank may use the vector state (R179): VOWN, or ring 0 in the trap window. -/
def mayUseVector (s : State) (c : CoreId) (b : Fin 8) : Bool :=
  let v := (s.coreOf c).vown
  let x := s.ctx (bk c b)
  (bit v 3 && fld v 0 3 == b.val) || (pswRing x.psw == 0 && winTw x.winpos)

/-- VEC_UNAVAIL (R179). -/
def vecAvail (c : CoreId) (b : Fin 8) : Run Unit := do
  let s ← get
  trapIf (!mayUseVector s c b) .vecUnavail (fix (s.coreOf c).vown) (fixN b.val)

/-- A vector instruction: reserved fields, the owner, then the unit's power: one that is off is switched on while the
instruction stalls (R180, R371). -/
def vecBody (c : CoreId) (ok : Bool) (body : Nat → Run Unit) (b : Fin 8) : Run Ending := do
  legal ok
  vecAvail c b
  let s ← get
  if s.domOn (vecDomain c) && !bit s.pwr.busy (vecDomain c) then
    body (bk c b)
    pure .next
  else
    update fun s => s.switch (vecDomain c) true
    pure .stay

/-- Vector operations other than memory accesses may issue into a shadow slot (R103). -/
def vecInstr (c : CoreId) (ok : Bool) (s : State) (body : Nat → Run Unit) : Result := .next (s.instr c 2 ok (vecBody c ok body))
def vecMemInstr (c : CoreId) (ok : Bool) (s : State) (body : Nat → Run Unit) : Result :=
  .next (s.memInstr c 2 false (vecBody c ok body))

/-- Write a vector register and OR the exceptions into VSTAT. -/
def vecWrite (c : CoreId) (d : R5) (v : BitVec 512) (e : Exc) (sat : Bool) : Run Unit :=
  update fun s => s.modCore c fun x => { x.vset d v with vstat := orFlags x.vstat e sat }

/-- An arithmetic operation on vd, va and vb. -/
def vecArith (c : CoreId) (d a b : R5) (ok : Bool) (f : VMode → List Nat → List Nat → List Nat → List Nat × Exc) (s : State) : Result :=
  vecInstr c ok s fun _ => do
    let s ← get
    let x := s.coreOf c
    let r := f (vmode x.vstat) (lanesOf (x.vget d)) (lanesOf (x.vget a)) (lanesOf (x.vget b))
    vecWrite c d (ofLanes r.1) r.2 false

/-! ### Memory (R133) -/

/-- The base and the index word of VLD and VST: b as FIX, or 0 with x = 1. POISON of either comes before the tags (log 29). -/
def vecIndex (k : Nat) (a b : R5) (x : BitVec 3) : Run (Word × Int) := do
  let base ← getR k a
  if x == 1 then pure (base, 0)
  else
    let off ← getR k b
    notPoison base
    notPoison off
    trapIf (!isFix off) .type base off
    pure (base, off.val.toInt)

/-- The eight addresses a, a + step, ... -/
def vecAddrs (k : Nat) (base : Word) (off step : Int) : Run (List Nat) := do
  let va ← addrOf k base off
  pure ((List.range 8).map fun (i : Nat) => intFld ((va : Int) + i * step) 60)

/-- Read the source words, which must be RAWD. A CODE word raises CODE_LOAD, as R70 has it of any load, and not the TYPE that R133
gives any other tag (log 29). -/
def readRaw (c : CoreId) (k ring : Nat) : List Nat → Run (List Nat)
  | [] => pure []
  | va :: vas => do
    let (w, _) ← readData c k ring va false
    trapIf (isPoison w) .poisonUse (fixN va) w
    trapIf (w.tag != tRAWD) .type
    let rest ← readRaw c k ring vas
    pure (w.val.toNat :: rest)

/-- Translate the target words, which must be RAWD or UNBOUND; a CODE word raises CODE_LOAD (R70, log 29). -/
def checkRaw (c : CoreId) (k ring : Nat) : List Nat → Run (List Xl)
  | [] => pure []
  | va :: vas => do
    let x ← translate c k ring .write va
    touch c k x .read
    let s ← get
    let w := s.view k x.pa x.unc
    trapIf (w.tag == tCODE) .codeLoad (fixN va) w
    trapIf (w.tag != tRAWD && w.tag != tUNBOUND) .type (fixN va) w
    let rest ← checkRaw c k ring vas
    pure (x :: rest)

def storeAll (k : Nat) : List (Xl × Val) → Run Unit
  | [] => pure ()
  | (x, v) :: rest => do
    store k x (rawd v)
    storeAll k rest

/-- The post-increment of x = 1. -/
def postInc (k : Nat) (a : R5) (x : BitVec 3) : Run Unit := if x == 1 then do let w ← getR k a; setR k a (advance8 w) else pure ()
where
  advance8 (w : Word) : Word := ⟨w.tag, put (vaOf w.val + 8) 0 60 ||| put (spaceOf w.val) 60 4⟩

def vecMemOk (b : R5) (x : BitVec 3) : Bool := x == 0 || (x == 1 && b == 0)

def execVld (c : CoreId) (d a b : R5) (x : BitVec 3) (s : State) : Result :=
  vecMemInstr c (vecMemOk b x) s fun k => do
    let (base, off) ← vecIndex k a b x
    let vas ← vecAddrs k base off 1
    let ring ← ringOf k
    let ws ← readRaw c k ring vas
    update fun s => s.modCore c fun y => y.vset d (packBits 64 ws)
    postInc k a x

def execVst (c : CoreId) (d a b : R5) (x : BitVec 3) (s : State) : Result :=
  vecMemInstr c (vecMemOk b x) s fun k => do
    let (base, off) ← vecIndex k a b x
    let vas ← vecAddrs k base off 1
    let ring ← ringOf k
    let xs ← checkRaw c k ring vas
    let s ← get
    let v := (s.coreOf c).vget d
    storeAll k (xs.zip ((List.range 8).map (vword v)))
    postInc k a x

def execVlds (c : CoreId) (d a b : R5) (s : State) : Result :=
  vecMemInstr c true s fun k => do
    let (base, step) ← vecIndex k a b 0
    let vas ← vecAddrs k base 0 step
    let ring ← ringOf k
    let ws ← readRaw c k ring vas
    update fun s => s.modCore c fun y => y.vset d (packBits 64 ws)

/-! ### Arithmetic (Table 5.6) -/

def execVadd (c : CoreId) (d a b : R5) (x : BitVec 3) (s : State) : Result :=
  vecArith c d a b (decide (x.toNat < 2)) (fun m _ u v => laneWise (if x == 0 then vAdd m else vSub m) u v) s

/-- Product, or its negation. DESIGN CHOICE (log 28): the product is rounded, and the rounded value is negated. -/
def negIf (neg : Bool) (r : Nat × Exc) : Nat × Exc :=
  match unpack b32 r.1 with | .nan _ => r | _ => (if neg then fpNeg b32 r.1 else r.1, r.2)

def execVmul (c : CoreId) (d a b : R5) (x : BitVec 3) (s : State) : Result :=
  vecArith c d a b (decide (x.toNat < 2)) (fun m _ u v => laneWise (fun p q => negIf (x == 1) (vMul m p q)) u v) s

def execVfma (c : CoreId) (d a b : R5) (x : BitVec 3) (s : State) : Result :=
  vecArith c d a b (decide (x.toNat < 2))
    (fun m w u v => joinExc (List.zipWith (fun p qr => vFma m (x == 1) p qr.1 qr.2) w (u.zip v))) s

def execVcmul (c : CoreId) (d a b : R5) (x : BitVec 3) (s : State) : Result :=
  vecArith c d a b (decide (x.toNat < 2)) (fun m _ u v => cMulAll m (x == 1) u v) s

def execVbfly4 (c : CoreId) (d a b : R5) (x : BitVec 3) (s : State) : Result :=
  vecArith c d a b (decide (x.toNat < 2)) (fun m _ u v => bflyAll m (x == 1) u v) s

def execVmin (c : CoreId) (d a b : R5) (x : BitVec 3) (s : State) : Result :=
  vecArith c d a b (x == 0) (fun m _ u v => laneWise (vExt m false) u v) s

def execVmax (c : CoreId) (d a b : R5) (x : BitVec 3) (s : State) : Result :=
  vecArith c d a b (x == 0) (fun m _ u v => laneWise (vExt m true) u v) s

/-- A scalar FLT of a binary32 value, with what the widening raises. -/
def widen (a : Nat) : Word × Exc := let r := fpConv b32 b64 .rne a; (⟨tFLT, BitVec.ofNat 64 r.1⟩, r.2)

def execVreduce (c : CoreId) (d a : R5) (x : BitVec 3) (s : State) : Result :=
  vecInstr c (decide (x.toNat < 3)) s fun k => do
    let s ← get
    let y := s.coreOf c
    let m := vmode y.vstat
    let op := if x == 0 then vAdd m else vExt m (x == 2)
    let r := treeReduce op (lanesOf (y.vget a))
    setR k d (widen r.1).1
    update fun s => s.modCore c fun y => { y with vstat := orFlags y.vstat r.2 false }

def execVcvt (c : CoreId) (d a b : R5) (x : BitVec 3) (s : State) : Result :=
  vecInstr c (decide (x.toNat < 4) && b == 0 || x == 4) s fun _ => do
    let s ← get
    let y := s.coreOf c
    let r := vcvt (vmode y.vstat) x.toNat (y.vget a) (y.vget b)
    vecWrite c d r.1 r.2.1 r.2.2

/-- VGET (R134, Table 5.9). With FTZ the element that x = 0 widens is flushed like any input (DESIGN CHOICE, log 28). -/
def execVget (c : CoreId) (d a b : R5) (x : BitVec 3) (s : State) : Result :=
  vecInstr c (decide (x.toNat < 2)) s fun k => do
    let i ← getR k b
    notPoison i
    trapIf (!isFix i) .type none i
    let s ← get
    let y := s.coreOf c
    if x == 0 then
      let r := widen ((vmode y.vstat).inp (fld (y.vget a) (32 * fld i.val 0 4) 32))
      setR k d r.1
      update fun s => s.modCore c fun y => { y with vstat := orFlags y.vstat r.2 false }
    else setR k d (rawd (vword (y.vget a) (fld i.val 0 3)))

/-- Replace element i of n bits. -/
def putElem (v : BitVec 512) (n i e : Nat) : BitVec 512 :=
  BitVec.ofNat 512 (v.toNat - (fld v (n * i) n) <<< (n * i) + (e % 2 ^ n) <<< (n * i))

/-- A scalar as binary32, with what the conversion raises (R109). -/
def toB32Exc (w : Word) : Nat × Exc :=
  if w.tag == tMEAS then (measValue w.val, {})
  else if isFix w then fpOfInt b32 .rne w.val.toInt
  else fpConv b64 b32 .rne w.val.toNat

/-- VPUT (R134, R109). With FTZ the element that x = 0 places is flushed like any result, a MEAS value too (DESIGN CHOICE, log 28). -/
def execVput (c : CoreId) (d a b : R5) (x : BitVec 3) (s : State) : Result :=
  vecInstr c (decide (x.toNat < 2)) s fun k => do
    let w ← getR k a
    let i ← getR k b
    notPoison w
    notPoison i
    trapIf (!isFix i || (if x == 0 then !isNumber w else w.tag != tRAWD)) .type w i
    let s ← get
    let y := s.coreOf c
    if x == 0 then
      let r := (vmode y.vstat).out (toB32Exc w)
      vecWrite c d (putElem (y.vget d) 32 (fld i.val 0 4) r.1) r.2 false
    else vecWrite c d (putElem (y.vget d) 64 (fld i.val 0 3) w.val.toNat) {} false

end Sys2Proof.Machine
end

