-- ==== Sys2Proof/Machine/System.lean ====
section
/-!
DEFINITION. Ring 0 control: MFC and MTC (R96, R400), MFB and MTB (R177, R178), ABANDON (R41), the towpath instructions (R339,
R340), TLB and walk-cache invalidation (R198 to R200), cache maintenance and way locking (R208 to R211, R213).
-/

namespace Sys2Proof.Machine

/-! ### Core control registers (Table 4.10) -/

/-- Highest ring that may read, and highest ring that may write; none for "—". None for an index not in the table. -/
def cregRings (i : Nat) : Option (Nat × Option Nat) :=
  match i with
  | 0x00 => some (3, some 0)
  | 0x01 | 0x02 | 0x04 | 0x05 | 0x10 => some (0, some 0)
  | 0x03 => some (3, some 1)
  | 0x06 | 0x1C | 0x1D => some (0, none)
  | 0x11 => some (3, some 3)
  | 0x12 | 0x13 | 0x14 => some (1, some 1)
  | 0x15 | 0x16 => some (1, some 0)
  | i =>
    if 0x08 ≤ i ∧ i ≤ 0x0F then some (0, some 0)
    else if 0x18 ≤ i ∧ i ≤ 0x1B then some (1, some 0)
    else none

/-- A control register of a bank, or the core's copy. -/
def State.cregRead (s : State) (c : CoreId) (k i : Nat) : Val :=
  let x := s.ctx k
  let y := s.coreOf c
  match i with
  | 0x00 => x.psw
  | 0x01 => x.winpos
  | 0x02 => x.spill
  | 0x03 => x.basin
  | 0x04 => x.trapv
  | 0x05 => y.bankwin
  | 0x06 => x.tdepth
  | 0x10 => y.vown
  | 0x11 => y.vstat
  | 0x12 => x.alloc
  | 0x13 => x.alimit
  | 0x14 => x.toalloc
  | 0x15 => x.cmask
  | 0x16 => x.cardbase
  | 0x1C => budgetReg x
  | 0x1D => x.carrymask
  | i =>
    if i < 0x0C then x.tsp.get (i - 8)
    else if i < 0x10 then x.tsl.get (i - 0xC)
    else x.bmat.get (i - 0x18)

/-- The written value as a register holds it: reserved fields read 0 (R8). -/
def BankCtx.cregWrite (x : BankCtx) (i : Nat) (v : Val) : BankCtx :=
  match i with
  | 0x00 => { x with psw := (v &&& 0x11F03) ||| (x.psw &&& 0x20000) }
  | 0x01 => { x with winpos := v &&& winMask }
  | 0x02 => { x with spill := v &&& ~~~0xF }
  | 0x03 => { x with basin := v &&& basinMask }
  | 0x04 => { x with trapv := v &&& 0x0FFFFFFFFFFFFFC0 }
  | 0x12 => { x with alloc := v }
  | 0x13 => { x with alimit := v &&& alimitMask }
  | 0x14 => { x with toalloc := v }
  | 0x15 => { x with cmask := v &&& 0x3FFF }
  | 0x16 => { x with cardbase := v &&& 0x8FFFFFFFFFFFFFFF }
  | i =>
    if 0x08 ≤ i ∧ i < 0x0C then { x with tsp := x.tsp.set (i - 8) (v &&& 0x0FFFFFFFFFFFFFF0) }
    else if 0x0C ≤ i ∧ i < 0x10 then { x with tsl := x.tsl.set (i - 0xC) (v &&& 0x0FFFFFFFFFFFFFFF) }
    else if 0x18 ≤ i ∧ i < 0x1C then { x with bmat := x.bmat.set (i - 0x18) v }
    else x

/-- Write a control register of a bank; a waiting bank whose mask level falls may become ready (R158, R176). -/
def State.cregWrite (s : State) (c : CoreId) (k i : Nat) (v : Val) : State :=
  match i with
  | 0x05 => s.modCore c fun y => { y with bankwin := v &&& 0x107 }
  | 0x10 => s.modCore c fun y => { y with vown := v &&& 0xF }
  | 0x11 => s.modCore c fun y => { y with vstat := v &&& vstatMask }
  | i => (s.modCtx k fun x => x.cregWrite i v).wakeBank k

/-- The rings of an index, or ILLEGAL_OP. -/
def cregCheck (i : Nat) : Run (Nat × Option Nat) :=
  match cregRings i with
  | some r => pure r
  | none => raiseTrap .illegalOp

/-- A register operand that must be FIX; TYPE reports `t3` and `t4`. -/
def needFix (w : Word) (t3 t4 : Option Word) : Run Unit := do
  notPoison w
  trapIf (!isFix w) .type t3 t4

/-- Row 7h opcodes never occupy a shadow slot (R103). -/
def rowSeven (c : CoreId) (s : State) (body : Fin 8 → Nat → Run Unit) : Result :=
  .next (s.instr c 2 false fun b => do
    body b (bk c b)
    pure .next)

def execMfc (c : CoreId) (d : R5) (imm : BitVec 8) (s : State) : Result :=
  rowSeven c s fun b k => do
    let (readers, _) ← cregCheck imm.toNat
    let ring ← ringOf k
    trapIf (decide (readers < ring)) .privCreg
    if imm == 0x11 then vecAvail c b
    let s ← get
    setR k d (fix (s.cregRead c k imm.toNat))

def execMtc (c : CoreId) (d : R5) (imm : BitVec 8) (s : State) : Result :=
  rowSeven c s fun b k => do
    let (_, writers) ← cregCheck imm.toNat
    let ring ← ringOf k
    trapIf (decide (writers.getD 0 < ring)) .privCreg
    if imm == 0x11 then vecAvail c b
    let w ← getR k d
    needFix w none (some (immW imm))
    if writers.isSome then update fun s => s.cregWrite c k imm.toNat w.val

/-! ### The selected bank (Table 7.13, R178) -/

/-- The bank that MFB, MTB and ABANDON act on. -/
def State.selected (s : State) (c : CoreId) (b : Fin 8) : Nat :=
  let v := (s.coreOf c).bankwin
  if bit v 8 then 8 * c.val + fld v 0 3 else bk c b

/-- A location of Table 7.14. -/
inductive Loc where
  | reg (ix : Nat)
  | creg (i : Nat)
  | sill (n : Nat)
  | bstate
  deriving DecidableEq, Repr

def locOf (i : Nat) : Option Loc :=
  if i < 0x98 then some (.reg i)
  else if 0x100 ≤ i ∧ i < 0x200 then (if (cregRings (i - 0x100)).isSome then some (.creg (i - 0x100)) else none)
  else if 0x200 ≤ i ∧ i < 0x240 then some (.sill (i - 0x200))
  else if i = 0x300 then some .bstate
  else none

/-- BSTATE (Table 7.12). -/
def State.bstate (s : State) (k : Nat) : Val :=
  let x := s.ctx k
  put (s.evlvl k) 16 4 ||| put x.st.code 8 3 ||| flag x.frame 3 ||| put x.prio.toNat 0 3

def State.locRead (s : State) (c : CoreId) (k : Nat) : Loc → Word
  | .reg ix => (s.ctx k).at_ ix
  | .creg i => fix (s.cregRead c k i)
  | .sill n => mget wordD (s.ctx k).sill n
  | .bstate => fix (s.bstate k)

/-- The index operand, resolved. -/
def locOperand (k : Nat) (a : R5) : Run Loc := do
  let w ← getR k a
  needFix w w none
  match locOf w.val.toNat with
  | some l => pure l
  | none => raiseTrap .illegalOp

def execMfb (c : CoreId) (d a : R5) (s : State) : Result :=
  rowSeven c s fun b k => do
    ring0 k
    let l ← locOperand k a
    let s ← get
    let t := s.selected c b
    match l with
    | .reg ix => update fun s => s.checkReg t ix
    | _ => pure ()
    let s ← get
    setR k d (s.locRead c t l)

/-! ### BSTATE writes (R177, R45) -/

/-- Banks of the core of bank k. -/
def banksOf (k : Nat) : List Nat := (List.range 8).map fun b => 8 * (k / 8) + b

/-- The exchange of priorities that gives bank k the priority p (R45). -/
def State.exchange (s : State) (k : Nat) (p : BitVec 3) : State :=
  let was := (s.ctx k).prio
  forEach (banksOf k) s fun s j =>
    s.modCtx j fun x => if j = k then { x with prio := p } else if x.prio = p then { x with prio := was } else x

/-- Whether a bank without a frame task that is not idle stands above the lowest frame-task priority of its core (R44). -/
def State.aboveFrames (s : State) (k : Nat) : Bool :=
  (banksOf k).any fun j => !(s.ctx j).frame && (s.ctx j).st != .idle &&
    (banksOf k).any fun i => (s.ctx i).frame && decide ((s.ctx i).prio.toNat < (s.ctx j).prio.toNat)

/-- A write of BSTATE; one that is not permitted is ignored. -/
def State.bstateWrite (s : State) (k : Nat) (v : Val) : State :=
  let x := s.ctx k
  let st := fld v 8 3
  let p : BitVec 3 := BitVec.ofNat 3 v.toNat
  let movesFrame := p != x.prio && (banksOf k).any fun j => (s.ctx j).frame && (s.ctx j).prio == p
  if x.frame || decide (1 < st) || (st == 1 && x.st != .idle) || movesFrame then s
  else
    let s1 := (s.exchange k p).setBankSt k (if st = 0 then .idle else .ready)
    if s1.aboveFrames k then s else s1

def execMtb (c : CoreId) (d a : R5) (s : State) : Result :=
  rowSeven c s fun b k => do
    ring0 k
    let l ← locOperand k a
    let w ← getR k d
    let index ← getR k a
    let s ← get
    let t := s.selected c b
    match l with
    | .reg ix => update fun s => s.modCtx t fun x => x.put ix w
    | .sill n => update fun s => s.modCtx t fun x => x.putSill [(n, w)]
    | .creg i =>
      needFix w index none
      if ((cregRings i).bind Prod.snd).isSome then update fun s => s.cregWrite c t i w.val
    | .bstate =>
      needFix w index none
      update fun s => s.bstateWrite t w.val

/-- ABANDON (R41, R42). -/
def execAbandon (c : CoreId) (s : State) : Result :=
  .next (s.instr c 2 false fun b => do
    let k := bk c b
    ring0 k
    let s ← get
    let t := s.selected c b
    let own := t == k && (s.taskOf k).any fun x => x.phase.isOpen
    update fun s => s.abandonTask t (if (s.ctx t).isOver then 1 else 5)
    pure (if own then .settled else .next))

/-! ### The towpath (R339, R340) -/

def execTpsend (c : CoreId) (d a b : R5) (s : State) : Result :=
  rowSeven c s fun bank k => do
    ring0 k
    let h ← getR k a
    let p ← getR k b
    needFix h h p
    needFix p h p
    let s ← get
    if (s.coreOf c).sendq.length < 4 then
      let m : TpMsg := { op := fld h.val 0 16, tag := BitVec.ofNat 32 (fld h.val 16 32), nw := fld h.val 48 5,
                         addr := p.val.toNat, bank := bank, pound := s.weir.pound }
      update fun s => s.modCore c fun x => { x with sendq := x.sendq ++ [m] }
      setR k d wTrue
    else setR k d wNil

def execTprecv (c : CoreId) (d a b : R5) (s : State) : Result :=
  rowSeven c s fun _ k => do
    ring0 k
    let i ← getR k a
    let r ← getR k b
    needFix i i r
    needFix r i r
    trapIf (decide (7 < i.val.toNat) || decide (1 < r.val.toNat)) .type i r
    let s ← get
    match (s.coreOf c).inbox with
    | [] => setR k d wNil
    | e :: rest =>
      setR k d (e.getD i.val.toNat unbound)
      if r.val == 1 then
        update fun s => ((s.modCore c fun x => { x with inbox := rest }).syncInbox c).fillInbox

/-! ### TLBI, WCI, TLBSYNC (R198 to R200) -/

/-- A core that acknowledges a broadcast at once: it executes nothing now and starts with empty structures (R187, R199). -/
def State.deaf (s : State) (c : CoreId) : Bool :=
  (s.coreOf c).run != .running || bit s.lk.restarting (clusterOf c).val

/-- Send a broadcast to every other core. -/
def State.broadcast (s : State) (c : CoreId) (i : Inval) : State :=
  forEach (allCores.filter fun x => x != c && !s.deaf x) s fun s x => s.modCore x fun y => { y with inval := y.inval ++ [i] }

/-- TLBI and WCI; they wait for every earlier store of the bank. Of every kind, a is an address base and b is FIX (R198), so neither field
is unused in the sense of R100 (log 29). The ring comes before the sub-function (R101, log 29). DESIGN CHOICE (log 29): a
negative span of WCI raises TYPE, and an ASID is compared as the whole value of b. -/
def invalidate (c : CoreId) (a b : R5) (x : BitVec 3) (tlb : Bool) (s : State) : Result :=
  .next (s.issue c 2 false State.behind fun bank => do
    let k := bk c bank
    ring0 k
    legal (x != 3 && x != 7)
    let kind := x.toNat % 4
    let base ← getR k a
    let n ← getR k b
    notPoison base
    needFix n base n
    let va ← addrOf k base 0
    trapIf (!tlb && kind == 0 && decide (n.val.toInt < 0)) .type base n
    let i : Inval := { from_ := c, tlb := tlb, kind := kind, va := va, asid := n.val.toNat, span := n.val.toNat }
    update fun s => s.modCore c fun y => y.invalidate tlb kind va i.asid i.span
    if 4 ≤ x.toNat then update fun s => s.broadcast c i
    pure .next)

def execTlbi (c : CoreId) (a b : R5) (x : BitVec 3) (s : State) : Result := invalidate c a b x true s
def execWci (c : CoreId) (a b : R5) (x : BitVec 3) (s : State) : Result := invalidate c a b x false s

/-- TLBSYNC waits until every broadcast of the core has been performed everywhere. -/
def execTlbsync (c : CoreId) (s : State) : Result :=
  .next (s.instr c 2 false fun b => do
    ring0 (bk c b)
    let s ← get
    pure (if allCores.any fun x => (s.coreOf x).inval.any fun i => i.from_ == c then .stay else .next))

/-! ### Maintenance (R208, R211) -/

/-- Discard the modified data of a line: what the SGRAM devices hold stands (R208). -/
def State.discardLine (s : State) (line : Nat) : State :=
  if s.dirty line then
    let old := (s.dirEnt line).old
    forEach old.zipIdx (s.putDir line ⟨0, []⟩) fun s wi => s.putMem (8 * line + wi.2) wi.1
  else s

inductive Maint where
  | clean | inv | cleanInv
  deriving DecidableEq, Repr

/-- Write a line back, whoever holds it modified; every copy stays, unmodified. -/
def State.cleanLine (s : State) (line : Nat) : State :=
  (s.settle line none).writeBack line

/-- By address: every cache of the device. -/
def State.maintain (s : State) (op : Maint) (line : Nat) : State :=
  match op with
  | .clean => s.cleanLine line
  | .inv => (s.discardLine line).snoop line none
  | .cleanInv => (s.cleanLine line).snoop line none

/-- On one line as the issuing cluster holds it; a removed locked line leaves a hole (R211). -/
def State.maintainOwn (s : State) (cl : ClusterId) (op : Maint) (line : Nat) : State :=
  let mine := s.dirtyIn cl line
  match op with
  | .clean => if mine then s.cleanLine line else s
  | .inv => (if mine then s.discardLine line else s).modL2 cl fun l => l.punch line
  | .cleanInv => (if mine then s.cleanLine line else s).modL2 cl fun l => l.punch line

/-- The line in a slot of an L2, none where the slot is invalid or a hole. -/
def L2.lineAt (l : L2) (set way : Nat) : Option Nat :=
  match l.slots.find? fun k => k.set == set && k.way == way with
  | some k => if k.hole then none else some k.line
  | none => ((mget csetD l.sets set).held.find? fun w => w.way == way).map Way.line

/-- By set and way. -/
def State.maintainSlot (s : State) (cl : ClusterId) (op : Maint) (set way : Nat) : State :=
  match (s.l2Of cl).lineAt set way with
  | some line => s.maintainOwn cl op line
  | none => s

def maintOf (x : Nat) : Maint := match x with | 0 => .clean | 1 => .inv | _ => .cleanInv

/-- Translate for maintenance: right R for CLEAN and LOCKFILL, W for the others. -/
def maintAddr (c : CoreId) (k : Nat) (write : Bool) (va : Nat) : Run Xl :=
  translate c k 0 (if write then .write else .read) va

/-- An instruction that acts on the caches; it waits for a clean in progress as any access does. -/
def cacheInstr (c : CoreId) (s : State) (body : Nat → Run Ending) : Result :=
  .next (s.memInstr c 2 false fun b => do
    ring0 (bk c b)
    body (bk c b))

def execCmaint (c : CoreId) (a b : R5) (x : BitVec 3) (s : State) : Result :=
  cacheInstr c s fun k => do
    legal (decide (x.toNat < 6))
    legal (decide (x.toNat < 3) || a == 0)
    let n ← getR k b
    let op := maintOf (x.toNat % 3)
    if x.toNat < 3 then
      let base ← getR k a
      notPoison base
      needFix n base n
      trapIf (n.val != 0) .type base n
      let va ← addrOf k base 0
      let t ← maintAddr c k (op != .clean) va
      update fun s => s.maintain op (t.pa / 8)
    else
      needFix n none n
      trapIf (decide (2 ^ 15 ≤ n.val.toNat)) .type none n
      update fun s => s.maintainSlot (clusterOf c) op (fld n.val 4 11) (fld n.val 0 4)
    pure .next

/-! ### CRANGE (R209 to R211, R213) -/

/-- The lowest-numbered free slot of a locked way in a set. -/
def L2.freeSlot (l : L2) (set : Nat) : Option Nat :=
  (List.range 16).find? fun w => bit l.lockways w && !(l.slots.any fun k => k.set == set && k.way == w)

/-- LOCKFILL of one line (R210): a copy in an unlocked slot moves; else the slot's own line is evicted and the line comes. -/
def State.lockFill (s : State) (k line : Nat) : State :=
  let cl := clOf k
  let set := line % 2048
  let s0 := s.checkTags cl line
  let l := s0.l2Of cl
  if (l.locked line).isSome then s0
  else if l.slots.any fun x => x.line == line then s0.obtain k cl line true
  else
    match if bit l.ctl 0 then l.freeSlot set else none with
    | none => s0.modL2 cl fun l => { l with lockmiss := satInc 16 l.lockmiss }
    | some w =>
      let s1 :=
        if ((l.setOf line).find line).isSome then s0.modL2 cl fun l => l.putSet line ((l.setOf line).drop line)
        else (s0.spendCredits k 1).fetchLine cl line
      (s1.clearWay k cl set w).modL2 cl fun l => { l with slots := l.slots ++ [⟨set, w, line, false⟩] }

/-- UNLOCK of one line (R210). -/
def State.unlock (s : State) (cl : ClusterId) (line : Nat) : State :=
  s.modL2 cl fun l => (l.slots.filter fun x => x.line == line).foldl L2.unlockSlot l

def State.rangeLine (s : State) (k x line : Nat) : State :=
  match x with
  | 3 => s.lockFill k line
  | 4 => s.unlock (clOf k) line
  | _ => s.maintain (maintOf x) line

/-- One line of CRANGE; the end of each line is a boundary. -/
def execCrange (c : CoreId) (a b : R5) (x : BitVec 3) (s : State) : Result :=
  cacheInstr c s fun k => do
    legal (decide (x.toNat < 5))
    let base ← getR k a
    let n ← getR k b
    notPoison base
    needFix n base n
    trapIf (decide (n.val.toInt < 0)) .type base n
    let s ← get
    let cl := clusterOf c
    if 3 ≤ x.toNat ∧ s.runLock cl then
      update fun s => s.refuseL2 cl
      pure .next
    else if n.val == 0 then pure .next
    else
      let va ← addrOf k base 0
      let t ← maintAddr c k (x != 0 && x != 3) va
      update fun s => s.rangeLine k x.toNat (t.pa / 8)
      let step := 8 - va % 8
      let rest := n.val.toNat - step
      setR k a ⟨base.tag, put (vaOf base.val + step) 0 60 ||| put (spaceOf base.val) 60 4⟩
      setR k b (fixN rest)
      pure (if rest = 0 then .next else .stay)

end Sys2Proof.Machine
end

