-- ==== Sys2Proof/Machine/Custom.lean ====
section
/-!
DEFINITION. Custom opcodes (R224, R231, R232): the checks of CXD[n], and the routine, micro-word by micro-word from the core's stores. What a
nano-word does with the datapath is in codes that the spec does not hold (log 11).
-/

namespace Sys2Proof.Machine

def cxdValid (v : Val) : Bool := bit v 63
def cxdVec (v : Val) : Bool := bit v 62
def cxdMaxRing (v : Val) : Nat := fld v 60 2
def cxdNread (v : Val) : Nat := fld v 56 4
def cxdWrite (v : Val) : Bool := bit v 55
def cxdBound (v : Val) : Nat := fld v 39 9
def cxdEntry (v : Val) : Nat := fld v 0 16

/-- The checks of R231, in order. -/
def cxCheck (c : CoreId) (b : Fin 8) (cxd : Val) : Run Unit := do
  legal (cxdValid cxd)
  let k := bk c b
  let ring ← ringOf k
  trapIf (decide (cxdMaxRing cxd < ring)) .privOp
  let s ← get
  let short := (s.taskOf k).any fun t => decide (t.args.customU < cxdBound cxd)
  trapIf short .privOp none (fix cxd)
  if cxdVec cxd then vecAvail c b

/-- The address of a custom access (R232). -/
def cxAddr (k : Nat) (ops : List Word) (x : Config.CxAccess) : Run Nat := addrOf k (ops.getD x.base.val unbound) x.offset

/-- Tags that a custom read refuses. A CODE word raises TYPE, which R232 gives its tag, and not the CODE_LOAD of R70, which it also names
(DEDUCED, log 29). -/
def cxForbidden (t : Tag) : Bool :=
  (decide (0x10 ≤ t.toNat) && decide (t.toNat ≤ 0x17)) || t == tHDR || t == tFWD || (decide (0x30 ≤ t.toNat) && decide (t.toNat ≤ 0x32))

/-- A read of a routine. -/
def cxLoad (c : CoreId) (k : Nat) (ops : List Word) (x : Config.CxAccess) : Run Word := do
  let va ← cxAddr k ops x
  let ring ← ringOf k
  let t ← translate c k ring .read va true
  let w ← readAt c k t
  trapIf (isPoison w) .poisonUse (fixN va) w
  trapIf (cxForbidden w.tag) .type
  pure w

/-- The write of a routine, by the rules of ST. -/
def cxStore (c : CoreId) (k : Nat) (ops : List Word) (x : Config.CxAccess) (w : Word) : Run Unit := do
  let va ← cxAddr k ops x
  let ring ← ringOf k
  storeChecked c k ring va (spaceOf (ops.getD x.base.val unbound).val) w true

/-- The cause of a TRAP micro-word. -/
def cxCause (sarg : Nat) : Cause := if sarg = 4 then .type else if sarg = 5 then .ovf else .quality

/-- Where sequencing leads from a micro address: on, to END, or to TRAP with its SARG (Table 10.3). -/
inductive CxNext where
  | at_ (a : Nat) (stack : List Nat)
  | end_
  | trap (sarg : Nat)
  deriving DecidableEq, Repr

def cxNext (a : Nat) (stack : List Nat) (m : BitVec 24) (n : BitVec 192) (cond : Bool) : CxNext :=
  match microSeq m with
  | 0 => .at_ (a + 1) stack
  | 1 => if cond then .at_ ((a + (BitVec.ofNat 8 (microSarg m)).toInt).toNat) stack else .at_ (a + 1) stack
  | 2 => .at_ (nanoTarget n) stack
  | 3 => .at_ (nanoTarget n) ((a + 1) :: stack)
  | 4 => match stack with | r :: rest => .at_ r rest | [] => .end_
  | 6 => .trap (microSarg m)
  | _ => .end_

/-- A routine from micro address `a`, one micro-word with its nano-word a cycle: its datapath at END, none when a word with bad parity has
failed the core (R224). The routines that R229 admits end within 254 words and fetch only words that exist. -/
def cxLoop (c : CoreId) (k : Nat) (wa wb : Word) : Nat → Nat → List Nat → Config.CxDp → Run (Option Config.CxDp)
  | 0, _, _, x => pure (some x)
  | fuel + 1, a, stack, x => do
    let s ← get
    let st := (s.coreOf c).stores
    match st.fetch a with
    | none => pure (some x)
    | some (m, n) =>
      if st.badFetch a then
        update fun s => s.declareFailed c 1
        pure none
      else
        let ops := [x.d, x.a, x.b]
        let read ← if Config.nanoReads n then (do let w ← cxLoad c k ops (Config.nanoAccess n x); pure (some w)) else pure none
        if Config.nanoWrites n then cxStore c k ops (Config.nanoAccess n x) (Config.nanoStore n x)
        match cxNext a stack m n (Config.nanoCond n read x) with
        | .at_ a stack => cxLoop c k wa wb fuel a stack (Config.nanoStep n read x)
        | .end_ => pure (some (Config.nanoStep n read x))
        | .trap sarg => do
          trapIf true (cxCause sarg) wa wb
          pure none

/-- Write an operand register if the routine has written it. -/
def setOpt (k : Nat) (r : R5) (wrote : Bool) (w : Word) : Run Unit := if wrote then setR k r w else pure ()

/-- What a routine starts with: its operands, temporaries that hold free values (log 3, log 11), the vector registers when it may use them. -/
def cxStart (free : Nat) (y : Core) (vec : Bool) (d a b : Word) : Config.CxDp :=
  { d := d, a := a, b := b, wrote := 0, mt := (List.range 16).map (Config.temporary free), flags := 0,
    vregs := if vec then (List.range 32).map (mget vecD y.vregs) else [] }

/-- What a routine leaves in the vector unit. -/
def Core.cxVec (y : Core) (e : Config.CxDp) : Core :=
  { y with vregs := (e.vregs.take 32).zipIdx.foldl (fun m v => mset vecD m v.2 v.1) y.vregs, vstat := y.vstat ||| e.flags.setWidth 64 }

/-- The routine of CX n; its results are written at END. -/
def cxRun (c : CoreId) (k : Nat) (cxd : Val) (d a b : R5) : Run Ending := do
  let wd ← getR k d
  let wa ← getR k a
  let wb ← getR k b
  let s ← get
  set { s with free := s.free + 1 }
  match ← cxLoop c k wa wb 256 (cxdEntry cxd) [] (cxStart s.free (s.coreOf c) (cxdVec cxd) wd wa wb) with
  | none => pure .settled
  | some e => do
    setOpt k d (bit e.wrote 0) e.d
    setOpt k a (bit e.wrote 1) e.a
    setOpt k b (bit e.wrote 2) e.b
    if cxdVec cxd then update fun s => s.modCore c fun y => y.cxVec e
    pure .next

def execCx (c : CoreId) (n : BitVec 5) (d a b : R5) (s : State) : Result :=
  let cxd := mget valD s.lk.cxd n.toNat
  .next (s.memInstr c 2 false fun bank => do
    cxCheck c bank cxd
    let s ← get
    if cxdVec cxd && !(s.domOn (vecDomain c) && !bit s.pwr.busy (vecDomain c)) then
      update fun s => s.switch (vecDomain c) true
      pure .stay
    else
      cxRun c (bk c bank) cxd d a b)

end Sys2Proof.Machine
end

