-- ==== Sys2Proof/Machine/Control.lean ====
section
/-!
DEFINITION. Control transfer: branches (R97, R119), calls and returns with the window ring (R87, R88, R92, R94, R400), gates
(R159, R160), TRET (R165), WAITT (R37, R93) and WAITE (R176).
-/

namespace Sys2Proof.Machine

/-! ### Branches -/

/-- Control transfers never issue into a shadow slot (R103). -/
def control (c : CoreId) (len : Nat) (s : State) (body : Nat → Run Ending) : Result :=
  .next (s.instr c len false fun b => body (bk c b))

/-- PC plus a signed displacement in parcels (R97). -/
def relative {n : Nat} (k : Nat) (imm : BitVec n) : Run (BitVec 62) := do
  let x ← getX k
  pure (x.pc + imm.signExtend 62)

def execBr (c : CoreId) (imm : BitVec 13) (s : State) : Result :=
  control c 2 s fun k => do let p ← relative k imm; pure (.jump p)
def execBrl (c : CoreId) (imm : BitVec 27) (s : State) : Result :=
  control c 3 s fun k => do let p ← relative k imm; pure (.jump p)

/-- A branch on whether a register's tag is NIL (R119). -/
def branchOn (c : CoreId) (r : R5) (target : BitVec 62 → BitVec 62) (len : Nat) (onNil : Bool) (s : State) : Result :=
  control c len s fun k => do
    let w ← getR k r
    notPoison w
    let x ← getX k
    pure (if (w.tag == tNIL) == onNil then .jump (target x.pc) else .next)

def execBnil (c : CoreId) (f : BrF) (s : State) : Result := branchOn c (brOf f).1 (brOf f).2.1 (brOf f).2.2 true s
def execBnnil (c : CoreId) (f : BrF) (s : State) : Result := branchOn c (brOf f).1 (brOf f).2.1 (brOf f).2.2 false s
def execBnill (c : CoreId) (d : R5) (imm : BitVec 27) (s : State) : Result :=
  branchOn c d (fun p => p + imm.signExtend 62) 3 true s
def execBnnill (c : CoreId) (d : R5) (imm : BitVec 27) (s : State) : Result :=
  branchOn c d (fun p => p + imm.signExtend 62) 3 false s

/-! ### The window ring (R87, R88, Table 4.5) -/

def spillSz (v : Val) : Nat := fld v 60 4
def spillBase (v : Val) : Nat := 16 * fld v 4 56

/-- WOVF or SPILL_FULL when no window is free; `full` says that none is. -/
def needWindow (k : Nat) (full : Nat → Bool) : Run Unit := do
  let x ← getX k
  let res := winRes x.winpos
  let depth := winSdepth x.winpos
  let room := spillSz x.spill != 0 && decide (depth < 2 ^ spillSz x.spill)
  trapIf (full res) (if room then .wovf else .spillFull) (fixN (spillBase x.spill + 16 * depth))
    (fixN ((winCur x.winpos + 9 - res) % 8))

/-- The check of a return: WUNF or STACK_EMPTY when only one window is resident. -/
def needCaller (k : Nat) : Run Unit := do
  let x ← getX k
  let depth := winSdepth x.winpos
  let only := winRes x.winpos == 1
  let below := fixN ((winCur x.winpos + 7) % 8)
  trapIf (only && depth != 0) .wunf (fixN (spillBase x.spill + 16 * (depth - 1))) below
  trapIf only .stackEmpty (fixN (spillBase x.spill)) below

/-- WINPOS with CUR and RES moved by n, modulo 8. -/
def slide (win : Val) (n : Nat) : Val := setFld (setFld win 0 3 (winCur win + n)) 4 3 (winRes win + n)

/-- Calls and returns are not permitted in the trap window (R92). -/
def notInTrap (k : Nat) : Run Unit := do let x ← getX k; legal (!winTw x.winpos)

/-- Slide to a new window and leave the return address in its e7, the caller's h7. -/
def BankCtx.link (x : BankCtx) (len : Nat) : BankCtx :=
  { x.put (rfIx (winCur x.winpos) 15) (cref (x.pc + BitVec.ofNat 62 len)) with winpos := slide x.winpos 1 }

/-- A call: the operand's own check answers the target, then the window check, then the slide. -/
def callTo (c : CoreId) (len : Nat) (target : Nat → Run (BitVec 62)) (s : State) : Result :=
  control c len s fun k => do
    notInTrap k
    let p ← target k
    needWindow k (· == 7)
    update fun s => s.modCtx k fun x => x.link len
    pure (.jump p)

/-- A target register (R400). -/
def targetReg (a : R5) (k : Nat) : Run (BitVec 62) := do
  let w ← getR k a
  notPoison w
  trapIf (w.tag != tCREF) .type w
  pure (BitVec.ofNat 62 w.val.toNat)

def execCall (c : CoreId) (imm : BitVec 13) (s : State) : Result := callTo c 2 (fun k => relative k imm) s
def execCalll (c : CoreId) (imm : BitVec 27) (s : State) : Result := callTo c 3 (fun k => relative k imm) s
def execCallr (c : CoreId) (a : R5) (s : State) : Result := callTo c 2 (targetReg a) s

/-- JLNK: the target is read before d is written; no window moves. -/
def execJlnk (c : CoreId) (d a : R5) (s : State) : Result :=
  control c 2 s fun k => do
    let p ← targetReg a k
    let x ← getX k
    setR k d (cref (x.pc + 2))
    pure (.jump p)

/-! ### Gates (R159, R160) -/

def gateMax (v : Val) : Nat := fld v 62 2
def gateTarget (v : Val) : Nat := fld v 60 2

def execCallg (c : CoreId) (a : R5) (s : State) : Result :=
  control c 2 s fun k => do
    notInTrap k
    let w ← getR k a
    notPoison w
    trapIf (w.tag != tGATE) .gateTag
    let ring ← ringOf k
    trapIf (decide (gateMax w.val < ring) || decide (ring < gateTarget w.val)) .gateRing
    needWindow k (· == 7)
    update fun s => s.modCtx k fun x =>
      let y := (x.put (rfIx (winCur x.winpos) 14) (fixN ring)).link 2
      { y with psw := setFld y.psw 0 2 (gateTarget w.val) }
    pure (.jump (BitVec.ofNat 62 (4 * vaOf w.val)))

/-- Index of e6 and e7 of the current window. -/
def BankCtx.entryIx (x : BankCtx) (j : Nat) : Nat := rfIx (winCur x.winpos + 7) (8 + j)
def BankCtx.entry (x : BankCtx) (j : Nat) : Word := x.at_ (x.entryIx j)

/-- A return: the window check, the CREF in e7, then the slide. -/
def returnTo (k : Nat) : Run (BitVec 62) := do
  needCaller k
  let x ← getX k
  let e7 ← getAt k (x.entryIx 7)
  notPoison e7
  trapIf (e7.tag != tCREF) .type
  update fun s => s.modCtx k fun x => { x with winpos := slide x.winpos 7 }
  pure (BitVec.ofNat 62 e7.val.toNat)

def execRet (c : CoreId) (A B : R4) (s : State) : Result :=
  control c 1 s fun k => do
    legal (A == 0 && B == 0)
    notInTrap k
    let p ← returnTo k
    pure (.jump p)

def execRetg (c : CoreId) (s : State) : Result :=
  control c 2 s fun k => do
    notInTrap k
    let x ← getX k
    let e6 ← getAt k (x.entryIx 6)
    notPoison e6
    trapIf (!(isFix e6 && decide (pswRing x.psw ≤ e6.val.toNat) && decide (e6.val.toNat ≤ 3))) .privRetg
    let p ← returnTo k
    update fun s => s.modCtx k fun y => { y with psw := setFld y.psw 0 2 e6.val.toNat }
    pure (.jump p)

/-! ### TRET (R165, R169) -/

/-- What rings 1 to 3 may not restore. -/
def tretRefused (now t1 : Val) : Bool :=
  pswRing now != 0 && (decide (pswRing t1 < pswRing now) || decide (pswMl now < pswMl t1) ||
    (pswGuard t1 && !pswGuard now) || pswInlast t1)

def execTret (c : CoreId) (s : State) : Result :=
  .next (s.memInstr c 2 false fun b => do
    let k := bk c b
    let t0 ← getAt k (twIx 0)
    let w1 ← getAt k (twIx 1)
    let w5 ← getAt k (twIx 5)
    let t1 := w1.val
    let t5 := w5.val
    let x ← getX k
    let r := pswRing x.psw
    let d := depthOf x.tdepth r
    notPoison t0
    notPoison w1
    notPoison w5
    trapIf (tretRefused x.psw t1) .privTret
    trapIf (t0.tag != tCREF) .type
    legal (!(winTw t5 && d == 0))
    let back (y : BankCtx) : BankCtx :=
      { y with pc := BitVec.ofNat 62 t0.val.toNat, psw := t1 &&& pswMask, winpos := t5 &&& winMask }
    if winTw t5 then
      let a : Int := (spTop (x.tsp.get r) : Int) - 16 * d
      let s ← get
      match s.run (popWords c k r 16 (a % (2 ^ 60 : Nat)).toNat) with
      | (.error _, s1) =>
        -- a machine check where none can be delivered stops the core (R170, R171)
        set (if pswInlast x.psw || (pswGuard x.psw && winTw x.winpos) then s1.stopCore c b (causeWord .stkFault 15 0 0 0 0)
          else s1.stackFault c b .stkFault x.pc 0 (fix 0) (fix 0) r a)
        pure .settled
      | (.ok ws, s1) =>
        set (s1.modCtx k fun y => { (back y).putTws ws with tdepth := setFld y.tdepth (16 * r) 16 (d - 1) })
        pure .settled
    else
      update fun s => s.modCtx k back
      pure .settled)

/-! ### WAITT and WAITE -/

/-- WAITT: a frame task completes its pound; any other bank waits for the next tick. -/
def execWaitt (c : CoreId) (s : State) : Result :=
  .next (s.instr c 2 false fun b => do
    let k := bk c b
    let s ← get
    if s.isFrame k then
      needWindow k (decide <| 1 < ·)
      update fun s => s.completeTask k ((s.ctx k).pc + 2)
      pure .settled
    else
      update fun s => s.setBankSt k .waitt
      pure .next)

/-- WAITE: retires at once when an event above ML is pending, else the bank waits for one. -/
def execWaite (c : CoreId) (s : State) : Result :=
  control c 2 s fun k => do
    let s ← get
    if pswMl (s.ctx k).psw < s.evlvl k then pure .next
    else
      update fun s => s.setBankSt k .waite
      pure .next

end Sys2Proof.Machine
end

