-- ==== Sys2Proof/Machine/Reserved.lean ====
section
/-!
DEFINITION. Fetching an instruction (R69, R97, R98, R193) and the encodings that are not instructions (R100, R101, Tables 4.11 to
4.14), for the command that reaches one.
-/

namespace Sys2Proof.Machine

/-! ### Fetch -/

/-- Parcel n and START bit n of a CODE word (Table 3.11). -/
def parcelOf (v : Val) (n : Nat) : Nat := fld v (14 * n) 14
def startBit (v : Val) (n : Nat) : Bool := bit v (56 + n)

/-- Fetch the parcel at an address; its START bit must be as expected (R98). -/
def fetchParcel (c : CoreId) (k : Nat) (p : BitVec 62) (start : Bool) : Run Nat := do
  let ring ← ringOf k
  let va := p.toNat / 4
  let x ← translate c k ring .fetch va false (cref p)
  touch c k x .code
  let s ← get
  let w := s.seeCode k x.pa x.unc
  trapIf (isPoison w) .poisonUse (fixN va) w
  trapIf (w.tag != tCODE) .fetchTag (cref p) (xlInfo .fetch x.lvl x.pte)
  trapIf (startBit w.val (p.toNat % 4) != start) .illegalOp (cref p) w
  pure (parcelOf w.val (p.toNat % 4))

/-! ### Decode: which encodings are reserved -/

/-- Fields that must be 0 in an RRR instruction, and the sub-functions it defines. -/
structure RrrForm where
  dZero : Bool
  aZero : Nat → Bool
  bZero : Nat → Bool
  subs  : Nat → Bool

def rrr (dZero aZero bZero : Bool) (xmax : Nat := 0) : Option RrrForm := some ⟨dZero, fun _ => aZero, fun _ => bZero, fun x => decide (x ≤ xmax)⟩

/-- RRR opcodes of Table 4.13. -/
def rrrForm (op : Nat) : Option RrrForm :=
  if op < 0x10 then rrr false false false
  else if 0xE0 ≤ op then rrr false false false
  else match op with
  | 0x20 | 0x21 | 0x22 | 0x23 | 0x25 | 0x2A => rrr false false true
  | 0x24 | 0x29 => rrr false false false
  | 0x2D => rrr true true true 4
  | 0x2E => some ⟨false, fun _ => false, fun x => x != 3 && x != 5, fun _ => true⟩
  | 0x30 | 0x31 | 0x32 | 0x33 => rrr false false false
  | 0x34 | 0x35 => rrr false false true
  | 0x36 | 0x37 => rrr true false true
  | 0x38 => rrr false true true
  | 0x50 | 0x52 => rrr true false true
  | 0x51 => rrr false false true
  | 0x53 | 0x54 | 0x55 | 0x56 => rrr true true true
  | 0x60 | 0x61 => some ⟨false, fun _ => false, fun x => x == 1, fun x => decide (x ≤ 1)⟩
  | 0x62 => rrr false false false
  | 0x63 | 0x64 | 0x65 | 0x66 | 0x67 | 0x6C | 0x6D => rrr false false false 1
  | 0x68 => rrr false false true 2
  | 0x69 | 0x6A => rrr false false false
  | 0x6B => some ⟨false, fun _ => false, fun x => decide (x ≤ 3), fun x => decide (x ≤ 4)⟩
  | 0x72 | 0x73 => rrr false false true
  | 0x74 | 0x75 => some ⟨true, fun _ => false, fun _ => false, fun x => x != 3 && x != 7⟩
  | 0x76 | 0x77 => rrr true true true
  | 0x78 | 0x79 => rrr false false false
  | 0x7A => some ⟨true, fun x => decide (3 ≤ x), fun _ => false, fun x => decide (x ≤ 5)⟩
  | 0x7B => rrr true false false 4
  | _ => none

def RrrForm.fits (r : RrrForm) (f : Nat) : Bool :=
  let d := f >>> 13 % 32
  let a := f >>> 8 % 32
  let b := f >>> 3 % 32
  let x := f % 8
  (!r.dZero || d == 0) && (!r.aZero x || a == 0) && (!r.bZero x || b == 0) && r.subs x

/-- Whether a 2-parcel instruction with opcode and operand field F exists. -/
def twoOk (op f : Nat) : Bool :=
  match op with
  | 0x26 | 0x27 | 0x28 | 0x40 | 0x41 | 0x43 | 0x44 => true
  | 0x2B => decide (f % 8192 ≤ 2)
  | 0x2C | 0x42 | 0x45 => f >>> 13 == 0
  | 0x46 | 0x47 => f % 16 == 0
  | 0x70 | 0x71 => f >>> 8 % 32 == 0
  | op => if 0x10 ≤ op ∧ op < 0x20 then true else (rrrForm op).any fun r => r.fits f

/-- Whether a 1-parcel instruction exists (Table 4.12). -/
def oneOk (p : Nat) : Bool :=
  let op := p >>> 8 % 32
  match op with
  | 0x00 | 0x11 => p % 256 == 0
  | 0x0B => decide (p % 16 ≤ 2)
  | op => decide (op < 0x15)

/-- Whether a 3-parcel instruction exists (Table 4.14). -/
def threeOk (op p1 p2 p0 : Nat) : Bool :=
  let g := (p0 % 16) <<< 28 + p1 <<< 14 + p2
  match op with
  | 0x03 | 0x04 => g >>> 27 == 0
  | op => decide (op < 0x08)

/-- Ring 0 opcodes of row 7h and of row 1h. -/
def ringZeroOp (op : Nat) : Bool := (decide (0x72 ≤ op) && decide (op ≤ 0x7B)) || op == 0x1C || op == 0x1D

/-- Fetch at the PC and decode: a fetch fault, a failed START check, a reserved encoding, or an instruction. -/
def reachInstr (c : CoreId) (k : Nat) : Run Unit := do
  let x ← getX k
  let p0 ← fetchParcel c k x.pc true
  if p0 < 0x2000 then legal (oneOk p0)
  else
    let op := p0 >>> 4 % 256
    let p1 ← fetchParcel c k (x.pc + 1) false
    if p0 < 0x3000 then
      if ringZeroOp op then ring0 k
      legal (twoOk op ((p0 % 16) <<< 14 + p1))
    else
      let p2 ← fetchParcel c k (x.pc + 2) false
      legal (threeOk op p1 p2 p0)

/-- Whether an instruction whose first parcel is p0 may occupy a shadow slot (R103). -/
def slotKind (p0 : Nat) : Bool :=
  if p0 < 0x2000 then !([0x06, 0x07, 0x0D, 0x0F, 0x10, 0x11].contains (p0 >>> 8 % 32))
  else
    let op := p0 >>> 4 % 256
    if p0 < 0x3000 then
      decide (op < 0x1A) || op == 0x1B || op == 0x1D || op == 0x1F ||
      (decide (0x22 ≤ op) && decide (op ≤ 0x2E) && op != 0x28 && op != 0x29 && op != 0x2D) ||
      op == 0x36 || op == 0x37 || op == 0x38 || op == 0x40 || op == 0x41 || op == 0x47 ||
      (decide (0x63 ≤ op) && decide (op ≤ 0x6D))
    else [0x00, 0x01, 0x07].contains op

/-- Whether the next instruction of a bank would occupy a slot of its open shadow: there is no boundary before it (R103, R105). -/
def State.slotNext (s : State) (c : CoreId) (k : Nat) : Bool :=
  (s.bankOf k).shadow.isSome &&
    match (s.run (fetchParcel c k (s.ctx k).pc true)).1, (s.run (reachInstr c k)).1 with
    | .ok p0, .ok _ => slotKind p0
    | .ok p0, .error t => slotKind p0 && t.cause == .privOp
    | .error _, _ => false

/-- Execution reaches a parcel that is no instruction: the load shadow closes and the trap is taken there (R104). Where the
parcels are an instruction the command does not apply. -/
def execReservedOpcode (c : CoreId) (s : State) : Result :=
  .next (match s.executing c with
    | none => s
    | some b =>
      let s1 := s.closeShadow (bk c b)
      if s.stalled c then s
      else if (s1.coreOf c).cur ≠ some b || s1.stalled c then s1
      else match s1.run (reachInstr c (bk c b)) with
        | (.error t, s2) => s2.trapAt c b t
        | (.ok _, _) => s)

end Sys2Proof.Machine
end

