-- ==== Sys2Proof/Machine/CoreEvents.lean ====
section
/-!
DEFINITION. Events at a core: fills (R72 to R75), asynchronous trap entry and switching at a boundary (R172 to R175), budgets,
deadlines and start offsets (R33, R39), the end of a reservation (R124), received broadcasts (R199).
-/

namespace Sys2Proof.Machine

/-- A line arrives for a waiting access, with the errors of `e` (R50, R72 to R76, R215): from the cluster's own L2, from the cluster that
holds it modified, or from the SGRAM devices. -/
def State.fill (s : State) (k line : Nat) (e : ReadErr) : State :=
  let cl := clOf k
  let err := burstMask e.first
  let from_ (s : State) (cl : ClusterId) : Nat := (s.l2Of cl).source none line
  if (s.l2Of cl).holds line then s.checkArrays cl (from_ s cl) line err
  else
    let s1 := (s.spendCredits k 1).settle line (some cl)
    let own := (s1.dirEnt line).owner
    let s2 :=
      if !s1.dirty line then (s1.edcCheck line e.ch e.edc).readLine line e 4 false
      else if own = cl then s1.checkArrays cl (from_ s1 cl) line err
      else (s1.checkArrays own (from_ s1 own) line err).writeBack line
    let s3 := forEach (lineWords line) s2 State.mirrorWord
    if l2On (s.l2Of cl) then
      match (s3.victim cl line).filter (s3.dirtyIn cl) with
      | some v => (s3.placeL2 k cl line).edcCheck v e.wch e.wedc
      | none => s3.placeL2 k cl line
    else s3

/-- Whether the fill of a bank can arrive: its cluster and core run, and the line is one of the tagged store. A cancelled access's fill
still completes (R50). -/
def State.awaits (s : State) (c : CoreId) (line : Nat) : Bool :=
  s.engines && (s.coreOf c).run == .running && !bit s.lk.restarting (clusterOf c).val && s.storeOk (8 * line)

def execFillComplete (c : CoreId) (b : Fin 8) (line : BitVec 33) (e : ReadErr) (s : State) : Result :=
  .next (if s.awaits c line.toNat then s.fill (bk c b) line.toNat e else s)

/-! ### A boundary -/

/-- A ready bank of the core that stands above priority p, the highest of them. -/
def State.rival (s : State) (c : CoreId) (p : Option Nat) : Option (Fin 8) :=
  let ready := allBanks.filter fun b => (s.ctx (bk c b)).st == .ready
  let prio (b : Fin 8) : Nat := (s.ctx (bk c b)).prio.toNat
  let best := ready.find? fun b => ready.all fun b' => decide (prio b' ≤ prio b)
  best.filter fun b => match p with | none => true | some q => decide (q < prio b)

def State.prioOf (s : State) (c : CoreId) (b : Fin 8) : Nat := (s.ctx (bk c b)).prio.toNat

/-- What a boundary would deliver to the running bank: order 5 of Table 7.10. -/
inductive Item where
  | budget
  | tstack (ring depth : Val)
  | event (n : Nat)
  deriving DecidableEq, Repr

def State.nextItem (s : State) (k : Nat) : Option Item :=
  let x := s.ctx k
  let ml := pswMl x.psw
  if pswGuard x.psw && winTw x.winpos then none
  else if x.pendBudget && decide (ml < 14) then some .budget
  else match if ml < 14 then x.pendTstack else none with
    | some (r, d) => some (.tstack r d)
    | none => (s.nextEvent k ml).map .event

/-- An item as a trap to deliver. The spec states no t3 and t4 for BUDGET. -/
def State.itemReq (s : State) : Item → TrapReq
  | .budget => { cause := .budget, level := 14, ring := 0, sync := false, t3 := none, t4 := none }
  | .tstack r d => { cause := .tstackLow, level := 14, ring := 0, sync := false, t3 := some (fix r), t4 := some (fix d) }
  | .event n =>
    { cause := .event, level := rtLevel (s.route n), ring := rtRing (s.route n), sync := false, t3 := some (fixN n),
      t4 := some (fix (s.route n)), evsrc := n }

/-- The item is no longer pending. -/
def State.clearItem (s : State) (k : Nat) : Item → State
  | .budget => s.modCtx k fun x => { x with pendBudget := false }
  | .tstack .. => s.modCtx k fun x => { x with pendTstack := none }
  | .event n => s.delivered n

/-- Whether a trap entry has completed as requested, so that what it delivered is delivered (R182). -/
def State.entered (s : State) (c : CoreId) (k : Nat) (q : TrapReq) : Bool :=
  (s.coreOf c).run == .running && fld ((s.ctx k).tw 2).val 0 8 == q.cause.code && pswMl (s.ctx k).psw == q.level

/-- Deliver an item. TSTACK_LOW that the entry itself pends stays pended. -/
def State.deliver (s : State) (c : CoreId) (b : Fin 8) (i : Item) : State :=
  let k := bk c b
  let q := s.itemReq i
  let s1 := (s.clearItem k i).takeTrap c b q (s.ctx k).pc
  if s1.entered c k q then s1 else s.takeTrap c b q (s.ctx k).pc

/-- Trap entry of a pended condition or an event. No boundary precedes an instruction
that would occupy a shadow slot (R105); before any other an open load shadow closes with its remaining slots empty. A bank above comes
first (Table 7.10). -/
def execTrapEntry (c : CoreId) (s : State) : Result :=
  .next (match s.executing c with
    | none => s
    | some b =>
      let s1 := s.closeShadow (bk c b)
      if s.slotNext c (bk c b) || s.stalled c then s
      else if (s1.coreOf c).cur ≠ some b || s1.stalled c then s1
      else if (s1.rival c (some (s1.prioOf c b))).isSome then s
      else match s1.nextItem (bk c b) with
        | none => s
        | some i => s1.deliver c b i)

/-- A load shadow that still waits is cancelled (R50), and an abandonment that has fallen due takes place. -/
def State.dropShadow (s : State) (k : Nat) : State :=
  let s1 := s.cancelShadow k
  match (s1.ctx k).due with
  | some code => (s1.modCtx k fun x => { x with due := none }).abandonTask k code
  | none => s1

/-- The running bank stops at its next boundary. -/
def State.leaveCore (s : State) (c : CoreId) (b : Fin 8) : State :=
  let s1 := s.dropShadow (bk c b)
  if (s1.coreOf c).cur = some b then s1.modCtx (bk c b) fun x => { x with st := .ready } else s1

/-- The core turns to a bank. -/
def State.takeCore (s : State) (c : CoreId) (b : Fin 8) : State :=
  (s.modCore c fun x => { x with cur := some b, resv := none }).modCtx (bk c b) fun x => { x with st := .running }

/-- A bank switch, or selection into an idle core (R174, R175). -/
def execBankSwitch (c : CoreId) (s : State) : Result :=
  .next (
    if s.engines && (s.coreOf c).run == .running && !bit s.lk.restarting (clusterOf c).val then
      match (s.coreOf c).cur with
      | none => match s.rival c none with | some b => s.takeCore c b | none => s
      | some b =>
        match s.rival c (some (s.prioOf c b)) with
        | some b' => (s.leaveCore c b).takeCore c b'
        | none => s
    else s)

/-! ### Budgets, deadlines, start offsets -/

/-- The active frame task that holds a core. -/
def State.spending (s : State) (c : CoreId) : Option Nat :=
  match s.executing c with
  | some b => if (s.taskOf (bk c b)).any fun t => t.phase == .active then some (bk c b) else none
  | none => none

def execBudgetExhausted (c : CoreId) (s : State) : Result :=
  .next (match s.spending c with
    | some k => if (s.ctx k).isOver then s else s.budgetOut k
    | none => s)

def execGraceExhausted (c : CoreId) (s : State) : Result :=
  .next (match s.spending c with
    | some k => if (s.ctx k).isOver then s.graceOut k else s
    | none => s)

/-- A deadline passes without WAITT: abandonment with code 3 (R33). -/
def execDeadlineReached (id : TaskId) (s : State) : Result :=
  .next (if s.engines && s.runOpen then s.forceAbandon id.val 3 else s)

def execStartOffset (id : TaskId) (s : State) : Result := .next (if s.engines then s.startTask id.val else s)

def execReservationTimeout (c : CoreId) (s : State) : Result :=
  .next (if s.engines then s.modCore c fun x => { x with resv := none } else s)

/-! ### Broadcasts (R199) -/

/-- The oldest broadcast waiting at a core is performed at a boundary; a memory wait of the running bank is cancelled. -/
def State.takeInval (s : State) (c : CoreId) : State :=
  match (s.coreOf c).inval with
  | [] => s
  | i :: rest =>
    let s1 := match (s.coreOf c).cur with | some b => s.dropShadow (bk c b) | none => s
    s1.modCore c fun x => { x.invalidate i.tlb i.kind i.va i.asid i.span with inval := rest }

def execBroadcastInvalidation (c : CoreId) (s : State) : Result :=
  .next (if s.engines && (s.coreOf c).run == .running then s.takeInval c else s)

/-! ### Time -/

/-- The record ports of the cores drain one line of 8 words (R299). -/
def State.drainPorts (s : State) : State :=
  { s with cores := s.cores.foldl (fun m kx => mset coreD m kx.1 { kx.2 with recBuf := kx.2.recBuf - 8 }) s.cores }

end Sys2Proof.Machine
end

