-- ==== Sys2Proof/Machine/Start.lean ====
section
/-!
DEFINITION. Reset and start: the device in reset (R384, R396), the cold start with its boot steps (R361 to R364), patch bundles
(R225), the calibration set (R369), restored images (R320), and the filling of a cluster's positions (R351).
-/

namespace Sys2Proof.Machine

/-! ### The device in reset -/

/-- Everything at its reset value; the vault, the retained black-box queue and the pins' levels stay. -/
def State.inReset (s : State) : State :=
  { State.reset with
      pending := s.pending, free := s.free, out := s.out, vault := { s.vault with erasing := 0 }, bbx := s.bbx,
      pins := { tap := s.pins.tap, perst := s.pins.perst, abortIn := s.pins.abortIn, freezeN := s.pins.freezeN, pfailN := s.pins.pfailN,
                pwrOk := s.pins.pwrOk, boot := s.pins.boot } }

/-! ### Patch bundles (R225) -/

/-- Offsets of Table 10.5. -/
def bSeq (b : List Byte) : Nat := leAt b 12 4
def bLen (b : List Byte) : Nat := leAt b 16 4

def bundleHead (rom : Nat) (b : List Byte) : Bool :=
  leAt b 0 4 == 0x42504C42 && leAt b 4 2 == 1 && leAt b 6 2 == 0x00A1 && decide (leAt b 8 2 ≤ rom) && decide (rom ≤ leAt b 10 2)
    && bLen b % 16 == 0 && decide (bLen b ≤ 131072) && b.length == 64 + bLen b + 96

/-- The first check of R225 that a bundle fails, or its payload. -/
def checkBundle (rom floor : Nat) (b : List Byte) : Except Nat (List Byte) :=
  if !bundleHead rom b then .error 1
  else if !Config.sigOk (b.take (64 + bLen b)) (b.drop (64 + bLen b)) then .error 2
  else if bSeq b < floor then .error 3
  else match Config.decrypt (bSeq b) b with
    | none => .error 4
    | some p => if Config.boundsOk p then .ok p else .error 5

/-- A slot at a start: no bundle, a failed check, or a valid payload with its SEQ. -/
def slotState (rom floor : Nat) : Option Bundle → Option (Except Nat (Nat × List Byte))
  | none => none
  | some b => some (match checkBundle rom floor b.bytes with | .ok p => .ok (b.seq, p) | .error e => .error e)

/-- The failed check that entry 0052h shows for a slot; 0 for a slot without a bundle, for which the spec names no number (DESIGN CHOICE,
log 42). -/
def failedCheck : Option (Except Nat (Nat × List Byte)) → Nat | some (.error e) => e | _ => 0

/-- STEP 3, and the check again at a warm restart (R227): the valid bundle with the higher SEQ is applied; of two with one SEQ, which the
spec does not decide, that of slot A (DESIGN CHOICE, log 42). -/
def State.applyPatch (s : State) : State :=
  let rom := s.lk.romver.toNat
  let a := slotState rom s.vault.floor s.vault.slotA
  let b := slotState rom s.vault.floor s.vault.slotB
  let use (slot seq : Nat) (p : List Byte) : State :=
    ({ s with vault := { s.vault with inUse := slot } }.modLk fun l => { l with patch := slot, patchSeq := seq, patchBytes := p }).log
      0x50 uDevice [slot, seq]
  let rom_ (s : State) (state : Nat) : State :=
    { s with vault := { s.vault with inUse := 0 } }.modLk fun l => { l with patch := state, patchSeq := 0, patchBytes := [] }
  match a, b with
  | some (.ok x), some (.ok y) => if x.1 < y.1 then use 2 y.1 y.2 else use 1 x.1 x.2
  | some (.ok x), _ => use 1 x.1 x.2
  | _, some (.ok y) => use 2 y.1 y.2
  | none, none => rom_ s 0
  | _, _ => (rom_ s 3).log 0x52 uDevice [failedCheck a, failedCheck b]

/-! ### The calibration set (R361, R369) -/

/-- The valid copies that a start finds, and the one it takes: the higher count wins (R361, R368). -/
def validOf {α : Type} (good : BitVec 2) (d : Nat) (x : Option α) : Option α := if bit good d then x else none

def higher {α : Type} (count : α → Nat) : Option α → Option α → Option α
  | some a, some b => some (if count a < count b then b else a)
  | some a, none => some a
  | none, b => b

/-- A calibration set is programmed on each of dies 0 and 1 that works. -/
def Vault.putCal (v : Vault) (c : CalSet) : Vault :=
  { v with cal0 := if bit v.failed 0 then none else some c, cal1 := if bit v.failed 1 then none else some c }

/-- STEP 4: the valid copy with the higher WRCNT comes into force and the other is rewritten from it. TICKOUT and TICKIN wait for a
POUND_CONFIG (R367). -/
def State.loadCal (s : State) (good : BitVec 2) : State :=
  let a := validOf good 0 s.vault.cal0
  let b := validOf good 1 s.vault.cal1
  match higher CalSet.wrcnt a b with
  | none => { s with cal := {} }
  | some c =>
    { s with cal := { valid := true, bytes := c.bytes, wrcnt := c.wrcnt, crc := c.crc, factory := leAt c.bytes 6 2 % 2 == 1,
                      copies := setBit (setBit 0 0 a.isSome) 1 b.isSome },
             vault := s.vault.putCal c }

/-! ### SGRAM and the tagged store (R215, R78, R401) -/

/-- STEPs 5 and 6: training, and the zero-fill. -/
def State.bringMemory (s : State) (a : BootArgs) : State :=
  let cfg := flag true 24 ||| put a.rate.toNat 16 8 ||| flag a.clamshell 8 ||| put (if a.clamshell then 24 else 12) 0 8
  let s1 := { s with memc := { s.memc with clamshell := a.clamshell, cfg := cfg, cfail := a.trainFail, zeroed := true },
                     mem := [], dir := [] }
  forEach ((List.range 24).filter fun c => bit a.trainFail c) s1 fun s c => s.failTriplet (c / 3) c 1

/-! ### Flush images (R319, R320) -/

/-- The valid image a cold start restores: the one with the higher sequence number, and its area. A failed die holds none. -/
def Vault.image (v : Vault) : Option (Nat × Image) :=
  let a := if bit v.failed 2 then none else v.area0
  let b := if bit v.failed 3 then none else v.area1
  match a, b with
  | some x, some y => if x.seq < y.seq then some (1, y) else some (0, x)
  | some x, none => some (0, x)
  | none, some y => some (1, y)
  | none, none => none

/-- What an image holds of the manifest (Table 14.5): the backlog, the commit word with MAN_PT and MAN_DURABLE, the ring configuration. -/
def Image.restored (im : Image) : Manifest :=
  let m := im.man
  { en := m.en, sz := m.sz, thresh := m.thresh, ring := m.ring, ptaddr := m.ptaddr, next := m.next, rbp := m.rbp, pt := m.pt, ptRbp := m.ptRbp,
    durable := m.durable, durEnd := m.durEnd, commits := m.commits, backlog := m.backlog, written := m.durEnd, st := .restored }

/-- STEP 7: the image goes into the mirrored region; an older second image is erased. -/
def State.restoreImage (s : State) : State :=
  match s.vault.image with
  | none => s
  | some (area, im) =>
    let s1 := ((s.modMan fun _ => { im.restored with flushSeq := im.seq, flushArea := area + 1 }).setRegion im.mirBase im.store).syncMan
    let s2 := { s1 with vault := { s1.vault with area0 := if area = 0 then s1.vault.area0 else none,
                                                 area1 := if area = 1 then s1.vault.area1 else none } }
    s2.log 0x42 uDevice [area, im.seq, im.man.next]

/-! ### Cold start (R361, R363, R364) -/

/-- The miscellaneous power domains and the vault dies. PCI Express lanes 8 to 15 have power once the link has trained wider than 8
(R370, R380). -/
def miscDomains : BitVec 240 := 0xFB#240 <<< 232

/-- STEP 2: the valid copy of the boot and patch partition with the higher write count, from which the other is repaired; it counts the
start. None where neither is valid. -/
def Vault.atStart (v : Vault) (good : BitVec 2) : Option Vault :=
  (higher BootCopy.writes (validOf good 0 v.boot0) (validOf good 1 v.boot1)).map fun x =>
    (v.putBoot x).modBoot fun p => { p with boots := p.boots + 1 }

/-- STEPs 1 to 7; the spec gives them no row of their own, so they are taken together (log 36). -/
def State.bootSteps (s : State) (a : BootArgs) : State :=
  let s1 := s.modPwr fun p => { p with on := p.on ||| miscDomains }
  match s1.vault.atStart a.bootGood with
  | none => s1.modLk fun l => { l with step := 2, st := .failed, bootHeld := false }
  | some v =>
    (((({ s1 with vault := v }.applyPatch).loadCal a.calGood).bringMemory a).restoreImage).modLk fun l => { l with step := 7, bootHeld := false }

/-- STEP 1 finds the retained queue damaged: its entries are gone, and their indices are used again. -/
def Bbx.lostQueue (b : Bbx) : Bbx :=
  { b with queued := [], nextIx := match b.entries.getLast? with | some e => e.index + 1 | none => b.oldest }

/-- A cold start; with PFAIL_N low the boot holds at STEP 1 (R392), and while ABORT_IN_N is low the abort of all groups stands (R390). -/
def State.coldStart (s : State) (cause : Nat) (a : BootArgs) : State :=
  let r := s.inReset
  let s1 := { r with pins := { r.pins with pwrOk := true, pfailN := a.pfailLow, boot := a }, smb := { strap := a.smbStrap },
                     bbx := if a.queueGood then r.bbx else r.bbx.lostQueue }
  let s2 := s1.modLk fun l => { l with bootCause := cause, step := 1, bootHeld := a.pfailLow }
  let s3 := (if a.pfailLow then s2 else s2.bootSteps a).syncPermit
  if s3.pins.abortIn then s3.abort 15 2 0 else s3

/-- A cold start that no power good brings: the board's facts are those of the last start (log 36). -/
def State.restartCold (s : State) (cause : Nat) : State := s.coldStart cause { s.pins.boot with pfailLow := s.pins.pfailN }

/-! ### Releasing a cluster's cores (R351, R361, R86) -/

/-- Which physical core serves each position of a cluster: its own when it passes, else the spare once, else none. -/
def fillPositions (pass : BitVec 9) : Nat → Nat → Bool → List (Option Nat)
  | 0, _, _ => []
  | n + 1, k, spare =>
    if bit pass k then some k :: fillPositions pass n (k + 1) spare
    else if spare then some 8 :: fillPositions pass n (k + 1) false
    else none :: fillPositions pass n (k + 1) spare

def positions (pass : BitVec 9) : List (Option Nat) := fillPositions pass 8 0 (bit pass 8)

/-- Every bank of a core as a reset leaves it. -/
def State.resetBanks (s : State) (c : CoreId) : State :=
  forEach allBanks s fun s b => { s with banks := mset bankD s.banks (bk c b) (bankD b.val) }

/-- A position's core after its self-test: it serves the identity, or the identity is lost (R347). -/
def State.placeCore (s : State) (c : CoreId) (phys : Option Nat) (run : CoreRun) : State :=
  match phys with
  | some p => (s.modCore c fun _ => { coreD c.val with phys := p, run := run }).modLk fun l =>
      { l with lostCores := setBit l.lostCores c.val false }
  | none => (s.modCore c fun _ => { coreD c.val with run := .lost }).modLk fun l => { l with lostCores := setBit l.lostCores c.val true }

def State.placeCluster (s : State) (cl : ClusterId) (pass : BitVec 9) (run : CoreRun) : State :=
  let ps := positions pass
  let s1 := forEach ((List.finRange 8).map fun k => (k, ps.getD k.val none)) s fun s kp => s.placeCore (coreAt cl kp.1) kp.2 run
  s1.modLk fun l => { l with spareUsed := setBit l.spareUsed cl.val (!bit pass 8 || ps.contains (some 8)) }

/-- Caches enabled by the lockkeeper before it releases the cores. -/
def ctlEnabled : Val := 0x00FFFF01

/-- Power domains a cluster in service needs: its cores, the L2's way groups, its common logic. -/
def State.powerCluster (s : State) (cl : ClusterId) : State :=
  let ds := (List.range 8).map (fun k => 8 * cl.val + k) ++ [64 + cl.val, 224 + cl.val] ++ (List.range 4).map fun g => 144 + 4 * cl.val + g
  s.modPwr fun p => { p with on := ds.foldl (fun on d => setBit on d true) p.on }

/-- STEPs 8 and 9: self-test results `pass`, one mask of nine cores a cluster; release in guarded mode; LKSTATE = 1. -/
def State.finishBoot (s : State) (pass : List (BitVec 9)) : State :=
  let s1 := forEach allClusters s fun s cl =>
    let s1 := (s.placeCluster cl (pass.getD cl.val 0) .running).powerCluster cl
    forEach (coresOf cl) (s1.modL2 cl fun l => { l with ctl := ctlEnabled }) fun s c =>
      if (s.coreOf c).run = .lost then s.log 0x12 (uCore c) [posOf c, 0] else s.loadStores c
  let s2 := s1.modPwr fun p => { p with on := p.on ||| (0xFFFFFF#240 <<< 200) }
  let s3 := s2.recount.modLk fun l => { l with step := 9, st := .ready }
  ((s3.log 1 uDevice [s3.lk.bootCause, if s3.man.st = .restored then s3.man.flushSeq else 0]).raise evLk).smbSync

/-! ### The commands -/

/-- PWR_OK rises. With a monitor out of range the device stays in reset until PWR_OK falls (R384). -/
def execPowerGood (args : BootArgs) (s : State) : Result :=
  .next (
    if s.pins.pwrOk then s
    else if s.pins.thermtrip && !s.pins.tripFell then s.modPins fun p => { p with pwrOk := true }
    else if args.monitorsOk then s.coldStart 1 args
    else s.modPins fun p => { p with pwrOk := true, railBad := true, thermtrip := false })

/-- PWR_OK falls: reset at once, with no flush (R384). A thermal trip stands until PWR_OK has risen too (R396). -/
def execPwrOkFall (s : State) : Result :=
  .next (let r := s.inReset; r.modPins fun p => { p with pwrOk := false, thermtrip := s.pins.thermtrip, tripFell := s.pins.pwrOk || s.pins.tripFell })

/-- STEP 9 of a boot that is neither held nor stopped. -/
def execBootComplete (pass : List (BitVec 9)) (s : State) : Result :=
  .next (if s.on && s.lk.st == .booting && s.lk.step == 7 && !s.lk.bootHeld && !s.lk.bootStop then s.finishBoot pass else s)

/-- The PCI Express group is reset (R337, R373): MBX registers, the MSI-X table, the host's MBX_WINSEL and the unwritten
responses. Doorbelled commands stay queued. -/
def State.resetPcie (s : State) : State :=
  (s.modMbx fun m =>
    { m with en := false, rspirq := false, rspvec := 0, dbign := 0, slotwr := 0, rspbase := 0, log2n := 0, head := 0, tail := 0,
             rsptaddr := 0, winsel := mset wselD m.winsel 512 0, pcount := 0, pstatus := 0, pop := 0, slotbusy := 0, rspWait := [],
             msix := [], pba := 0 }).modPins fun p => { p with linkUp := false }

/-- The group is reset with black-box entry 0004h, which in a freeze waits for the lockkeeper's clock (R373, R375). -/
def State.regroup (s : State) : State :=
  if s.dbg.frozen then s.resetPcie.modDbg fun d => { d with regroup := true } else s.resetPcie.log 4 uDevice

/-- PERST# asserts or a Hot Reset arrives. Which of the two it is the row does not say: a free value (log 3); after PERST# the link waits for
its release (R362). -/
def execPcieGroupReset (s : State) : Result :=
  .next (
    let (v, s1) := s.fresh
    let s2 := s1.modPins fun p => { p with perst := p.perst || bit v 0 }
    if s.on then s2.regroup else s2)

/-- PERST# is released: a cold start in the failed state or before STEP 9, else a reset of the group only (R364), as while a flush runs or the
part is frozen (log 44). -/
def execPerstRelease (args : BootArgs) (s : State) : Result :=
  .next (
    if !s.on then s.modPins fun p => { p with perst := false }
    else
      let s1 := s.modPins fun p => { p with perst := false }
      if s.dbg.frozen || s.pins.flush == .flushing then s1.regroup
      else match s.lk.st with
        | .failed => s1.coldStart 2 args
        | .booting => s1.coldStart 3 args
        | _ => s1.regroup)

/-- PFAIL_N has been high for 10 ms: a boot held at STEP 1 continues, a stopped boot becomes a cold start (R392). The cause
that its 0001h entry records is open: a free value (log 3). -/
def execPfailHigh10ms (args : BootArgs) (s : State) : Result :=
  .next (
    let s1 := s.modPins fun p => { p with pfailN := false }
    if !s.on then s
    else if s.lk.bootStop then let (v, s2) := s1.fresh; s2.coldStart v.toNat { args with pfailLow := false }
    else if s.lk.bootHeld then ((s1.modPins fun p => { p with boot := args }).bootSteps args).syncPermit
    else s)

/-- Tj reaches 115 °C: the device enters reset, or stays in it, with THERMTRIP_N asserted until PWR_OK falls and rises (R396). -/
def execThermtrip (s : State) : Result :=
  .next (let r := if s.on then s.inReset else s; r.modPins fun p => { p with thermtrip := true, tripFell := false })

end Sys2Proof.Machine
end

