-- ==== Sys2Proof/Machine/Delivery.lean ====
section
/-!
DEFINITION. Delivery to the host (R309 to R311), the PCI Express link, and the power-fail flush (R318, R319, R392).
-/

namespace Sys2Proof.Machine

def execManifestBatch (s : State) : Result := s.engDo State.batch

/-- The link comes up: a resumption (R311), and the responses that waited (R337). Lanes above the trained width have no power (R380). -/
def execPcieLinkUp (width speed : Nat) (s : State) : Result :=
  .next (
    if s.on && !s.dbg.frozen && !s.pins.perst && !s.pins.linkUp then
      (((s.modPins fun p => { p with linkUp := true, width := width, speed := speed }).modPwr fun p =>
        { p with on := setBit p.on 234 (decide (8 < width)) }).resumeDelivery).drain
    else s)

def execPcieLinkDown (s : State) : Result := .next (if s.on then s.modPins fun p => { p with linkUp := false } else s)

/-! ### The power-fail flush -/

/-- The flush area of a flush that starts now (R319). -/
def Vault.flushTarget (v : Vault) : Nat :=
  if !bit v.failed 2 && v.area0.isNone then 1 else if !bit v.failed 3 && v.area1.isNone then 2 else 0

/-- Domains that go dark within 100 µs: cores, vector units, way groups, cluster logic, and the SGRAM channels that the flush does not
read: all of them with nothing to flush, else those of failed triplets (Table 14.5). -/
def State.flushDark (s : State) : BitVec 240 :=
  let unused := (List.range 24).filter fun c => s.man.st != .opened || bit s.memc.tfail (c / 3)
  unused.foldl (fun m c => setBit m (200 + c) true) ((BitVec.ofNat 240 (2 ^ 176 - 1)) ||| (0xFF#240 <<< 224))

/-- Every link goes DOWN: its lanes are electrically idle. -/
def State.allLinksDown (s : State) : State :=
  forEach (List.range 24) s fun s n => if (s.linkOf n).st = .down then s else s.linkDown n

/-- Every core halts; a stopped core acknowledges its broadcasts at once (R199). -/
def State.haltCores (s : State) : State :=
  forEach allCores s fun s c => if (s.coreOf c).run = .running then s.modCore c fun x => { x with run := .halted, inval := [] } else s

/-- The flush starts; the commit of a tick before it is performed first (R30, R304). Only an OPEN manifest is flushed; MAN_STAT shows FLUSHING
in every case, as the rest of Table 14.5 has it (R318). LKSTATE stays 4 in the failed state, which only a cold start ends (R355, R363). -/
def State.startFlush (s : State) : State :=
  let s1 := s.markStop.performCommit.haltCores.allLinksDown
  let s2 := s1.modPwr fun p => { p with on := p.on &&& ~~~s1.flushDark, busy := p.busy &&& ~~~s1.flushDark }
  let s3 := s2.modMan fun m => { m with st := .flushing, target := if m.st = .opened then s.vault.flushTarget else 0 }
  ((s3.modLk fun l => { l with st := if l.st = .failed then .failed else .flushing }).modPins fun p => { p with flush := .flushing }).log 0x40 uDevice
    [s3.man.backlogBytes]

/-- A freeze that qualified in the REFCLK period of PFAIL_N is ignored: the flush proceeds (R391). -/
def State.unfreeze (s : State) : State :=
  match s.dbg.since with
  | some (n, up) =>
    if s.dbg.frozen && n == s.pins.since then
      (s.modDbg fun d => { d with frozen := false, since := none }).modPins fun p => { p with linkUp := up }
    else s
  | none => s

/-- PFAIL_N qualifies: PERMIT low and ABORT_OUT_N asserted; then the flush, or the boot stops (R392), which a boot held for the same low
level does not. Not honoured during a freeze (R374). -/
def execPfailQualified (s0 : State) : Result :=
  .next (
    let s := s0.unfreeze
    let s1 := s.modPins fun p => { p with pfailN := true }
    if !s.on || s.dbg.frozen then s1
    else if s.dbg.held || s.pins.flush != .none then s1.syncPermit
    else
      let s2 := (s1.modSil fun x => { x with src := 5 }).syncPermit
      if s.lk.st = .booting && s.lk.bootHeld && s.pins.pfailN then s2
      else if s.lk.st = .booting then (s2.modLk fun l => { l with bootStop := true }).log 0x40 uDevice [0]
      else s2.startFlush.syncPermit)

/-- Every queued black-box entry is programmed (R359). -/
def programAll : Nat → Bbx → Bbx
  | 0, b => b
  | n + 1, b => if b.queued.isEmpty then b else programAll n b.program

/-- The backlog is read from the mirrored region and programmed; the image header is programmed last (Table 14.5). -/
def State.writeImage (s0 : State) : State :=
  let m := s0.man
  if m.st = .flushing ∧ 0 < m.target then
    let s := s0.readBacklog
    let seq := m.flushSeq + 1
    let im : Image := ⟨seq, { m with st := .opened, staged := [], toStore := [], lkHeld := [], lkBytes := 0, inCommit := none }, s.memc.mirBase,
      m.backlog.flatMap s.entryAt⟩
    let v := if m.target = 1 then { s.vault with area0 := some im } else { s.vault with area1 := some im }
    ({ s with vault := v }.modMan fun m => { m with flushSeq := seq, flushArea := m.target }).log 0x41 uDevice
      [m.target - 1, seq, m.backlogBytes]
  else s0

/-- A cold start after a flush; its 0001h cause is open: a free value (log 3). -/
def State.afterFlush (s : State) : State := let (v, s1) := s.fresh; s1.restartCold v.toNat

/-- The flush ends; with PFAIL_N already high the device then performs a cold start (R318). -/
def execFlushImageComplete (s : State) : Result :=
  .next (
    if s.on && s.pins.flush == .flushing then
      let s1 := s.writeImage
      let s2 := { s1 with bbx := programAll s1.bbx.queued.length s1.bbx }.modPins fun p => { p with flush := .done }
      if s.pins.pfailN then s2 else s2.afterFlush
    else s)

def execPfailRelease (s : State) : Result :=
  .next (
    let s1 := s.modPins fun p => { p with pfailN := false }
    if s.on then (if s.pins.flush = .done then s1.afterFlush else s1.syncPermit) else s1)

/-- The erase of a restored image finishes (R320). -/
def execImageEraseComplete (s : State) : Result :=
  .next (
    if s.on && !s.dbg.frozen then
      let v := s.vault
      { s with vault := { v with area0 := if bit v.erasing 0 then none else v.area0,
                                 area1 := if bit v.erasing 1 then none else v.area1, erasing := 0 } }
    else s)

end Sys2Proof.Machine
end

