-- ==== Sys2Proof/Machine/Recovery.lean ====
section
/-!
DEFINITION. Recovery (chapter 16): core failures, spare takeover, lost cores, cluster restart, warm restart, vault dies and the
black box; and the start of a run (R36), which AUTORUN repeats.
-/

namespace Sys2Proof.Machine

/-! ### Starting a run (R36, R225, R270, R316, R329, R369, R378) -/

/-- Why RUN_START is refused; the spec gives the causes no order (log 37). -/
def State.runStartErr (s : State) : Option Err :=
  if s.weir.runSt ≠ .stopped then some .runActive
  else if s.dbg.held then some .notReady
  else if s.dbg.level = 2 then some .denied
  else if s.lk.patch = 3 then some .patchFail
  else if s.weir.len = 0 || !s.cal.valid || s.cores.any fun kc => kc.2.run == .halted then some .notReady
  else if !s.sil.armed then some .guardUnarmed
  else if s.man.st ≠ .opened then some .manClosed
  else none

/-- C + 0 of a task that has not yet had its own first pound: the pound before the run's first (R38). The fraction is open: a
free value (log 3). -/
def State.stampCarry (s : State) (t : Task) (pound : BitVec 48) : State :=
  let (v, s1) := s.fresh
  s1.wr t.args.carryBase (timeW (timeVal pound (fld v 0 16)))

/-- The run is STARTING: its first pound is opened by the second tick; the policy is read (Table 16.3); the counts of the last
run clear (Table 2.19). -/
def State.beginRun (s : State) : State :=
  let first := s.weir.pound + 2
  let s1 := (s.setRun .starting 0).modWeir fun w => { w with first := first, startIn := 2 }
  let s2 := forEach (s1.weir.tstat.map Prod.fst) s1 fun s id =>
    s.modTstat id fun x => { x with hwm := 0, abcnt := 0, lastcause := 0, recdrop := 0 }
  let s3 := forEach (s2.weir.tasks.filter fun t => !t.begun) s2 fun s t => s.stampCarry t (first - 1)
  (s3.modLk fun l => { l with runDegrade := l.degrade, runAutorun := l.autorun }).powerDeclared

/-! ### Core failures (R341, R343) -/


/-- Cause 3: an abandonment is due and no boundary has come. -/
def execAbandonBoundaryTimeout (c : CoreId) (s : State) : Result :=
  s.engDo fun s =>
    match (s.coreOf c).cur with
    | some b => if (s.ctx (bk c b)).due.isSome then s.declareFailed c 3 else s
    | none => s

/-- Cause 4: a bank that holds the core reaches no boundary for 4,096 cc. -/
def execHangTimeout (c : CoreId) (s : State) : Result :=
  s.engDo fun s => if (s.coreOf c).cur.isSome then s.declareFailed c 4 else s

/-- Cause 5: a broadcast is not acknowledged within its bound. -/
def execInvalidationAckTimeout (c : CoreId) (s : State) : Result :=
  s.engDo fun s => if (s.coreOf c).inval.isEmpty then s else s.declareFailed c 5

/-! ### Loading banks from the tick snapshot (R86, R345, R346) -/

/-- A frame bank with the registers of R86 as the last commit saw them, and with the ALLOC that a spare receives (R155); the rest comes from
its carry area. -/
def frameBank (fresh snap old : BankCtx) (alloc : Val) : BankCtx :=
  { fresh with
      spill := snap.spill, trapv := snap.trapv, tsp := snap.tsp, tsl := snap.tsl, cmask := snap.cmask, bmat := snap.bmat,
      cardbase := snap.cardbase, toalloc := snap.toalloc, alloc := alloc, frame := true, carrymask := old.carrymask, st := .waitt }

/-- A bank without a frame task after its core has been lost (R346): idle, in ring 0 at mask level 15 in guarded mode, at
the CREF of vector entry 0, sill word 2 NIL; with the ALLOC that a spare receives (R155). -/
def idleBank (fresh snap : BankCtx) (alloc : Val) (pc : BitVec 62) : BankCtx :=
  { fresh with
      spill := snap.spill, trapv := snap.trapv, tsp := snap.tsp, tsl := snap.tsl, cmask := snap.cmask, bmat := snap.bmat,
      cardbase := snap.cardbase, toalloc := snap.toalloc, alloc := alloc, psw := 0x10F00, pc := pc, sill := mset wordD [] 2 wNil }

/-- The PC a lost bank is left at; an entry that cannot be read, or is no CREF, leaves it open: a free value (log 3). -/
def State.entryPc (s : State) (c : CoreId) (k : Nat) : BitVec 62 × State :=
  match s.run (readVector c k 0) with
  | (.ok v, _) => (v, s)
  | (.error _, _) => let (v, s1) := s.fresh; (v.setWidth 62, s1)

/-- Load a bank that a recovery restarts; `prio` is the priority it has. A spare receives ALLOC too, as the last completed pound left it
(R155). A lost background bank gets its record. -/
def State.reloadBank (s : State) (c : CoreId) (b : Fin 8) (prio : BitVec 3) (spare : Bool) : State :=
  let k := bk c b
  let old := s.ctx k
  let snap := mget ctxD s.lk.snap k
  let fresh : BankCtx := { (bankD b.val).x with prio := prio }
  let alloc := if spare then snap.alloc else 0
  if s.isFrame k then
    (s.modBank k fun _ => { x := frameBank fresh snap old alloc }).modTask k fun t => { t with restart := true, guarded := true }
  else
    let s1 := s.modBank k fun _ => { x := idleBank fresh snap alloc 0 }
    let (pc, s2) := s1.entryPc c k
    (s2.modCtx k fun x => { x with pc := pc }).stageLost k 0

/-- What a core that takes an identity starts with: loaded stores (R227), empty TLBs, no vector owner, undefined vector registers (R180,
R187). The identity's inbox stays (R340). -/
def State.freshCore (s : State) (c : CoreId) (run : CoreRun) : State :=
  ((s.modCore c fun x => { coreD c.val with phys := x.phys, inbox := x.inbox, run := run }).loadStores c).loseVector c

/-- The L2 reads a failed core's modified L1 and victim lines back. Which of them it cannot read is open, a free value each (log 3): those
are poisoned (Table 16.2, R214). -/
def State.readBack (s : State) (c : CoreId) : State :=
  let cl := clusterOf c
  let s1 := forEach ((s.l2Of cl).dirtyAt (posOf c)) s fun s line =>
    let (v, s1) := s.fresh
    if bit v 0 then s1.loseLine cl 3 line else s1.settle line (some cl)
  s1.modL2 cl fun l => l.emptyL1 (posOf c) true true

/-- SPARE_TAKEOVER: the spare is mapped and loaded; it is not yet released (Table 16.2). -/
def State.takeover (s : State) (c : CoreId) : State :=
  let cl := (clusterOf c).val
  if (s.coreOf c).run != .failed || bit s.lk.restarting cl || !s.lk.claims.any fun k => k.core == c then s
  else
    let s1 := ((s.readBack c).modCore c fun x => { x with phys := 8 }).freshCore c .inReset
    let s2 := s1.modLk fun l => { l with spareUsed := setBit l.spareUsed cl true, claims := l.claims.filter fun k => k.core != c }
    let s3 := forEach allBanks (s2.remapPower c) fun s b => s.reloadBank c b (s.ctx (bk c b)).prio true
    if s3.weir.runSt = .stopped then s3 else s3.powerDeclared

def execSpareTakeover (c : CoreId) (s : State) : Result := s.engDo fun s => s.takeover c

/-- The first pound in which a task of a released core can start: the next one once every task of the core has ended this one (R344). -/
def State.resumption (s : State) (c : CoreId) : BitVec 48 :=
  let ts := s.weir.tasks.filter fun t => t.args.id.val / 8 == c.val
  if s.runOpen && !ts.isEmpty && ts.all (fun t => t.phase != .waiting) then s.weir.pound + 1 else s.weir.pound

/-- The spare is released: entry 0011h and EV[448] (Table 16.2). After HALT_ALL it is released halted (R329). -/
def execSpareRelease (c : CoreId) (s : State) : Result :=
  s.engDo fun s =>
    let x := s.coreOf c
    if x.run == .inReset && x.phys == 8 && !bit s.lk.restarting (clusterOf c).val && s.lk.st != .booting then
      ((s.modCore c fun x => { x with run := if s.mbx.halted then .halted else .running }).log 0x11 (uCore c)
        [posOf c, 8, (s.resumption c).toNat]).raise evLk
    else s

/-- Withdraw every frame task of a core as lost, with a reason. -/
def State.loseTasks (s : State) (c : CoreId) (reason : Nat) : State :=
  forEach (s.tasksOfCore c) s fun s id => s.loseTask id reason

/-- A failed core without a spare is lost (R347). -/
def State.loseCore (s : State) (c : CoreId) : State :=
  let n := (s.tasksOfCore c).length
  let s1 := ((s.readBack c).modCore c fun x => { x with run := .lost }).modLk fun l => { l with lostCores := setBit l.lostCores c.val true }
  ((s1.loseTasks c 2).log 0x12 (uCore c) [(s.coreOf c).phys, n]).raise evLk

def execCoreLost (c : CoreId) (s : State) : Result :=
  s.engDo fun s =>
    if (s.coreOf c).run == .failed && s.spareGone c && !s.lk.claims.any fun k => k.core == c then s.loseCore c else s

/-- The lockkeeper withdraws the frame tasks of a core that stopped in guarded mode while a run was not STOPPED (R342). -/
def execLockupWithdraw (c : CoreId) (s : State) : Result :=
  s.engDo fun s =>
    if (s.coreOf c).run == .lockup && bit s.lk.lockups c.val then
      (s.loseTasks c 3).modLk fun l => { l with lockups := setBit l.lockups c.val false }
    else s

/-! ### Cluster restart (R350 to R352) -/

/-- A cluster restart begins: tasks abandoned, modified lines poisoned, the cluster's reset group reset. -/
def State.restartCluster (s : State) (cl : ClusterId) (trigger : Nat) : State :=
  let ids := (coresOf cl).flatMap s.tasksOfCore
  let s1 := forEach ids s fun s id => s.abandonTask id 4
  let lines := (s1.dir.filter fun kd => kd.2.owner == cl && !kd.2.old.isEmpty).map Prod.fst
  let s2 := forEach lines s1 fun s line => (s.poisonLine line).logCount 0x24 (uTriplet (tripOf (8 * line))) [2, 8 * line]
  let s3 := forEach (coresOf cl) s2 fun s c => s.modCore c fun x => { coreD c.val with phys := x.phys, inbox := x.inbox, run := .inReset }
  let s4 := s3.modL2 cl fun l => { lockways := l.lockways, slots := l.slots, tctx := l.tctx }
  let s5 := s4.modLk fun l =>
    { l with restarting := setBit l.restarting cl.val true, trigger := mset natD l.trigger cl.val trigger,
             claims := l.claims.filter fun k => clusterOf k.core != cl,
             lockups := (coresOf cl).foldl (fun m c => setBit m c.val false) l.lockups }
  (if s5.lk.runDegrade then s5 else s5.orderlyStop 0).smbSync

def execClusterRestart (cl : ClusterId) (trigger : BitVec 3) (s : State) : Result :=
  s.engDo fun s =>
    if 1 ≤ trigger.toNat ∧ trigger.toNat ≤ 4 ∧ bit s.lk.restarting cl.val = false then s.restartCluster cl trigger.toNat else s

/-- A core is declared failed; a spare that fails while it takes over an identity makes its cluster restart (R348). -/
def execCoreFailed (c : CoreId) (cause : BitVec 3) (s : State) : Result :=
  s.engDo fun s =>
    let x := s.coreOf c
    if cause = 0 || cause = 7 then s
    else if x.run == .inReset && x.phys == 8 then (if bit s.lk.restarting (clusterOf c).val then s else s.restartCluster (clusterOf c) 3)
    else s.declareFailed c cause.toNat

/-- Refill of the locked slots; whether a slot's tag survived is open: a free value each (R351, log 3). -/
def State.refillSlots (s : State) (cl : ClusterId) : State :=
  let r := (s.l2Of cl).slots.foldl (fun (a : List LockSlot × Nat × State) k =>
    let (v, s1) := a.2.2.fresh
    if bit v 0 then (a.1 ++ [{ k with hole := false }], a.2.1, s1) else (a.1, a.2.1 + 1, s1)) ([], 0, s)
  r.2.2.modL2 cl fun l => { l with slots := r.1, lockmiss := satInc 16 l.lockmiss r.2.1 }

/-- HALTED is in force while a core remains halted (R329). -/
def State.syncHalted (s : State) : State :=
  if s.cores.any fun kc => kc.2.run == .halted then s else (s.modMbx fun m => { m with halted := false }).smbSync

/-- The restarted cluster is released; bank b has priority b (R45). -/
def State.releaseCluster (s : State) (cl : ClusterId) (pass : BitVec 9) : State :=
  let trig := mget natD s.lk.trigger cl.val
  let inboxes := (coresOf cl).map fun c => (c, (s.coreOf c).inbox)
  let had := (coresOf cl).filter fun c => (s.coreOf c).phys == 8
  let s0 := s.placeCluster cl pass .running
  let has := (coresOf cl).filter fun c => (s0.coreOf c).phys == 8
  let s1 := forEach has (forEach had s0 State.remapPower) State.remapPower
  let s2 := forEach inboxes s1 fun s ci => s.modCore ci.1 fun x => { x with inbox := ci.2 }
  let s3 := (s2.refillSlots cl).modL2 cl fun l => { l with ctl := ctlEnabled }
  let lost := (coresOf cl).filter fun c => (s3.coreOf c).run == .lost
  let s4 := forEach (coresOf cl) s3 fun s c =>
    if lost.contains c then s.loseCore c
    else forEach allBanks (s.freshCore c .running) fun s b => s.reloadBank c b (BitVec.ofNat 3 b.val) false
  let s5 := s4.modLk fun l => { l with restarting := setBit l.restarting cl.val false, trigger := mset natD l.trigger cl.val 0 }
  let mask := lost.foldl (fun a c => a + 2 ^ posOf c) 0
  ((s5.log 3 (uCluster cl) [trig, mask]).raise evLk).syncHalted

/-- The answer of a CLUSTER_RESET that waits for its cluster, or of DEVICE_RESET. -/
def State.answerDeferred (s : State) (op unit : Nat) : State :=
  let due (d : Deferred) : Bool := d.op == op && d.unit == unit
  forEach (s.lk.deferred.filter due) (s.modLk fun l => { l with deferred := l.deferred.filter fun d => !due d }) fun s d =>
    s.answer d.src op .ok

def execClusterRelease (cl : ClusterId) (pass : BitVec 9) (s : State) : Result :=
  s.engDo fun s =>
    if bit s.lk.restarting cl.val then
      let s1 := s.releaseCluster cl pass
      if mget natD s.lk.trigger cl.val = 4 then s1.answerDeferred 0x0C01 cl.val else s1
    else s

/-! ### Warm restart (R353 to R355) -/

/-- A trigger of R353: the restart begins, begins again once, or ends in the failed state. Of the held state only DEVICE_RESET is a way out
(R375). -/
def State.warmTrigger (s : State) (t : Nat) : State :=
  if !s.on || s.dbg.frozen || (s.dbg.held && t != 5) || s.lk.st == .booting || s.lk.st == .failed || s.pins.flush != .none then s
  else
    let s1 := s.log 2 uDevice [t]
    match s.lk.warm with
    | none =>
      let auto := s.lk.runAutorun && t != 5 && (s.weir.runSt == .starting || s.weir.runSt == .running)
      let s2 := (s1.markStop.performCommit.haltCores.allLinksDown).modLk fun l =>
        { l with warm := some t, warmAgain := false, autoPending := auto, st := .restarting }
      s2.syncPermit
    | some _ =>
      if s.lk.warmAgain then (s1.modLk fun l => { l with st := .failed }).smbSync
      else s1.modLk fun l => { l with warm := some t, warmAgain := true, autoPending := l.autoPending && t != 5 }

def execWarmRestart (trigger : BitVec 3) (s : State) : Result :=
  .next (if 1 ≤ trigger.toNat ∧ trigger.toNat ≤ 5 then s.warmTrigger trigger.toNat else s)

/-- LKP_HEART, every 1 ms while the firmware runs. -/
def execHeartbeat (s : State) : Result :=
  .next (if s.on && !s.dbg.frozen && s.lk.st != .failed then s.modLk fun l => { l with heart := (l.heart + 1) % 2 ^ 64 } else s)

def execHeartbeatWatchdog (s : State) : Result := .next (s.warmTrigger 1)

/-- A cluster restart that has not completed within 20 ms. -/
def execClusterRestartTimeout (cl : ClusterId) (s : State) : Result :=
  .next (if bit s.lk.restarting cl.val then s.warmTrigger 4 else s)

/-- Self-test results of a cluster at a warm restart: a core that served passes; for one known as failed it is open, a free
value (log 3). -/
def State.testResult (s : State) (cl : ClusterId) : BitVec 9 × State :=
  let good (p : Nat) : Bool :=
    if p = 8 then !bit s.lk.spareUsed cl.val || (coresOf cl).any fun c =>
      (s.coreOf c).phys == 8 && (s.coreOf c).run != .failed && (s.coreOf c).run != .lost
    else
      let x := mget coreD s.cores (8 * cl.val + p)
      x.phys == p && x.run != .failed && x.run != .lost
  (List.range 9).foldl (fun (a : BitVec 9 × State) p =>
    if good p then (setBit a.1 p true, a.2)
    else let (v, s1) := a.2.fresh; (setBit a.1 p (bit v 0), s1)) (0, s)

/-- The lockkeeper writes the translation context of a bank that gets a frame task (R186). The spec does not say which value: it is a
free value (log 24). -/
def State.writeContext (s : State) (k : Nat) : State :=
  let (v, s1) := s.fresh
  s1.modL2 (clOf k) fun l => l.putTctx (k % 64) v

/-- A task takes its bank: frame bank in WAITT, its priority exchanged (R45), its translation context written (R186). -/
def State.seatTask (s : State) (a : AdmitArgs) : State :=
  let k := a.id.val
  let s1 := (s.modCtx k fun x => { x with frame := true, carrymask := a.carryMask.setWidth 64 }).setBankSt k .waitt
  (s1.exchange k a.prio).writeContext k

/-- What the caches held modified is gone: the SGRAM keeps what its devices hold. -/
def State.dropDirty (s : State) : State :=
  let s1 := forEach s.dir s fun s kd =>
    forEach kd.2.old.zipIdx s fun s wi => s.putMem (8 * kd.1 + wi.2) wi.1
  { s1 with dir := [] }

/-- The Towline hub after the restart: the configuration is re-applied, aborts and the frames reached stand (R265, R267), and every enabled
link trains. -/
def State.resetHub (s : State) : State :=
  let cfg := s.twl
  let s1 := { s with twl :=
    { links := (List.range 24).foldl (fun m n => mset linkD m n (let l := mget linkD cfg.links n; { lcfg := l.lcfg, aborted := l.aborted, safePos := l.safePos, lost := l.lost })) []
      lanes := []
      streams := cfg.streams.foldl (fun m kx => mset streamD m kx.1 { scfg := kx.2.scfg, sgeom := kx.2.sgeom, sbase := kx.2.sbase }) [] } }
  forEach (List.range 24) s1 fun s n => if lEn (s.linkOf n).lcfg then s.trainLink n else s

/-- The byte string of R270. -/
def State.guardBytes (s : State) : List Byte :=
  ((List.range 16384).flatMap fun i => let e := mget entryD s.sil.entries i; leBytes 8 e.w0.toNat ++ leBytes 8 e.w1.toNat) ++
    ((List.range 4).flatMap fun g => leBytes 8 (s.sillOf g).toNat) ++
    (List.range 24).flatMap fun n => (mget profD s.sil.prof n).bytes

/-- The warm restart completes: its reset group (Table 17.10), which the PCI Express group and its registers are part of, has been reset;
retained configuration re-applied, the guard re-armed after its CRC checks again, the manifest reopened,
the run STOPPED (R270, R317, R354). -/
def State.finishWarm (s0 : State) : State :=
  let ids : List Task := s0.weir.tasks
  let seated : List Task := ids.map fun t => { t with phase := .waiting, restart := true, staged := 0, guarded := true }
  let stats : SMap TStat := ids.foldl (fun m t => mset tstatD m t.args.id.val { adm := true }) []
  -- everything in the warm reset group
  let r := allClusters.foldl (fun (a : SMap Nat × State) cl => let (m, s1) := a.2.testResult cl; (mset natD a.1 cl.val m.toNat, s1)) ([], s0)
  let s1 := r.2.dropDirty
  let s2 := { s1 with
    cores := [], banks := [], l2 := [], slu := {}, evt := {}, dbg := { held := s1.dbg.held && s1.lk.warm != some 5 }
    memc := { s1.memc with eccthr := 0xFFFF, passes := 0, ecc := [], dirBad := [] }
    pwr := { on := s1.pwr.on ||| miscDomains ||| (0xFFFFFF#240 <<< 200) }
    sil := { s1.sil with armed := s1.sil.armed && crc32c s1.guardBytes == s1.sil.cfgcrc, permit := false, entsel := 0, chan := [], fires := 0, aborts := 0, lastPound := 0, lastCause := 0,
                         lastAction := 0, lastChan := 0, nonce := none }
    man := { s1.man with staged := [], toStore := [], stageFrom := s1.man.stageNext, lkBytes := 0, ref := {}, refusing := false, durbad := 0, bgdrop := 0 }
    weir := { s1.weir with elapsed := 0, lead := 0, firstEdge := true, hasTick := false, earlycnt := 0, syncnt := 0, synrun := 0, startIn := 0, first := 0,
                           tasks := seated, tstat := stats }
    mbx := { s1.mbx with halted := false, winsel := [] } }
  let s3 := s2.modLk fun l =>
    { l with warm := none, warmAgain := false, st := .ready, step := 9, heart := 0, restarting := 0, trigger := [], lostCores := 0, claims := [], lockups := 0,
             challenge := none, tpWait := [], replies := [] }
  let s4 := forEach allClusters s3.resetPcie fun s cl =>
    let s1 := (s.placeCluster cl (BitVec.ofNat 9 (mget natD r.1 cl.val)) .running).powerCluster cl
    s1.modL2 cl fun l => { l with ctl := ctlEnabled }
  let s5 := forEach ids (forEach allCores s4.applyPatch State.loadStores) fun s t => s.seatTask t.args
  let lost := allCores.filter fun c => (s5.coreOf c).run == .lost
  let s6 := (forEach lost s5 State.loseCore).resetHub.syncSill.reopen.syncMan.resumeDelivery
  let s7 := ((s6.setRun .stopped 5).raise evLk).syncPermit
  let s8 := forEach allClusters (s7.answerDeferred 0x0C02 0) fun s cl => s.answerDeferred 0x0C01 cl.val
  let s9 := s8.modLk fun l => { l with autoPending := false }
  if s8.lk.autoPending && s9.runStartErr.isNone then s9.beginRun else s9

def execWarmRestartComplete (s : State) : Result :=
  .next (if s.on && !s.dbg.frozen && s.lk.warm.isSome && s.lk.st == .restarting && s.pins.flush == .none then s.finishWarm else s)

/-! ### Vault dies and the black box (R356, R359) -/

/-- The copy of the black box on a die is gone. -/
def Bbx.dropDie (b : Bbx) (d : Nat) : Bbx :=
  if d < 2 then { b with dies := setBit b.dies d false, copy0 := if d = 0 then [] else b.copy0, copy1 := if d = 1 then [] else b.copy1 } else b

/-- A vault die fails: the copies and the flush area on it are gone. -/
def State.failDie (s : State) (d op page : Nat) : State :=
  if bit s.vault.failed d then s
  else
    let v := s.vault
    let v1 := { v with failed := setBit v.failed d true,
                       boot0 := if d = 0 then none else v.boot0, boot1 := if d = 1 then none else v.boot1,
                       cal0 := if d = 0 then none else v.cal0, cal1 := if d = 1 then none else v.cal1,
                       area0 := if d = 2 then none else v.area0, area1 := if d = 3 then none else v.area1 }
    let s1 := { s with vault := v1, bbx := s.bbx.dropDie d, cal := { s.cal with copies := if d < 2 then setBit s.cal.copies d false else s.cal.copies } }
    (s1.modMan fun m => if m.target = d - 1 ∧ 2 ≤ d then { m with target := 0 } else m).log 0x38 (uDie d) [op, page]

def execVaultDieFailed (die : Fin 4) (op page : Nat) (s : State) : Result :=
  .next (if s.on && !s.dbg.frozen then s.failDie die.val op page else s)

/-- Whether the oldest queued entry still takes repetitions: poisonings of one unit have one entry a pound (R358). -/
def State.bbxOpen (s : State) : Bool :=
  s.weir.ticking && s.bbx.queued.head?.any fun e => e.code == 0x24 && fld e.when_ 16 48 == s.weir.pound.toNat

/-- The oldest queued entry is programmed while a die with a copy works; one that counts repetitions waits for the end of its pound. -/
def execBlackBoxWrite (s : State) : Result :=
  .next (if s.on && !s.dbg.frozen && !(bit s.vault.failed 0 && bit s.vault.failed 1) && !s.bbxOpen then { s with bbx := s.bbx.program } else s)

end Sys2Proof.Machine
end

