-- ==== Sys2Proof/Machine/Host.lean ====
section
/-!
DEFINITION. The rows of the wharf: register writes, command slots, mailbox registers, BAR_2, the priority slot (R322 to R332);
SMBus (R338); the freeze pin (R374, R375), the monitors (R396) and the IEEE 1687 network (R378).
-/

namespace Sys2Proof.Machine

/-! ### Register writes (R6, R322, R323) -/

/-- Bytes of the host-only slots, from BAR_0 byte `off`. -/
def State.putSlotBytes (s : State) (off : Nat) (bs : List Byte) : State :=
  s.modMbx fun m => { m with slots := bs.zipIdx.foldl (fun m bi => mset byteD m (off + bi.2) bi.1) m.slots }

/-- A write of command slot k: discarded and counted while it is busy (R325). -/
def State.slotWrite (s : State) (k off : Nat) (bs : List (Option Byte)) : State :=
  if bit s.mbx.slotbusy k then s.modMbx fun m => { m with slotwr := satInc 16 m.slotwr }
  else forEach bs.zipIdx s fun s bi => match bi.1 with | some b => s.putSlotBytes (0x4000 + 256 * k + off + bi.2) [b] | none => s

/-! ### Priority commands (R328, R329) -/

def opHalt : Nat := 0x0F01
def opStop : Nat := 0x0F02
def opGuard : Nat := 0x0F03

/-- STOP_RUN: unfinished frame tasks are abandoned with code 6 and the run ends (R35). -/
def State.stopRunNow (s : State) (cause : Nat) : State :=
  if s.weir.runSt = .stopped then s
  else
    let ids := if s.runOpen then (s.weir.tasks.filter fun t => t.phase.isOpen).map fun t => t.args.id.val else []
    (forEach ids s fun s id => s.forceAbandon id 6).orderlyStop cause

/-- A core stops at its next boundary: an open load shadow is cancelled (R50), and pending broadcasts are acknowledged (R199). -/
def State.haltCore (s : State) (c : CoreId) : State :=
  if (s.coreOf c).run = .running then
    let s1 := match (s.coreOf c).cur with | some b => s.dropShadow (bk c b) | none => s
    s1.modCore c fun x => { x with run := .halted, inval := [] }
  else s

/-- The sample and drive bytes of every stream are discarded: staged drive bytes, cells held for lower indices, and what waits for a
channel. -/
def State.discardStreams (s : State) : State :=
  let s1 := forEach (s.twl.streams.map Prod.fst) s fun s k =>
    s.modStream k fun x => { x with stag := [], rx := x.rx.map fun p => { p with got := [] } }
  forEach (s1.slu.chans.map Prod.fst) s1 fun s c => s.modChan c fun x => { x with inbuf := [] }

def State.haltAll (s : State) (tag : BitVec 32) : State :=
  let s1 := forEach allCores (s.stopRunNow 2) State.haltCore
  let s2 := s1.stopSluice.discardStreams.modMbx fun m => { m with halted := true }
  (s2.log 0x14 uDevice [tag.toNat]).syncPermit

/-- The wharf acts on a capture of the priority slot, whatever MBX_CTL.EN and LKSTATE are: in a restart, a flush and the held state
too (R19, R328). -/
def State.priority (s : State) (op : Nat) (tag : BitVec 32) (groups : BitVec 8) : State :=
  if op = opHalt then (s.haltAll tag).prioResponse op tag 0
  else if op = opStop then (s.stopRunNow 1).prioResponse op tag 0
  else if op = opGuard then
    if groups.toNat % 16 = 0 then s.prioResponse op tag Err.arg.code
    else (s.abort (groups.toNat % 16) 3 0).prioResponse op tag 0
  else s.prioResponse op tag Err.badOp.code

/-- A write of PDOORBELL acts on what the slot holds. -/
def State.pdoorbell (s : State) : State :=
  let b (o n : Nat) : Nat := leNat ((List.range n).map fun i => mget byteD s.mbx.slots (0x2000 + o + i))
  s.priority (b 0 2) (BitVec.ofNat 32 (b 4 4)) (BitVec.ofNat 8 (b 8 1))

/-! ### The write of a register -/

/-- A host write at a byte of BAR_0: slots take any size, registers an aligned 8-byte write. -/
def State.hostWrite (s : State) (off size : Nat) (v : Val) : State :=
  if 0x4000 ≤ off ∧ off < 0x6000 then s.slotWrite ((off - 0x4000) / 256) (off % 256) ((leBytes size v.toNat).map some)
  else if off = 0x2018 ∧ size = 8 then s.pdoorbell
  else if 0x2000 ≤ off ∧ off < 0x2100 then s.putSlotBytes off (leBytes size v.toNat)
  else if off % 8 = 0 ∧ size = 8 then s.barWrite .host (off / 8) v
  else s

/-! ### Posted writes (R331) -/

/-- Bytes in inbound staging. -/
def State.stagedBytes (s : State) : Nat := s.mbx.staging.foldl (fun a x => a + x.2.length) 0

/-- Inbound staging has room for a posted write; only a write of BAR_2 takes any. -/
def State.postFits (s : State) : HostPost → Bool
  | .bar2 _ bs => decide (s.stagedBytes + bs.length ≤ mib)
  | _ => true

/-- A posted write is performed. -/
def State.doPost (s : State) : HostPost → State
  | .bar2 off bs =>
    if off + bs.length ≤ 0x1000000 then s.modMbx fun m => { m with staging := m.staging ++ [(off, bs)] } else s
  | .reg off size v => s.hostWrite off size v
  | .slot k off bs => s.slotWrite k off bs
  | .prio op tag groups => s.priority op tag groups
  | .durable v => s.spaceWrite .host 0x506 v

/-- Posted writes that waited for credit are performed in order while they fit. -/
def performPosts : List HostPost → State → State
  | [], s => s
  | p :: ps, s =>
    if s.postFits p then performPosts ps (s.doPost p) else s.modMbx fun m => { m with held := p :: ps }

/-- Inbound staging drains, and the posted writes behind it move up. -/
def State.drainPosts (s : State) : State :=
  let s1 := s.drainBar2
  performPosts s1.mbx.held (s1.modMbx fun m => { m with held := [] })

/-- Everything posted so far drains. -/
def drainAllPosts : Nat → State → State
  | 0, s => s.drainBar2
  | n + 1, s => if s.mbx.held.isEmpty then s.drainBar2 else drainAllPosts n s.drainPosts

/-- The host's posted write, while its accesses reach the function: performed, or held while the staging is full. -/
def State.post (s : State) (p : HostPost) : Result :=
  .next (
    if !s.hostReach then s
    else if s.mbx.held.isEmpty && s.postFits p then s.doPost p
    else s.modMbx fun m => { m with held := m.held ++ [p] })

def execHaltAll (tag : BitVec 32) (s : State) : Result := s.post (.prio opHalt tag 0)
def execStopRun (tag : BitVec 32) (s : State) : Result := s.post (.prio opStop tag 0)
def execGuardAbort (tag : BitVec 32) (groups : BitVec 8) (s : State) : Result := s.post (.prio opGuard tag groups)

/-- The host declares records durable (R310). -/
def execManDurable (v : Val) (s : State) : Result := s.post (.durable v)

/-- A register write by any requester. A core or lockkeeper write that is not FIX, or not an aligned word, is discarded
(R6). -/
def execRegisterWrite (by_ : Requester) (off size : Nat) (w : Word) (s : State) : Result :=
  match by_ with
  | .host => if size ≤ 8 then s.post (.reg off size w.val) else .next s
  | by_ => s.regDo fun s => if isFix w ∧ off % 8 = 0 ∧ size = 8 then s.barWrite by_ (off / 8) w.val else s

/-! ### The mailbox -/

/-- The host writes a command slot with an access of up to 64 bytes, of which any may be enabled (R325). -/
def execCommandSlotWrite (slot : Fin 32) (off : Nat) (bytes : List (Option Byte)) (s : State) : Result :=
  if bytes.length ≤ 64 ∧ off + bytes.length ≤ 256 then s.post (.slot slot.val off bytes) else .next s

/-- The host's write of a mailbox register, at its word of BAR_0 (Table 15.3). -/
def State.postMbx (s : State) (w : Nat) (v : Val) : Result := s.post (.reg (8 * w) 8 v)

def execMbxDoorbell (v : Val) (s : State) : Result := s.postMbx 3 v
def execMbxCtlWrite (v : Val) (s : State) : Result := s.postMbx 1 v
def execMbxRspbaseWrite (v : Val) (s : State) : Result := s.postMbx 5 v
def execMbxRspcfgWrite (v : Val) (s : State) : Result := s.postMbx 6 v
def execMbxRsptaddrWrite (v : Val) (s : State) : Result := s.postMbx 9 v
def execMbxRspheadWrite (v : Val) (s : State) : Result := s.postMbx 7 v

def execMbxWinselWrite (by_ : Requester) (v : Val) (s : State) : Result :=
  match by_ with
  | .host => s.postMbx 0xA v
  | by_ => s.regDo fun s => s.mbxWrite by_ 0xA v

/-- The read of MBX_B2SYNC completes once every earlier posted write has drained (R332). -/
def execMbxB2sync (s : State) : Result :=
  .next (if s.hostReach then
      let s1 := drainAllPosts s.mbx.held.length s
      s1.emit (.readDone 0x58 (s1.hostRead 0x58 8))
    else s)

/-- A posted write to BAR_2 lands in staging; without room for it no credit is given and it waits (R331). -/
def execBar2Write (off : Nat) (bytes : List Byte) (s : State) : Result := s.post (.bar2 off bytes)

/-- One 10 ns period in which no command arrives (log 2): time in the pound and since the boot, budgets, record ports, BAR_2 staging. Nothing moves
while the clocks that move it stand still. -/
def State.idle (s : State) : State :=
  let s0 := if s.on then s.modPins fun p => { p with since := p.since + 1 } else s
  let s1 := if s.engines then s0.period.drainPorts.storeStaged else s0
  if s.on && !s.dbg.frozen then s1.drainPosts else s1

/-! ### SMBus (R338, Table 15.13) -/

/-- The target answers from its snapshot while the device is out of reset and its clocks run. -/
def State.smbus (s : State) (cmd : Byte) (bytes : List Byte) : Result :=
  .next (if s.on && !s.dbg.frozen then s.emit (.smbus (s.smbBlock cmd bytes)) else s)

def execSmbusStateRead (s : State) : Result := s.smbus 0 s.smb.state
def execSmbusPoundRead (s : State) : Result := s.smbus 1 (leBytes 8 s.smb.pound.toNat)
def execSmbusMsnRead (s : State) : Result := s.smbus 2 (leBytes 8 s.smb.next ++ leBytes 8 s.smb.durable)
def execSmbusThermalRead (s : State) : Result := s.smbus 3 s.smb.thermal
def execSmbusBbxRead (s : State) : Result := s.smbus 4 (leBytes 8 s.smb.bbx.toNat)
def execSmbusIdRead (s : State) : Result := s.smbus 5 (leBytes 8 s.smb.id.toNat)
def execSmbusWriteNack (_cmd : Byte) (s : State) : Result := .next (if s.on && !s.dbg.frozen then s.emit .smbusNack else s)

/-! ### Freeze (R374, R375) -/

/-- The part freezes when armed; the commit of a tick before it is performed first. Otherwise the edge is counted. -/
def State.freeze (s : State) : State :=
  if s.dbg.armed then
    ((s.markStop.performCommit.modDbg fun d => { d with frozen := true, since := some (s.pins.since, s.pins.linkUp) }).modPins fun p =>
      { p with linkUp := false })
  else s.modDbg fun d => { d with igncnt := satInc 16 d.igncnt }

def execFreezeQualified (s : State) : Result :=
  .next (
    let s1 := s.modPins fun p => { p with freezeN := true }
    if !s.on || s.dbg.frozen then s1
    else if s.pins.flush != .none then s1.syncPermit
    else ((s1.modSil fun x => { x with src := 4 }).freeze).syncPermit)

/-- FREEZE_N is released: a frozen part is held, with entry 0058h. -/
def execFreezeRelease (s : State) : Result :=
  .next (
    let s1 := s.modPins fun p => { p with freezeN := false }
    if !s.on then s1
    else
      let n := (s.cores.filter fun kc => kc.2.run == .running).length
      let s2 := (s1.modDbg fun d => { d with frozen := false, held := true, regroup := false }).when_ s.dbg.regroup fun s => s.log 4 uDevice
      (if s.dbg.frozen then s2.log 0x58 uDevice [n] else s1).syncPermit)

/-! ### Monitors (R396) -/

/-- A sensor (0 to 15) or monitor (16 to 27) reports its limit: one entry a pound with its corrected reading, and EV[448]. -/
def execMonitorLimit (sensor : Fin 28) (reading : BitVec 16) (s : State) : Result :=
  .next (
    if !s.on || s.dbg.frozen then s
    else
      if bit s.pins.limited sensor.val then s
      else
        let s2 := s.modPins fun p => { p with limited := setBit p.limited sensor.val true }
        (s2.log 0x78 (uSensor sensor.val) [sensor.val, s.corrected sensor.val reading.toInt]).raise evLk)

/-! ### The IEEE 1687 network (R377, R378, Table 17.12) -/

/-- What is shifted out of a locked slot; a hole holds no line. -/
def State.lockedData (s : State) (cl : ClusterId) (k : LockSlot) : LockSlot × List Word :=
  (k, if k.hole then [] else s.copyLineWords cl 0 k.line)

/-- A cluster has a copy of a line at a place (`copyKey`). -/
def L2.hasCopy (l : L2) (place line : Nat) : Bool :=
  if place = 0 then l.holds line else if place < 9 then l.inL1 (place - 1) line else ((l.l1 true (place - 9) line).find line).isSome

/-- A line's modification is gone: it reads as its SGRAM devices have it. -/
def State.unmodify (s : State) (line : Nat) : State :=
  let old := (s.dirEnt line).old
  if s.dirty line then (forEach old.zipIdx s fun s wi => s.putMem (8 * line + wi.2) wi.1).putDir line ⟨0, []⟩ else s

/-- A set with a slot written. -/
def CSet.putSlot (c : CSet) (way line : Nat) (valid dirty : Bool) : CSet :=
  let rest := c.held.filter fun w => w.way != way && w.line != line
  { c with held := if valid then rest ++ [{ way := way, line := line, dirty := dirty }] else rest }

/-- The network writes a slot of a cache. What the L2's slot held goes with its copies; a modification that a written slot held is lost (log
66). -/
def State.debugSlot (s : State) (cl : ClusterId) (cache : CacheId) (way line : Nat) (valid dirty : Bool) : State :=
  let l := s.l2Of cl
  let s1 := match cache with
    | .l2 =>
      let out := ((l.setOf line).held.filter fun w => w.way == way || w.line == line).map Way.line
      let s1 := forEach out s fun s n => (if s.dirtyIn cl n then s.unmodify n else s).modL2 cl fun l => l.drop n
      s1.modL2 cl fun l => l.putSet line ((l.setOf line).putSlot way line valid false)
    | .l1 p code => s.modL2 cl fun l => l.setL1 code p.val line ((l.l1 code p.val line).putSlot (way % 4) line valid (dirty && !code))
    | .victim p => s.modL2 cl fun l => l.setVict p.val (({ held := l.victOf p.val } : CSet).putSlot way line valid dirty).held
  match cache with
    | .l1 p false | .victim p => if valid && dirty then s1.own cl p.val line else s1
    | _ => s1

/-- A word of a control store is written; the ROM cannot be. -/
def putAt {α : Type} (z : α) (l : List α) (i : Nat) (x : α) : List α := (l ++ List.replicate (i + 1 - l.length) z).set i x

def Stores.put (st : Stores) (nano : Bool) (a : Nat) (w : BitVec 192) : Stores :=
  let st := { st with bad := st.bad.filter fun b => b != if nano then 0x10000 + a else a }
  if nano then
    if 0x1000 ≤ a ∧ a < 0x1100 then { st with patNano := putAt 0 st.patNano (a - 0x1000) w }
    else if 0x1800 ≤ a ∧ a < 0x1880 then { st with userNano := putAt 0 st.userNano (a - 0x1800) w } else st
  else
    if 0x4000 ≤ a ∧ a < 0x4800 then { st with patMicro := putAt 0 st.patMicro (a - 0x4000) (w.setWidth 24) }
    else if 0x8000 ≤ a ∧ a < 0x8800 then { st with userMicro := putAt 0 st.userMicro (a - 0x8000) (w.setWidth 24) } else st

/-- A slot of a list of valid slots is written, or a new one. -/
def putNth {α : Type} (l : List α) (n : Nat) (x : α) : List α := if n < l.length then l.set n x else l ++ [x]

/-! ### The test access port (R377, R386; its states are IEEE 1149.1's, log 66) -/

/-- The state after a rising edge of TCK. -/
def TapSt.step : TapSt → Bool → TapSt
  | .reset, t => if t then .reset else .idle
  | .idle, t => if t then .selDr else .idle
  | .selDr, t => if t then .selIr else .captureDr
  | .captureDr, t => if t then .exit1Dr else .shiftDr
  | .shiftDr, t => if t then .exit1Dr else .shiftDr
  | .exit1Dr, t => if t then .updateDr else .pauseDr
  | .pauseDr, t => if t then .exit2Dr else .pauseDr
  | .exit2Dr, t => if t then .updateDr else .shiftDr
  | .updateDr, t => if t then .selDr else .idle
  | .selIr, t => if t then .reset else .captureIr
  | .captureIr, t => if t then .exit1Ir else .shiftIr
  | .shiftIr, t => if t then .exit1Ir else .shiftIr
  | .exit1Ir, t => if t then .updateIr else .pauseIr
  | .pauseIr, t => if t then .exit2Ir else .pauseIr
  | .exit2Ir, t => if t then .updateIr else .shiftIr
  | .updateIr, t => if t then .selDr else .idle

def Tap.clock (p : Tap) (tms : Bool) : Tap :=
  let st := p.st.step tms
  { p with st := st, ir := if st = .updateIr then p.next else if st = .reset then .idcode else p.ir }

/-- The level of an output ball; none is high impedance, or released. EXTEST drives the balls from their boundary cells. -/
def State.ball (s : State) (b : Ball) : Option Bool :=
  let tap := s.pins.tap
  let driven := if tap.ir = .extest then (tap.cells.find? fun c => c.1 = b).map Prod.snd else none
  match b with
  -- what TDO shifts in these states is the bit of a register that the spec gives no layout
  | .tdo => if tap.st = .shiftDr ∨ tap.st = .shiftIr then some (Config.tdo s.free) else none
  | .permit => driven.or (some (s.on && s.sil.permit))
  | .abortOutN => driven.or (if s.on && s.sil.about then some false else none)
  | .tickOut => driven.or (some false)
  | .thermtripN => driven.or (if s.pins.thermtrip then some false else none)
  | .lockupN => driven.or (if s.cores.any fun kc => kc.2.run == .lockup then some false else none)

/-- Spoil the parity of a cache slot's tag. -/
def State.spoilTag (s : State) (cl : ClusterId) (b : BadTag) : State :=
  s.modL2 cl fun l => if l.badTags.contains b then l else { l with badTags := l.badTags ++ [b] }

/-- What the network can shift out (R377). -/
inductive ScanTarget where
  | reg (k index : Nat)
  | ctl (k : Nat) (index : BitVec 8)
  | sill (k index : Nat)
  | pc (k : Nat)
  | vec (core : CoreId) (v : Nat)
  | tlb (core : CoreId) (code : Bool)
  | walk (core : CoreId)
  | l1 (cl : ClusterId) (code : Bool) (key : Nat)
  | victim (cl : ClusterId) (pos : Nat)
  | l2 (cl : ClusterId) (set : Nat)
  | lockedSlots (cl : ClusterId)
  | sram (addr : Nat)
  | blackBox (index : Nat)
  deriving DecidableEq, Repr

/-- What is shifted out: words, stored vector bits, table entries, slots of a cache with their lines' data, a byte, an entry. -/
inductive Scanned where
  | word (w : Word)
  | vector (x : BitVec 512)
  | tlb (l : List TlbSlot)
  | walk (l : List WalkEnt)
  | slots (l : List (Way × List Word))
  | locked (l : List (LockSlot × List Word))
  | byte (b : Byte)
  | entry (e : BbxEntry)
  deriving DecidableEq, Repr

/-- A slot of a cache with its line's data. -/
def State.withData (s : State) (cl : ClusterId) (place : Nat) (l : List Way) : Scanned := .slots (l.map fun w => (w, s.copyLineWords cl place w.line))

/-- The read-out of the network in the frozen and held states (R377), from debug level 1 (Table 17.12); and programmed black-box entries at
any level and at any time, in the failed state too (R360). No target is a word of the SGRAM. It changes nothing. -/
def State.scanRead (s : State) (t : ScanTarget) : Option Scanned :=
  match t with
    | .blackBox n => if s.on then (s.bbx.entries.find? fun e => e.index == n).map .entry else none
    | t =>
      if !(s.dbg.frozen || s.dbg.held) || s.dbg.level = 0 then none
      else match t with
        | .reg k i => if i < 0x98 then some (.word ((s.ctx k).at_ i)) else none
        | .ctl k i => if (cregRings i.toNat).isSome then some (.word (fix (s.cregRead (coreOfId k) k i.toNat))) else none
        | .sill k i => if i < 64 then some (.word (mget wordD (s.ctx k).sill i)) else none
        | .pc k => some (.word (cref (s.ctx k).pc))
        | .vec c v => some (.vector (mget vecD (s.coreOf c).vregs v))
        | .tlb c code => some (.tlb (if code then (s.coreOf c).itlb else (s.coreOf c).dtlb))
        | .walk c => some (.walk (s.coreOf c).wcache)
        | .l1 cl code n => some (s.withData cl ((if code then 9 else 1) + n / 128) (mget csetD (if code then (s.l2Of cl).l1c else (s.l2Of cl).l1d) n).held)
        | .victim cl p => some (s.withData cl (1 + p) ((s.l2Of cl).victOf p))
        | .l2 cl n => some (s.withData cl 0 (mget csetD (s.l2Of cl).sets n).held)
        | .lockedSlots cl => some (.locked ((s.l2Of cl).slots.map (s.lockedData cl)))
        | .sram a => some (.byte (mget byteD s.lk.sram a))
        | .blackBox _ => none

def State.debugWrite (s : State) : DebugTarget → State
  | .reg c b i w => if i < 0x98 then s.modCtx (bk c b) fun x => x.put i w else s
  | .sill c b i w => if i < 64 then s.modCtx (bk c b) fun x => x.putSill [(i, w)] else s
  | .ctl c b i v => if (cregRings i.toNat).isSome then s.cregWrite c (bk c b) i.toNat v else s
  | .pc c b p => s.modCtx (bk c b) fun x => { x with pc := p }
  | .sram a b => s.modLk fun l => { l with sram := mset byteD l.sram a b }
  | .vec c v x => s.modCore c fun y => { y with vregs := mset vecD y.vregs v.toNat x }
  | .regBits c b i f =>
    if i < 0x98 then s.modCtx (bk c b) fun x => { x with flaws := mset regFlawD x.flaws i (mget regFlawD x.flaws i ^^^ f) } else s
  | .lineBits cl p n f =>
    if (s.l2Of cl).hasCopy p.val n.toNat then s.modL2 cl fun l => l.setFlawAt p.val n.toNat (l.flawAt p.val n.toNat ^^^ f.toNat) else s
  | .lineWord cl p n i w => if (s.l2Of cl).hasCopy p.val n.toNat then s.putCopy cl p.val n.toNat i.val w else s
  | .codeParity c n i =>
    let key := copyKey (9 + posOf c) n.toNat
    if (s.l2Of (clusterOf c)).hasCopy (9 + posOf c) n.toNat then
      s.modL2 (clusterOf c) fun l => { l with codeBad := mset codeD l.codeBad key (setBit (mget codeD l.codeBad key) i.val true) }
    else s
  | .slot cl cache way n valid dirty => s.debugSlot cl cache way.val n.toNat valid dirty
  | .l2Tag cl n => s.spoilTag cl ⟨n.toNat, none⟩
  | .l1Tag c code n => s.spoilTag (clusterOf c) ⟨n.toNat, some (posOf c, code)⟩
  | .tlb c code n =>
    s.modCore c fun x =>
      if code then { x with itlb := x.itlb.modify n fun t => { t with par := true } }
      else { x with dtlb := x.dtlb.modify n fun t => { t with par := true } }
  | .walk c n => s.modCore c fun x => { x with wcache := x.wcache.modify n fun e => { e with par := true } }
  | .tlbSlot c code n asid vpn leaf lvl pte =>
    let t : TlbSlot := { asid := asid, vpn := vpn, leaf := leaf, lvl := lvl, pte := pte }
    s.modCore c fun x => if code then { x with itlb := putNth x.itlb n t } else { x with dtlb := putNth x.dtlb n t }
  | .walkEntry c n asid lvl pre frame pte width =>
    let e : WalkEnt := { asid := asid, lvl := lvl, pre := pre, frame := frame, pte := pte, width := width }
    s.modCore c fun x => { x with wcache := putNth x.wcache n e }
  | .storeWord c nano a w => s.modCore c fun x => { x with stores := x.stores.put nano a.toNat w }
  | .matchEntry c n rom patch =>
    s.modCore c fun x => { x with stores := { x.stores with pairs := putNth x.stores.pairs n.val (rom.toNat, patch.toNat) } }
  | .tck .. | .tapInstr .. | .boundary .. => s
  | .store c nano a =>
    s.modCore c fun x => { x with stores := { x.stores with bad := x.stores.bad ++ [if nano then 0x10000 + a.toNat else a.toNat] } }
  | .dirEntry n => s.modMemc fun m => if m.dirBad.contains n.toNat then m else { m with dirBad := m.dirBad ++ [n.toNat] }

/-- The port itself works at every level and at any time (R377, Table 17.12). -/
def State.tapWrite (s : State) : DebugTarget → Option State
  | .tck tms => some (s.modPins fun p => { p with tap := p.tap.clock tms })
  | .tapInstr i => some (if s.pins.tap.st = .shiftIr then s.modPins fun p => { p with tap := { p.tap with next := i } } else s)
  | .boundary b v =>
    some (s.modPins fun p => { p with tap := { p.tap with cells := (b, v) :: p.tap.cells.filter fun c => c.1 ≠ b } })
  | _ => none

def execIeee1687Write (t : DebugTarget) (s : State) : Result :=
  .next ((s.tapWrite t).getD (if s.on && s.dbg.level == 2 then s.debugWrite t else s))

end Sys2Proof.Machine
end

