-- ==== Sys2Proof/Machine/Admission.lean ====
section
/-!
DEFINITION. The admission of frame tasks (R44 to R49): the response-time test of R46, the device-wide checks of Table 2.10, and
the rate checks of R249 that POUND_CONFIG, LINK_CONFIG and STREAM_CONFIG share with it.
-/

namespace Sys2Proof.Machine

/-! ### Response times (R46); times in cc, 18 to 10 ns -/

/-- A frame task as the test sees it. -/
structure RtTask where
  id   : Nat
  prio : Nat
  o    : Nat
  d    : Nat
  cost : Nat
  deriving DecidableEq, Repr

/-- Non-interruptible unit of a frame bank. -/
def frameUnit (a : AdmitArgs) : Nat := max 96 a.customU

/-- Non-interruptible unit of any other bank: the largest bound of the decode table. -/
def tableUnit (cxd : SMap Val) : Nat := cxd.foldl (fun u kv => if cxdValid kv.2 then max u (cxdBound kv.2) else u) 96

def rtOf (a : AdmitArgs) (prio : Nat) : RtTask :=
  ⟨a.id.val, prio, 18 * a.offset, 18 * a.deadline, a.budget + 2000 + frameUnit a⟩

/-- The loop of R46: the set hp grows at every turn but the last, so eight tasks need at most nine turns. -/
def rtLoop (ts : List RtTask) (i : RtTask) (base : Nat) : Nat → Nat → Nat
  | 0, r => r
  | n + 1, r =>
    let hp := ts.filter fun j => decide (i.prio < j.prio) && decide (j.o < r)
    let next := base + 70 * (1 + 2 * hp.length) + hp.foldl (fun a j => a + j.cost) 0
    if next = r ∨ i.d < next then next else rtLoop ts i base n next

/-- Response time of task i; `units` gives the priority and the unit of each bank of the core. -/
def rtime (units : List (Nat × Nat)) (ts : List RtTask) (i : RtTask) : Nat :=
  let beta := units.foldl (fun b u => if u.1 < i.prio then max b u.2 else b) 0
  rtLoop ts i (i.o + beta + i.cost) 10 (i.o + beta + i.cost + 70)

/-- Priority of bank b of a core, after the exchange that admits `new` (R45). -/
def State.prioWith (s : State) (c : CoreId) (new : Option AdmitArgs) (b : Fin 8) : Nat :=
  let p := s.prioOf c b
  match new with
  | none => p
  | some a => if bk c b = a.id.val then a.prio.toNat else if p = a.prio.toNat then (s.ctx a.id.val).prio.toNat else p

/-- Frame tasks of a core, with the one requested. -/
def State.coreTasks (s : State) (c : CoreId) (new : Option AdmitArgs) : List AdmitArgs :=
  ((s.weir.tasks.map Task.args).filter fun a => a.id.val / 8 == c.val) ++ new.toList

/-- Response times of every frame task of a core under a decode table: the task and its r. -/
def State.rtimes (s : State) (c : CoreId) (new : Option AdmitArgs) (cxd : SMap Val) : List (RtTask × Nat) :=
  let as := s.coreTasks c new
  let units := allBanks.map fun b =>
    (s.prioWith c new b, match as.find? fun a => a.id.val == bk c b with | some a => frameUnit a | none => tableUnit cxd)
  let ts := as.map fun a => rtOf a (s.prioWith c new (bankOfId a.id.val))
  ts.map fun t => (t, rtime units ts t)

/-- Every frame task of a core meets its deadline. -/
def State.rtOk (s : State) (c : CoreId) (new : Option AdmitArgs) (cxd : SMap Val) : Bool :=
  (s.rtimes c new cxd).all fun tr => decide (tr.2 ≤ tr.1.d)

/-- The largest budget from `lo` to `hi` with which the request still passes; it passes at `lo` (R47). -/
def State.largestBudget (s : State) (a : AdmitArgs) : Nat → Nat → Nat → Nat
  | 0, lo, _ => lo
  | n + 1, lo, hi =>
    if hi ≤ lo then lo
    else
      let mid := (lo + hi + 1) / 2
      if s.rtOk (coreOfId a.id.val) (some { a with budget := mid }) s.lk.cxd then s.largestBudget a n mid hi
      else s.largestBudget a n lo (mid - 1)

/-! ### Rates (R27, R235, R249) -/

/-- Half lanes of a link: a link that may run at NRZ counts each lane as half. -/
def halfLanes (lcfg : Val) : Nat := if lRate lcfg = 0 then 2 * lWidth lcfg else lWidth lcfg

/-- CELLS of the streams of a kind on a link. -/
def cellsOn (streams : SMap Stream) (n kind : Nat) : Nat :=
  (streams.filter fun kx => kx.2.isOn n kind).foldl (fun a kx => a + gCells kx.2.sgeom) 0

def ceilDiv (a b : Nat) : Nat := (a + b - 1) / b

/-- The drive-tail limit of Table 2.2 for a link, in 10 ns. -/
def tailOk (w : Weir) (streams : SMap Stream) (lcfg : Val) (n : Nat) : Bool :=
  decide (w.dout + 150 + 2 * ceilDiv (2 * cellsOn streams n 1) (halfLanes lcfg) ≤ w.len - (if w.src then w.tol else 0))

/-- The largest BULKCRED: 64 KiB of cells of 116 bytes (R259, log 39). -/
def bulkCredMax : Nat := 564

/-- Cells against 80 % of the usable slots of a pound in both directions: 5 slots a codeword of 97.14 ns (5,440 bits at 56
Gbit/s), less one in 1,280 (R234). -/
def slotsOk (len : Nat) (streams : SMap Stream) (lcfg : Val) (n : Nat) : Bool :=
  [0, 1].all fun kind =>
    decide ((cellsOn streams n kind + 2 + bulkCredMax) * 2 * 174080 ≤ 8 * len * 8953 * halfLanes lcfg)

/-- Channels and samples a pound of the enabled streams of a kind. -/
def chansOf (streams : SMap Stream) (kind : Nat) : Nat :=
  (streams.filter fun kx => sEn kx.2.scfg && sKind kx.2.scfg == kind).foldl (fun a kx => a + sNch kx.2.scfg) 0
def samplesOf (streams : SMap Stream) : Nat :=
  (streams.filter fun kx => sEn kx.2.scfg && sKind kx.2.scfg == 0).foldl (fun a kx => a + sNch kx.2.scfg * gNsamp kx.2.sgeom) 0

/-- The rate checks of R249; those that depend on P are not made while no POUND_CONFIG has completed. -/
def ratesOk (len : Nat) (streams : SMap Stream) (lcfg : Nat → Val) : Bool :=
  decide (chansOf streams 0 ≤ 16384) && decide (chansOf streams 1 ≤ 4096) &&
    (len == 0 || (decide (samplesOf streams ≤ 40 * len) &&
      (List.range 24).all fun n => !lEn (lcfg n) || slotsOk len streams (lcfg n) n))

def State.lcfgOf (s : State) (n : Nat) : Val := (s.linkOf n).lcfg

/-! ### Table 2.10 -/

/-- Tenths of GT/s at which the link last trained. -/
def tenths (speed : Nat) : Nat := if speed = 2 then 25 else 10 * speed

/-- Volume ÷ P within 60 % of the data rate of the link as last trained. -/
def State.rateOk (s : State) (volume : Nat) : Bool :=
  let t := tenths s.pins.speed
  if t ≤ 50 then decide (volume * 800 ≤ 6 * s.weir.len * s.pins.width * t * 8)
  else decide (volume * 10400 ≤ 6 * s.weir.len * s.pins.width * t * 128)

/-! ### The parameters of Table 2.8 -/

/-- Whether two carry areas of 32 words overlap. -/
def carryMeet (a b : Nat) : Bool := decide (a < b + 32) && decide (b < a + 32)

/-- The carry base of R38. -/
def State.carryOk (s : State) (base : Nat) : Bool :=
  decide (base % 32 = 0) && decide (base < 2 ^ 36) && s.region base == .store && !s.inMirror base &&
    s.weir.tasks.all fun t => !carryMeet base t.args.carryBase

def State.paramsOk (s : State) (a : AdmitArgs) : Bool :=
  let w := s.weir
  decide (w.din ≤ a.offset) && decide (a.offset < a.deadline) && decide (a.deadline ≤ w.dout) &&
    decide (200 ≤ a.budget) && decide (a.budget ≤ 18 * (w.dout - w.din)) && decide (a.customU ≤ 256) &&
    decide (a.recBudget ≤ 4 * mib) && decide (a.recBudget % 32 = 0) && decide (a.credits < 2 ^ 24) &&
    decide (popcount a.carryMask ≤ 16) && a.carried.length == popcount a.carryMask && s.carryOk a.carryBase

/-- The priority rules of R44. The bank requested is left out of them: it exchanges its priority with the one it asks for (R45), so
neither its own priority nor its state can clash (DESIGN CHOICE, log 24). -/
def State.prioOk (s : State) (a : AdmitArgs) : Bool :=
  let c := coreOfId a.id.val
  let frame (b : Fin 8) : Bool := s.isFrame (bk c b) || bk c b == a.id.val
  let live (b : Fin 8) : Bool := !frame b && (s.ctx (bk c b)).st != .idle
  let low := allBanks.foldl (fun m b => if frame b then min m (s.prioWith c (some a) b) else m) 8
  (allBanks.all fun b => bk c b == a.id.val || s.prioOf c b != a.prio.toNat || !(frame b || live b)) &&
    (allBanks.all fun b => !live b || decide (s.prioWith c (some a) b ≤ low))

/-- The longest record of a frame task (R308). -/
def longestTask (a : AdmitArgs) : Nat := min a.recBudget 294944

/-- Why a TASK_ADMIT is refused, in the order of log 40. -/
def State.admitErr (s : State) (a : AdmitArgs) : Option Err :=
  let volume := s.declaredVolume + a.recBudget
  if s.isFrame a.id.val then some .busy
  else if !s.paramsOk a then some .admitParam
  else if s.man.en && !longestOk s.man.size (longestTask a) then some .manRing
  else if !s.prioOk a then some .admitPrio
  else if !s.rtOk (coreOfId a.id.val) (some a) s.lk.cxd then some .admitDeadline
  else if s.weir.ccap < s.weir.cused + a.credits then some .admitCredit
  else if 32 * mib < volume || !s.rateOk volume then some .admitRate
  else if (List.range 24).any fun n => bit a.links n && !tailOk s.weir s.twl.streams (s.lcfgOf n) n then some .admitLink
  else none

/-- Words C + 1 to C + 7 and the carried registers, written from the request (R38). -/
def State.writeCarry (s : State) (a : AdmitArgs) : State :=
  let head := [cref a.entry, fix a.psw, fix a.winpos, fixN a.carryMask.toNat, fix a.basin, fix a.alloc, fix a.alimit]
  putWords (a.carryBase + 16) a.carried (putWords (a.carryBase + 1) head s)

/-- The task joins the admitted set (R45, R49): at once while the run is STOPPED, else from the second tick. -/
def State.admitTask (s : State) (a : AdmitArgs) : State :=
  let during := s.weir.runSt != .stopped
  let t : Task := { args := a, phase := if during then .joining 2 else .waiting }
  let s1 := ((s.writeCarry a).cancelShadow a.id.val).seatTask a
  let s2 := if during then s1.stampCarry t (s.weir.pound + 1) else s1
  let s3 := forEach (linksOf t) s2 fun s n => s.modLink n fun l => { l with lost := false }
  let s4 := ((s3.modWeir fun w => { w with tasks := w.tasks ++ [t] }).modTstat a.id.val fun x => { x with adm := true }).recount
  if during then s4.powerDeclared else s4

/-- The report of R47: task id, r and Dl − r for each frame task of the core, then the largest budget of the task requested;
during a run the pound from which it takes part (R326). -/
def State.admitReport (s : State) (a : AdmitArgs) : List Val :=
  let rs := (s.rtimes (coreOfId a.id.val) (some a) s.lk.cxd).flatMap fun tr => [tr.1.id, tr.2, tr.1.d - tr.2]
  let top := s.largestBudget a 32 a.budget (18 * (s.weir.dout - s.weir.din))
  let pound := if s.weir.runSt != .stopped then [(s.weir.pound + 2).toNat] else []
  (rs ++ [top] ++ pound).map (BitVec.ofNat 64)

end Sys2Proof.Machine
end

