-- ==== Sys2Proof/Machine/Commands.lean ====
section
/-!
DEFINITION. The Imeimin commands (Table 15.9): how the lockkeeper takes one (R325 to R327, R334, R339), and those that read
state, use memory, manage frame tasks and pass messages.
-/

namespace Sys2Proof.Machine

/-! ### Taking a command -/

def srcTag : Src → BitVec 32 | .host t _ _ => t | .towpath _ t _ => t
/-- Source of a command as a configuration record names it: 0 the host, 1 + n CORE[n] (Table 15.12). -/
def srcNo : Src → Nat | .host .. => 0 | .towpath c _ _ => c.val + 1
def fromHost : Src → Bool | .host .. => true | _ => false

/-- A source has a command waiting. Host commands execute one at a time (R326), and none begins while the response ring is full
(R327). -/
def State.waits (s : State) (n : Nat) : Bool :=
  if n = 0 then !s.mbx.queue.isEmpty && !s.ringFull && !s.hostBusy
  else s.engines && !(mget coreD s.cores (n - 1)).sendq.isEmpty

/-- The source the lockkeeper serves next: one from each in turn, the cores in ascending number (R326). -/
def State.nextSource (s : State) : Option Nat := ((List.range 65).map fun i => (s.lk.turn + 1 + i) % 65).find? s.waits

/-- The argument block of a message, read whole (R339). -/
def State.argBlock (s : State) (m : TpMsg) : List Word := (List.range m.nw).map fun i => s.rd (m.addr + i)

/-- The reads of the argument block. -/
def State.noteBlock (s : State) (m : TpMsg) : State := s.homeReads ((List.range m.nw).map (m.addr + ·))

/-- The lockkeeper takes the command at the head of its source, if that is this one; a host slot is copied and free again. The
command's operands are what ARGS or the block spells: the spec names the arguments and gives ARGS no layout (log 15). -/
def State.take (s : State) (src : Src) (op : Nat) : Option State :=
  if !s.on || s.dbg.frozen || s.lk.st != .ready || s.nextSource != some (srcNo src) then none
  else
    let s1 := s.modLk fun l => { l with turn := srcNo src }
    match src with
    | .host tag _ _ =>
      match s.mbx.queue with
      | q :: rest =>
        if q.op = op ∧ q.tag = tag ∧ src = .host tag q.outAddr q.outLen then
          some ((s1.modMbx fun m => { m with queue := rest, slotbusy := setBit m.slotbusy q.slot false }).modLk fun l =>
            { l with argBytes := q.args, argWords := [] })
        else none
      | [] => none
    | .towpath c tag _ =>
      match (s.coreOf c).sendq with
      | m :: rest =>
        if m.op = op ∧ m.tag = tag then
          let s2 := (s1.modCore c fun x => { x with sendq := rest }).noteBlock m
          some (s2.modLk fun l => { l with argBytes := [], argWords := s2.argBlock m })
        else none
      | [] => none

/-- A row of Table 15.9: its code, whether ring 0 may send it, whether it needs blocks that a held part has stopped (R375), and
the run states in which it executes. -/
structure Row where
  op      : Nat
  towpath : Bool
  blocks  : Bool
  runs    : State → Bool

def anyRun (_ : State) : Bool := true
def stoppedOnly (s : State) : Bool := s.weir.runSt == .stopped

/-- One command: taken, refused by its row, or executed. -/
def State.command (s : State) (src : Src) (r : Row) (body : State → State) : Result :=
  .next (match s.take src r.op with
    | none => s
    | some s1 =>
      if !fromHost src && !r.towpath then s1.answer src r.op .denied
      else if r.blocks && s1.dbg.held then s1.answer src r.op .notReady
      else if !r.runs s1 then s1.answer src r.op .runActive
      else body s1)

/-- Success of a command that changes configuration: its record (R336), then the response. -/
def State.configured (s : State) (src : Src) (op : Nat) (result : List Val := []) : State :=
  (s.stageConfig op (srcTag src) (srcNo src)).answer src op .ok result

/-- What the lockkeeper reads of the arguments of the next message of a core. -/
def State.block (s : State) : Src → List Word
  | .towpath c _ _ => match (s.coreOf c).sendq with | m :: _ => (s.noteBlock m).argBlock m | [] => []
  | .host .. => []

/-- The arguments of a towpath command are what the words of its block say (R339): one word each in the table's order, given here with
their widths in bits, a word beyond NW as 0 (log 15). What ARGS of a slot spells has no layout in the spec. -/
def State.spells (s : State) (src : Src) (vs : List (Nat × Nat)) : Bool :=
  fromHost src || let b := s.block src; vs.zipIdx.all fun vi => (b.getD vi.2 (fix 0)).val.toNat % 2 ^ vi.1.1 == vi.1.2

/-- A B2 argument in a block: its address, its length in bytes and its CRC (R334). -/
def b2Args (b : B2) : List (Nat × Nat) := [(64, b.off), (64, b.len), (32, b.crc.toNat)]

/-- The OUT argument of a command (R334). -/
def outArg : Src → Nat × Nat | .host .. => (0, 0) | .towpath _ _ a => (36, a.toNat)

/-- The parameters of Table 2.8 and the initial carry image without its carried registers, in bits (log 15). -/
def admitFields (a : AdmitArgs) : List (Nat × Nat) :=
  [(9, a.id.val), (3, a.prio.toNat), (27, a.offset), (27, a.deadline), (32, a.budget), (9, a.customU), (23, a.recBudget),
   (24, a.links.toNat), (24, a.credits), (36, a.carryBase), (32, a.carryMask.toNat), (1, a.vector.toNat), (62, a.entry.toNat),
   (18, a.psw.toNat), (32, a.winpos.toNat), (64, a.basin.toNat), (64, a.alloc.toNat), (64, a.alimit.toNat)]

/-- Fields side by side, the first lowest. -/
def packFields (fs : List (Nat × Nat)) : Nat := fs.foldr (fun f n => f.2 + 2 ^ f.1 * n) 0

/-- The arguments of TASK_ADMIT: 72 bytes of fields, then the carried words serialised (R81); in a block 9 words of fields, 8 where 16
carried words leave no more of the 24 (log 15). -/
def State.spellsAdmit (s : State) (src : Src) (a : AdmitArgs) : Bool :=
  ((admitFields a).all fun f => decide (f.2 < 2 ^ f.1)) &&
    match src with
    | .host .. => match s.mbx.queue with
      | q :: _ => leNat (q.args.take 72) == packFields (admitFields a) && q.args.drop 72 == serialise a.carried
      | [] => false
    | .towpath .. =>
      let b := s.block src
      let k := min 9 (24 - a.carried.length)
      leNat ((b.take k).flatMap fun w => leBytes 8 w.val.toNat) == packFields (admitFields a) % 2 ^ (64 * k) && b.drop k == a.carried

/-- The codes of Table 15.9. -/
def opCodes : List Nat :=
  [0x0001, 0x0002, 0x0101, 0x0102, 0x0103, 0x0104, 0x0201, 0x0202, 0x0203, 0x0204, 0x0301, 0x0302, 0x0303, 0x0304, 0x0305, 0x0401,
   0x0501, 0x0502, 0x0601, 0x0602, 0x0603, 0x0701, 0x0702, 0x0703, 0x0801, 0x0901, 0x0A01, 0x0A02, 0x0A03, 0x0A04, 0x0B01, 0x0B02,
   0x0C01, 0x0C02, 0x0D01, 0x0E01, 0x0E02]

/-- A code that is not listed returns E_BAD_OP. -/
def execBadOpCommand (src : Src) (op : BitVec 16) (s : State) : Result :=
  .next (if opCodes.contains op.toNat then s
    else match s.take src op.toNat with | none => s | some s1 => s1.answer src op.toNat .badOp)

/-! ### Reading state -/

/-- Whether a cluster's spare is unused: 1 or 0. -/
def State.sparesLeft (s : State) (cl : ClusterId) : Nat := if bit s.lk.spareUsed cl.val then 0 else 1

/-- The result of IDENTIFY in the table's order, each value in the bytes it needs (log 15). -/
def State.identity (s : State) : List Byte :=
  leBytes 2 0x00A1 ++ leBytes 2 s.lk.romver.toNat ++ leBytes 1 s.lk.patch ++ leBytes 4 s.lk.patchSeq ++ leBytes 8 s.vault.serial.toNat ++
    leBytes 1 (fld s.memc.cfg 0 8) ++ leBytes 1 (fld s.memc.cfg 16 8) ++ leBytes 1 s.pins.width ++ leBytes 1 s.pins.speed ++
    allClusters.flatMap fun cl => leBytes 1 (s.sparesLeft cl)

def execIdentify (src : Src) (s : State) : Result :=
  s.command src ⟨0x0001, true, false, anyRun⟩ fun s => s.answerBytes src 0x0001 Err.ok.code s.identity

/-- Cores failed or lost, one bit each. -/
def State.failedCores (s : State) : Val :=
  allCores.foldl (fun v c => if (s.coreOf c).run = .failed ∨ (s.coreOf c).run = .lost then setBit v c.val true else v) 0
def State.failedLanes (s : State) : Val :=
  (List.range 24).foldl (fun v m => if (s.laneOf m).st = 4 then setBit v m true else v) 0

def execStatus (src : Src) (s : State) : Result :=
  s.command src ⟨0x0002, true, false, anyRun⟩ fun s =>
    s.answer src 0x0002 .ok [s.weiRead 5, s.manRead 8, s.silStat, s.mbxStat, s.failedCores, s.failedLanes]

/-! ### Memory -/

def spansMeet (a n b m : Nat) : Bool := decide (a < b + m) && decide (b < a + n)

/-- A place for a new allocation: in the store, apart from the others and from the mirrored region. -/
def State.placeFree (s : State) (a n : Nat) : Bool :=
  s.storeRange a n && (s.lk.allocs.all fun b => !spansMeet a n b.1 b.2) &&
    !spansMeet a n s.memc.mirBase (s.memc.mirLen * 65536)

/-- First fit above an allocation, the mirrored region or 0. -/
def State.firstFit (s : State) (n align : Nat) : Option Nat :=
  let ups := 0 :: (s.memc.mirBase + s.memc.mirLen * 65536) :: s.lk.allocs.map fun b => b.1 + b.2
  (ups.map fun u => (u + align - 1) / align * align).find? fun a => s.placeFree a n

def isPow2 (n : Nat) : Bool := decide (0 < n) && decide (2 ^ Nat.log2 n = n)

/-- MEM_ALLOC. Which free place is taken is open: a free value proposes one, else the first fit (log 3, log 41). The class has no
effect that the spec states. -/
def execMemAlloc (src : Src) (words align : Nat) (raw : Bool) (s : State) : Result :=
  if !s.spells src [(64, words), (64, align), (1, raw.toNat)] then .next s
  else s.command src ⟨0x0101, true, false, anyRun⟩ fun s =>
    if words = 0 || align < 8 || !isPow2 align then s.answer src 0x0101 .arg
    else match s.firstFit words align with
      | none => s.answer src 0x0101 .noMem
      | some f =>
        let (v, s1) := s.fresh
        let p := v.toNat / align * align
        let a := if s.placeFree p words then p else f
        (s1.modLk fun l => { l with allocs := l.allocs ++ [(a, words)] }).answer src 0x0101 .ok [BitVec.ofNat 64 a]

def execMemFree (src : Src) (addr : Nat) (s : State) : Result :=
  if !s.spells src [(64, addr)] then .next s
  else s.command src ⟨0x0102, true, false, anyRun⟩ fun s =>
    match s.lk.allocs.find? fun b => b.1 == addr with
    | none => s.answer src 0x0102 .arg
    | some b =>
      if s.weir.tasks.any fun t => spansMeet b.1 b.2 t.args.carryBase 32 then s.answer src 0x0102 .busy
      else (s.modLk fun l => { l with allocs := l.allocs.filter fun x => x.1 != addr }).answer src 0x0102 .ok

/-- A byte string that is a whole serialisation (R81). -/
def serialOk (bs : List Byte) : Bool := bs.length % 72 % 9 == 0

/-- MEM_WRITE (R82). -/
def execMemWrite (src : Src) (addr : Nat) (b : B2) (tags : List Tag) (s : State) : Result :=
  s.command src ⟨0x0103, false, true, anyRun⟩ fun s =>
    let s := s.readB2 src b
    match s.b2Bytes src b with
    | .error e => s.answer src 0x0103 e
    | .ok bs =>
      let ws := deserialise bs
      if !serialOk bs || !s.rangeOk addr ws.length then s.answer src 0x0103 .arg
      else if ws.any fun w => !tags.contains w.tag then s.answer src 0x0103 .tag
      else (putWords addr ws s).answer src 0x0103 .ok [BitVec.ofNat 64 ws.length]

def execMemRead (src : Src) (addr words : Nat) (s : State) : Result :=
  s.command src ⟨0x0104, false, true, anyRun⟩ fun s =>
    if s.rangeOk addr words then
      let s := s.homeReads ((List.range words).map (addr + ·))
      s.answerOut src 0x0104 (serialise ((List.range words).map fun i => s.rd (addr + i)))
    else s.answer src 0x0104 .arg

/-- CODE_LOAD writes CODE words with the predecode as supplied (R69). -/
def execCodeLoad (src : Src) (addr : Nat) (b : B2) (s : State) : Result :=
  s.command src ⟨0x0201, false, true, stoppedOnly⟩ fun s =>
    let s := s.readB2 src b
    match s.b2Bytes src b with
    | .error e => s.answer src 0x0201 e
    | .ok bs =>
      let ws : List Word := (chunks 8 bs.length bs).map fun g => ⟨tCODE, BitVec.ofNat 64 (leNat g)⟩
      if bs.length % 8 != 0 || !s.rangeOk addr ws.length then s.answer src 0x0201 .arg
      else (putWords addr ws s).answer src 0x0201 .ok [BitVec.ofNat 64 ws.length]

def execUcodeStatus (src : Src) (s : State) : Result :=
  if !s.spells src [outArg src] then .next s
  else s.command src ⟨0x0203, true, false, anyRun⟩ fun s =>
    s.answerOut src 0x0203 ((List.range 32).flatMap fun n => leBytes 8 (mget valD s.lk.cxd n).toNat)

/-! ### Frame tasks -/

def execTaskAdmit (src : Src) (args : AdmitArgs) (s : State) : Result :=
  if !s.spellsAdmit src args then .next s
  else s.command src ⟨0x0301, true, true, anyRun⟩ fun s =>
    match s.admitErr args with
    | some e => s.answer src 0x0301 e
    | none =>
      if s.resultFits src (valBytes (s.admitReport args)).length then (s.admitTask args).configured src 0x0301 (s.admitReport args)
      else s.answer src 0x0301 .arg

/-- The last pound of a task that is withdrawn now: the pound in progress, or the first one that it takes part in (R49). -/
def State.lastPound (s : State) (t : Task) : BitVec 48 :=
  let p := s.weir.pound
  match t.phase with
  | .joining n => p + BitVec.ofNat 48 n
  | _ => if s.runOpen then p else if s.weir.runSt = .starting then s.weir.first else p

/-- TASK_WITHDRAW: at once while the run is STOPPED, else at the first tick at which the task has completed or been abandoned
(R49). -/
def execTaskWithdraw (src : Src) (id : Nat) (s : State) : Result :=
  if !s.spells src [(64, id)] then .next s
  else s.command src ⟨0x0302, true, true, anyRun⟩ fun s =>
    match s.taskOf id with
    | none => s.answer src 0x0302 .arg
    | some t =>
      let s1 := if s.weir.runSt = .stopped then s.withdrawTask id else s.modTask id fun t => { t with leaving := true }
      s1.configured src 0x0302 [(s.lastPound t).setWidth 64]

/-- Admitted parameters in the order of Table 2.8, each in the bytes it needs (log 15). -/
def taskBytes (a : AdmitArgs) : List Byte :=
  leBytes 2 a.id.val ++ leBytes 1 a.prio.toNat ++ leBytes 4 a.offset ++ leBytes 4 a.deadline ++ leBytes 4 a.budget ++ leBytes 2 a.customU ++
    leBytes 4 a.recBudget ++ leBytes 3 a.links.toNat ++ leBytes 3 a.credits ++ leBytes 5 a.carryBase ++ leBytes 4 a.carryMask.toNat ++
    leBytes 1 a.vector.toNat

def execTaskQuery (src : Src) (id : Nat) (s : State) : Result :=
  if !s.spells src [(64, id)] then .next s
  else s.command src ⟨0x0303, true, false, anyRun⟩ fun s =>
    match s.taskOf id with
    | none => s.answer src 0x0303 .arg
    | some t => s.answerBytes src 0x0303 Err.ok.code (taskBytes t.args)

/-! ### Messages (R335) -/

/-- The words a command carries are the last of its arguments: serialised in ARGS (R81, Table 15.6), or in the argument block. -/
def State.carriesWords (s : State) (src : Src) (ws : List Word) : Bool :=
  match src with
  | .host .. => match s.mbx.queue with | q :: _ => (serialise ws).isSuffixOf q.args | [] => false
  | .towpath .. => ws.isSuffixOf (s.block src)

/-- TASK_MSG: an entry for the inbox of the task's core, word 1 naming the bank. A bank without a frame task has a task id too
(Table 15.12). -/
def execTaskMsg (src : Src) (id timeout : Nat) (words : List Word) (s : State) : Result :=
  if !s.carriesWords src words then .next s
  else s.command src ⟨0x0304, false, true, anyRun⟩ fun s =>
    if 512 ≤ id || 6 < words.length then s.answer src 0x0304 .arg
    else
      (s.modLk fun l => { l with msgs := l.msgs ++ [⟨src, srcTag src, id, timeout⟩] }).toInbox (coreOfId id)
        (inboxHeader 0x0304 0 (srcTag src)) (fixN (id % 8) :: words)

/-- A reply at once: it answers the message with its TAG, if one still waits. -/
def State.replyNow (s : State) (tag : BitVec 32) (words : List Word) : State :=
  match s.lk.msgs.find? fun m => m.tag = tag with
  | none => s
  | some m => (s.modLk fun l => { l with msgs := l.msgs.filter fun m => m.tag ≠ tag }).answer m.src 0x0304 .ok [] words

/-- The message at the head of a core's send queue. -/
def State.headMsg (s : State) : Src → Option TpMsg
  | .towpath c _ _ => (s.coreOf c).sendq.head?
  | .host .. => none

/-- TASK_REPLY comes by towpath only, from the bank that sent the message. From a bank that holds a frame task it is staged to the
tick commit; the result of a pound that the task did not complete is answered with E_ABANDONED there (R31). -/
def execTaskReply (src : Src) (hostTag : BitVec 32) (bank : Fin 8) (words : List Word) (s : State) : Result :=
  let m := (s.headMsg src).getD ⟨0, 0, 0, 0, 0, 0, false⟩
  if !s.carriesWords src words || (!fromHost src && (m.bank != bank || !s.spells src [(32, hostTag.toNat)])) then .next s
  else s.command src ⟨0x0305, true, true, anyRun⟩ fun s =>
    match src with
    | .host .. => s.answer src 0x0305 .denied
    | .towpath c _ _ =>
      if 5 < words.length then s.answer src 0x0305 .arg
      else if s.isFrame (bk c bank) then
        (s.modLk fun l => { l with replies := l.replies ++ [⟨bk c bank, hostTag, words, m.pound, m.dead⟩] }).answer src 0x0305 .ok
      else (s.replyNow hostTag words).answer src 0x0305 .ok

/-- The timeout of a message, in pounds, has passed. -/
def execTaskMsgTimeout (tag : BitVec 32) (s : State) : Result :=
  .next (
    match s.lk.msgs.find? fun m => m.tag = tag with
    | some m =>
      if s.on && !s.dbg.frozen && s.lk.st == .ready && m.left == 0 then
        (s.modLk fun l => { l with msgs := l.msgs.filter fun m => m.tag ≠ tag }).answer m.src 0x0304 .taskTimeout
      else s
    | none => s)

end Sys2Proof.Machine
end

