-- ==== Sys2Proof/Machine/Links.lean ====
section
/-!
DEFINITION. What front-ends send (R248, R257 to R259), lane failures and re-stripes (R238 to R240), the link states
(Table 11.3) and the cell slot (R243).
-/

namespace Sys2Proof.Machine

/-- A link on which cells arrive. -/
def State.hears (s : State) (n : LinkId) : Bool := s.engines && (s.linkOf n.val).st.alive

def State.countCrc (s : State) (n : Nat) : State := s.modLink n fun l => { l with crcerr := satInc 16 l.crcerr }

/-- A STATUS request: its fields in TWL_LSTAT, and the LOCK pair that takes ALIGN to UP or DEGRADED (R258, Table 11.3). -/
def State.status (s : State) (n : Nat) (pound : BitVec 16) (v : Val) : State :=
  let l := s.linkOf n
  let lock := bit v 0
  let s1 := s.modLink n fun l =>
    { l with dbulk := BitVec.ofNat 32 (fld v 32 32), alarm := BitVec.ofNat 16 (fld v 16 16), festat := BitVec.ofNat 8 (fld v 0 8),
             spound := pound, lastLock := if lock then some pound else none }
  if l.st = .align ∧ lock ∧ l.lastLock = some (pound - 1) then s1.setLinkSt n (s1.linkOf n).alignTarget else s1

def execFeStatus (n : LinkId) (pound : BitVec 16) (data : Val) (s : State) : Result :=
  .next (if s.hears n then s.status n.val pound data else s)

/-- An ECHO response on a position: the round trip less the turnaround against the lane's calibrated sum, in ps (R248).
DESIGN CHOICE (log 32): CALMIS stays set when a later measurement is within 4 ns. -/
def execEchoResponse (n : LinkId) (pos : Nat) (roundTrip turnaround : Int) (s : State) : Result :=
  .next (
    match (s.linkOf n.val).map[pos]? with
    | some m =>
      if s.hears n then
        let o := (s.laneOf m).ofs
        let rtt := roundTrip - turnaround
        let err := rtt - (sx 32 (fld o 32 32) + sx 32 (fld o 0 32))
        s.modLink n.val fun l => { l with rtt := rtt, err := err, calmis := l.calmis || decide (4000 < err.natAbs) }
      else s
    | none => s)

def execLanemapResponse (n : LinkId) (s : State) : Result := .next (if s.hears n then s.lanemapDone n.val else s)

/-- The lane of a connector: position p keeps connector p, the spare is connector 4 (R257). -/
def Link.connector (l : Link) (k : Nat) : Option Nat :=
  if k = 4 then (if lSpen l.lcfg then some (lSpare l.lcfg) else none)
  else if k < lWidth l.lcfg then some (lLane l.lcfg k) else none

/-- A LANEFAIL report is the fifth cause of R238. -/
def execLanefail (n : LinkId) (connector : BitVec 3) (s : State) : Result :=
  .next (
    if s.hears n then
      match (s.linkOf n.val).connector connector.toNat with | some m => s.failLane m 5 | none => s
    else s)

/-! ### FE_ACCESS (R257) -/

/-- The error code of a response whose RESULT is not 0 is open: a free value (log 3). -/
def execFeAccessResponse (n : LinkId) (seq : BitVec 16) (result : BitVec 8) (vals : List Val) (s : State) : Result :=
  .next (
    match (s.linkOf n.val).ctl with
    | some r =>
      if s.hears n && r.seq == seq then
        let s1 := s.modLink n.val fun l => { l with ctl := none }
        if result = 0 then s1.answer r.src 0x603 .ok (vals.take r.reads)
        else let (v, s2) := s1.fresh; s2.answerStatus r.src 0x603 (fld v 0 16)
      else s
    | none => s)

/-- 20 µs without a response: up to three resends of the same request, then E_FE_TIMEOUT. -/
def execControlResendTimeout (n : LinkId) (s : State) : Result :=
  .next (
    match (s.linkOf n.val).ctl with
    | some r =>
      if !s.engines then s
      else if r.attempts < 4 then
        (s.modLink n.val fun l => { l with ctl := some { r with attempts := r.attempts + 1 }, ctlretry := satInc 4 l.ctlretry }).queueCell
          n.val r.cell
      else (s.modLink n.val fun l => { l with ctl := none }).answer r.src 0x603 .feTimeout
    | none => s)

/-- An upstream BULK cell: discarded beyond the credit (R259), or when its SID names no such stream (R244). -/
def execBulkCell (n : LinkId) (cell : RxCell) (s : State) : Result :=
  .next (
    if s.hears n then
      match (if cell.payload.length ≤ 116 then s.streamBySid n.val 2 cell.sid.toNat else none) with
      | none => s.countCrc n.val
      | some (k, _) =>
        if (s.linkOf n.val).bulkUp < (s.linkOf n.val).bulkCred then
          (s.modLink n.val fun l => { l with bulkUp := l.bulkUp + 1 }).feed k cell.payload
        else s.modLink n.val fun l => { l with drvdisc := satInc 4 l.drvdisc }
    else s)

/-! ### Lanes and states -/

def execLaneFailed (m : LaneId) (cause : BitVec 8) (s : State) : Result :=
  .next (if s.engines then s.failLane m.val cause.toNat else s)

def execReStripe (n : LinkId) (s : State) : Result := .next (if s.engines then s.reStripe n.val else s)

def execLinkRetrain (n : LinkId) (s : State) : Result :=
  .next (if s.engines && lEn (s.linkOf n.val).lcfg && (s.linkOf n.val).st == .down then s.trainLink n.val else s)

/-- Every position has trained; a spare that has not sets SPFAIL (Table 11.3). -/
def State.trained (s : State) (n : Nat) (nrz spareOk : Bool) : State :=
  let l := s.linkOf n
  let spareOk := spareOk && !l.spfail
  let lit (st : Nat) (s : State) (m : Nat) : State := s.modLane m fun x => { x with st := st, cdrlk := true, feclk := true }
  let s1 := forEach l.map s (lit 2)
  let s2 := if lSpen l.lcfg && spareOk then lit 3 s1 (lSpare l.lcfg) else s1
  (s2.modLink n fun l => { l with nrz := nrz, spfail := lSpen l.lcfg && !spareOk }).linkAlign n

/-- RATE = 0 trains at PAM4 only, 1 at NRZ, 2 at PAM4 and else NRZ; not before the lanes are powered (R371). -/
def execTrainComplete (n : LinkId) (pam4 spareOk : Bool) (s : State) : Result :=
  .next (
    let l := s.linkOf n.val
    if s.engines && l.st == .train && l.map.all fun m => s.domOn (176 + m) then
      match lRate l.lcfg with
      | 0 => if pam4 then s.trained n.val false spareOk else s
      | 1 => s.trained n.val true spareOk
      | _ => s.trained n.val (!pam4) spareOk
    else s)

def execTrainTimeout (n : LinkId) (s : State) : Result :=
  .next (if s.engines && (s.linkOf n.val).st == .train then s.linkDown n.val else s)

def execAlignTimeout (n : LinkId) (s : State) : Result :=
  .next (if s.engines && (s.linkOf n.val).st == .align then s.linkTrain n.val else s)

def execCellSlot (n : LinkId) (s : State) : Result := .next (if s.engines then s.cellSlot n.val else s)

def execDiscardedCell (n : LinkId) (s : State) : Result := .next (if s.hears n then s.countCrc n.val else s)

end Sys2Proof.Machine
end

