-- ==== Sys2Proof/Machine/Samples.lean ====
section
/-!
DEFINITION. The pound's events: ticks, the commit word, D_out (chapter 02); SAMPLE cells, their classes, delivery and the
close (R250 to R252, R402); the sill guard's comparisons and firings (R261 to R263); the abort pin (R265).
-/

namespace Sys2Proof.Machine

/-! ### The sill guard (R261 to R263) -/

/-- Fields of a guard entry (Table 12.1). -/
def Entry.high (e : Entry) : Nat := fld e.w0 32 32
def Entry.low (e : Entry) : Nat := fld e.w0 0 32
def Entry.slew (e : Entry) : Nat := fld e.w1 32 32
def Entry.persist (e : Entry) : Nat := fld e.w1 24 8
def Entry.action (e : Entry) : Nat := fld e.w1 16 3

/-- An integer as an exact datum. -/
def exactInt (v : Int) : FP := .fin (decide (v < 0)) v.natAbs 0

/-- A sample in its stream's format: int24 containers hold the sample in bits 23:0 (R67), int16 in bits 15:0. -/
def sampleOf (fmt raw : Nat) : FP := match fmt with | 0 => exactInt (sx 24 raw) | 1 => exactInt (sx 16 raw) | _ => unpack b32 raw

/-- A threshold in that format (R261). -/
def limitOf (fmt v : Nat) : FP := match fmt with | 0 => exactInt (sx 32 v) | 1 => exactInt (sx 16 v) | _ => unpack b32 v

def FP.isNan : FP → Bool | .nan _ => true | _ => false

/-- A finite datum over the least exponent of binary32, so that differences are exact. -/
def scaled (neg : Bool) (m : Nat) (e : Int) : Int := signedAt neg m e b32.emin

/-- |x − p| > slew on exact values. -/
def overSlew (x p slew : FP) : Bool :=
  match x, p, slew with
  | .fin n m e, .fin n' m' e', .fin ns ms es =>
    decide (scaled ns ms es < ((scaled n m e - scaled n' m' e').natAbs : Int))
  | .nan _, _, _ => false
  | _, .nan _, _ => false
  | _, _, .nan _ => false
  | .inf a, .inf b, _ => a != b && (match slew with | .inf n => n | _ => true)
  | _, _, .inf n => n
  | _, _, _ => true

/-- Cause bits of a violation: 1 LOW, 2 HIGH, 4 SLEW; 0 for none. `prev` is the sample of the directly preceding
instant. -/
def violation (fmt : Nat) (e : Entry) (raw : Nat) (prev : Option (BitVec 32)) : Nat :=
  let x := sampleOf fmt raw
  let low := x.isNan || fpCmp x (limitOf fmt e.low) == some .lt
  let high := x.isNan || fpCmp x (limitOf fmt e.high) == some .gt
  let slew := match prev with | some p => overSlew x (sampleOf fmt p.toNat) (limitOf fmt e.slew) | none => false
  low.toNat + 2 * high.toNat + 4 * slew.toNat

/-- The MEAS value of a sample: exact in binary32 (R263). -/
def sampleBits (fmt raw : Nat) : Nat :=
  match fmt with | 0 => (fpOfInt b32 .rne (sx 24 raw)).1 | 1 => (fpOfInt b32 .rne (sx 16 raw)).1 | _ => raw % 2 ^ 32

/-- A firing of a channel's entry for the sample of instant k of n of pound p; SIL_LAST shows the pound of the firing (R263, Table 12.5). -/
def State.fire (s : State) (chan fmt raw : Nat) (e : Entry) (cause : Nat) (p : BitVec 48) (k n : Nat) : State :=
  let act := e.action
  let s1 := s.modSil fun x => { x with fires := satInc 32 x.fires }
  if act = 0 then s1
  else
    let s2 := (s1.modSil fun x =>
      { x with lastPound := BitVec.ofNat 16 s.weir.pound.toNat, lastCause := BitVec.ofNat 3 cause, lastAction := BitVec.ofNat 3 act,
               lastChan := BitVec.ofNat 14 chan }).raise evSillEntry
    if act < 2 then s2
    else
      let ws := [timeW (timeVal p (k * 65536 / n)), fix (put chan 0 14 ||| put cause 16 3 ||| put act 20 3),
        meas (sampleBits fmt raw) 2 chan, fixN e.persist]
      let r := { wordsRecord 2 2 chan s2.now ws with key := p.toNat * 2 ^ 40 + k * 2 ^ 40 / n }
      let s3 := s2.stage r
      if 4 ≤ act then s3.abort (2 ^ (act - 4)) 1 chan else s3

/-- The sample of the instant directly before instant k of n of pound p, where the channel's last was that one (R262). -/
def ChanSt.before (c : ChanSt) (p : BitVec 48) (k n : Nat) : Option (BitVec 32) :=
  match c.prev with
  | some (q, j, v) => if (q = p.toNat ∧ j + 1 = k) ∨ (q + 1 = p.toNat ∧ k = 0 ∧ j + 1 = n) then some v else none
  | none => none

/-- One received sample meets its channel's entry, which fires once in a pound of the device, whatever pound the sample belongs to (R262). An
entry at its reset value has no PERSIST to reach. -/
def State.guardSample (s : State) (chan fmt raw : Nat) (p : BitVec 48) (k n : Nat) : State :=
  let e := mget entryD s.sil.entries chan
  if !s.sil.armed || e.persist = 0 then s
  else
    let c := mget chanStD s.sil.chan chan
    let cause := violation fmt e raw (c.before p k n)
    let c1 := { c with prev := some (p.toNat, k, BitVec.ofNat 32 raw) }
    let keep (c : ChanSt) : State := s.modSil fun x => { x with chan := mset chanStD x.chan chan c }
    if cause = 0 then keep { c1 with count := 0, spent := false }
    else if c.spent then keep c1
    else
      let count := min e.persist (c.count + 1)
      if count = e.persist ∧ c.fired ≠ some s.weir.pound then
        (keep { c1 with count := 0, spent := true, fired := some s.weir.pound }).fire chan fmt raw e cause p k n
      else keep { c1 with count := count }

/-- The elements a cell carries, with their numbers in the stream's pound. -/
def elements (size index : Nat) (bytes : List Byte) : List (Nat × Nat) :=
  ((chunks size bytes.length bytes).filter fun b => b.length == size).zipIdx.map fun bi =>
    (index * 116 / size + bi.2, leNat bi.1)

/-- The guard compares the samples a cell carries, in stream order. -/
def State.guardCell (s : State) (x : Stream) (p : BitVec 48) (index : Nat) (bytes : List Byte) : State :=
  let nch := sNch x.scfg
  forEach (elements (elemSize (sFmt x.scfg)) index bytes) s fun s je =>
    s.guardSample (gFirst x.sgeom + je.1 % nch) (sFmt x.scfg) je.2 p (je.1 / nch) (gNsamp x.sgeom)

/-! ### Status entries (Table 11.8) -/

/-- Write words 0 and 1 of an entry and its mirror. -/
def State.statusEntry (s : State) (k : Nat) (p : BitVec 48) (w1 : Val) : State :=
  let x := s.streamOf k
  let base := fld x.sbase 0 36 + 2 * (p.toNat % 4)
  let s1 := (s.wr base (timeW (timeVal p 0))).wr (base + 1) (fix w1)
  s1.modStream k fun x =>
    { x with ents := ((p, w1) :: x.ents.filter fun e => e.1.toNat % 4 != p.toNat % 4).take 4,
             sstat := put p.toNat 48 16 ||| put (fld w1 56 8) 40 8 ||| put (min (fld w1 24 24) 65535) 24 16 ||| put (fld w1 0 24) 0 24 }

/-- The entry of a pound with its quality and missing cells; LATE is what has been counted for it. -/
def State.writeEntryOf (s : State) (k : Nat) (p : BitVec 48) (qual miss : Nat) : State :=
  let late := match (s.streamOf k).ents.find? fun e => e.1 == p with | some e => fld e.2 0 24 | none => 0
  s.statusEntry k p (put qual 56 8 ||| put miss 24 24 ||| put late 0 24)

/-- A late cell of a pound: TWL_LERR.LATE, and LATE of the entry while the ring holds it. -/
def State.lateCell (s : State) (k n : Nat) (p : BitVec 48) : State :=
  let s1 := s.modLink n fun l => { l with late := satInc 8 l.late }
  let x := s1.streamOf k
  match x.ents.find? fun e => e.1 == p with
  | none => s1
  | some e =>
    let w1 := setFld e.2 0 24 (satInc 24 (fld e.2 0 24))
    let s2 := s1.wr (fld x.sbase 0 36 + 2 * (p.toNat % 4) + 1) (fix w1)
    s2.modStream k fun x =>
      { x with ents := x.ents.map fun f => if f.1 == p then (p, w1) else f,
               sstat := if fld x.sstat 48 16 == p.toNat % 65536 then setFld x.sstat 0 24 (fld w1 0 24) else x.sstat }

/-! ### Delivery in order (R252, R402) -/

/-- A cell's share of the stream's pound. -/
def Stream.share (x : Stream) (index : Nat) : Nat := min 116 (x.bytes - 116 * index)

def Stream.rxOf (x : Stream) (p : BitVec 48) : RxPound := (x.rx.find? fun r => r.pound == p).getD { pound := p }
def Stream.putRx (x : Stream) (r : RxPound) : Stream := { x with rx := r :: x.rx.filter fun q => q.pound != r.pound }
def bytesD (_ : Nat) : List Byte := []

/-- QUAL of a pound as it stands: MISSING, else STALE (Table 11.8). -/
def Stream.qual (x : Stream) (miss : Nat) : Nat := if 0 < miss then 5 else if x.stale then 4 else 0

/-- Deliver the bytes of the next cell; the status entry goes before the last of them. -/
def State.deliverNext (s : State) (k : Nat) (p : BitVec 48) (miss : Nat) (bs : List Byte) : State :=
  let x := s.streamOf k
  let r := x.rxOf p
  let s1 := if r.next + 1 = gCells x.sgeom then s.writeEntryOf k p (x.qual miss) miss else s
  (s1.feed k bs).modStream k fun x =>
    x.putRx { r with next := r.next + 1, log := if sLog x.scfg then r.log ++ bs else r.log }

/-- Deliver every cell that has come to its turn; at the close, zeros for the missing ones. -/
def State.pump (k : Nat) (p : BitVec 48) (closing : Bool) (miss : Nat) : Nat → State → State
  | 0, s => s
  | fuel + 1, s =>
    let x := s.streamOf k
    let r := x.rxOf p
    if gCells x.sgeom ≤ r.next then s
    else
      let got := mget bytesD r.got r.next
      if !got.isEmpty then State.pump k p closing miss fuel (s.deliverNext k p miss got)
      else if closing then
        State.pump k p closing miss fuel (s.deliverNext k p miss (List.replicate (x.share r.next) 0))
      else s

/-- An on-time cell (R402). -/
def State.takeCell (s : State) (k n : Nat) (p : BitVec 48) (c : RxCell) : State :=
  let x := s.streamOf k
  let r := x.rxOf p
  let i := c.index.toNat
  let bump (s : State) : State := s.modLink n fun l => { l with crcerr := satInc 16 l.crcerr }
  if gCells x.sgeom ≤ i || !(mget bytesD r.got i).isEmpty || decide (i < r.next) then bump s
  else
    let share := x.share i
    let s1 := if c.payload.length = share then s else bump s
    let s2 := s1.guardCell x p i (c.payload.take share)
    let s3 := s2.modStream k fun x => x.putRx { r with got := mset bytesD r.got i (fit share c.payload) }
    s3.pump k p false 0 (gCells x.sgeom)

/-- A SAMPLE cell received on a link (R244, Table 11.7). -/
def State.sampleCell (s : State) (n : Nat) (c : RxCell) : State :=
  let l := s.linkOf n
  if !l.st.alive then s
  else match (if c.payload.length ≤ 116 then s.streamBySid n 0 c.sid.toNat else none) with
  | none => s.modLink n fun l => { l with crcerr := satInc 16 l.crcerr }
  | some (k, x) =>
    if !l.st.carries then s
    else
      let d := sx 16 (c.pound - BitVec.ofNat 16 s.weir.pound.toNat).toNat
      let p := s.weir.pound + BitVec.ofInt 48 d
      if d = 0 ∨ (d = -1 ∧ x.closed ≠ some p) then s.takeCell k n p c
      else if d = -1 ∨ d = -2 then s.lateCell k n p
      else if d < 0 then
        (s.modLink n fun l => { l with stale := satInc 8 l.stale }).modStream k fun x => { x with stale := true }
      else
        let s1 := s.modLink n fun l =>
          { l with early := satInc 8 l.early, earlyRun := if l.earlyNow then l.earlyRun else l.earlyRun + 1, earlyNow := true }
        if 3 ≤ (s1.linkOf n).earlyRun then s1.linkAlign n else s1

/-- The close of the pound before the current one (R252), and its lane sample record (R302). -/
def State.closeStream (s : State) (k : Nat) : State :=
  let x := s.streamOf k
  let p := s.weir.pound - 1
  if !sEn x.scfg || sKind x.scfg != 0 || s.weir.pound == 0 || x.closed == some p then s
  else
    let r := x.rxOf p
    let miss := gCells x.sgeom - r.next - (r.got.filter fun ib => decide (r.next ≤ ib.1)).length
    let q := x.qual miss
    let s1 := s.modStream k fun x => { x with closed := some p }
    -- an entry written with the last cell stands unless its quality has changed since
    let stands := (x.ents.find? fun e => e.1 == p).any fun e => fld e.2 56 8 == q
    let s2 := if r.next = gCells x.sgeom && !stands then s1.writeEntryOf k p q miss else s1
    let s3 := s2.pump k p true miss (gCells x.sgeom)
    let log := ((s3.streamOf k).rxOf p).log
    let s4 := s3.modStream k fun x => { x with stale := false, rx := x.rx.filter fun r => r.pound == s.weir.pound }
    if sLog x.scfg then
      s4.stage { cls := 1, typ := 1, srcid := k, when_ := timeVal p 0, qual := q, payload := log, link := sLink x.scfg }
    else s4

/-! ### The commands -/

def execTick (s : State) : Result := .next (s.tickOnce State.tick)

def execTickInEdge (e : PinEdge) (s : State) : Result := .next (s.tickOnce fun s => s.tickIn e.falling e.ps.val)

def execTickSynthesised (s : State) : Result := .next (s.tickOnce State.tickLost)

def execCommitWordPerformed (s : State) : Result := .next (if s.clocked then s.performCommit else s)

/-- D_out at every drive link (R32). -/
def execDOut (s : State) : Result :=
  .next (if s.engines && s.weir.ticking then forEach (List.range 24) s State.dOutLink else s)

def execStreamClose (k : StreamId) (s : State) : Result :=
  .next (if s.engines && s.weir.ticking then s.closeStream k.val else s)

def execSampleCell (n : LinkId) (cell : RxCell) (s : State) : Result :=
  .next (if s.engines then s.sampleCell n.val cell else s)

/-- ABORT_IN_N low for 50 ns aborts all groups (R265); in reset the start that follows finds the pin low. -/
def execAbortInQualified (s : State) : Result :=
  .next (
    let s1 := s.modPins fun p => { p with abortIn := true }
    if !s.on then s1 else if s.dbg.frozen then s1.syncPermit else s1.abort 15 2 0)

def execAbortInRelease (s : State) : Result :=
  .next (let s1 := s.modPins fun p => { p with abortIn := false }; if s.on then s1.syncPermit else s1)

end Sys2Proof.Machine
end

