-- ==== Sys2Proof/Machine/Configure.lean ====
section
/-!
DEFINITION. Imeimin commands that configure the device: the pound and the run (R27, R34, R36), links and streams (R241, R249),
FE_ACCESS (R257), the sill guard (R269, R270), the manifest (R316, R320).
-/

namespace Sys2Proof.Machine

/-! ### The pound -/

/-- The weir with a pound configuration in force (Tables 2.12 to 2.15). -/
def Weir.configure (w : Weir) (a : PoundArgs) (ccap : Nat) : Weir :=
  { w with len := a.p, din := a.din, dout := a.dout, src := a.src, edge := a.edge, tol := a.tol, synlim := a.synlim, outen := a.outen,
           earlycnt := 0, syncnt := 0, firstEdge := true, ticking := true, elapsed := if w.ticking then w.elapsed else 0, ccap := ccap }

/-- Lines per 10 ns that half the line rate gives, at 20, 18 and 16 Gbit/s per pin (Table 2.10). -/
def State.linesPer (s : State) : Nat := match fld s.memc.cfg 16 8 with | 20 => 50 | 18 => 45 | _ => 40

/-- The limits of Table 2.2. -/
def poundOk (a : PoundArgs) : Bool :=
  let tol := if a.src then a.tol else 0
  decide (1000 ≤ a.p) && decide (a.p ≤ 100000000) && decide (200 ≤ a.din) && decide (2 * a.din ≤ a.p) &&
    decide (a.din + 100 ≤ a.dout) && decide (a.dout + tol + 200 ≤ a.p) && decide (a.tol < 65536) && decide (a.synlim < 256)

def State.poundErr (s : State) (a : PoundArgs) : Option Err :=
  let w := s.weir.configure a 0
  let bad (n : Nat) : Bool := lEn (s.lcfgOf n) && lDrive (s.lcfgOf n) && !tailOk w s.twl.streams (s.lcfgOf n) n
  if !poundOk a || (List.range 24).any bad then some .poundParam
  else if !ratesOk a.p s.twl.streams s.lcfgOf then some .linkRate
  else none

/-- A completed POUND_CONFIG: TICKOUT and TICKIN of the calibration set apply (R367), links in UP or DEGRADED align anew
(Table 11.3). -/
def State.setPound (s : State) (a : PoundArgs) : State :=
  let w := s.weir.configure a ((a.dout - a.din) * s.linesPer)
  let at_ (o : Nat) : BitVec 32 := if s.cal.valid then BitVec.ofNat 32 (leAt s.cal.bytes o 4) else 0
  let s1 := { s with weir := w, cal := { s.cal with tickOut := at_ 216, tickIn := at_ 220 } }
  forEach (List.range 24) s1 fun s n => if (s.linkOf n).st.carries then s.linkAlign n else s

def execPoundConfig (src : Src) (args : PoundArgs) (s : State) : Result :=
  s.command src ⟨0x0401, false, true, stoppedOnly⟩ fun s =>
    match s.poundErr args with
    | some e => s.answer src 0x0401 e
    | none => (s.setPound args).configured src 0x0401

/-! ### The run; its records are those of the state changes (R336) -/

def execRunStart (src : Src) (s : State) : Result :=
  s.command src ⟨0x0501, false, true, stoppedOnly⟩ fun s =>
    match s.runStartErr with
    | some e => s.answer src 0x0501 e
    | none => let s1 := s.beginRun; s1.answer src 0x0501 .ok [s1.weir.first.setWidth 64]

def runGoing (s : State) : Bool := s.weir.runSt == .running || s.weir.runSt == .starting

def execRunStop (src : Src) (s : State) : Result :=
  s.command src ⟨0x0502, false, true, runGoing⟩ fun s =>
    (s.orderlyStop 0).answer src 0x0502 .ok [s.weir.pound.setWidth 64]

/-! ### Links -/

def linkLanes (v : Val) : List Nat :=
  (List.range (lWidth v)).map (lLane v) ++ (if lSpen v then [lSpare v] else [])

/-- Table 11.12 and R237: no lane belongs to two links. -/
def State.linkParamOk (s : State) (n : Nat) (v : Val) : Bool :=
  let ls := linkLanes v
  let others := (List.range 24).flatMap fun m => if m ≠ n ∧ lEn (s.lcfgOf m) then linkLanes (s.lcfgOf m) else []
  lRate v != 3 && (ls.all fun m => decide (m < 24)) && decide ls.Nodup && (!lEn v || ls.all fun m => !others.contains m)

def State.linkErr (s : State) (n : Nat) (v : Val) : Option Err :=
  let cfg (m : Nat) : Val := if m = n then v else s.lcfgOf m
  if !s.linkParamOk n v then some .linkParam
  else if 0 < s.weir.len && lEn v && lDrive v && !tailOk s.weir s.twl.streams v n then some .admitLink
  else if !ratesOk s.weir.len s.twl.streams cfg then some .linkRate
  else none

/-- The link under a new configuration: its counters cleared, every lane trained again, or DOWN. -/
def State.setLink (s : State) (n : Nat) (v : Val) : State :=
  let old := if lEn (s.lcfgOf n) then linkLanes (s.lcfgOf n) else []
  let s1 := forEach old s fun s m => s.modLane m fun _ => {}
  let s2 := s1.modLink n fun l =>
    { l with lcfg := v, crcerr := 0, fecunc := 0, late := 0, stale := 0, early := 0, ctlretry := 0, drvdisc := 0, failcnt := 0 }
  if lEn v then s2.trainLink n else s2.linkDown n

def execLinkConfig (src : Src) (n : LinkId) (lcfg : Val) (s : State) : Result :=
  s.command src ⟨0x0601, false, true, stoppedOnly⟩ fun s =>
    let v := lcfg &&& lcfgMask
    match s.linkErr n.val v with
    | some e => s.answer src 0x0601 e
    | none => (s.setLink n.val v).configured src 0x0601

/-! ### Streams -/

def scfgMask : Val := 0xFCFF1F0000001FFF

/-- TWL_SGEOM with the CELLS of the stream (R250). -/
def geomWith (scfg sgeom : Val) : Val :=
  setFld (sgeom &&& 0xFFFF003FFF000000) 0 24 (ceilDiv (sNch scfg * gNsamp sgeom * elemSize (sFmt scfg)) 116)

/-- Tables 11.17 and 11.18; the reserved bits of TWL_SBASE are ignored (R8). -/
def State.streamFieldsOk (s : State) (scfg sgeom sbase : Val) : Bool :=
  let sample := sKind scfg == 0
  let nch := sNch scfg
  let base := fld sbase 0 36
  sFmt scfg != 3 && sSid scfg != 255 && decide (sLink scfg < 24) &&
    (if sKind scfg < 2 then decide (1 ≤ nch) && decide (nch ≤ 4096) else nch == 0) &&
    decide (1 ≤ gNsamp sgeom) && decide (nch * gNsamp sgeom * elemSize (sFmt scfg) ≤ 116 * (2 ^ 24 - 1)) &&
    (sample || (!sLog scfg && gFirst sgeom == 0)) &&
    (!sample || (decide (gFirst sgeom + nch ≤ 16384) && base % 8 == 0 && s.storeOk base))

/-- An enabled stream against another: SID on one link, channels of two SAMPLE streams. -/
def streamsClash (scfg sgeom : Val) (y : Stream) : Bool :=
  let a := gFirst sgeom
  let b := gFirst y.sgeom
  sEn y.scfg && ((sLink y.scfg == sLink scfg && sSid y.scfg == sSid scfg) ||
    (sKind scfg == 0 && sKind y.scfg == 0 && decide (a < b + sNch y.scfg) && decide (b < a + sNch scfg)))

/-- The stream with a new configuration; the last status entry and the last holder stay. -/
def Stream.configure (x : Stream) (scfg sgeom sbase : Val) : Stream :=
  { scfg := scfg, sgeom := sgeom, sbase := sbase &&& 0xFFFFFFFFF, sstat := x.sstat, holder := x.holder }

/-- The checks of a stream's configuration (R249). DEDUCED (log 55): a stream with EN = 0 is not refused for an overlap. -/
def State.streamErr (s : State) (k : Nat) (scfg sgeom sbase : Val) : Option Err :=
  let others := s.twl.streams.filter fun kx => kx.1 != k
  let streams := mset streamD s.twl.streams k ((s.streamOf k).configure scfg sgeom sbase)
  let bytes := sNch scfg * gNsamp sgeom * elemSize (sFmt scfg)
  if !s.streamFieldsOk scfg sgeom sbase then some .linkParam
  else if sEn scfg && others.any fun kx => streamsClash scfg sgeom kx.2 then some .linkParam
  else if !ratesOk s.weir.len streams s.lcfgOf then some .linkRate
  else if sEn scfg && sLog scfg && s.man.en && !longestOk s.man.size (recLenOf bytes) then some .manRing
  else none

def execStreamConfig (src : Src) (k : StreamId) (scfg sgeom sbase : Val) (s : State) : Result :=
  s.command src ⟨0x0602, false, true, stoppedOnly⟩ fun s =>
    let c := scfg &&& scfgMask
    let g := geomWith c sgeom
    match s.streamErr k.val c g sbase with
    | some e => s.answer src 0x0602 e
    | none =>
      ((s.modStream k.val fun x => x.configure c g sbase).recount).configured src 0x0602 [BitVec.ofNat 64 (gCells g)]

/-! ### FE_ACCESS (R257) -/

/-- One request is outstanding on a link; the next waits for its answer. -/
def execFeAccess (src : Src) (n : LinkId) (write : Bool) (addr : BitVec 32) (count : Nat) (vals : List Val) (s : State) : Result :=
  if (s.linkOf n.val).ctl.isSome then .next s
  else s.command src ⟨0x0603, false, true, anyRun⟩ fun s =>
    let reads := if write then 0 else count
    if count = 0 || 12 < count || (write && vals.length != count) || !s.resultFits src (8 * reads) then s.answer src 0x0603 .arg
    else
      let q := (s.linkOf n.val).ctlSeq
      let data := if write then vals else []
      let c : TxCell := { typ := 6, pound := s.pound16, payload := ctlPayload write.toNat q.toNat addr.toNat count 0 data }
      (s.modLink n.val fun l => { l with ctlSeq := q + 1, ctl := some ⟨src, q, 1, c, reads⟩ }).queueCell n.val c

/-! ### The sill guard -/

/-- The entries of a byte string (R269). -/
def entriesOf (bs : List Byte) : List Entry :=
  (chunks 16 bs.length bs).map fun g => ⟨BitVec.ofNat 64 (leAt g 0 8), BitVec.ofNat 64 (leAt g 8 8)⟩

/-- Table 12.1. -/
def Entry.ok (e : Entry) : Bool := e.persist != 0 && e.action != 3 && fld e.w1 19 5 == 0 && fld e.w1 0 16 == 0

/-- Reserved fields of SIL_GRP are zero (Table 12.5). -/
def grpOk (v : Val) : Bool := fld v 24 37 == 0

def State.loadEntries (s : State) (first : Nat) (es : List Entry) : State :=
  s.modSil fun x => { x with entries := es.zipIdx.foldl (fun m ei => mset entryD m (first + ei.2) ei.1) x.entries }

/-- What a GUARD_LOAD does, or why it is refused. -/
def State.guardLoad (s : State) (src : Src) : GuardForm → Except Err State
  | .entries first b =>
    let s := s.readB2 src b
    match s.b2Bytes src b with
    | .error e => .error e
    | .ok bs =>
      let es := entriesOf bs
      if bs.length % 16 != 0 || 16384 < first + es.length then .error .arg
      else if es.any fun e => !e.ok then .error .guardParam
      else .ok (s.loadEntries first es)
  | .profile link frames b =>
    let s := s.readB2 src b
    match s.b2Bytes src b with
    | .error e => .error e
    | .ok bs =>
      let sizes := s.frameSizes link.val
      let nval := frames * sizes.length
      if 4096 < nval || 4096 < frames then .error .guardParam
      else if bs.length != frames * sizes.foldl (· + ·) 0 then .error .arg
      else .ok (s.modSil fun x => { x with prof := mset profD x.prof link.val ⟨frames, nval, bs⟩ })
  | .groups b =>
    let s := s.readB2 src b
    match s.b2Bytes src b with
    | .error e => .error e
    | .ok bs =>
      let vs : List Val := (List.range 4).map fun g => BitVec.ofNat 64 (leAt bs (8 * g) 8)
      if bs.length != 32 then .error .arg
      else if vs.any fun v => !grpOk v then .error .guardParam
      else .ok (s.modSil fun x => { x with grp := vs.zipIdx.foldl (fun m vg => mset valD m vg.2 vg.1) [] })

def execGuardLoad (src : Src) (form : GuardForm) (s : State) : Result :=
  s.command src ⟨0x0701, false, true, stoppedOnly⟩ fun s =>
    if s.sil.armed then s.answer src 0x0701 .guardArmed
    else match s.guardLoad src form with
      | .error e => s.answer src 0x0701 e
      | .ok s1 => (s1.modSil fun x => { x with loaded := true }).syncPermit.configured src 0x0701

/-- GUARD_PREPARE; the nonce is a free value (log 3). -/
def execGuardPrepare (src : Src) (s : State) : Result :=
  s.command src ⟨0x0702, false, true, stoppedOnly⟩ fun s =>
    let (v, s1) := s.fresh
    let nonce : BitVec 32 := v.setWidth 32
    let crc := crc32c s.guardBytes
    let s2 := s1.modSil fun x => { x with armed := false, cfgcrc := crc, nonce := some nonce, loaded := false }
    s2.syncPermit.configured src 0x0702 [nonce.setWidth 64, crc.setWidth 64]

/-- What arming leaves of a channel: the pound in which its entry last fired (R262). -/
def rearmed (kc : Nat × ChanSt) : Option (Nat × ChanSt) := if kc.2.fired.isSome then some (kc.1, { fired := kc.2.fired }) else none

/-- GUARD_ARM clears every persistence count and spent mark, and the counts since arming. -/
def execGuardArm (src : Src) (nonce crc : BitVec 32) (s : State) : Result :=
  s.command src ⟨0x0703, false, true, stoppedOnly⟩ fun s =>
    if s.sil.nonce = some nonce ∧ s.sil.loaded = false ∧ s.sil.cfgcrc = crc then
      (s.modSil fun x => { x with armed := true, nonce := none, chan := x.chan.filterMap rearmed, fires := 0, aborts := 0 }).syncPermit.configured src 0x0703
    else s.answer src 0x0703 .guardNonce

/-! ### The manifest (R316, R320) -/

/-- Length of the longest record the configuration can produce (R308). -/
def State.longest (s : State) : Nat :=
  let lanes := s.twl.streams.foldl (fun a kx => if sEn kx.2.scfg && sLog kx.2.scfg then max a (recLenOf kx.2.bytes) else a) 128
  s.weir.tasks.foldl (fun a t => max a (longestTask t.args)) lanes

/-- The mirrored region: 64 Kw aligned, 64 Mw in the tagged store, apart from every carry area. -/
def State.regionOk (s : State) (base : Nat) : Bool :=
  base % 65536 == 0 && s.storeRange base 0x4000000 && s.weir.tasks.all fun t => !spansMeet base 0x4000000 t.args.carryBase 32

def Manifest.empty (m : Manifest) : Bool := m.backlog.isEmpty && (match m.inCommit with | some c => c.placed.isEmpty | none => true)

def State.manErr (s : State) (a : ManArgs) : Option Err :=
  let m := s.man
  let restored := m.st == .restored && !a.discard
  if a.ring.toNat % 4096 != 0 || a.sz < 20 || 34 < a.sz || a.ptaddr.toNat % 16 != 0 || 64 * mib < a.thresh || !s.regionOk a.region then
    some .manParam
  else if restored && decide (m.pt < a.hostDur) then some .manParam
  else if !longestOk (2 ^ a.sz) s.longest || (restored && a.sz != m.sz) then some .manRing
  else if m.st == .opened && !m.empty && !a.discard then some .manBusy
  else none

/-- The backlog after the host's durable MSN. -/
def Manifest.durableTo (m : Manifest) (n : Nat) : Manifest :=
  let upTo := m.backlog.filter fun p => p.record.isSome && decide (p.msn ≤ n)
  let stop := match upTo.getLast? with | some p => p.rbp + p.len | none => m.durEnd
  { m with durable := n, durEnd := stop, written := stop, backlog := m.backlog.filter fun p => decide (stop < p.rbp + p.len) }

/-- What MAN_SETUP makes of the sequence: fresh, a new ring for an empty backlog, or the restored one. -/
def Manifest.setup (m : Manifest) (a : ManArgs) (fresh : Bool) : Manifest :=
  let m1 := { m with en := true, sz := a.sz, thresh := a.thresh, ring := a.ring.toNat, ptaddr := a.ptaddr.toNat, st := .opened }
  if fresh then
    { m1 with next := 1, rbp := 0, pt := 0, ptRbp := 0, durable := 0, durEnd := 0, written := 0, commits := 0, backlog := [], inCommit := none,
              ref := {}, refusing := false }
  else if m.st = .restored then m1.durableTo (max a.hostDur m.durable)
  else { m1 with rbp := 0, ptRbp := 0, durEnd := 0, written := 0 }

def State.manSetup (s0 : State) (a : ManArgs) : State :=
  let s := s0.performCommit
  let m := s.man
  let fresh := m.st == .closed || m.st == .lost || a.discard
  let erase : BitVec 2 := if m.st = .restored then setBit (setBit 0 0 s.vault.area0.isSome) 1 s.vault.area1.isSome else s.vault.erasing
  let s1 := if a.discard then s.log 0x23 uDevice [m.durable + 1, m.next - 1] else s
  let v := { (if fresh then s1.vault.modBoot fun p => { p with instance_ := p.instance_ + 1 } else s1.vault) with erasing := erase }
  let s2 := { s1 with vault := v, man := m.setup a fresh }.readBacklog
  (s2.setRegion a.region (s2.man.backlog.flatMap s2.entryAt)).syncMan.smbSync

def execManSetup (src : Src) (args : ManArgs) (s : State) : Result :=
  s.command src ⟨0x0801, false, true, stoppedOnly⟩ fun s =>
    match s.manErr args with
    | some e => s.answer src 0x0801 e
    | none => let s1 := s.manSetup args; s1.configured src 0x0801 [s1.vault.instance_.setWidth 64]

end Sys2Proof.Machine
end

