-- ==== Sys2Proof/Machine/Loads.lean ====
section
/-!
DEFINITION. List operations, loads and stores, LR and SC, ZLINE and FENCE (R95, R99, R120 to R125, R138, R153, R154).
-/

namespace Sys2Proof.Machine

/-! ### List operations (Table 5.4) -/

/-- CAR and CDR: word `i` of a cell, or NIL of NIL. -/
def loadCell (c : CoreId) (o : Opd1) (i : Nat) (s : State) : Result :=
  .next (s.memInstr c o.len false fun b => do
    let k := bk c b
    let cell ← getR k o.a
    notPoison cell
    trapIf (cell.tag != tCONS && cell.tag != tNIL) .type cell
    if cell.tag == tNIL then loadEnd k o.d wNil
    else
      let ring ← ringOf k
      let (w, _) ← loadWord c k ring ((vaOf cell.val + i) % 2 ^ 60) (spaceOf cell.val) false
      loadEnd k o.d w)

def execCar (c : CoreId) (f : UnF) (s : State) : Result := loadCell c (unOf f) 0 s
def execCdr (c : CoreId) (f : UnF) (s : State) : Result := loadCell c (unOf f) 1 s

/-- Cell and value of SETCAR and SETCDR, and whether TYPE reports the value in t4: A, B in the 1-parcel form; a, d in RRR. -/
def setCellOf : UnF → R5 × R5 × Bool
  | .s A B => (wide A, wide B, true)
  | .rrr d a => (a, d, false)

def storeCell (c : CoreId) (f : UnF) (i : Nat) (s : State) : Result :=
  .next (s.memInstr c (unOf f).len true fun b => do
    let k := bk c b
    let (rc, rv, t4) := setCellOf f
    let cell ← getR k rc
    let value ← getR k rv
    notPoison cell
    trapIf (cell.tag != tCONS) .type cell (if t4 then some value else none)
    let ring ← ringOf k
    storeChecked c k ring ((vaOf cell.val + i) % 2 ^ 60) (spaceOf cell.val) value false
    pure .next)

def execSetcar (c : CoreId) (f : UnF) (s : State) : Result := storeCell c f 0 s
def execSetcdr (c : CoreId) (f : UnF) (s : State) : Result := storeCell c f 1 s

/-- Whether CONS acquires the cell's line whole (R153). -/
def wholeLine (x : BankCtx) : Bool := vaOf x.alloc % 8 == 0 && decide (vaOf x.alloc + 8 ≤ vaOf x.alimit)

/-- CONS (R121, R153). -/
def execCons (c : CoreId) (f : AluF) (s : State) : Result :=
  let o := aluOf f
  .next (s.memInstr c o.len true fun b => do
    let k := bk c b
    let x ← getX k
    let n := vaOf x.alloc
    let sp := spaceOf x.alloc
    let car ← getR k o.a
    let cdr ← getR k o.b
    trapIf (n % 2 != 0 || decide (vaOf x.alimit < n + 2)) .alloc
    let ring ← ringOf k
    let x0 ← translate c k ring .write n
    let x1 ← translate c k ring .write (n + 1)
    if wholeLine x then trapIf x0.x .codeLoad (fixN n) (fix 0)
    else
      touch c k x0 .read
      let s ← get
      checkTarget n (s.view k x0.pa x0.unc) car
      checkTarget (n + 1) (s.view k x1.pa x1.unc) cdr
    let card0 ← cardPlan c k ring sp n car
    let card1 ← cardPlan c k ring sp (n + 1) cdr
    if wholeLine x then
      let s ← get
      effect k (.line (x0.pa / 8) (padWords 8 [car, cdr]) (s.wholeUnc k x0))
    else
      store k x0 car
      store k x1 cdr
    markCard k card0
    markCard k card1
    update fun s => s.modCtx k fun y => { y with alloc := put (n + 2) 0 60 ||| put sp 60 4 }
    setR k o.d ⟨tCONS, x.alloc⟩
    pure .next)

/-! ### Loads (R122) -/

/-- A load through a base register. -/
def loadReg (c : CoreId) (o : OpdM) (dev : Bool) (s : State) : Result :=
  .next (s.memInstr c o.len false fun b => do
    let k := bk c b
    let base ← getR k o.a
    let va ← addrOf k base o.off
    let ring ← ringOf k
    let (w, _) ← loadWord c k ring va (spaceOf base.val) dev
    loadEnd k o.d w)

def execLd (c : CoreId) (f : MemF) (s : State) : Result := loadReg c (memOf f) true s
def execLdx (c : CoreId) (d : R5) (imm : BitVec 27) (s : State) : Result := loadReg c ⟨d, d, imm.toInt, 3⟩ true s
/-- ACQ: commands are performed in order, which gives its ordering (R138). -/
def execAcq (c : CoreId) (d a : R5) (imm : BitVec 8) (s : State) : Result := loadReg c ⟨d, a, imm.toInt, 2⟩ true s

/-- LDB (R95). -/
def execLdb (c : CoreId) (d : R5) (off : BitVec 9) (s : State) : Result :=
  .next (s.memInstr c 2 false fun b => do
    let k := bk c b
    let x ← getX k
    let ring ← ringOf k
    let (w, _) ← loadWord c k ring (basinVa x off) (spaceOf x.basin) true
    loadEnd k d w)

/-- LDC: any tag, no read barrier (R70, R146). -/
def execLdc (c : CoreId) (d a : R5) (imm : BitVec 8) (s : State) : Result :=
  .next (s.memInstr c 2 false fun b => do
    let k := bk c b
    ring0 k
    let base ← getR k a
    let va ← addrOf k base imm.toInt
    let x ← translate c k 0 .read va
    let w ← readAt c k x
    loadEnd k d w)

/-- LR: a load, then the reservation on the slot's physical address (R123, R148). -/
def execLr (c : CoreId) (d a : R5) (imm : BitVec 8) (s : State) : Result :=
  .next (s.memInstr c 2 false fun b => do
    let k := bk c b
    let base ← getR k a
    let va ← addrOf k base imm.toInt
    let ring ← ringOf k
    let (w, x) ← loadWord c k ring va (spaceOf base.val) false
    update fun s => s.modCore c fun y => { y with resv := some (b, x.pa) }
    loadEnd k d w)

/-! ### Stores -/

/-- A store through a base register. -/
def storeReg (c : CoreId) (o : OpdM) (s : State) : Result :=
  .next (s.memInstr c o.len true fun b => do
    let k := bk c b
    let base ← getR k o.a
    let value ← getR k o.d
    let va ← addrOf k base o.off
    let ring ← ringOf k
    storeChecked c k ring va (spaceOf base.val) value true
    pure .next)

def execSt (c : CoreId) (f : MemF) (s : State) : Result := storeReg c (memOf f) s
def execRel (c : CoreId) (d a : R5) (imm : BitVec 8) (s : State) : Result := storeReg c ⟨d, a, imm.toInt, 2⟩ s

/-- STB (R95). -/
def execStb (c : CoreId) (d : R5) (off : BitVec 9) (s : State) : Result :=
  .next (s.memInstr c 2 true fun b => do
    let k := bk c b
    let x ← getX k
    let ring ← ringOf k
    let value ← getR k d
    storeChecked c k ring (basinVa x off) (spaceOf x.basin) value true
    pure .next)

/-- STC: the value of a FIX or CODE word, stored as CODE at the point of coherence (R99). -/
def execStc (c : CoreId) (d a : R5) (imm : BitVec 8) (s : State) : Result :=
  .next (s.memInstr c 2 true fun b => do
    let k := bk c b
    ring0 k
    let value ← getR k d
    let base ← getR k a
    notPoison value
    trapIf (value.tag != tFIX && value.tag != tCODE) .type base (immW imm)
    let va ← addrOf k base imm.toInt
    let x ← translate c k 0 .write va
    effect k (.store x.pa ⟨tCODE, value.val⟩ true)
    pure .next)

/-- SC (R123, R125). -/
def execSc (c : CoreId) (d a b : R5) (s : State) : Result :=
  .next (s.memInstr c 2 false fun bank => do
    let k := bk c bank
    let base ← getR k a
    let value ← getR k b
    let va ← addrOf k base 0
    let ring ← ringOf k
    let x ← translate c k ring .write va
    let s ← get
    if (s.coreOf c).resv = some (bank, x.pa) then
      touch c k x .read
      let s ← get
      checkTarget va (s.see k x.pa x.unc) value
      let card ← cardPlan c k ring (spaceOf base.val) va value
      store k x value
      markCard k card
      update fun s => s.modCore c fun y => { y with resv := none }
      setR k d wTrue
      pure .next
    else
      setR k d wNil
      pure .next)

/-- ZLINE (R154). -/
def execZline (c : CoreId) (a : R5) (imm : BitVec 8) (s : State) : Result :=
  .next (s.memInstr c 2 true fun b => do
    let k := bk c b
    let base ← getR k a
    let va ← addrOf k base imm.toInt
    let ring ← ringOf k
    let x ← translate c k ring .write va false (fixN va) .zlineDevice
    trapIf x.x .codeLoad (fixN va) (fix 0)
    let s ← get
    effect k (.line (x.pa / 8) (List.replicate 8 unbound) (s.wholeUnc k x))
    pure .next)

/-- FULL, and DEVICE and CODE with it, wait until the bank's device stores are performed (Table 5.9); every kind waits for the stores
behind one. -/
def fencesDevice (x : BitVec 3) : Bool := x == 0 || x == 3 || x == 4

/-- FENCE: the commands of a core are performed in order, so every other ordering it asks for already holds (R138). A device store that
its target still holds keeps them waiting (R207, R213). -/
def execFence (c : CoreId) (x : BitVec 3) (s : State) : Result :=
  .next (s.issue c 2 false (fun s k => !(s.bankOf k).waiting.isEmpty || (fencesDevice x && s.behind k)) fun _ => do
    legal (decide (x.toNat < 5))
    pure .next)

end Sys2Proof.Machine
end

