-- ==== Sys2Proof/Machine/Ucode.lean ====
section
/-!
DEFINITION. Microcode commands: UCODE_LOAD with the checks of a customer image (R229, R230, Tables 10.2 to 10.8), and
PATCH_INSTALL (R228).
-/

namespace Sys2Proof.Machine

/-! ### The rules of a customer routine (R229, Table 10.8) -/

/-- The user micro-word at a micro address, and the user nano-word at a nano address: only those the image holds. -/
def imgMicro (img : List Byte) (a : Nat) : Option (BitVec 24) :=
  if 0x8000 ≤ a ∧ a < 0x8000 + imgMicros img then some (imgMicroAt img (a - 0x8000)) else none
def imgNano (img : List Byte) (a : Nat) : Option (BitVec 192) :=
  if 0x1800 ≤ a ∧ a < 0x1800 + imgNanos img then some (imgNanoAt img (a - 0x1800)) else none

/-- Tags a user routine may set (Table 10.8). -/
def userTag (t : BitVec 8) : Bool := decide (t.toNat ≤ 7) || t == 0x22#8 || (decide (0x80 ≤ t.toNat) && decide (t.toNat ≤ 0xBF))

def nanoOk (n : BitVec 192) : Bool := nanoSys n == 0 && Config.nanoUserOk n && (Config.nanoTags n).all userTag

/-- What the paths from a micro-word show: the most micro-words, the most reads, whether one writes, whether one uses the
vector datapath. -/
structure Reach where
  words : Nat
  reads : Nat
  write : Bool
  vec   : Bool
  deriving DecidableEq, Repr

def Reach.join (a b : Reach) : Reach := ⟨max a.words b.words, max a.reads b.reads, a.write || b.write, a.vec || b.vec⟩

/-- One micro-word put before the paths that follow it. -/
def Reach.before (r : Reach) (vec : Bool) : Reach := { r with words := r.words + 1, vec := vec || r.vec }

/-- The paths from a micro address, with the return stack, the reads so far and whether a write has taken place; none when
one breaks a rule of Table 10.8, or is longer than the fuel. -/
def explore (img : List Byte) : Nat → Nat → List Nat → Nat → Bool → Option Reach
  | 0, _, _, _, _ => none
  | fuel + 1, a, stack, reads, wrote => do
    let m ← imgMicro img a
    let n ← imgNano img (microNano m)
    let rd := Config.nanoReads n
    let wr := Config.nanoWrites n
    let vec := Config.nanoVec n
    let reads' := if rd then reads + 1 else reads
    let wrote' := wrote || wr
    let jump := nanoTarget n
    if !nanoOk n || decide (8 < reads') || (wrote && (rd || wr)) then none
    else
      let done : Option Reach := some ⟨1, reads', wrote', vec⟩
      let on (dst : Nat) (st : List Nat) : Option Reach := (explore img fuel dst st reads' wrote').map fun r => r.before vec
      match microSeq m with
      | 0 => on (a + 1) stack
      | 1 =>
        if 0 < microSarg m ∧ microSarg m < 128 then do
          let x ← on (a + microSarg m) stack
          let y ← on (a + 1) stack
          some (x.join y)
        else none
      | 2 => if a < jump then on jump stack else none
      | 3 => if a < jump ∧ stack.length < 4 then on jump ((a + 1) :: stack) else none
      | 4 => match stack with
        | r :: rest => on r rest
        | [] => none
      | 5 => done
      | 6 => if !wrote' && [4, 5, 6].contains (microSarg m) then done else none
      | _ => none

/-- The computed bound of one entry (R230), none when the routine breaks a rule. A path longer than 254 micro-words has a
bound above every BOUND. -/
def cboundOf (img : List Byte) (v : Val) : Option Nat := do
  let r ← explore img 255 (cxdEntry v) [] 0 false
  let b := cxdBound v
  if r.reads == cxdNread v && r.write == cxdWrite v && r.vec == cxdVec v && decide (2 + r.words ≤ b) && decide (b ≤ 256) then
    some (2 + r.words)
  else none

/-- CXD[n] as loaded: the fields of Table 10.7 with CBOUND; an entry that is not valid reads 0. -/
def cxdLoaded (v : Val) (cbound : Nat) : Val := (v &&& 0xFF80_FF80_0000_FFFF) ||| put cbound 30 9

/-- The new table, none when any valid entry breaks a rule. -/
def imgTable (img : List Byte) : Option (SMap Val) :=
  (List.range 32).foldl (fun (acc : Option (SMap Val)) n =>
    acc.bind fun m =>
      let v := imgCxd img n
      if cxdValid v then (cboundOf img v).map fun c => mset valD m n (cxdLoaded v c) else some m) (some [])

def cbounds (m : SMap Val) : List Val := (List.range 32).map fun n => put (fld (mget valD m n) 30 9) 0 9

/-- An image takes effect: every core stops at its next boundary while its stores and CXD are written; a CX has ended by then. -/
def State.loadImage (s : State) (img : List Byte) (m : SMap Val) : State :=
  forEach allCores (s.modLk fun l => { l with image := img, cxd := m }) State.loadStores

/-- UCODE_LOAD: malformed bytes, the rules of Table 10.8, and the admission test with the new table (R229). -/
def State.ucodeErr (s : State) (img : List Byte) : Except Err (SMap Val) :=
  if !imgSizeOk img then .error .arg
  else match imgTable img with
    | none => .error .ucodeInvalid
    | some m => if allCores.all fun c => s.rtOk c none m then .ok m else .error .admitDeadline

def execUcodeLoad (src : Src) (b : B2) (s : State) : Result :=
  s.command src ⟨0x0202, false, true, stoppedOnly⟩ fun s =>
    let s := s.readB2 src b
    match s.b2Bytes src b with
    | .error e => s.answer src 0x0202 e
    | .ok img =>
      match s.ucodeErr img with
      | .error e => s.answer src 0x0202 e
      | .ok m =>
        if s.resultFits src (valBytes (cbounds m)).length then (s.loadImage img m).configured src 0x0202 (cbounds m)
        else s.answer src 0x0202 .arg

/-! ### PATCH_INSTALL (R228) -/

def BootPart.putSlot (v : BootPart) (slot : Nat) (b : Option Bundle) : BootPart :=
  if slot = 1 then { v with slotA := b } else { v with slotB := b }

/-- The slot that is not in use: 2 (B) while A is, else 1 (A); with neither in use the spec names none, and A is taken (DESIGN CHOICE, log
42). -/
def Vault.spareSlot (v : Vault) : Nat := if v.inUse = 1 then 2 else 1

/-- Both dies that hold the boot and patch partition, the calibration set and the black box have failed. -/
def Vault.noBootDie (v : Vault) : Bool := bit v.failed 0 && bit v.failed 1

/-- A bundle that fails verification is erased; one that passes raises the floor and takes effect at the next start. -/
def State.install (s : State) (src : Src) (bs : List Byte) : State :=
  let slot := s.vault.spareSlot
  match checkBundle s.lk.romver.toNat s.vault.floor bs with
  | .error _ => ({ s with vault := s.vault.modBoot fun p => p.putSlot slot none }).answer src 0x0204 .patchFail
  | .ok _ =>
    let v := s.vault.modBoot fun p => { p.putSlot slot (some ⟨bSeq bs, bs⟩) with floor := bSeq bs }
    (({ s with vault := v }).log 0x51 uDevice [slot, bSeq bs]).configured src 0x0204 [BitVec.ofNat 64 slot, BitVec.ofNat 64 (bSeq bs)]

def execPatchInstall (src : Src) (b : B2) (s : State) : Result :=
  s.command src ⟨0x0204, false, false, stoppedOnly⟩ fun s =>
    let s := s.readB2 src b
    match s.b2Bytes src b with
    | .error e => s.answer src 0x0204 e
    | .ok bs => if s.vault.noBootDie then s.answer src 0x0204 .vault else s.install src bs

end Sys2Proof.Machine
end

