-- ==== Sys2Proof/Machine/Service.lean ====
section
/-!
DEFINITION. Service commands: the black box (R360), calibration (R366 to R369), the user area (R365), freeze and THAW (R374 to
R376), resets and self-test (R334, R350, R353), the debug lock (R378).
-/

namespace Sys2Proof.Machine

/-! ### The black box -/

/-- Entries programmed or queued, from an index on. -/
def Bbx.from_ (b : Bbx) (first : Nat) : List BbxEntry :=
  (b.entries ++ b.queued).filter fun e => decide (b.oldest ≤ e.index) && decide (first ≤ e.index)

def execBbxRead (src : Src) (first count : Nat) (s : State) : Result :=
  if !s.spells src [(64, first), (64, count), outArg src] then .next s
  else s.command src ⟨0x0901, true, false, anyRun⟩ fun s =>
    if 16384 < count then s.answer src 0x0901 .arg
    else
      let es := (s.bbx.from_ first).take count
      let next := match es.getLast? with | some e => e.index + 1 | none => max first s.bbx.oldest
      s.answerOut src 0x0901 (es.flatMap BbxEntry.bytes) [BitVec.ofNat 64 next, BitVec.ofNat 64 s.bbx.nextIx]

/-! ### Calibration -/

/-- CAL_READ; with no valid set in force there is none to read. -/
def execCalRead (src : Src) (s : State) : Result :=
  if !s.spells src [outArg src] then .next s
  else s.command src ⟨0x0A01, true, false, anyRun⟩ fun s =>
    if s.cal.valid then s.answerOut src 0x0A01 s.cal.bytes [s.cal.crc.setWidth 64] else s.answer src 0x0A01 .vault

/-- A signed field of n bytes lies within its range. -/
def calField (bs : List Byte) (off n : Nat) (lim : Int) : Bool :=
  let v := sx (8 * n) (leAt bs off n)
  decide (-lim ≤ v) && decide (v ≤ lim)

/-- The ranges of Table 17.3. FLAGS is "Written as 0": the set that CAL_READ returned may come back with FACTORY set, its other bits are 0
(DEDUCED, log 48). -/
def calOk (serial : Val) (bs : List Byte) : Bool :=
  bs.length == 512 && leAt bs 0 4 == 0x534C4143 && leAt bs 4 2 == 1 && leAt bs 6 2 / 2 == 0 && leAt bs 12 8 == serial.toNat && leAt bs 20 4 == 0 &&
    ((List.range 48).all fun k => calField bs (24 + 4 * k) 4 1000000) && calField bs 216 4 10000 && calField bs 220 4 10000 &&
    ((List.range 16).all fun k => calField bs (224 + 2 * k) 2 256) && ((List.range 12).all fun k => calField bs (256 + 2 * k) 2 100) &&
    calField bs 280 4 100000 && ((List.range 224).all fun k => bs.getD (284 + k) 0 == 0) &&
    leAt bs 508 4 == (crc32c (bs.take 508)).toNat

/-- The set as stored: FLAGS 0, WRCNT one more, the CRC computed again (R368). -/
def calStored (bs : List Byte) (wrcnt : Nat) : CalSet :=
  let body := bs.take 6 ++ leBytes 2 0 ++ leBytes 4 wrcnt ++ slice bs 12 496
  ⟨body ++ leBytes 4 (crc32c body).toNat, wrcnt % 2 ^ 32, crc32c body⟩

/-- Steps 1 to 4 of R368: copy 1, then copy 0, each on a die that works; TICKOUT and TICKIN in force stay (R367). -/
def State.calWrite (s : State) (bs : List Byte) : State :=
  let new := calStored bs (s.cal.wrcnt + 1)
  let v := s.vault.putCal new
  let copies := setBit (setBit 0 0 v.cal0.isSome) 1 v.cal1.isSome
  let s1 := { s with
    vault := v,
    cal := { s.cal with valid := true, bytes := new.bytes, wrcnt := new.wrcnt, crc := new.crc, factory := false, copies := copies } }
  s1.log 0x48 uDevice [s.cal.crc.toNat, new.crc.toNat]

def execCalWrite (src : Src) (b : B2) (confirm : BitVec 32) (s : State) : Result :=
  s.command src ⟨0x0A02, false, false, stoppedOnly⟩ fun s =>
    let s := s.readB2 src b
    match s.b2Bytes src b with
    | .error e => s.answer src 0x0A02 e
    | .ok bs =>
      if confirm ≠ (if s.cal.valid then s.cal.crc else 0) then s.answer src 0x0A02 .denied
      else if !calOk s.vault.serial bs then s.answer src 0x0A02 .arg
      else if s.vault.noBootDie then s.answer src 0x0A02 .vault
      else (s.calWrite bs).configured src 0x0A02

/-! ### The user area (R365, Table 17.2) -/

/-- Bytes of the user area on each die. -/
def dieUser : List Nat := [3489529856, 3489529856, 4160749568, 4160749568]
def userEnd : Nat := dieUser.foldl (· + ·) 0
/-- First offset of a die. -/
def dieBase (d : Nat) : Nat := (dieUser.take d).foldl (· + ·) 0

/-- A failed die holds part of the range. -/
def Vault.rangeFailed (v : Vault) (off len : Nat) : Bool :=
  (List.range 4).any fun d =>
    bit v.failed d && decide (off < dieBase (d + 1)) && decide (dieBase d < off + len)

def userRangeOk (off len : Nat) : Bool := decide (len ≤ mib) && decide (off + len ≤ userEnd)

def execVaultRead (src : Src) (off len : Nat) (s : State) : Result :=
  if !s.spells src [(64, off), (64, len), outArg src] then .next s
  else s.command src ⟨0x0A03, true, false, anyRun⟩ fun s =>
    if !userRangeOk off len then s.answer src 0x0A03 .arg
    else if s.vault.rangeFailed off len then s.answer src 0x0A03 .vault
    else s.answerOut src 0x0A03 ((List.range len).map fun i => mget byteD s.vault.user (off + i))

def Vault.putUser (v : Vault) (off : Nat) (bs : List Byte) : Vault :=
  { v with user := bs.zipIdx.foldl (fun m bi => mset byteD m (off + bi.2) bi.1) v.user }

def execVaultWrite (src : Src) (off : Nat) (b : B2) (s : State) : Result :=
  if !s.spells src ((64, off) :: b2Args b) then .next s
  else s.command src ⟨0x0A04, true, false, anyRun⟩ fun s =>
    let s := s.readB2 src b
    match s.b2Bytes src b with
    | .error e => s.answer src 0x0A04 e
    | .ok bs =>
      if !userRangeOk off bs.length then s.answer src 0x0A04 .arg
      else if s.vault.rangeFailed off bs.length then s.answer src 0x0A04 .vault
      else { s with vault := s.vault.putUser off bs }.answer src 0x0A04 .ok

/-! ### Freeze -/

def execFreezeArm (src : Src) (arm : Bool) (s : State) : Result :=
  s.command src ⟨0x0B01, false, false, anyRun⟩ fun s => (s.modDbg fun d => { d with armed := arm }).configured src 0x0B01

/-- The staged side effects of the interrupted pound are discarded: the records of the record port, those of background banks with them,
mailbox results and drive data (R28, R376). A GAP record is none of them and stays. -/
def State.discardStaged (s : State) : State :=
  let s1 := s.modMan fun m => { m with staged := m.staged.filter fun r => !(r.cls == 3 && r.task) }
  let s2 := s1.modLk fun l => { l with replies := l.replies.filter fun r => r.abandoned }
  forEach ((s2.twl.streams.filter fun kx => sKind kx.2.scfg == 1).map Prod.fst) s2 fun s k =>
    s.modStream k fun x => { x with stag := [], opened := false }

/-- THAW (R376): the first tick after it falls P later. Register writes held at the crossings complete (R372). -/
def State.thawNow (s : State) : State :=
  let s1 := s.modDbg fun d => { d with held := false }
  let ids := if s1.runOpen then (s1.weir.tasks.filter fun t => t.phase.isOpen).map fun t => t.args.id.val else []
  let s2 := (forEach ids s1 fun s id => s.abandonTask id 6).discardStaged
  let s3 := (s2.setRun .stopped 0).modWeir fun w => { w with elapsed := 0, lead := 0 }
  let s4 := (s3.log 0x59 uDevice).syncPermit
  forEach s4.dbg.crossing (s4.modDbg fun d => { d with crossing := [] }) fun s w => s.spaceWrite w.1 w.2.1 w.2.2

def execThaw (src : Src) (s : State) : Result :=
  s.command src ⟨0x0B02, false, false, fun s => s.dbg.held⟩ fun s => s.thawNow.answer src 0x0B02 .ok

/-! ### Resets and self-test -/

/-- CLUSTER_RESET (R350): the response follows the release of the cluster. -/
def execClusterReset (src : Src) (cl : ClusterId) (s : State) : Result :=
  s.command src ⟨0x0C01, false, true, fun s => stoppedOnly s || (coresOf cl).all fun c => (s.tasksOfCore c).isEmpty⟩ fun s =>
    if bit s.lk.restarting cl.val then s.answer src 0x0C01 .busy
    else (s.restartCluster cl 4).modLk fun l => { l with deferred := l.deferred ++ [⟨src, 0x0C01, cl.val⟩] }

/-- DEVICE_RESET: the response follows the warm restart. -/
def execDeviceReset (src : Src) (s : State) : Result :=
  s.command src ⟨0x0C02, false, false, anyRun⟩ fun s =>
    (s.modLk fun l => { l with deferred := l.deferred ++ [⟨src, 0x0C02, 0⟩] }).warmTrigger 5

/-- SELF_TEST: which clusters pass is the outcome of a test, a free value (log 3). -/
def execSelfTest (src : Src) (mask : BitVec 8) (s : State) : Result :=
  s.command src ⟨0x0D01, false, true, stoppedOnly⟩ fun s =>
    let (v, s1) := s.fresh
    s1.answer src 0x0D01 .ok [v &&& mask.setWidth 64]

/-! ### The debug lock -/

/-- The bytes of the four values of a challenge. -/
def challengeBytes (vs : List Val) : List Byte := vs.flatMap fun v => leBytes 8 v.toNat

/-- DEBUG_CHALLENGE returns 32 fresh bytes: free values (log 3). -/
def execDebugChallenge (src : Src) (s : State) : Result :=
  s.command src ⟨0x0E01, false, false, anyRun⟩ fun s =>
    let r := (List.range 4).foldl (fun (a : List Val × State) _ => let (v, s1) := a.2.fresh; (a.1 ++ [v], s1)) ([], s)
    (r.2.modLk fun l => { l with challenge := some (challengeBytes r.1) }).answer src 0x0E01 .ok r.1

/-- Whether the signature verifies over the challenge, the level byte and the serial number (R378, log 13). -/
def State.unlockOk (s : State) (level : BitVec 8) (sig : List Byte) : Bool :=
  match s.lk.challenge with
  | none => false
  | some c => Config.sigOk (c ++ [level] ++ leBytes 8 s.vault.serial.toNat) sig

def execDebugUnlock (src : Src) (level : BitVec 8) (sig : List Byte) (s : State) : Result :=
  s.command src ⟨0x0E02, false, false, stoppedOnly⟩ fun s =>
    if sig.length ≠ 96 || decide (2 < level.toNat) then s.answer src 0x0E02 .arg
    else
      let s1 := s.modLk fun l => { l with challenge := none }
      if s.unlockOk level sig then
        ((s1.modDbg fun d => { d with level := level.setWidth 2 }).log 0x70 uDevice [level.toNat]).configured src 0x0E02
      else s1.answer src 0x0E02 .auth

end Sys2Proof.Machine
end

