-- ==== Sys2Proof/Machine/Dispatch.lean ====
section
/-! DEFINITION. One arm per command: a direct call of its meaning. -/

namespace Sys2Proof.Machine

open Sys2Proof

def exec (i : Instr) (s : State) : Host.Outcome State Fault Refusal :=
  match i with
  | .nop c A B => Sys2Proof.Machine.execNop c A B s
  | .mov c f => Sys2Proof.Machine.execMov c f s
  | .add c f => Sys2Proof.Machine.execAdd c f s
  | .sub c f => Sys2Proof.Machine.execSub c f s
  | .mul c f => Sys2Proof.Machine.execMul c f s
  | .div c d a b => Sys2Proof.Machine.execDiv c d a b s
  | .rem c d a b => Sys2Proof.Machine.execRem c d a b s
  | .addi c f => Sys2Proof.Machine.execAddi c f s
  | .subi c A imm => Sys2Proof.Machine.execSubi c A imm s
  | .muli c d a imm => Sys2Proof.Machine.execMuli c d a imm s
  | .addk c d imm => Sys2Proof.Machine.execAddk c d imm s
  | .addl c d imm => Sys2Proof.Machine.execAddl c d imm s
  | .cmp c f => Sys2Proof.Machine.execCmp c f s
  | .cmpeq c d a b => Sys2Proof.Machine.execCmpeq c d a b s
  | .cmplt c d a b => Sys2Proof.Machine.execCmplt c d a b s
  | .cmple c d a b => Sys2Proof.Machine.execCmple c d a b s
  | .cmpeqi c d a imm => Sys2Proof.Machine.execCmpeqi c d a imm s
  | .cmplti c d a imm => Sys2Proof.Machine.execCmplti c d a imm s
  | .eq c d a b => Sys2Proof.Machine.execEq c d a b s
  | .and c d a b => Sys2Proof.Machine.execAnd c d a b s
  | .or c d a b => Sys2Proof.Machine.execOr c d a b s
  | .xor c d a b => Sys2Proof.Machine.execXor c d a b s
  | .shl c d a b => Sys2Proof.Machine.execShl c d a b s
  | .shr c d a b => Sys2Proof.Machine.execShr c d a b s
  | .sar c d a b => Sys2Proof.Machine.execSar c d a b s
  | .andi c d a imm => Sys2Proof.Machine.execAndi c d a imm s
  | .ori c d a imm => Sys2Proof.Machine.execOri c d a imm s
  | .xori c d a imm => Sys2Proof.Machine.execXori c d a imm s
  | .shli c d a imm => Sys2Proof.Machine.execShli c d a imm s
  | .shri c d a imm => Sys2Proof.Machine.execShri c d a imm s
  | .sari c d a imm => Sys2Proof.Machine.execSari c d a imm s
  | .movi c f => Sys2Proof.Machine.execMovi c f s
  | .movk c f => Sys2Proof.Machine.execMovk c f s
  | .movl c d imm => Sys2Proof.Machine.execMovl c d imm s
  | .lea c d imm => Sys2Proof.Machine.execLea c d imm s
  | .tagof c f => Sys2Proof.Machine.execTagof c f s
  | .tageq c d a imm => Sys2Proof.Machine.execTageq c d a imm s
  | .settag c d a imm => Sys2Proof.Machine.execSettag c d a imm s
  | .car c f => Sys2Proof.Machine.execCar c f s
  | .cdr c f => Sys2Proof.Machine.execCdr c f s
  | .setcar c f => Sys2Proof.Machine.execSetcar c f s
  | .setcdr c f => Sys2Proof.Machine.execSetcdr c f s
  | .cons c f => Sys2Proof.Machine.execCons c f s
  | .ld c f => Sys2Proof.Machine.execLd c f s
  | .st c f => Sys2Proof.Machine.execSt c f s
  | .ldx c d imm => Sys2Proof.Machine.execLdx c d imm s
  | .ldb c d off => Sys2Proof.Machine.execLdb c d off s
  | .stb c d off => Sys2Proof.Machine.execStb c d off s
  | .ldc c d a imm => Sys2Proof.Machine.execLdc c d a imm s
  | .stc c d a imm => Sys2Proof.Machine.execStc c d a imm s
  | .acq c d a imm => Sys2Proof.Machine.execAcq c d a imm s
  | .rel c d a imm => Sys2Proof.Machine.execRel c d a imm s
  | .lr c d a imm => Sys2Proof.Machine.execLr c d a imm s
  | .sc c d a b => Sys2Proof.Machine.execSc c d a b s
  | .zline c a imm => Sys2Proof.Machine.execZline c a imm s
  | .fence c x => Sys2Proof.Machine.execFence c x s
  | .cvt c d a b x => Sys2Proof.Machine.execCvt c d a b x s
  | .movb c d a b => Sys2Proof.Machine.execMovb c d a b s
  | .fillb c d a b => Sys2Proof.Machine.execFillb c d a b s
  | .cmpb c d a b => Sys2Proof.Machine.execCmpb c d a b s
  | .scanl c d a b => Sys2Proof.Machine.execScanl c d a b s
  | .stm c m a => Sys2Proof.Machine.execStm c m a s
  | .ldm c m a => Sys2Proof.Machine.execLdm c m a s
  | .recb c a => Sys2Proof.Machine.execRecb c a s
  | .recw c a => Sys2Proof.Machine.execRecw c a s
  | .rece c d => Sys2Proof.Machine.execRece c d s
  | .br c imm => Sys2Proof.Machine.execBr c imm s
  | .brl c imm => Sys2Proof.Machine.execBrl c imm s
  | .bnil c f => Sys2Proof.Machine.execBnil c f s
  | .bnnil c f => Sys2Proof.Machine.execBnnil c f s
  | .bnill c d imm => Sys2Proof.Machine.execBnill c d imm s
  | .bnnill c d imm => Sys2Proof.Machine.execBnnill c d imm s
  | .call c imm => Sys2Proof.Machine.execCall c imm s
  | .calll c imm => Sys2Proof.Machine.execCalll c imm s
  | .callr c a => Sys2Proof.Machine.execCallr c a s
  | .jlnk c d a => Sys2Proof.Machine.execJlnk c d a s
  | .callg c a => Sys2Proof.Machine.execCallg c a s
  | .ret c A B => Sys2Proof.Machine.execRet c A B s
  | .retg c => Sys2Proof.Machine.execRetg c s
  | .tret c => Sys2Proof.Machine.execTret c s
  | .waitt c => Sys2Proof.Machine.execWaitt c s
  | .waite c => Sys2Proof.Machine.execWaite c s
  | .vld c d a b x => Sys2Proof.Machine.execVld c d a b x s
  | .vst c d a b x => Sys2Proof.Machine.execVst c d a b x s
  | .vlds c d a b => Sys2Proof.Machine.execVlds c d a b s
  | .vadd c d a b x => Sys2Proof.Machine.execVadd c d a b x s
  | .vmul c d a b x => Sys2Proof.Machine.execVmul c d a b x s
  | .vfma c d a b x => Sys2Proof.Machine.execVfma c d a b x s
  | .vcmul c d a b x => Sys2Proof.Machine.execVcmul c d a b x s
  | .vbfly4 c d a b x => Sys2Proof.Machine.execVbfly4 c d a b x s
  | .vreduce c d a x => Sys2Proof.Machine.execVreduce c d a x s
  | .vmin c d a b x => Sys2Proof.Machine.execVmin c d a b x s
  | .vmax c d a b x => Sys2Proof.Machine.execVmax c d a b x s
  | .vcvt c d a b x => Sys2Proof.Machine.execVcvt c d a b x s
  | .vget c d a b x => Sys2Proof.Machine.execVget c d a b x s
  | .vput c d a b x => Sys2Proof.Machine.execVput c d a b x s
  | .mfc c d imm => Sys2Proof.Machine.execMfc c d imm s
  | .mtc c d imm => Sys2Proof.Machine.execMtc c d imm s
  | .mfb c d a => Sys2Proof.Machine.execMfb c d a s
  | .mtb c d a => Sys2Proof.Machine.execMtb c d a s
  | .tlbi c a b x => Sys2Proof.Machine.execTlbi c a b x s
  | .wci c a b x => Sys2Proof.Machine.execWci c a b x s
  | .tlbsync c => Sys2Proof.Machine.execTlbsync c s
  | .abandon c => Sys2Proof.Machine.execAbandon c s
  | .tpsend c d a b => Sys2Proof.Machine.execTpsend c d a b s
  | .tprecv c d a b => Sys2Proof.Machine.execTprecv c d a b s
  | .cmaint c a b x => Sys2Proof.Machine.execCmaint c a b x s
  | .crange c a b x => Sys2Proof.Machine.execCrange c a b x s
  | .cx c n d a b => Sys2Proof.Machine.execCx c n d a b s
  | .fillComplete c b line e => Sys2Proof.Machine.execFillComplete c b line e s
  | .trapEntry c => Sys2Proof.Machine.execTrapEntry c s
  | .bankSwitch c => Sys2Proof.Machine.execBankSwitch c s
  | .budgetExhausted c => Sys2Proof.Machine.execBudgetExhausted c s
  | .graceExhausted c => Sys2Proof.Machine.execGraceExhausted c s
  | .deadlineReached id => Sys2Proof.Machine.execDeadlineReached id s
  | .startOffset id => Sys2Proof.Machine.execStartOffset id s
  | .reservationTimeout c => Sys2Proof.Machine.execReservationTimeout c s
  | .broadcastInvalidation c => Sys2Proof.Machine.execBroadcastInvalidation c s
  | .tick => Sys2Proof.Machine.execTick s
  | .tickInEdge e => Sys2Proof.Machine.execTickInEdge e s
  | .tickSynthesised => Sys2Proof.Machine.execTickSynthesised s
  | .commitWordPerformed => Sys2Proof.Machine.execCommitWordPerformed s
  | .dOut => Sys2Proof.Machine.execDOut s
  | .streamClose k => Sys2Proof.Machine.execStreamClose k s
  | .sampleCell n cell => Sys2Proof.Machine.execSampleCell n cell s
  | .abortInQualified => Sys2Proof.Machine.execAbortInQualified s
  | .abortInRelease => Sys2Proof.Machine.execAbortInRelease s
  | .feStatus n pound data => Sys2Proof.Machine.execFeStatus n pound data s
  | .echoResponse n pos roundTrip turnaround => Sys2Proof.Machine.execEchoResponse n pos roundTrip turnaround s
  | .lanemapResponse n => Sys2Proof.Machine.execLanemapResponse n s
  | .lanefail n connector => Sys2Proof.Machine.execLanefail n connector s
  | .feAccessResponse n seq result vals => Sys2Proof.Machine.execFeAccessResponse n seq result vals s
  | .controlResendTimeout n => Sys2Proof.Machine.execControlResendTimeout n s
  | .bulkCell n cell => Sys2Proof.Machine.execBulkCell n cell s
  | .laneFailed m cause => Sys2Proof.Machine.execLaneFailed m cause s
  | .reStripe n => Sys2Proof.Machine.execReStripe n s
  | .linkRetrain n => Sys2Proof.Machine.execLinkRetrain n s
  | .trainComplete n pam4 spareOk => Sys2Proof.Machine.execTrainComplete n pam4 spareOk s
  | .trainTimeout n => Sys2Proof.Machine.execTrainTimeout n s
  | .alignTimeout n => Sys2Proof.Machine.execAlignTimeout n s
  | .descriptorStart ch => Sys2Proof.Machine.execDescriptorStart ch s
  | .halfCompletion ch => Sys2Proof.Machine.execHalfCompletion ch s
  | .handOver ch => Sys2Proof.Machine.execHandOver ch s
  | .busError ch code => Sys2Proof.Machine.execBusError ch code s
  | .retryAttempt ch => Sys2Proof.Machine.execRetryAttempt ch s
  | .channelHalt ch => Sys2Proof.Machine.execChannelHalt ch s
  | .sluiceStopComplete ch => Sys2Proof.Machine.execSluiceStopComplete ch s
  | .sluTimerFire n => Sys2Proof.Machine.execSluTimerFire n s
  | .sluStart ch v => Sys2Proof.Machine.execSluStart ch v s
  | .sluResume ch v => Sys2Proof.Machine.execSluResume ch v s
  | .sluShdWrite ch w v => Sys2Proof.Machine.execSluShdWrite ch w v s
  | .sluEn ch en => Sys2Proof.Machine.execSluEn ch en s
  | .sluClass ch t => Sys2Proof.Machine.execSluClass ch t s
  | .sluArm ch arm => Sys2Proof.Machine.execSluArm ch arm s
  | .sluStop ch => Sys2Proof.Machine.execSluStop ch s
  | .sluGo ch => Sys2Proof.Machine.execSluGo ch s
  | .sluPrio ch p => Sys2Proof.Machine.execSluPrio ch p s
  | .sluStatW1c ch v => Sys2Proof.Machine.execSluStatW1c ch v s
  | .sluGctlWrite v => Sys2Proof.Machine.execSluGctlWrite v s
  | .bl16haltClear v => Sys2Proof.Machine.execBl16haltClear v s
  | .sluTimerWrite n v => Sys2Proof.Machine.execSluTimerWrite n v s
  | .evtRaise v => Sys2Proof.Machine.execEvtRaise v s
  | .evtPendW1c k v => Sys2Proof.Machine.execEvtPendW1c k v s
  | .evtRouteWrite n v => Sys2Proof.Machine.execEvtRouteWrite n v s
  | .lockkeeperEventDelivery src => Sys2Proof.Machine.execLockkeeperEventDelivery src s
  | .msixMessage src => Sys2Proof.Machine.execMsixMessage src s
  | .manifestBatch => Sys2Proof.Machine.execManifestBatch s
  | .manDurable v => Sys2Proof.Machine.execManDurable v s
  | .pcieLinkUp width speed => Sys2Proof.Machine.execPcieLinkUp width speed s
  | .pcieLinkDown => Sys2Proof.Machine.execPcieLinkDown s
  | .pfailQualified => Sys2Proof.Machine.execPfailQualified s
  | .flushImageComplete => Sys2Proof.Machine.execFlushImageComplete s
  | .pfailRelease => Sys2Proof.Machine.execPfailRelease s
  | .imageEraseComplete => Sys2Proof.Machine.execImageEraseComplete s
  | .patrolScrubRead t stored e => Sys2Proof.Machine.execPatrolScrubRead t stored e s
  | .channelFailed ch reason => Sys2Proof.Machine.execChannelFailed ch reason s
  | .cacheCleanComplete cl => Sys2Proof.Machine.execCacheCleanComplete cl s
  | .l2en cl on => Sys2Proof.Machine.execL2en cl on s
  | .l1den cl k on => Sys2Proof.Machine.execL1den cl k on s
  | .l1cen cl k on => Sys2Proof.Machine.execL1cen cl k on s
  | .pfen cl k on => Sys2Proof.Machine.execPfen cl k on s
  | .l2cLockwaysWrite cl v => Sys2Proof.Machine.execL2cLockwaysWrite cl v s
  | .l2cTctxWrite cl ix by_ v => Sys2Proof.Machine.execL2cTctxWrite cl ix by_ v s
  | .pwrSet v => Sys2Proof.Machine.execPwrSet v s
  | .pwrClr v => Sys2Proof.Machine.execPwrClr v s
  | .powerTransitionComplete dom => Sys2Proof.Machine.execPowerTransitionComplete dom s
  | .registerWrite by_ off size w => Sys2Proof.Machine.execRegisterWrite by_ off size w s
  | .commandSlotWrite slot off bytes => Sys2Proof.Machine.execCommandSlotWrite slot off bytes s
  | .mbxDoorbell v => Sys2Proof.Machine.execMbxDoorbell v s
  | .mbxCtlWrite v => Sys2Proof.Machine.execMbxCtlWrite v s
  | .mbxRspbaseWrite v => Sys2Proof.Machine.execMbxRspbaseWrite v s
  | .mbxRspcfgWrite v => Sys2Proof.Machine.execMbxRspcfgWrite v s
  | .mbxRsptaddrWrite v => Sys2Proof.Machine.execMbxRsptaddrWrite v s
  | .mbxRspheadWrite v => Sys2Proof.Machine.execMbxRspheadWrite v s
  | .mbxWinselWrite by_ v => Sys2Proof.Machine.execMbxWinselWrite by_ v s
  | .mbxB2sync => Sys2Proof.Machine.execMbxB2sync s
  | .haltAll tag => Sys2Proof.Machine.execHaltAll tag s
  | .stopRun tag => Sys2Proof.Machine.execStopRun tag s
  | .guardAbort tag groups => Sys2Proof.Machine.execGuardAbort tag groups s
  | .identify src => Sys2Proof.Machine.execIdentify src s
  | .status src => Sys2Proof.Machine.execStatus src s
  | .memAlloc src words align raw => Sys2Proof.Machine.execMemAlloc src words align raw s
  | .memFree src addr => Sys2Proof.Machine.execMemFree src addr s
  | .memWrite src addr b tags => Sys2Proof.Machine.execMemWrite src addr b tags s
  | .memRead src addr words => Sys2Proof.Machine.execMemRead src addr words s
  | .codeLoad src addr b => Sys2Proof.Machine.execCodeLoad src addr b s
  | .ucodeLoad src b => Sys2Proof.Machine.execUcodeLoad src b s
  | .ucodeStatus src => Sys2Proof.Machine.execUcodeStatus src s
  | .patchInstall src b => Sys2Proof.Machine.execPatchInstall src b s
  | .taskAdmit src args => Sys2Proof.Machine.execTaskAdmit src args s
  | .taskWithdraw src id => Sys2Proof.Machine.execTaskWithdraw src id s
  | .taskQuery src id => Sys2Proof.Machine.execTaskQuery src id s
  | .taskMsg src id timeout words => Sys2Proof.Machine.execTaskMsg src id timeout words s
  | .taskReply src hostTag bank words => Sys2Proof.Machine.execTaskReply src hostTag bank words s
  | .taskMsgTimeout tag => Sys2Proof.Machine.execTaskMsgTimeout tag s
  | .poundConfig src args => Sys2Proof.Machine.execPoundConfig src args s
  | .runStart src => Sys2Proof.Machine.execRunStart src s
  | .runStop src => Sys2Proof.Machine.execRunStop src s
  | .linkConfig src n lcfg => Sys2Proof.Machine.execLinkConfig src n lcfg s
  | .streamConfig src k scfg sgeom sbase => Sys2Proof.Machine.execStreamConfig src k scfg sgeom sbase s
  | .feAccess src n write addr count vals => Sys2Proof.Machine.execFeAccess src n write addr count vals s
  | .guardLoad src form => Sys2Proof.Machine.execGuardLoad src form s
  | .guardPrepare src => Sys2Proof.Machine.execGuardPrepare src s
  | .guardArm src nonce crc => Sys2Proof.Machine.execGuardArm src nonce crc s
  | .manSetup src args => Sys2Proof.Machine.execManSetup src args s
  | .bbxRead src first count => Sys2Proof.Machine.execBbxRead src first count s
  | .calRead src => Sys2Proof.Machine.execCalRead src s
  | .calWrite src b confirm => Sys2Proof.Machine.execCalWrite src b confirm s
  | .vaultRead src off len => Sys2Proof.Machine.execVaultRead src off len s
  | .vaultWrite src off b => Sys2Proof.Machine.execVaultWrite src off b s
  | .freezeArm src arm => Sys2Proof.Machine.execFreezeArm src arm s
  | .thaw src => Sys2Proof.Machine.execThaw src s
  | .clusterReset src cl => Sys2Proof.Machine.execClusterReset src cl s
  | .deviceReset src => Sys2Proof.Machine.execDeviceReset src s
  | .selfTest src mask => Sys2Proof.Machine.execSelfTest src mask s
  | .debugChallenge src => Sys2Proof.Machine.execDebugChallenge src s
  | .debugUnlock src level sig => Sys2Proof.Machine.execDebugUnlock src level sig s
  | .badOpCommand src op => Sys2Proof.Machine.execBadOpCommand src op s
  | .smbusStateRead => Sys2Proof.Machine.execSmbusStateRead s
  | .smbusPoundRead => Sys2Proof.Machine.execSmbusPoundRead s
  | .smbusMsnRead => Sys2Proof.Machine.execSmbusMsnRead s
  | .smbusThermalRead => Sys2Proof.Machine.execSmbusThermalRead s
  | .smbusBbxRead => Sys2Proof.Machine.execSmbusBbxRead s
  | .smbusIdRead => Sys2Proof.Machine.execSmbusIdRead s
  | .smbusWriteNack cmd => Sys2Proof.Machine.execSmbusWriteNack cmd s
  | .coreFailed c cause => Sys2Proof.Machine.execCoreFailed c cause s
  | .abandonBoundaryTimeout c => Sys2Proof.Machine.execAbandonBoundaryTimeout c s
  | .hangTimeout c => Sys2Proof.Machine.execHangTimeout c s
  | .invalidationAckTimeout c => Sys2Proof.Machine.execInvalidationAckTimeout c s
  | .spareTakeover c => Sys2Proof.Machine.execSpareTakeover c s
  | .spareRelease c => Sys2Proof.Machine.execSpareRelease c s
  | .coreLost c => Sys2Proof.Machine.execCoreLost c s
  | .lockupWithdraw c => Sys2Proof.Machine.execLockupWithdraw c s
  | .clusterRestart cl trigger => Sys2Proof.Machine.execClusterRestart cl trigger s
  | .clusterRelease cl pass => Sys2Proof.Machine.execClusterRelease cl pass s
  | .clusterRestartTimeout cl => Sys2Proof.Machine.execClusterRestartTimeout cl s
  | .heartbeat => Sys2Proof.Machine.execHeartbeat s
  | .heartbeatWatchdog => Sys2Proof.Machine.execHeartbeatWatchdog s
  | .warmRestart trigger => Sys2Proof.Machine.execWarmRestart trigger s
  | .warmRestartComplete => Sys2Proof.Machine.execWarmRestartComplete s
  | .vaultDieFailed die op page => Sys2Proof.Machine.execVaultDieFailed die op page s
  | .blackBoxWrite => Sys2Proof.Machine.execBlackBoxWrite s
  | .powerGood args => Sys2Proof.Machine.execPowerGood args s
  | .pwrOkFall => Sys2Proof.Machine.execPwrOkFall s
  | .perstRelease args => Sys2Proof.Machine.execPerstRelease args s
  | .pcieGroupReset => Sys2Proof.Machine.execPcieGroupReset s
  | .freezeQualified => Sys2Proof.Machine.execFreezeQualified s
  | .freezeRelease => Sys2Proof.Machine.execFreezeRelease s
  | .thermtrip => Sys2Proof.Machine.execThermtrip s
  | .monitorLimit sensor reading => Sys2Proof.Machine.execMonitorLimit sensor reading s
  | .reservedOpcode c => Sys2Proof.Machine.execReservedOpcode c s
  | .beat host => Sys2Proof.Machine.execBeat host s
  | .cellSlot n => Sys2Proof.Machine.execCellSlot n s
  | .discardedCell n => Sys2Proof.Machine.execDiscardedCell n s
  | .bootComplete pass => Sys2Proof.Machine.execBootComplete pass s
  | .bar2Write off bytes => Sys2Proof.Machine.execBar2Write off bytes s
  | .ieee1687Write t => Sys2Proof.Machine.execIeee1687Write t s
  | .pfailHigh10ms args => Sys2Proof.Machine.execPfailHigh10ms args s

end Sys2Proof.Machine
end

