-- ==== Sys2Proof/Safety.lean ====
section
/-!
DEFINITION. The words that claims use: when a core issues an instruction, what a step changes and what it leaves alone, and the
forms of the state that every step keeps.
-/

namespace Sys2Proof.Machine

/-! ### When an instruction executes -/

/-- Bank b executes on core c, no load shadow is open, and no stored bit of its registers has flipped (R72). -/
abbrev Issues (s : State) (c : CoreId) (b : Fin 8) : Prop :=
  s.executing c = some b ∧ (s.bankOf (bk c b)).shadow = none ∧ (s.ctx (bk c b)).flaws = []

/-- The same, where the instruction accesses memory or traps: nothing makes the accesses of the position wait (R207, R212, R371). -/
abbrev IssuesMem (s : State) (c : CoreId) (b : Fin 8) : Prop := Issues s c b ∧ s.stalled c = false

/-! ### What changes -/

/-- From s to t nothing changes but the registers and private state of bank k, which become x. -/
def OnlyBank (s t : State) (k : Nat) (x : BankCtx) : Prop :=
  t.ctx k = x ∧ (t.bankOf k).shadow = (s.bankOf k).shadow ∧ (∀ j, j ≠ k → t.bankOf j = s.bankOf j) ∧ { t with banks := s.banks } = s

/-- The command completes, and nothing but bank k changes: it becomes x. -/
def Completes (i : Instr) (s : State) (k : Nat) (x : BankCtx) : Prop := ∃ t, exec i s = .next t ∧ OnlyBank s t k x

/-- A bank on which an instruction of `len` parcels has written one register. -/
def BankCtx.wrote (x : BankCtx) (d : R5) (w : Word) (len : Nat) : BankCtx := { x.set d w with pc := x.pc + BitVec.ofNat 62 len }

/-- A bank on which an instruction of `len` parcels has retired. -/
def BankCtx.past (x : BankCtx) (len : Nat) : BankCtx := { x with pc := x.pc + BitVec.ofNat 62 len }

/-- Word address `va` is used untranslated by a bank in ring 0, in the tagged store, at no copy line (R188, R190, R220). -/
abbrev Flat (s : State) (k va : Nat) : Prop :=
  tcEn (s.tctx k) = false ∧ pswRing (s.ctx k).psw = 0 ∧ s.storeOk va = true

/-- The L2 controllers of t are those of s, but for which lines the caches hold: residency, holes that a snoop makes and a miss fills
(R202, R211), and the count of dropped prefetches (R197). -/
def L2Kept (s t : State) : Prop :=
  ∀ cl, let l := s.l2Of cl
    { t.l2Of cl with slots := l.slots, holeev := l.holeev, sets := l.sets, l1d := l.l1d, l1c := l.l1c, vict := l.vict, drops := l.drops } = l

/-- A task but for the credits that line transfers take (R48). -/
def Task.uncharged (t : Task) : Task := { t with credLeft := 0, credOut := false }

/-- What an instruction of bank b of core c may touch in t, beside its own bank: the tagged store, its directory, the lines that caches
hold, the credits of tasks, and the cores (of which each predicate below says more). -/
def Near (s t : State) (k : Nat) : Prop :=
  (∀ j, j ≠ k → t.bankOf j = s.bankOf j) ∧ L2Kept s t ∧ t.weir.tasks.map Task.uncharged = s.weir.tasks.map Task.uncharged ∧
  { t with banks := s.banks, mem := s.mem, dir := s.dir, l2 := s.l2, cores := s.cores, weir := { t.weir with tasks := s.weir.tasks } } = s

/-- The command completes as a load: its shadow opens with destination index and word, the bank becomes y, the cores cs, and every
word of memory reads as before. -/
def Opens (i : Instr) (s : State) (k : Nat) (dest : Nat) (w : Word) (y : BankCtx) (cs : SMap Core) : Prop :=
  ∃ t d, exec i s = .next t ∧ (t.bankOf k).shadow = some d ∧ d.dest = dest ∧ d.word = w ∧ d.slot = 0 ∧ d.held = [] ∧
    t.ctx k = y ∧ t.cores = cs ∧ (∀ a, t.rd a = s.rd a) ∧ Near s t k

/-- The command completes, the bank becomes y, and every word of memory reads as before. -/
def Reads (i : Instr) (s : State) (k : Nat) (y : BankCtx) : Prop :=
  ∃ t, exec i s = .next t ∧ t.ctx k = y ∧ (t.bankOf k).shadow = none ∧ t.cores = s.cores ∧ (∀ a, t.rd a = s.rd a) ∧ Near s t k

/-- The command traps at the instruction itself, unless something makes the entry wait (R207, R212, R371). -/
def Raises (i : Instr) (s : State) (c : CoreId) (b : Fin 8) (tr : Trap) : Prop :=
  s.stalled c = false → exec i s = .next (s.trapAt c b tr)

/-- The command traps: nothing but what the access reached for has changed when the trap is delivered. -/
def Traps (i : Instr) (s : State) (c : CoreId) (b : Fin 8) (tr : Trap) : Prop :=
  ∃ u, exec i s = .next (u.trapAt c b tr) ∧ u.bankOf (bk c b) = s.bankOf (bk c b) ∧ u.cores = s.cores ∧ (∀ a, u.rd a = s.rd a) ∧
    Near s u (bk c b)

/-- Every reservation on a word of `pas` has ended, and the cores are otherwise as they were (R124). -/
def ResvEnded (s t : State) (pas : List Nat) : Prop :=
  ∀ c, t.coreOf c = if (s.coreOf c).resv.any (fun r => pas.contains r.2) then { s.coreOf c with resv := none } else s.coreOf c

/-- The command completes and the bank becomes y; the listed words of memory read as given, every other word as before. -/
def StoresTo (i : Instr) (s : State) (k : Nat) (ws : List (Nat × Word)) (y : BankCtx) : Prop :=
  ∃ t, exec i s = .next t ∧ t.ctx k = y ∧ (t.bankOf k).shadow = none ∧ ResvEnded s t (ws.map Prod.fst) ∧
    (∀ pw ∈ ws, t.rd pw.1 = pw.2) ∧ (∀ a, a ∉ ws.map Prod.fst → t.rd a = s.rd a) ∧ Near s t k

/-- Bank b may use the vector state of its core, and the unit has power (R179, R180). -/
abbrev VecReady (s : State) (c : CoreId) (b : Fin 8) : Prop :=
  mayUseVector s c b = true ∧ s.domOn (vecDomain c) = true ∧ bit s.pwr.busy (vecDomain c) = false

/-- The command completes: bank k becomes y, core c becomes z, and nothing else changes. -/
def VecDoes (i : Instr) (s : State) (c : CoreId) (k : Nat) (y : BankCtx) (z : Core) : Prop :=
  ∃ t, exec i s = .next t ∧ t.ctx k = y ∧ (t.bankOf k).shadow = none ∧ t.coreOf c = z ∧
    (∀ j, j ≠ k → t.bankOf j = s.bankOf j) ∧ (∀ c', c' ≠ c → t.coreOf c' = s.coreOf c') ∧
    { t with banks := s.banks, cores := s.cores } = s

/-- The core after a vector result with its exceptions. -/
def Core.vec (z : Core) (d : R5) (v : BitVec 512) (e : Exc) (sat : Bool) : Core := { z.vset d v with vstat := orFlags z.vstat e sat }

/-- A word that a load delivers as it stands: neither CODE nor a pointer into a condemned space (R70, R146). -/
abbrev Plain (x : BankCtx) (w : Word) : Prop := w.tag ≠ tCODE ∧ (isHeap w && x.condemned (spaceOf w.val)) = false

/-- A store of w over `old` into space `target` passes the tag rules and marks no card (R68, R70, R141). -/
abbrev Storable (x : BankCtx) (old w : Word) (target : Nat) : Prop :=
  old.tag ≠ tCODE ∧ (old.tag == tRAWD && isHeap w) = false ∧
  (isHeap w && bit x.cardbase 63 && x.bmatBit target (spaceOf w.val)) = false

/-- Whether a register can be a base of a bank in ring 0 or 1 (R102). -/
abbrev BankCtx.based (x : BankCtx) (r : R5) : Prop := (isHeap (x.get r) || isFix (x.get r)) = true

/-- The word address that a base register and an offset give (R102, R122). -/
def BankCtx.ea (x : BankCtx) (r : R5) (off : Int) : Nat := (((vaOf (x.get r).val : Int) + off) % (2 ^ 60 : Nat)).toNat

/-- The command leaves the state as it is. -/
def NoEffect (i : Instr) (s : State) : Prop := exec i s = .next s

/-- The command completes in t. -/
def Gives (i : Instr) (s t : State) : Prop := exec i s = .next t

/-- No store of a bank waits for its accesses to go on (R212, R371). -/
abbrev NoneWait (s : State) : Prop := ∀ kb ∈ s.banks, kb.2.waiting = []

/-! ### The sluice and the manifest -/

/-- The descriptor at a physical word address, as a load reads it (R275). -/
def State.descAt (s : State) (a : Nat) : Desc :=
  let v (i : Nat) : Val := (s.rd (a + i)).val
  ⟨v 0, v 1, v 2, v 3, v 4, v 5, v 6, 0⟩

/-- A channel can load the descriptor at a physical word address (R280, R291). -/
abbrev Loadable (s : State) (c a : Nat) : Prop :=
  a % 8 = 0 ∧ s.storeOk a = true ∧ (∀ i < 7, (s.rd (a + i)).tag = tDESC) ∧ s.descOk c (s.descAt a) = true

/-- A channel stands at the start of a descriptor: WAIT, or ACTIVE without a trigger (R281). -/
abbrev Loaded (t : State) (c : Nat) (d : Desc) : Prop :=
  (t.chanOf c).desc = some d ∧ (t.chanOf c).done = 0 ∧ (t.chanOf c).wr = 0 ∧ (t.chanOf c).st = if trigOf d = 0 then .active else .wait

/-- A channel stands at the start of a descriptor that it took from the shadow (R286, R287). -/
abbrev TookShadow (s t : State) (c : Nat) (d : Desc) : Prop :=
  Loaded t c d ∧ (t.chanOf c).curShd = true ∧ (t.chanOf c).arm = false ∧ (t.chanOf c).shadowTaken = true ∧
  (t.chanOf c).shcnt = ((s.chanOf c).shcnt + 1) % 256

/-- The mirrored region, where one is set up, holds an accepted entry (R304, R316). -/
abbrev RegionHolds (s : State) (p : Placed) : Prop :=
  s.memc.mirLen = 0 ∨ ∀ jw ∈ p.words, mget wordD s.mem (s.regionAt jw.1) = jw.2 ∧ s.dirty (s.regionAt jw.1 / 8) = false

/-! ### Forms that every step keeps -/

/-- The tagged store is in its canonical form. -/
abbrev MemCanonical (s : State) : Prop := mwf wordD s.mem = true

/-- No bit of the arrays of a cluster has flipped, and every copy holds what its line reads as. -/
abbrev L2.Clean (l : L2) : Prop := l.flaws = [] ∧ l.badTags = [] ∧ l.kept = [] ∧ l.codeBad = []

/-- The store but for its mirrored region is plain. -/
abbrev SoundStore (s : State) : Prop :=
  s.memc.tfail = 0 ∧ s.memc.flaws = [] ∧ s.memc.dirBad = [] ∧ ∀ cl, (s.l2Of cl).Clean

/-- No triplet has failed, no region is mirrored, and no bit of the store, its directory or the caches has flipped. -/
abbrev PlainStore (s : State) : Prop :=
  s.memc.tfail = 0 ∧ s.memc.mirLen = 0 ∧ s.memc.flaws = [] ∧ s.memc.dirBad = [] ∧ ∀ cl, (s.l2Of cl).Clean

end Sys2Proof.Machine
end

