-- ==== Sys2Proof/WellFormed.lean ====
section
/-!
DEFINITION. Well-formed commands: operands that the command's source can express (Tables 11.4, 15.6, 15.9, R325, R332). The types
bound the others. A well-formed command may still be refused by its own rules; that is its meaning, not its form.
-/

namespace Sys2Proof

/-- A command argument of 8 bytes. -/
def arg64 (n : Nat) : Bool := decide (n < 2 ^ 64)

/-- OUTLEN has 4 bytes (Table 15.6). -/
def srcWf : Src → Bool
  | .host _ _ len => decide (len < 2 ^ 32)
  | .towpath .. => true

def b2Wf (b : B2) : Bool := arg64 b.off && arg64 b.len

/-- LEN of a cell has 8 bits (Table 11.4). -/
def cellWf (c : RxCell) : Bool := decide (c.payload.length < 256)

def admitWf (a : AdmitArgs) : Bool :=
  arg64 a.offset && arg64 a.deadline && arg64 a.budget && arg64 a.customU && arg64 a.recBudget && arg64 a.credits && arg64 a.carryBase &&
    decide (a.carried.length ≤ 24)

def poundWf (a : PoundArgs) : Bool := arg64 a.p && arg64 a.din && arg64 a.dout && arg64 a.tol && arg64 a.synlim

def guardWf : GuardForm → Bool
  | .entries first b => arg64 first && b2Wf b
  | .profile _ frames b => arg64 frames && b2Wf b
  | .groups b => b2Wf b

def manWf (a : ManArgs) : Bool := arg64 a.sz && arg64 a.region && arg64 a.thresh && arg64 a.hostDur

def debugWf : DebugTarget → Bool
  | .reg _ _ ix _ => decide (ix < 0x98)
  | .sill _ _ ix _ => decide (ix < 64)
  | .sram addr _ => arg64 addr
  | .regBits _ _ ix _ => decide (ix < 0x98)
  | .tlb _ code n => decide (n < if code then 16 else 48)
  | .walk _ n => decide (n < 32)
  | .tlbSlot _ code n asid vpn _ lvl pte =>
    decide (n < if code then 16 else 48) && decide (asid < 4096) && arg64 vpn && decide (1 ≤ lvl) && decide (lvl ≤ 4) && arg64 pte
  | .walkEntry _ n asid lvl pre frame pte width =>
    decide (n < 32) && decide (asid < 4096) && decide (lvl ≤ 4) && arg64 pre && arg64 frame && arg64 pte && decide (width ≤ 60)
  | .ctl .. | .pc .. | .vec .. | .lineBits .. | .lineWord .. | .codeParity .. | .slot .. | .l2Tag .. | .l1Tag .. | .store .. | .storeWord ..
  | .matchEntry .. | .dirEntry .. | .tck .. | .tapInstr .. | .boundary .. => true

/-- Well-formed commands. -/
def Instr.wf : Instr → Bool
  | .sampleCell _ cell => cellWf cell
  | .echoResponse _ pos _ _ => decide (pos < 5)
  | .feAccessResponse _ _ _ vals => decide (vals.length ≤ 12)
  | .bulkCell _ cell => cellWf cell
  | .pcieLinkUp width speed => [1, 2, 4, 8, 16].contains width && decide (1 ≤ speed) && decide (speed ≤ 5)
  | .registerWrite _ off size _ => [1, 2, 4, 8].contains size && decide (off + size ≤ 0x10000)
  | .commandSlotWrite _ off bytes => decide (bytes.length ≤ 64) && decide (off + bytes.length ≤ 256)
  | .identify src => srcWf src
  | .status src => srcWf src
  | .memAlloc src words align _ => srcWf src && arg64 words && arg64 align
  | .memFree src addr => srcWf src && arg64 addr
  | .memWrite src addr b _ => srcWf src && arg64 addr && b2Wf b
  | .memRead src addr words => srcWf src && arg64 addr && arg64 words
  | .codeLoad src addr b => srcWf src && arg64 addr && b2Wf b
  | .ucodeLoad src b => srcWf src && b2Wf b
  | .ucodeStatus src => srcWf src
  | .patchInstall src b => srcWf src && b2Wf b
  | .taskAdmit src args => srcWf src && admitWf args
  | .taskWithdraw src id => srcWf src && arg64 id
  | .taskQuery src id => srcWf src && arg64 id
  | .taskMsg src id timeout words => srcWf src && arg64 id && arg64 timeout && decide (words.length ≤ 24)
  | .taskReply src _ _ words => srcWf src && decide (words.length ≤ 24)
  | .poundConfig src args => srcWf src && poundWf args
  | .runStart src => srcWf src
  | .runStop src => srcWf src
  | .linkConfig src _ _ => srcWf src
  | .streamConfig src _ _ _ _ => srcWf src
  | .feAccess src _ _ _ count vals => srcWf src && arg64 count && decide (vals.length ≤ 28)
  | .guardLoad src form => srcWf src && guardWf form
  | .guardPrepare src => srcWf src
  | .guardArm src _ _ => srcWf src
  | .manSetup src args => srcWf src && manWf args
  | .bbxRead src first count => srcWf src && arg64 first && arg64 count
  | .calRead src => srcWf src
  | .calWrite src b _ => srcWf src && b2Wf b
  | .vaultRead src off len => srcWf src && arg64 off && arg64 len
  | .vaultWrite src off b => srcWf src && arg64 off && b2Wf b
  | .freezeArm src _ => srcWf src
  | .thaw src => srcWf src
  | .clusterReset src _ => srcWf src
  | .deviceReset src => srcWf src
  | .selfTest src _ => srcWf src
  | .debugChallenge src => srcWf src
  | .debugUnlock src _ sig => srcWf src && decide (sig.length ≤ 224)
  | .badOpCommand src _ => srcWf src
  | .vaultDieFailed _ op page => decide (op < 2 ^ 64) && decide (page < 2 ^ 64)
  | .beat host => decide (host.length ≤ 64)
  | .bootComplete pass => pass.length == 8
  | .bar2Write off bytes => decide (off + bytes.length ≤ 0x1000000)
  | .ieee1687Write t => debugWf t
  | .nop .. | .mov .. | .add .. | .sub .. | .mul .. | .div .. | .rem .. | .addi .. | .subi .. | .muli .. | .addk .. | .addl ..
  | .cmp .. | .cmpeq .. | .cmplt .. | .cmple .. | .cmpeqi .. | .cmplti .. | .eq .. | .and .. | .or .. | .xor .. | .shl .. | .shr ..
  | .sar .. | .andi .. | .ori .. | .xori .. | .shli .. | .shri .. | .sari .. | .movi .. | .movk .. | .movl .. | .lea .. | .tagof ..
  | .tageq .. | .settag .. | .car .. | .cdr .. | .setcar .. | .setcdr .. | .cons .. | .ld .. | .st .. | .ldx .. | .ldb .. | .stb ..
  | .ldc .. | .stc .. | .acq .. | .rel .. | .lr .. | .sc .. | .zline .. | .fence .. | .cvt .. | .movb .. | .fillb .. | .cmpb ..
  | .scanl .. | .stm .. | .ldm .. | .recb .. | .recw .. | .rece .. | .br .. | .brl .. | .bnil .. | .bnnil .. | .bnill ..
  | .bnnill .. | .call .. | .calll .. | .callr .. | .jlnk .. | .callg .. | .ret .. | .retg .. | .tret .. | .waitt .. | .waite ..
  | .vld .. | .vst .. | .vlds .. | .vadd .. | .vmul .. | .vfma .. | .vcmul .. | .vbfly4 .. | .vreduce .. | .vmin .. | .vmax ..
  | .vcvt .. | .vget .. | .vput .. | .mfc .. | .mtc .. | .mfb .. | .mtb .. | .tlbi .. | .wci .. | .tlbsync .. | .abandon ..
  | .tpsend .. | .tprecv .. | .cmaint .. | .crange .. | .cx .. | .fillComplete .. | .trapEntry .. | .bankSwitch ..
  | .budgetExhausted .. | .graceExhausted .. | .deadlineReached .. | .startOffset .. | .reservationTimeout ..
  | .broadcastInvalidation .. | .tick | .tickInEdge .. | .tickSynthesised | .commitWordPerformed | .dOut | .streamClose ..
  | .abortInQualified | .abortInRelease | .feStatus .. | .lanemapResponse .. | .lanefail .. | .controlResendTimeout ..
  | .laneFailed .. | .reStripe .. | .linkRetrain .. | .trainComplete .. | .trainTimeout .. | .alignTimeout .. | .descriptorStart ..
  | .halfCompletion .. | .handOver .. | .busError .. | .retryAttempt .. | .channelHalt .. | .sluiceStopComplete ..
  | .sluTimerFire .. | .sluStart .. | .sluResume .. | .sluShdWrite .. | .sluEn .. | .sluClass .. | .sluArm .. | .sluStop ..
  | .sluGo .. | .sluPrio .. | .sluStatW1c .. | .sluGctlWrite .. | .bl16haltClear .. | .sluTimerWrite .. | .evtRaise ..
  | .evtPendW1c .. | .evtRouteWrite .. | .lockkeeperEventDelivery .. | .msixMessage .. | .manifestBatch | .manDurable ..
  | .pcieLinkDown | .pfailQualified | .flushImageComplete | .pfailRelease | .imageEraseComplete | .patrolScrubRead ..
  | .channelFailed .. | .cacheCleanComplete .. | .l2en .. | .l1den .. | .l1cen .. | .pfen .. | .l2cLockwaysWrite ..
  | .l2cTctxWrite .. | .pwrSet .. | .pwrClr .. | .powerTransitionComplete .. | .mbxDoorbell .. | .mbxCtlWrite ..
  | .mbxRspbaseWrite .. | .mbxRspcfgWrite .. | .mbxRsptaddrWrite .. | .mbxRspheadWrite .. | .mbxWinselWrite .. | .mbxB2sync
  | .haltAll .. | .stopRun .. | .guardAbort .. | .taskMsgTimeout .. | .smbusStateRead | .smbusPoundRead | .smbusMsnRead
  | .smbusThermalRead | .smbusBbxRead | .smbusIdRead | .smbusWriteNack .. | .coreFailed .. | .abandonBoundaryTimeout ..
  | .hangTimeout .. | .invalidationAckTimeout .. | .spareTakeover .. | .spareRelease .. | .coreLost .. | .lockupWithdraw ..
  | .clusterRestart .. | .clusterRelease .. | .clusterRestartTimeout .. | .heartbeat | .heartbeatWatchdog | .warmRestart ..
  | .warmRestartComplete | .blackBoxWrite | .powerGood .. | .pwrOkFall | .perstRelease .. | .pcieGroupReset | .freezeQualified
  | .freezeRelease | .thermtrip | .monitorLimit .. | .reservedOpcode .. | .cellSlot .. | .discardedCell .. | .pfailHigh10ms .. => true

end Sys2Proof
end

