-- ==== Sys2Proof/Certificates/Slice0/Obligations.lean ====
section
/-!
DEFINITION. The statements about this model. `k` is the index of a bank, 8 × core + bank; `Issues` says that a bank executes on its
core with no load shadow open.
-/

open Sys2Proof Sys2Proof.Machine

/-! ### The machine as a whole -/

/-- A step runs the command at the front of the queue on the queue's rest; on an empty queue 10 ns pass (log 2). -/
def Obligations.StepRunsFrontCommand : Prop :=
  (∀ (s : State) (c : Instr) (rest : List Instr), s.pending = c :: rest → step s = exec c { s with pending := rest }) ∧
  (∀ s : State, s.pending = [] → step s = .next s.idle)

/-- Every command answers a next state, and leaves the queue as it is: none faults, none is refused by the model. That a command whose
circumstances are not met answers too, with nothing changed, is the model's choice (DESIGN CHOICE, log 1); what each command does the
statements below say. -/
def Obligations.EveryCommandAnswers : Prop := ∀ (i : Instr) (s : State), ∃ t, exec i s = .next t ∧ t.pending = s.pending

/-- Reset: the values that the spec gives for the registers of R86, the bank priorities of R45, PSW, WEI_RUN, PERMIT, LKSTATE. -/
def Obligations.ResetLeaves : Prop :=
  (∀ k i, (State.reset.ctx k).at_ i = unbound) ∧
  (∀ k, winCur (State.reset.ctx k).winpos = 0 ∧ winRes (State.reset.ctx k).winpos = 1 ∧ winTw (State.reset.ctx k).winpos = false ∧
    winSdepth (State.reset.ctx k).winpos = 0) ∧
  (∀ (c : CoreId) (b : Fin 8), (State.reset.ctx (bk c b)).prio.toNat = b.val) ∧
  State.reset.weir.runSt = .stopped ∧ State.reset.sil.permit = false ∧ State.reset.lk.st = .booting ∧ State.reset.pending = [] ∧ MemCanonical State.reset

/-! ### Scalar instructions -/

/-- ADD, SUB, MUL, DIV, REM and their immediate forms, in every format: where the operation has a result, it is written to d, the
PC moves past the instruction, and nothing else changes. -/
def Obligations.ArithmeticCompletes : Prop :=
  ∀ (s : State) (c : CoreId) (b : Fin 8) (w : Word), Issues s c b →
    let k := bk c b
    let x := s.ctx k
    (∀ f, arith .add (x.get (aluOf f).a) (x.get (aluOf f).b) = .ok w → Completes (.add c f) s k (x.wrote (aluOf f).d w (aluOf f).len)) ∧
    (∀ f, arith .sub (x.get (aluOf f).a) (x.get (aluOf f).b) = .ok w → Completes (.sub c f) s k (x.wrote (aluOf f).d w (aluOf f).len)) ∧
    (∀ f, arith .mul (x.get (aluOf f).a) (x.get (aluOf f).b) = .ok w → Completes (.mul c f) s k (x.wrote (aluOf f).d w (aluOf f).len)) ∧
    (∀ d ra rb, arith .div (x.get ra) (x.get rb) = .ok w → Completes (.div c d ra rb) s k (x.wrote d w 2)) ∧
    (∀ d ra rb, arith .rem (x.get ra) (x.get rb) = .ok w → Completes (.rem c d ra rb) s k (x.wrote d w 2)) ∧
    (∀ A n, arith .add (x.get (wide A)) (fixN n.toNat) = .ok w → Completes (.addi c (.s A n)) s k (x.wrote (wide A) w 1)) ∧
    (∀ d a n, arith .add (x.get a) (fixI n.toInt) = .ok w → Completes (.addi c (.rri d a n)) s k (x.wrote d w 2)) ∧
    (∀ A n, arith .sub (x.get (wide A)) (fixN n.toNat) = .ok w → Completes (.subi c A n) s k (x.wrote (wide A) w 1)) ∧
    (∀ d a n, arith .mul (x.get a) (fixI n.toInt) = .ok w → Completes (.muli c d a n) s k (x.wrote d w 2)) ∧
    (∀ d n, arith .add (x.get d) (fixI n.toInt) = .ok w → Completes (.addk c d n) s k (x.wrote d w 2)) ∧
    (∀ d n, arith .add (x.get d) (fixI n.toInt) = .ok w → Completes (.addl c d n) s k (x.wrote d w 3))

/-- R107: FIX with FIX. -/
def Obligations.FixArithmeticExact : Prop :=
  ∀ a b : Val,
    (∀ op ∈ [AOp.add, .sub, .mul], let v : Int := match op with | .add => a.toInt + b.toInt | .sub => a.toInt - b.toInt | _ => a.toInt * b.toInt
      if -(2 : Int) ^ 63 ≤ v ∧ v ≤ 2 ^ 63 - 1 then arith op (fix a) (fix b) = .ok (fixI v)
      else arith op (fix a) (fix b) = .error ⟨.ovf, some (fix a), some (fix b)⟩) ∧
    (if b.toInt = 0 ∨ (a.toInt = -(2 : Int) ^ 63 ∧ b.toInt = -1) then
        arith .div (fix a) (fix b) = .error ⟨.ovf, some (fix a), some (fix b)⟩
      else arith .div (fix a) (fix b) = .ok (fixI (a.toInt.tdiv b.toInt))) ∧
    (if b.toInt = 0 then arith .rem (fix a) (fix b) = .error ⟨.ovf, some (fix a), some (fix b)⟩
      else arith .rem (fix a) (fix b) = .ok (fixI (a.toInt - b.toInt * a.toInt.tdiv b.toInt))) ∧
    arith .rem (fix (BitVec.ofInt 64 (-(2 : Int) ^ 63))) (fix (BitVec.ofInt 64 (-1))) = .ok (fix 0)

/-- CMP, CMPEQ, CMPLT, CMPLE, their immediate forms, and EQ. The relation of two FIX words (R113). -/
def Obligations.ComparisonsComplete : Prop :=
  (∀ (s : State) (c : CoreId) (b : Fin 8) (r : Option Ordering), Issues s c b →
    let k := bk c b
    let x := s.ctx k
    let rel (u v : Word) : Prop := compareWords (pswQstrict x.psw) u v = .ok r
    (∀ f, rel (x.get (aluOf f).a) (x.get (aluOf f).b) → Completes (.cmp c f) s k (x.wrote (aluOf f).d
      (match r with | some .lt => fixI (-1) | some .eq => fix 0 | some .gt => fix 1 | none => fix 2) (aluOf f).len)) ∧
    (∀ d ra rb, rel (x.get ra) (x.get rb) → Completes (.cmpeq c d ra rb) s k (x.wrote d (wBool (r = some .eq)) 2)) ∧
    (∀ d ra rb, rel (x.get ra) (x.get rb) → Completes (.cmplt c d ra rb) s k (x.wrote d (wBool (r = some .lt)) 2)) ∧
    (∀ d ra rb, rel (x.get ra) (x.get rb) → Completes (.cmple c d ra rb) s k (x.wrote d (wBool (r = some .lt ∨ r = some .eq)) 2)) ∧
    (∀ d a n, rel (x.get a) (fixI n.toInt) → Completes (.cmpeqi c d a n) s k (x.wrote d (wBool (r = some .eq)) 2)) ∧
    (∀ d a n, rel (x.get a) (fixI n.toInt) → Completes (.cmplti c d a n) s k (x.wrote d (wBool (r = some .lt)) 2)) ∧
    (∀ d ra rb, isPoison (x.get ra) = false → isPoison (x.get rb) = false →
      Completes (.eq c d ra rb) s k (x.wrote d (wBool (x.get ra = x.get rb)) 2))) ∧
  (∀ (q : Bool) (a b : Val), compareWords q (fix a) (fix b) =
    .ok (some (if a.toInt < b.toInt then .lt else if a.toInt = b.toInt then .eq else .gt)))

/-- R116: AND, OR, XOR, SHL, SHR, SAR and their immediate forms, on FIX operands and on others. -/
def Obligations.BitOperationsComplete : Prop :=
  ∀ (s : State) (c : CoreId) (b : Fin 8) (d ra rb : R5) (n : BitVec 8), Issues s c b →
    let k := bk c b
    let x := s.ctx k
    let i : Val := n.signExtend 64
    (∀ u v : Val, x.get ra = fix u → x.get rb = fix v →
      Completes (.and c d ra rb) s k (x.wrote d (fix (u &&& v)) 2) ∧ Completes (.or c d ra rb) s k (x.wrote d (fix (u ||| v)) 2) ∧
      Completes (.xor c d ra rb) s k (x.wrote d (fix (u ^^^ v)) 2) ∧
      Completes (.shl c d ra rb) s k (x.wrote d (fix (u <<< (v.toNat % 64))) 2) ∧
      Completes (.shr c d ra rb) s k (x.wrote d (fix (u >>> (v.toNat % 64))) 2) ∧
      Completes (.sar c d ra rb) s k (x.wrote d (fix (u.sshiftRight (v.toNat % 64))) 2)) ∧
    (∀ u : Val, x.get ra = fix u →
      Completes (.andi c d ra n) s k (x.wrote d (fix (u &&& i)) 2) ∧ Completes (.ori c d ra n) s k (x.wrote d (fix (u ||| i)) 2) ∧
      Completes (.xori c d ra n) s k (x.wrote d (fix (u ^^^ i)) 2) ∧
      Completes (.shli c d ra n) s k (x.wrote d (fix (u <<< (i.toNat % 64))) 2) ∧
      Completes (.shri c d ra n) s k (x.wrote d (fix (u >>> (i.toNat % 64))) 2) ∧
      Completes (.sari c d ra n) s k (x.wrote d (fix (u.sshiftRight (i.toNat % 64))) 2)) ∧
    (s.stalled c = false → isPoison (x.get ra) = false → isPoison (x.get rb) = false → (isFix (x.get ra) && isFix (x.get rb)) = false →
      ∀ j ∈ [Instr.and c d ra rb, .or c d ra rb, .xor c d ra rb, .shl c d ra rb, .shr c d ra rb, .sar c d ra rb],
        Gives j s (s.trapAt c b ⟨.type, some (x.get ra), some (x.get rb)⟩)) ∧
    (s.stalled c = false → isPoison (x.get ra) = false → isFix (x.get ra) = false →
      ∀ j ∈ [Instr.andi c d ra n, .ori c d ra n, .xori c d ra n, .shli c d ra n, .shri c d ra n, .sari c d ra n],
        Gives j s (s.trapAt c b ⟨.type, some (x.get ra), some (fix i)⟩))

/-- NOP, moves, constants, tags and conversion. SETTAG with the tag POISON gives POISON of origin 5 (Table 3.17), and leaves a's own POISON
(DEDUCED, log 29). -/
def Obligations.MovesComplete : Prop :=
  ∀ (s : State) (c : CoreId) (b : Fin 8), Issues s c b →
    let k := bk c b
    let x := s.ctx k
    Completes (.nop c 0 0) s k (x.past 1) ∧
    (∀ f, Completes (.mov c f) s k (x.wrote (unOf f).d (x.get (unOf f).a) (unOf f).len)) ∧
    (∀ A n, Completes (.movi c (.s A n)) s k (x.wrote (wide A) (fixN n.toNat) 1)) ∧
    (∀ d n, Completes (.movi c (.ri d n)) s k (x.wrote d (fixI n.toInt) 2)) ∧
    (∀ A, Completes (.movk c (.s A 0)) s k (x.wrote (wide A) unbound 1) ∧ Completes (.movk c (.s A 1)) s k (x.wrote (wide A) wNil 1) ∧
      Completes (.movk c (.s A 2)) s k (x.wrote (wide A) wTrue 1)) ∧
    (∀ d, Completes (.movk c (.ri d 0)) s k (x.wrote d unbound 2) ∧ Completes (.movk c (.ri d 1)) s k (x.wrote d wNil 2) ∧
      Completes (.movk c (.ri d 2)) s k (x.wrote d wTrue 2)) ∧
    (∀ d n, Completes (.movl c d n) s k (x.wrote d (fixI n.toInt) 3)) ∧
    (∀ d n, Completes (.lea c d n) s k (x.wrote d (cref (x.pc + n.signExtend 62)) 3)) ∧
    (∀ f, Completes (.tagof c f) s k (x.wrote (unOf f).d (fixN (x.get (unOf f).a).tag.toNat) (unOf f).len)) ∧
    (∀ d a t, Completes (.tageq c d a t) s k (x.wrote d (wBool ((x.get a).tag = t)) 2)) ∧
    (∀ d a t r, reservedTag t = false → setTagRing t = some r → pswRing x.psw ≤ r →
      Completes (.settag c d a t) s k (x.wrote d (if t = tPOISON then (if isPoison (x.get a) then x.get a else ⟨tPOISON, 0x0500000000000000⟩) else ⟨t, (x.get a).val⟩) 2)) ∧
    (∀ d ra rb n w, (cvtReadsB n.toNat ∨ rb = 0) → cvt n.toNat (x.get ra) (x.get rb) = .ok w →
      Completes (.cvt c d ra rb n) s k (x.wrote d w 2))

/-- An operand that an instruction cannot take traps it: POISON first, then the tags (R80, R106, R111, R116). A register whose stored bits have flipped (R56, R72, R73): MOV, which consumes nothing, delivers the corrected word or POISON of
origin 1, and the register and the counts of the cluster show it (log 61); one flipped bit is corrected wherever it is. -/
def Obligations.ScalarOperandsTrap : Prop :=
  (∀ (s : State) (c : CoreId) (b : Fin 8) (d ra rb : R5) (t : Trap), IssuesMem s c b →
    let k := bk c b
    let x := s.ctx k
    (arith .add (x.get ra) (x.get rb) = .error t → Gives (.add c (.rrr d ra rb)) s (s.trapAt c b t)) ∧
    (arith .div (x.get ra) (x.get rb) = .error t → Gives (.div c d ra rb) s (s.trapAt c b t)) ∧
    (compareWords (pswQstrict x.psw) (x.get ra) (x.get rb) = .error t → Gives (.cmplt c d ra rb) s (s.trapAt c b t)) ∧
    (bitOp .shl (x.get ra) (x.get rb) = .error t → Gives (.shl c d ra rb) s (s.trapAt c b t)) ∧
    (isPoison (x.get ra) → arith .add (x.get ra) (x.get rb) = .error ⟨.poisonUse, some (fix 0), some (x.get ra)⟩) ∧
    (isPoison (x.get ra) = false → isPoison (x.get rb) = false → (isFix (x.get ra) && isFix (x.get rb)) = false →
      bitOp .shl (x.get ra) (x.get rb) = .error ⟨.type, some (x.get ra), some (x.get rb)⟩)) ∧
  ((∀ (s : State) (c : CoreId) (b : Fin 8) (g : UnF) (f : BitVec 91),
    let k := bk c b
    let x := s.ctx k
    let o := unOf g
    let i := x.ix o.a.toNat
    s.executing c = some b → (s.bankOf k).shadow = none → x.flaws = [(i, f)] → f ≠ 0 →
    let delivers (w : Word) (corr pois : Nat) : Prop := ∃ t, exec (.mov c g) s = .next t ∧ (t.ctx k).get o.d = w ∧ (t.ctx k).at_ i = w ∧
      (t.ctx k).flaws = [] ∧ (t.ctx k).pc = x.pc + BitVec.ofNat 62 o.len ∧ t.mem = s.mem ∧
      (t.l2Of (clOf k)).dcorr = ((s.l2Of (clOf k)).dcorr + corr) % 65536 ∧ (t.l2Of (clOf k)).dpois = ((s.l2Of (clOf k)).dpois + pois) % 65536
    (s.l2Of (clOf k)).dcorr < 65536 → (s.l2Of (clOf k)).dpois < 65536 →
    (∀ w n, decodeBits (storedBits (x.at_ i) ^^^ f) = some (w, n) → delivers w n 0) ∧
    (decodeBits (storedBits (x.at_ i) ^^^ f) = none → delivers (poison 1 0) 0 1)) ∧
  ∀ (w : Word) (j : Nat), j < 91 → decodeBits (storedBits w ^^^ (1#91 <<< j)) = some (w, 1))

/-! ### Translation, loads and stores -/

/-- Where translation is off, ring 0 uses the address as it stands and other rings trap (R188); where it is on, an entry of the TLB that
covers the page gives the frame, after the checks of R192 in their order. A miss walks the tables from the deepest walk-cache entry, else
from ROOT: `es l` is the address of the entry of level l; the walk installs what it has read, counts its reads and changes no word (R192,
R193, R195); an entry that is no valid PTE traps. -/
def Obligations.TranslationGivesAddress : Prop :=
  ∀ (s : State) (c : CoreId) (k ring va : Nat) (acc : Acc) (t3 : Word),
    (tcEn (s.tctx k) = false → va < 2 ^ 36 →
      s.run (translateVa c k ring acc va t3) =
        (if ring = 0 then .ok ⟨va, false, 0, 0, false, va, ring⟩ else .error ⟨.notValid, some t3, some (xlInfo acc 0 0)⟩, s)) ∧
    (2 ^ vaWidth (s.tctx k) ≤ va →
      s.run (translateVa c k ring acc va t3) = (.error ⟨.addrRange, some t3, some (xlInfo acc 0 0)⟩, s)) ∧
    (∀ e : TlbSlot, tcEn (s.tctx k) = true → va < 2 ^ vaWidth (s.tctx k) → (s.coreOf c).parityOk = true →
      (if acc = .fetch then (s.coreOf c).itlb else (s.coreOf c).dtlb).find? (fun t => t.covers (tcAsid (s.tctx k)) (va / 1024)) = some e →
      let trap (cause : Cause) : Except Trap Xl := .error ⟨cause, some t3, some (xlInfo acc e.lvl e.pte)⟩
      s.run (translateVa c k ring acc va t3) =
        (if (2 ≤ ring ∧ pteU e.leaf = false) ∨ (ring ≤ 1 ∧ acc = .fetch ∧ pteU e.leaf = true) then trap .user
         else if hasRight acc e.leaf = false then trap .rights
         else if pteA e.leaf = false ∨ (acc.writes = true ∧ pteD e.leaf = false) then trap .ad
         else .ok ⟨e.frame (va / 1024) * 1024 + va % 1024, decide (pteCC e.leaf = 1), e.lvl, e.pte, pteX e.leaf, va, ring⟩, s)) ∧
    (let z := s.coreOf c
      let asid := tcAsid (s.tctx k)
      let n := tcLevels (s.tctx k)
      let w := vaWidth (s.tctx k)
      let tlb := if acc = .fetch then z.itlb else z.dtlb
      let top : Nat × Nat := match deepest z.wcache asid w va (n - 1) with
        | some e => (e.lvl, e.frame * 1024) | none => (0, tcRoot (s.tctx k) * 1024)
      let pte (a : Nat) : Val := (s.rd a).val
      tcEn (s.tctx k) = true → n ≤ 5 → va < 2 ^ w → z.parityOk = true → PlainStore s → tlb.find? (fun t => t.covers asid (va / 1024)) = none →
      ∀ es : Nat → Nat, es (top.1 + 1) = top.2 + (va >>> (w - 10 * (top.1 + 1))) % 1024 →
      (∀ l, top.1 < l → l < n → es (l + 1) = pteFrame (pte (es l)) * 1024 + (va >>> (w - 10 * (l + 1))) % 1024) →
      let sound (l : Nat) : Prop := s.storeOk (es l) = true ∧ (s.rd (es l)).tag = tPTE ∧ pteV (pte (es l)) = true
      let r := s.run (translateVa c k ring acc va t3)
      -- the first entry of the walk that is no valid PTE traps
      (∀ l, top.1 < l → l ≤ n → (∀ j, top.1 < j → j < l → sound j) → s.storeOk (es l) = true → z.wcache.length + n ≤ 33 →
        let trap (cause : Cause) : Except Trap Xl := .error ⟨cause, some t3, some (xlInfo acc l (es l))⟩
        (isPoison (s.rd (es l)) = true → r.1 = trap .walkPoison) ∧
        (isPoison (s.rd (es l)) = false → (s.rd (es l)).tag ≠ tPTE → r.1 = trap .walkTag) ∧
        ((s.rd (es l)).tag = tPTE → pteV (pte (es l)) = false → r.1 = trap .notValid) ∧
        (l = n → sound n → pteBad (pte (es n)) = true → r.1 = trap .walkFormat)) ∧
      ((∀ l, top.1 < l → l ≤ n → sound l) → pteBad (pte (es n)) = false → tlb.length < (if acc = .fetch then 16 else 48) →
        z.wcache.length + n ≤ 33 →
        let e : TlbSlot := ⟨asid, va / 1024, pte (es n), n, es n, false⟩
        let trap (cause : Cause) : Except Trap Xl := .error ⟨cause, some t3, some (xlInfo acc n (es n))⟩
        let read : List WalkEnt := (List.range (n - 1 - top.1)).map fun i =>
          let l := top.1 + 1 + i
          ⟨asid, l, va >>> (w - 10 * l), pteFrame (pte (es l)), es l, w, false⟩
        r.1 = (if (2 ≤ ring ∧ pteU e.leaf = false) ∨ (ring ≤ 1 ∧ acc = .fetch ∧ pteU e.leaf = true) then trap .user
          else if hasRight acc e.leaf = false then trap .rights
          else if pteA e.leaf = false ∨ (acc.writes = true ∧ pteD e.leaf = false) then trap .ad
          else .ok ⟨e.frame (va / 1024) * 1024 + va % 1024, decide (pteCC e.leaf = 1), n, es n, pteX e.leaf, va, ring⟩) ∧
        r.2.coreOf c = { z with itlb := if acc = .fetch then z.itlb ++ [e] else z.itlb, dtlb := if acc = .fetch then z.dtlb else z.dtlb ++ [e],
                                wcache := z.wcache ++ read } ∧
        mget natD (r.2.l2Of (clusterOf c)).walks (posOf c) = (mget natD (s.l2Of (clusterOf c)).walks (posOf c) + (n - top.1)) % 2 ^ 32 ∧
        (∀ a, r.2.rd a = s.rd a) ∧ r.2.banks = s.banks))

/-- LD, LDX, LDB, LDC, ACQ, LR, CAR and CDR at an untranslated address: the load's shadow opens with the word that memory holds, the PC
moves past the load, no word of memory changes, and no register is written before the shadow closes. LR also takes the reservation. -/
def Obligations.LoadsOpenTheirShadow : Prop :=
  ∀ (s : State) (c : CoreId) (b : Fin 8), IssuesMem s c b → PlainStore s →
    let k := bk c b
    let x := s.ctx k
    let ready (va : Nat) : Prop := Flat s k va ∧ Plain x (s.rd va)
    (∀ f, x.based (memOf f).a → ready (x.ea (memOf f).a (memOf f).off) →
      Opens (.ld c f) s k (x.ix (memOf f).d.toNat) (s.rd (x.ea (memOf f).a (memOf f).off)) (x.past (memOf f).len) s.cores) ∧
    (∀ d n, x.based d → ready (x.ea d n.toInt) → Opens (.ldx c d n) s k (x.ix d.toNat) (s.rd (x.ea d n.toInt)) (x.past 3) s.cores) ∧
    (∀ d n, ready (basinVa x n) → Opens (.ldb c d n) s k (x.ix d.toNat) (s.rd (basinVa x n)) (x.past 2) s.cores) ∧
    (∀ d a n, x.based a → Flat s k (x.ea a n.toInt) →
      Opens (.ldc c d a n) s k (x.ix d.toNat) (s.rd (x.ea a n.toInt)) (x.past 2) s.cores) ∧
    (∀ d a n, x.based a → ready (x.ea a n.toInt) →
      Opens (.acq c d a n) s k (x.ix d.toNat) (s.rd (x.ea a n.toInt)) (x.past 2) s.cores) ∧
    (∀ d a n, x.based a → ready (x.ea a n.toInt) →
      Opens (.lr c d a n) s k (x.ix d.toNat) (s.rd (x.ea a n.toInt)) (x.past 2)
        (s.modCore c fun y => { y with resv := some (b, x.ea a n.toInt) }).cores) ∧
    (∀ f, let o := unOf f
      ((x.get o.a).tag = tCONS → ready (x.ea o.a 0) →
        Opens (.car c f) s k (x.ix o.d.toNat) (s.rd (x.ea o.a 0)) (x.past o.len) s.cores) ∧
      ((x.get o.a).tag = tCONS → ready (x.ea o.a 1) →
        Opens (.cdr c f) s k (x.ix o.d.toNat) (s.rd (x.ea o.a 1)) (x.past o.len) s.cores) ∧
      ((x.get o.a).tag = tNIL → Opens (.car c f) s k (x.ix o.d.toNat) wNil (x.past o.len) s.cores ∧
        Opens (.cdr c f) s k (x.ix o.d.toNat) wNil (x.past o.len) s.cores))

/-- The load shadow (R103, R104): an instruction that may fill a slot fills the first or the second, and after the second the load
writes its destination; any other instruction first waits for the load; a trap in a slot restores what stood before the load. -/
def Obligations.LoadShadowCloses : Prop :=
  ∀ (s : State) (c : CoreId) (b : Fin 8) (d : Shadow) (f : AluF) (n : BitVec 13),
    let k := bk c b
    let x := s.ctx k
    s.executing c = some b → s.stalled c = false → x.flaws = [] → (s.bankOf k).shadow = some d → d.held = [] → x.due = none →
    let o := aluOf f
    (∀ w, arith .add (x.get o.a) (x.get o.b) = .ok w →
      (d.slot = 0 → ∃ t, exec (.add c f) s = .next t ∧ t.ctx k = x.wrote o.d w o.len ∧
        (t.bankOf k).shadow = some { d with slot := 1 }) ∧
      (d.slot ≠ 0 → ∃ t, exec (.add c f) s = .next t ∧ t.ctx k = (x.wrote o.d w o.len).put d.dest d.word ∧
        (t.bankOf k).shadow = none)) ∧
    (∃ t, exec (.br c n) s = .next t ∧ (t.bankOf k).shadow = none ∧
      t.ctx k = { x.put d.dest d.word with pc := x.pc + n.signExtend 62 }) ∧
    (∀ e, arith .add (x.get o.a) (x.get o.b) = .error e →
      exec (.add c f) s = .next ((s.cancelShadow k).takeTrap c b (e.req (pswRing x.psw) (d.slot + 1)) d.pc)) ∧
    ((s.cancelShadow k).ctx k).regs = d.saved.regs ∧ ((s.cancelShadow k).ctx k).pc = d.saved.pc

/-- ST, STB, REL, SETCAR, SETCDR and STC at an untranslated address: the one word is stored, reservations on it end, every other word
of memory reads as before (R122, R124, R99). A store of a pointer whose spaces the barrier matrix selects also marks the card of the word stored to (R141 to R144). -/
def Obligations.StoresWriteOneWord : Prop :=
  (∀ (s : State) (c : CoreId) (b : Fin 8), IssuesMem s c b → PlainStore s →
    let k := bk c b
    let x := s.ctx k
    let ready (va : Nat) (w : Word) (target : Nat) : Prop := Flat s k va ∧ Storable x (s.rd va) w target
    (∀ f, let o := memOf f
      x.based o.a → ready (x.ea o.a o.off) (x.get o.d) (spaceOf (x.get o.a).val) →
      StoresTo (.st c f) s k [(x.ea o.a o.off, x.get o.d)] (x.past o.len)) ∧
    (∀ d n, ready (basinVa x n) (x.get d) (spaceOf x.basin) → StoresTo (.stb c d n) s k [(basinVa x n, x.get d)] (x.past 2)) ∧
    (∀ d a n, x.based a → ready (x.ea a n.toInt) (x.get d) (spaceOf (x.get a).val) →
      StoresTo (.rel c d a n) s k [(x.ea a n.toInt, x.get d)] (x.past 2)) ∧
    (∀ A B, (x.get (wide A)).tag = tCONS →
      (ready (x.ea (wide A) 0) (x.get (wide B)) (spaceOf (x.get (wide A)).val) →
        StoresTo (.setcar c (.s A B)) s k [(x.ea (wide A) 0, x.get (wide B))] (x.past 1)) ∧
      (ready (x.ea (wide A) 1) (x.get (wide B)) (spaceOf (x.get (wide A)).val) →
        StoresTo (.setcdr c (.s A B)) s k [(x.ea (wide A) 1, x.get (wide B))] (x.past 1))) ∧
    (∀ d a, (x.get a).tag = tCONS →
      (ready (x.ea a 0) (x.get d) (spaceOf (x.get a).val) → StoresTo (.setcar c (.rrr d a)) s k [(x.ea a 0, x.get d)] (x.past 2)) ∧
      (ready (x.ea a 1) (x.get d) (spaceOf (x.get a).val) → StoresTo (.setcdr c (.rrr d a)) s k [(x.ea a 1, x.get d)] (x.past 2))) ∧
    (∀ d a n, x.based a → Flat s k (x.ea a n.toInt) → ((x.get d).tag = tFIX ∨ (x.get d).tag = tCODE) →
      StoresTo (.stc c d a n) s k [(x.ea a n.toInt, ⟨tCODE, (x.get d).val⟩)] (x.past 2))) ∧
  (∀ (s : State) (c : CoreId) (b : Fin 8) (f : MemF), IssuesMem s c b → PlainStore s →
    let k := bk c b
    let x := s.ctx k
    let o := memOf f
    let va := x.ea o.a o.off
    let w := x.get o.d
    let card := (fld x.cardbase 0 60 + va / 512) % 2 ^ 60
    x.based o.a → Flat s k va → (s.rd va).tag ≠ tCODE → (s.rd va).tag ≠ tRAWD → isHeap w = true → bit x.cardbase 63 = true →
    bit (x.bmat.get (spaceOf (x.get o.a).val / 4)) (16 * (spaceOf (x.get o.a).val % 4) + spaceOf w.val) = true →
    Flat s k card → (s.rd card).tag = tRAWD → card ≠ va →
    StoresTo (.st c f) s k [(va, w), (card, rawd (setByte (s.rd card).val (va / 64 % 8) 1))] (x.past o.len))

/-- A load or a store that its address or its word forbids traps (R68, R70, R102, R122). -/
def Obligations.AccessTraps : Prop :=
  ∀ (s : State) (c : CoreId) (b : Fin 8), IssuesMem s c b → PlainStore s →
    let k := bk c b
    let x := s.ctx k
    (∀ f, let o := memOf f
      isPoison (x.get o.a) = true → Gives (.ld c f) s (s.trapAt c b ⟨.poisonUse, some (fix 0), some (x.get o.a)⟩)) ∧
    (∀ f, let o := memOf f
      isPoison (x.get o.a) = false → isHeap (x.get o.a) = false → isFix (x.get o.a) = false →
      Gives (.st c f) s (s.trapAt c b ⟨.type, some (x.get o.a), some (fixI o.off)⟩)) ∧
    (∀ f, let o := memOf f
      let va := x.ea o.a o.off
      x.based o.a → Flat s k va → (s.rd va).tag = tCODE →
      Traps (.st c f) s c b ⟨.codeLoad, some (fixN va), some (s.rd va)⟩) ∧
    (∀ f, let o := memOf f
      let va := x.ea o.a o.off
      x.based o.a → Flat s k va → (s.rd va).tag = tRAWD → isHeap (x.get o.d) = true →
      Traps (.st c f) s c b ⟨.type, some (fixN va), some (s.rd va)⟩) ∧
    (∀ f, let o := unOf f
      isPoison (x.get o.a) = false → (x.get o.a).tag ≠ tCONS → (x.get o.a).tag ≠ tNIL →
      Gives (.car c f) s (s.trapAt c b ⟨.type, some (x.get o.a), none⟩))

/-- CONS, ZLINE, SC and FENCE (R121, R123, R125, R138, R153, R154). -/
def Obligations.AllocationAndReservation : Prop :=
  ∀ (s : State) (c : CoreId) (b : Fin 8), IssuesMem s c b → PlainStore s →
    let k := bk c b
    let x := s.ctx k
    let n := vaOf x.alloc
    let sp := spaceOf x.alloc
    let unmarked (w : Word) : Prop := (isHeap w && bit x.cardbase 63 && x.bmatBit sp (spaceOf w.val)) = false
    let after (o : Opd2) : BankCtx := ({ x with alloc := put (n + 2) 0 60 ||| put sp 60 4 }).wrote o.d ⟨tCONS, x.alloc⟩ o.len
    (∀ f, let o := aluOf f
      n % 2 = 0 → n + 2 ≤ vaOf x.alimit → Flat s k n → Flat s k (n + 1) →
      (¬(n % 8 = 0 ∧ n + 8 ≤ vaOf x.alimit) → Storable x (s.rd n) (x.get o.a) sp → Storable x (s.rd (n + 1)) (x.get o.b) sp →
        StoresTo (.cons c f) s k [(n, x.get o.a), (n + 1, x.get o.b)] (after o)) ∧
      (n % 8 = 0 → n + 8 ≤ vaOf x.alimit → unmarked (x.get o.a) → unmarked (x.get o.b) →
        StoresTo (.cons c f) s k ([(n, x.get o.a), (n + 1, x.get o.b)] ++ ((List.range 6).map fun i => (n + 2 + i, unbound))) (after o))) ∧
    (∀ f, n % 2 = 1 ∨ vaOf x.alimit < n + 2 → Gives (.cons c f) s (s.trapAt c b ⟨.alloc, none, none⟩)) ∧
    (∀ a n, x.based a → Flat s k (x.ea a n.toInt) →
      StoresTo (.zline c a n) s k ((List.range 8).map fun i => (x.ea a n.toInt / 8 * 8 + i, unbound)) (x.past 2)) ∧
    (∀ d a v, x.based a → Flat s k (x.ea a 0) →
      ((s.coreOf c).resv = some (b, x.ea a 0) → Storable x (s.rd (x.ea a 0)) (x.get v) (spaceOf (x.get a).val) →
        StoresTo (.sc c d a v) s k [(x.ea a 0, x.get v)] (x.wrote d wTrue 2)) ∧
      ((s.coreOf c).resv ≠ some (b, x.ea a 0) → Completes (.sc c d a v) s k (x.wrote d wNil 2))) ∧
    (∀ m : BitVec 3, m.toNat < 5 → Completes (.fence c m) s k (x.past 2)) ∧
    (∀ m : BitVec 3, 5 ≤ m.toNat → Gives (.fence c m) s (s.trapAt c b ⟨.illegalOp, none, none⟩))

/-- MOVB, FILLB, CMPB and SCANL (R126 to R130): a step does up to 16 words and leaves the address registers, the count and the PC so that the
next step goes on; with a count of 0 they end at once. -/
def Obligations.BlockInstructionsComplete : Prop :=
  ∀ (s : State) (c : CoreId) (b : Fin 8) (d a n : R5), IssuesMem s c b → PlainStore s → d ≠ a → d ≠ n → a ≠ n →
    let k := bk c b
    let x := s.ctx k
    let src := x.ea a 0
    let dst := x.ea d 0
    (x.get n = fix 0 → Completes (.movb c d a n) s k (x.past 2) ∧ Completes (.fillb c d a n) s k (x.past 2) ∧
      Completes (.cmpb c d a n) s k (x.past 2) ∧ Completes (.scanl c d a n) s k (x.past 2)) ∧
    (∀ v : Nat, 1 ≤ v → v < 2 ^ 63 → x.get n = fixN v →
      let m := min v 16
      let on (j : Nat) (y : BankCtx) : BankCtx := { y.set n (fixN (v - j)) with pc := if v = j ∨ j < m then x.pc + 2 else x.pc }
      let up (y : BankCtx) (r : R5) (j : Nat) : BankCtx := y.set r (advance (x.get r) j)
      (x.based a → x.based d → (dst ≤ src ∨ src + m ≤ dst) →
        (∀ i < m, Flat s k (src + i) ∧ Flat s k (dst + i) ∧ Plain x (s.rd (src + i)) ∧
          Storable x (s.rd (dst + i)) (s.rd (src + i)) (spaceOf (x.get d).val)) →
        StoresTo (.movb c d a n) s k ((List.range m).map fun i => (dst + i, s.rd (src + i))) (on m (up (up x d m) a m))) ∧
      (isPoison (x.get a) = false → x.based d →
        (∀ i < m, Flat s k (dst + i) ∧ Storable x (s.rd (dst + i)) (x.get a) (spaceOf (x.get d).val)) →
        StoresTo (.fillb c d a n) s k ((List.range m).map fun i => (dst + i, x.get a)) (on m (up x d m))) ∧
      (x.based a → x.based d → ∀ j ≤ m,
        (∀ i < j, s.rd (dst + i) = s.rd (src + i)) → (j < m → s.rd (dst + j) ≠ s.rd (src + j)) →
        (∀ i, i ≤ j → i < m → Flat s k (src + i) ∧ Flat s k (dst + i) ∧ (s.rd (src + i)).tag ≠ tCODE ∧ (s.rd (dst + i)).tag ≠ tCODE ∧
          isPoison (s.rd (src + i)) = false ∧ isPoison (s.rd (dst + i)) = false) →
        Reads (.cmpb c d a n) s k (if j = 0 then x.past 2 else on j (up (up x d j) a j))) ∧
      (isPoison (x.get a) = false →
        ((x.get d).tag = tNIL → Completes (.scanl c d a n) s k (x.past 2)) ∧
        ((x.get d).tag = tCONS → Flat s k dst → Plain x (s.rd dst) → isPoison (s.rd dst) = false →
          (s.rd dst = x.get a → Reads (.scanl c d a n) s k (x.past 2)) ∧
          (s.rd dst ≠ x.get a → v = 1 → Flat s k (x.ea d 1) → Plain x (s.rd (x.ea d 1)) →
            Reads (.scanl c d a n) s k (((x.set d (s.rd (x.ea d 1))).set n (fix 0)).past 2)))))

/-- STM and LDM move the register of the lowest mask bit, clear the bit and advance the address; after the last bit they end (R131, R132).
RECB, RECW and RECE open, extend and close a record (R299 to R301). -/
def Obligations.MultipleAndRecordsComplete : Prop :=
  ∀ (s : State) (c : CoreId) (b : Fin 8), Issues s c b →
    let k := bk c b
    let x := s.ctx k
    (∀ (m a : R5) (v : Val) (n : Nat), IssuesMem s c b → PlainStore s → m ≠ a → x.get m = fix v → fld v 36 28 = 0 →
      (bit v 35 = true → pswRing x.psw = 0 ∧ winTw x.winpos = true) →
      (∀ i < 32, bit v i = true → maskIx x v i ≠ x.ix m.toNat ∧ maskIx x v i ≠ x.ix a.toNat) → firstBit v = some n →
      x.based a → Flat s k (x.ea a 0) →
      let rest := setBit v n false
      let done (y : BankCtx) : BankCtx :=
        { (y.set m (fix rest)).set a (advance (x.get a)) with pc := if firstBit rest = none then x.pc + 2 else x.pc }
      ((s.rd (x.ea a 0)).tag ≠ tCODE → Reads (.ldm c m a) s k (done (x.put (maskIx x v n) (s.rd (x.ea a 0))))) ∧
      ((s.rd (x.ea a 0)).tag ≠ tCODE → ((s.rd (x.ea a 0)).tag == tRAWD && isHeap (x.at_ (maskIx x v n))) = false →
        StoresTo (.stm c m a) s k [(x.ea a 0, x.at_ (maskIx x v n))] (done x))) ∧
    (∀ (m a : R5) (v : Val), IssuesMem s c b → x.get m = fix v → fld v 0 36 = 0 → fld v 36 28 = 0 →
      Completes (.ldm c m a) s k (x.past 2) ∧ Completes (.stm c m a) s k (x.past 2)) ∧
    (∀ a t, 0x8000 ≤ t → t ≤ 0xFFFF → x.get a = fixN t → x.openRec = none →
      Completes (.recb c a) s k ({ x with openRec := some ⟨t, [], false⟩ }.past 2)) ∧
    (∀ a o, x.openRec = some o → o.words.length < 32768 → (s.coreOf c).recBuf < 64 →
      ∃ t, exec (.recw c a) s = .next t ∧ t.ctx k = { x with openRec := some { o with words := o.words ++ [x.get a] } }.past 2 ∧
        (t.coreOf c).recBuf = (s.coreOf c).recBuf + 1 ∧ t.mem = s.mem ∧ t.man = s.man) ∧
    (∀ d o, x.openRec = some o →
      let r := closeRecord s k o
      (recordFits s k r = true → s.man.st = .opened →
        ∃ t, exec (.rece c d) s = .next t ∧ t.ctx k = { x with openRec := none }.wrote d wTrue 2 ∧
          t.man.staged = s.man.staged ++ [r] ∧ t.mem = s.mem) ∧
      (recordFits s k r = true → s.man.st ≠ .opened → Completes (.rece c d) s k ({ x with openRec := none }.wrote d wNil 2)) ∧
      (recordFits s k r = false → ∃ t, exec (.rece c d) s = .next t ∧ t.ctx k = { x with openRec := none }.wrote d wNil 2 ∧
        t.man.staged = s.man.staged))

/-! ### Control transfer -/

/-- Branches (R97, R119): the displacement counts parcels from the instruction's own first parcel, and from the next parcel in the 1-parcel forms. -/
def Obligations.BranchesComplete : Prop :=
  ∀ (s : State) (c : CoreId) (b : Fin 8), Issues s c b →
    let k := bk c b
    let x := s.ctx k
    let at_ (p : BitVec 62) : BankCtx := { x with pc := p }
    let nil (r : R5) : Prop := (x.get r).tag = tNIL
    (∀ n, Completes (.br c n) s k (at_ (x.pc + n.signExtend 62))) ∧
    (∀ n, Completes (.brl c n) s k (at_ (x.pc + n.signExtend 62))) ∧
    (∀ A B, isPoison (x.get (wide A)) = false →
      (nil (wide A) → Completes (.bnil c (.s A B)) s k (at_ (x.pc + 1 + B.setWidth 62)) ∧ Completes (.bnnil c (.s A B)) s k (x.past 1)) ∧
      (¬nil (wide A) → Completes (.bnil c (.s A B)) s k (x.past 1) ∧ Completes (.bnnil c (.s A B)) s k (at_ (x.pc + 1 + B.setWidth 62)))) ∧
    (∀ d n, isPoison (x.get d) = false →
      (nil d → Completes (.bnil c (.ri d n)) s k (at_ (x.pc + n.signExtend 62)) ∧ Completes (.bnnil c (.ri d n)) s k (x.past 2)) ∧
      (¬nil d → Completes (.bnil c (.ri d n)) s k (x.past 2) ∧ Completes (.bnnil c (.ri d n)) s k (at_ (x.pc + n.signExtend 62)))) ∧
    (∀ d n, isPoison (x.get d) = false →
      (nil d → Completes (.bnill c d n) s k (at_ (x.pc + n.signExtend 62)) ∧ Completes (.bnnill c d n) s k (x.past 3)) ∧
      (¬nil d → Completes (.bnill c d n) s k (x.past 3) ∧ Completes (.bnnill c d n) s k (at_ (x.pc + n.signExtend 62)))) ∧
    (∀ A B, isPoison (x.get (wide A)) = true → ∀ j ∈ [Instr.bnil c (.s A B), .bnnil c (.s A B)],
      Raises j s c b ⟨.poisonUse, some (fix 0), some (x.get (wide A))⟩) ∧
    (∀ d n n', isPoison (x.get d) = true → ∀ j ∈ [Instr.bnil c (.ri d n), .bnnil c (.ri d n), .bnill c d n', .bnnill c d n'],
      Raises j s c b ⟨.poisonUse, some (fix 0), some (x.get d)⟩)

/-- Calls, returns and gates (R87, R88, R92, R94, R159, R160, R400). -/
def Obligations.CallsAndReturnsComplete : Prop :=
  (∀ v n, winCur (slide v n) = (winCur v + n) % 8 ∧ winRes (slide v n) = (winRes v + n) % 8 ∧ winTw (slide v n) = winTw v ∧
    winSdepth (slide v n) = winSdepth v) ∧
  ∀ (s : State) (c : CoreId) (b : Fin 8), Issues s c b →
    let k := bk c b
    let x := s.ctx k
    let called (len : Nat) (p : BitVec 62) : BankCtx :=
      { x.put (rfIx (winCur x.winpos) 15) (cref (x.pc + BitVec.ofNat 62 len)) with winpos := slide x.winpos 1, pc := p }
    let target (r : R5) : BitVec 62 := BitVec.ofNat 62 (x.get r).val.toNat
    let e7 := x.at_ (rfIx (winCur x.winpos + 7) 15)
    let e6 := x.at_ (rfIx (winCur x.winpos + 7) 14)
    let back : BankCtx := { x with winpos := slide x.winpos 7, pc := BitVec.ofNat 62 e7.val.toNat }
    (∀ d a, (x.get a).tag = tCREF → Completes (.jlnk c d a) s k { x.set d (cref (x.pc + 2)) with pc := target a }) ∧
    (winTw x.winpos = false → winRes x.winpos ≠ 7 →
      (∀ n, Completes (.call c n) s k (called 2 (x.pc + n.signExtend 62))) ∧
      (∀ n, Completes (.calll c n) s k (called 3 (x.pc + n.signExtend 62))) ∧
      (∀ a, (x.get a).tag = tCREF → Completes (.callr c a) s k (called 2 (target a))) ∧
      (∀ a, (x.get a).tag = tGATE → pswRing x.psw ≤ fld (x.get a).val 62 2 → fld (x.get a).val 60 2 ≤ pswRing x.psw →
        Completes (.callg c a) s k
          { (x.put (rfIx (winCur x.winpos) 14) (fixN (pswRing x.psw))).put (rfIx (winCur x.winpos) 15) (cref (x.pc + 2)) with
            winpos := slide x.winpos 1, psw := setFld x.psw 0 2 (fld (x.get a).val 60 2),
            pc := BitVec.ofNat 62 (4 * vaOf (x.get a).val) })) ∧
    (winTw x.winpos = false → winRes x.winpos = 7 →
      let full : Trap := ⟨if fld x.spill 60 4 ≠ 0 ∧ winSdepth x.winpos < 2 ^ fld x.spill 60 4 then .wovf else .spillFull,
       some (fixN (16 * fld x.spill 4 56 + 16 * winSdepth x.winpos)), some (fixN ((winCur x.winpos + 2) % 8))⟩
      (∀ n, Raises (.call c n) s c b full) ∧ (∀ n, Raises (.calll c n) s c b full) ∧
      (∀ a, (x.get a).tag = tCREF → Raises (.callr c a) s c b full) ∧
      (∀ a, (x.get a).tag = tGATE → pswRing x.psw ≤ fld (x.get a).val 62 2 → fld (x.get a).val 60 2 ≤ pswRing x.psw →
        Raises (.callg c a) s c b full)) ∧
    (winTw x.winpos = false → winRes x.winpos ≠ 1 → e7.tag = tCREF →
      Completes (.ret c 0 0) s k back ∧
      (∀ r : Nat, e6 = fixN r → pswRing x.psw ≤ r → r ≤ 3 → Completes (.retg c) s k { back with psw := setFld x.psw 0 2 r })) ∧
    (winTw x.winpos = false → winRes x.winpos = 1 →
      let empty : Trap := ⟨if winSdepth x.winpos ≠ 0 then .wunf else .stackEmpty,
       some (fixN (16 * fld x.spill 4 56 + 16 * (winSdepth x.winpos - 1))), some (fixN ((winCur x.winpos + 7) % 8))⟩
      Raises (.ret c 0 0) s c b empty ∧
      (∀ r : Nat, e6 = fixN r → pswRing x.psw ≤ r → r ≤ 3 → Raises (.retg c) s c b empty)) ∧
    (winTw x.winpos = true →
      (∀ n, Raises (.call c n) s c b ⟨.illegalOp, none, none⟩) ∧ (∀ n, Raises (.calll c n) s c b ⟨.illegalOp, none, none⟩) ∧
      (∀ a, Raises (.callr c a) s c b ⟨.illegalOp, none, none⟩ ∧ Raises (.callg c a) s c b ⟨.illegalOp, none, none⟩) ∧
      Raises (.ret c 0 0) s c b ⟨.illegalOp, none, none⟩ ∧ Raises (.retg c) s c b ⟨.illegalOp, none, none⟩)

/-- Trap entry of a synchronous trap (R162 to R171): the level and ring it goes to, the six words it leaves, and when the core stops. A trap that may not be delivered stops the core and writes no register of a bank (R170, R171); in a run the frame tasks of the core are
abandoned. -/
def Obligations.TrapEntrySaves : Prop :=
  (∀ (s : State) (c : CoreId) (b : Fin 8) (cause : Cause) (t3 t4 : Word) (slot pv : Nat) (pc : BitVec 62), PlainStore s →
    let k := bk c b
    let x := s.ctx k
    let q := Trap.req ⟨cause, some t3, some t4⟩ (pswRing x.psw) slot
    let t := s.takeTrap c b q pc
    let level := if cause.level < 15 ∧ cause.level ≤ pswMl x.psw then 15 else cause.level
    let ring := if cause.level < 15 ∧ cause.level ≤ pswMl x.psw then 0 else min (cause.ring (pswRing x.psw)) (pswRing x.psw)
    let va := (x.trapv.toNat + (16 * ring + level)) % 2 ^ 60
    let z := s.coreOf c
    -- a word address and where the bank finds it: untranslated in ring 0, or by a TLB entry, with no prefetch beside the access
    let phys (r : Nat) (acc : Acc) (va pa : Nat) : Prop :=
      (tcEn (s.tctx k) = false ∧ r = 0 ∧ pa = va) ∨
      (tcEn (s.tctx k) = true ∧ va < 2 ^ vaWidth (s.tctx k) ∧ z.parityOk = true ∧ bit (s.l2Of (clusterOf c)).ctl (24 + posOf c) = false ∧
        ∃ e : TlbSlot, z.dtlb.find? (fun t => t.covers (tcAsid (s.tctx k)) (va / 1024)) = some e ∧ (2 ≤ r → pteU e.leaf = true) ∧
          hasRight acc e.leaf = true ∧ pteA e.leaf = true ∧ (acc.writes = true → pteD e.leaf = true) ∧
          pa = e.frame (va / 1024) * 1024 + va % 1024)
    let cw : Val := put level 48 4 ||| put slot 42 2 |||
      (if cause.level < 15 ∧ cause.level ≤ pswMl x.psw then put cause.code 56 8 ||| put cause.level 52 4 ||| put Cause.escalated.code 0 8
       else put cause.code 0 8)
    let depth := depthOf x.tdepth ring
    let a := 16 * fld (x.tsp.get ring) 4 56 - 16 * (depth + 1)
    let entered (u : State) : Prop :=
      (∀ j, (u.ctx k).tw j = [cref pc, fix x.psw, fix cw, t3, t4, fix x.winpos].getD j (x.tw j)) ∧
      pswRing (u.ctx k).psw = ring ∧ pswMl (u.ctx k).psw = level ∧ pswInlast (u.ctx k).psw = pswInlast x.psw ∧
      pswGuard (u.ctx k).psw = pswGuard x.psw ∧ winTw (u.ctx k).winpos = true ∧ winCur (u.ctx k).winpos = winCur x.winpos ∧
      (u.ctx k).pc = BitVec.ofNat 62 (s.rd pv).val.toNat
    (s.bankOf k).shadow = none → x.flaws = [] → pswInlast x.psw = false → phys 0 .read va pv → s.storeOk pv = true →
    (s.rd pv).tag = tCREF →
    (winTw x.winpos = false → entered t ∧ (t.ctx k).tdepth = x.tdepth ∧ (∀ p, t.rd p = s.rd p)) ∧
    (∀ f : Nat, winTw x.winpos = true → pswGuard x.psw = false → (∀ i < 16, phys ring .write (a + i) (f + i)) →
      16 * fld (x.tsl.get ring) 4 56 + 16 * (depth + 1) ≤ 16 * fld (x.tsp.get ring) 4 56 → depth + 1 < 2 ^ 16 →
      (∀ i < 16, s.storeOk (f + i) = true ∧ (s.rd (f + i)).tag ≠ tCODE ∧ ((s.rd (f + i)).tag == tRAWD && isHeap (x.tw i)) = false) →
      (pv < f ∨ f + 16 ≤ pv) →
      entered t ∧ depthOf (t.ctx k).tdepth ring = depth + 1 ∧ (∀ i < 16, t.rd (f + i) = x.tw i) ∧
      (∀ p, (p < f ∨ f + 16 ≤ p) → t.rd p = s.rd p) ∧
      ((a - 16 * fld (x.tsl.get ring) 4 56) / 16 < fld (x.tsl.get ring) 0 4 → (t.ctx k).pendTstack.isSome = true))) ∧
  (∀ (s : State) (c : CoreId) (b : Fin 8) (q : TrapReq) (pc : BitVec 62),
    let x := s.ctx (bk c b)
    let t := s.takeTrap c b q pc
    let stopped : Prop := t.mem = s.mem ∧ (∀ j, (s.bankOf j).shadow = none → (t.ctx j).regs = (s.ctx j).regs ∧ (t.ctx j).pc = (s.ctx j).pc ∧
        (t.ctx j).psw = (s.ctx j).psw ∧ (t.ctx j).winpos = (s.ctx j).winpos) ∧
      (s.runOpen = true → ∀ id k, t.taskOf id = some k → id / 8 = c.val → k.phase.isOpen = false) ∧
      (s.weir.tasks = [] → s.weir.runSt = .stopped → t.banks = s.banks)
    (pswGuard x.psw = true → (winTw x.winpos = true ∨ pswInlast x.psw = true) → (t.coreOf c).run = .lockup ∧ stopped) ∧
    (pswGuard x.psw = false → pswInlast x.psw = true → (s.coreOf c).run = .running → (t.coreOf c).run = .failed ∧ stopped))

/-- TRET restores the PC from t0, PSW from t1 and WINPOS from t5, and the frame below when the trap interrupted a handler (R165); while
accesses stall it waits (R212). WAITT and WAITE (R37, R93, R176). -/
def Obligations.TrapReturnAndWaitsComplete : Prop :=
  ∀ (s : State) (c : CoreId) (b : Fin 8), Issues s c b →
    let k := bk c b
    let x := s.ctx k
    let t1 := (x.tw 1).val
    let t5 := (x.tw 5).val
    let r := pswRing x.psw
    let d := depthOf x.tdepth r
    let a := 16 * fld (x.tsp.get r) 4 56 - 16 * d
    let back : BankCtx := { x with pc := BitVec.ofNat 62 (x.tw 0).val.toNat, psw := t1 &&& 0x31F03, winpos := t5 &&& 0xFFFF00F7 }
    let sound : Prop := isPoison (x.tw 0) = false ∧ isPoison (x.tw 1) = false ∧ isPoison (x.tw 5) = false
    let refused : Prop := r ≠ 0 ∧ (pswRing t1 < r ∨ pswMl x.psw < pswMl t1 ∨ (pswGuard t1 = true ∧ pswGuard x.psw = false) ∨ pswInlast t1 = true)
    (s.stalled c = true → NoEffect (.tret c) s) ∧
    (isPoison (x.tw 0) = true → Raises (.tret c) s c b ⟨.poisonUse, some (fix 0), some (x.tw 0)⟩) ∧
    (sound → refused → Raises (.tret c) s c b ⟨.privTret, none, none⟩) ∧
    (sound → ¬refused → (x.tw 0).tag ≠ tCREF → Raises (.tret c) s c b ⟨.type, none, none⟩) ∧
    (s.stalled c = false → sound → ¬refused → (x.tw 0).tag = tCREF →
      (winTw t5 = false → Completes (.tret c) s k back) ∧
      (winTw t5 = true → d = 0 → Raises (.tret c) s c b ⟨.illegalOp, none, none⟩) ∧
      (winTw t5 = true → 0 < d → PlainStore s → 16 * d ≤ 16 * fld (x.tsp.get r) 4 56 →
        (∀ i < 16, Flat s k (a + i) ∧ (s.rd (a + i)).tag ≠ tCODE) →
        Reads (.tret c) s k
          { back.putTws ((List.range 16).map fun i => s.rd (a + i)) with tdepth := setFld x.tdepth (16 * r) 16 (d - 1) })) ∧
    (s.isFrame k = false → ∃ t, exec (.waitt c) s = .next t ∧ t.ctx k = { x with st := .waitt }.past 2 ∧ (t.coreOf c).cur = none ∧
      t.mem = s.mem) ∧
    (∀ u, s.taskOf k = some u → winRes x.winpos ≤ 1 →
      ∃ t, exec (.waitt c) s = .next t ∧ (t.ctx k).st = .waitt ∧ (t.ctx k).pc = x.pc + 2 ∧ (t.coreOf c).cur = none ∧
        t.taskOf k = some { u with phase := .completed, restart := false } ∧
        (t.tstatOf k).hwm = max (s.tstatOf k).hwm s.weir.elapsed ∧
        (t.tstatOf k).credx = u.credOut ∧
        let words := [timeW s.now, cref (x.pc + 2), fix x.psw, fix x.winpos, fix x.carrymask, fix x.basin, fix x.alloc, fix x.alimit] ++
          List.replicate 8 unbound ++ padWords 16 ((carryIxs x.carrymask (winCur x.winpos)).map x.at_)
        (PlainStore s → (∀ i < 32, t.rd (u.args.carryBase + i) = words.getD i unbound) ∧
          ∀ a, (a < u.args.carryBase ∨ u.args.carryBase + 32 ≤ a) → t.rd a = s.rd a) ∧
        -- the last writer of a drive link completes: its DRIVE cells are sent, each stream's in the order of its bytes (R32, R250, R253)
        ∀ n, linksOf u = [n] → (∀ w ∈ s.writersOf n, w.args.id.val = k ∨ w.phase = .completed) →
          let l := s.linkOf n
          let ys := s.streamsOn n 1
          l.drvSent = false → l.aborted = 0 → l.lost = false → l.st ≠ .align → (∀ y ∈ ys, y.2.stag.length = y.2.bytes) →
            (t.linkOf n).drvSent = true ∧ (t.linkOf n).waitq = l.waitq ++
              ys.flatMap fun y => cellsOf 3 (s.weir.pound.toNat % 65536) (sSid y.2.scfg) y.2.stag) ∧
    (∀ u, s.taskOf k = some u → 1 < winRes x.winpos → ∃ trap, Raises (.waitt c) s c b trap ∧ (trap.cause = .wovf ∨ trap.cause = .spillFull)) ∧
    (pswMl x.psw < s.evlvl k → Completes (.waite c) s k (x.past 2)) ∧
    (s.evlvl k ≤ pswMl x.psw → ∃ t, exec (.waite c) s = .next t ∧ t.ctx k = { x with st := .waite }.past 2 ∧ (t.coreOf c).cur = none ∧
      t.mem = s.mem)

/-! ### The vector unit -/

/-- Vector arithmetic and moves (R133 to R136): the result goes to the destination register, exceptions are ORed into VSTAT, nothing
else changes. -/
def Obligations.VectorArithmeticCompletes : Prop :=
  ∀ (s : State) (c : CoreId) (b : Fin 8) (d p q : R5), Issues s c b → VecReady s c b →
    let k := bk c b
    let x := s.ctx k
    let z := s.coreOf c
    let m := vmode z.vstat
    let u := z.vget p
    let v := z.vget q
    let lanes (f : Nat → Nat → Nat × Exc) : Core :=
      let r := (List.range 16).map fun e => f (fld u (32 * e) 32) (fld v (32 * e) 32)
      z.vec d (ofLanes (r.map Prod.fst)) (r.foldl (fun e y => e.or y.2) {}) false
    let does (i : Instr) (z' : Core) : Prop := VecDoes i s c k (x.past 2) z'
    does (.vadd c d p q 0) (lanes (vAdd m)) ∧ does (.vadd c d p q 1) (lanes (vSub m)) ∧
    does (.vmul c d p q 0) (lanes (vMul m)) ∧ does (.vmul c d p q 1) (lanes fun a b => negIf true (vMul m a b)) ∧
    does (.vmin c d p q 0) (lanes (vExt m false)) ∧ does (.vmax c d p q 0) (lanes (vExt m true)) ∧
    (∀ neg : Fin 2,
      let w := z.vget d
      let r := (List.range 16).map fun e => vFma m (neg = 1) (fld w (32 * e) 32) (fld u (32 * e) 32) (fld v (32 * e) 32)
      does (.vfma c d p q (BitVec.ofNat 3 neg.val)) (z.vec d (ofLanes (r.map Prod.fst)) (r.foldl (fun e y => e.or y.2) {}) false)) ∧
    (∀ conj : Fin 2,
      let r := cMulAll m (conj = 1) (lanesOf u) (lanesOf v)
      does (.vcmul c d p q (BitVec.ofNat 3 conj.val)) (z.vec d (ofLanes r.1) r.2 false)) ∧
    (∀ inv : Fin 2,
      let r := bflyAll m (inv = 1) (lanesOf u) (lanesOf v)
      does (.vbfly4 c d p q (BitVec.ofNat 3 inv.val)) (z.vec d (ofLanes r.1) r.2 false)) ∧
    (∀ n : Fin 3,
      let r := treeReduce (if n = 0 then vAdd m else vExt m (n = 2)) (lanesOf u)
      VecDoes (.vreduce c d p (BitVec.ofNat 3 n.val)) s c k (x.wrote d (widen r.1).1 2) { z with vstat := orFlags z.vstat r.2 false }) ∧
    (∀ n : Fin 5, let r := vcvt m n.val u v
      (n.val < 4 → does (.vcvt c d p 0 (BitVec.ofNat 3 n.val)) (let r := vcvt m n.val u (z.vget 0); z.vec d r.1 r.2.1 r.2.2)) ∧
      (n = 4 → does (.vcvt c d p q 4) (z.vec d r.1 r.2.1 r.2.2))) ∧
    (∀ n : Val, x.get q = fix n →
      let e := fld n 0 4
      let r := widen (m.inp (fld u (32 * e) 32))
      VecDoes (.vget c d p q 0) s c k (x.wrote d r.1 2) { z with vstat := orFlags z.vstat r.2 false } ∧
      Completes (.vget c d p q 1) s k (x.wrote d (rawd (vword u (fld n 0 3))) 2) ∧
      (isNumber (x.get p) = true →
        let r := m.out (toB32Exc (x.get p))
        does (.vput c d p q 0) (z.vec d (putElem (z.vget d) 32 e r.1) r.2 false)) ∧
      ((x.get p).tag = tRAWD →
        does (.vput c d p q 1) (z.vec d (putElem (z.vget d) 64 (fld n 0 3) (x.get p).val.toNat) {} false)))

/-- VLD, VST and VLDS on eight untranslated words (R133); a vector instruction of a bank that may not use the unit traps (R179), and one
whose unit is off waits while the unit powers up (R180). -/
def Obligations.VectorMemoryCompletes : Prop :=
  ∀ (s : State) (c : CoreId) (b : Fin 8) (d a q : R5), IssuesMem s c b → PlainStore s →
    let k := bk c b
    let x := s.ctx k
    let z := s.coreOf c
    let bumped : BankCtx := (x.set a ⟨(x.get a).tag, put (vaOf (x.get a).val + 8) 0 60 ||| put (spaceOf (x.get a).val) 60 4⟩).past 2
    let at_ (off step : Int) (n : Nat) : Nat := (((vaOf (x.get a).val : Int) + off + n * step) % (2 ^ 60 : Nat)).toNat
    let loaded (off step : Int) (i : Instr) (y : BankCtx) : Prop :=
      (∀ n < 8, Flat s k (at_ off step n) ∧ (s.rd (at_ off step n)).tag = tRAWD) →
      ∃ t, exec i s = .next t ∧ t.ctx k = y ∧ (∀ n < 8, vword ((t.coreOf c).vget d) n = (s.rd (at_ off step n)).val) ∧
        (∀ e, e ≠ d → (t.coreOf c).vget e = z.vget e) ∧ (t.coreOf c).vstat = z.vstat ∧ (∀ p, t.rd p = s.rd p) ∧ Near s t k
    let stored (off : Int) (i : Instr) (y : BankCtx) : Prop :=
      (∀ n < 8, Flat s k (at_ off 1 n) ∧ ((s.rd (at_ off 1 n)).tag = tRAWD ∨ (s.rd (at_ off 1 n)).tag = tUNBOUND)) →
      StoresTo i s k ((List.range 8).map fun n => (at_ off 1 n, rawd (vword (z.vget d) n))) y
    (VecReady s c b → x.based a →
      loaded 0 1 (.vld c d a 0 1) bumped ∧ stored 0 (.vst c d a 0 1) bumped ∧
      (∀ v : Val, x.get q = fix v → loaded v.toInt 1 (.vld c d a q 0) (x.past 2) ∧ stored v.toInt (.vst c d a q 0) (x.past 2) ∧
        loaded 0 v.toInt (.vlds c d a q) (x.past 2))) ∧
    (mayUseVector s c b = false → Raises (.vld c d a 0 1) s c b ⟨.vecUnavail, some (fix z.vown), some (fixN b.val)⟩) ∧
    (mayUseVector s c b = true → s.domOn (vecDomain c) = false → bit s.pwr.busy (vecDomain c) = false →
      ∃ t, exec (.vld c d a 0 1) s = .next t ∧ bit t.pwr.busy (vecDomain c) = true ∧ { t with pwr := s.pwr } = s)

/-! ### Control registers, translation structures, caches, towpath, custom opcodes -/

/-- MFC and MTC (R96, R400, Table 4.10): the read, the write of each writable register, the mask of its reserved fields, and the rings
refused. -/
def Obligations.ControlRegistersComplete : Prop :=
  ∀ (s : State) (c : CoreId) (b : Fin 8) (d : R5) (v : Val), Issues s c b →
    let k := bk c b
    let x := s.ctx k
    let z := s.coreOf c
    (∀ (i : BitVec 8) (r : Nat × Option Nat), cregRings i.toNat = some r →
      (pswRing x.psw ≤ r.1 → i ≠ 0x11 → Completes (.mfc c d i) s k (x.wrote d (fix (s.cregRead c k i.toNat)) 2)) ∧
      (r.1 < pswRing x.psw → Raises (.mfc c d i) s c b ⟨.privCreg, none, none⟩) ∧
      (r.2.getD 0 < pswRing x.psw → Raises (.mtc c d i) s c b ⟨.privCreg, none, none⟩)) ∧
    (∀ i : BitVec 8, cregRings i.toNat = none → Raises (.mfc c d i) s c b ⟨.illegalOp, none, none⟩ ∧
      Raises (.mtc c d i) s c b ⟨.illegalOp, none, none⟩) ∧
    (x.get d = fix v → pswRing x.psw = 0 → x.st = .running →
      let sets (i : BitVec 8) (y : BankCtx) : Prop := Completes (.mtc c d i) s k (y.past 2)
      sets 0x00 { x with psw := (v &&& 0x11F03) ||| (x.psw &&& 0x20000) } ∧ sets 0x01 { x with winpos := v &&& 0xFFFF00F7 } ∧
      sets 0x02 { x with spill := v &&& 0xFFFFFFFFFFFFFFF0 } ∧ sets 0x03 { x with basin := v &&& 0xFFFFFFFFFFFFFE00 } ∧
      sets 0x04 { x with trapv := v &&& 0x0FFFFFFFFFFFFFC0 } ∧ sets 0x06 x ∧
      sets 0x12 { x with alloc := v } ∧ sets 0x13 { x with alimit := v &&& 0x0FFFFFFFFFFFFFFF } ∧ sets 0x14 { x with toalloc := v } ∧
      sets 0x15 { x with cmask := v &&& 0x3FFF } ∧ sets 0x16 { x with cardbase := v &&& 0x8FFFFFFFFFFFFFFF } ∧ sets 0x1C x ∧ sets 0x1D x ∧
      (∀ n : Fin 4, sets (BitVec.ofNat 8 (8 + n.val)) { x with tsp := x.tsp.set n.val (v &&& 0x0FFFFFFFFFFFFFF0) } ∧
        sets (BitVec.ofNat 8 (0xC + n.val)) { x with tsl := x.tsl.set n.val (v &&& 0x0FFFFFFFFFFFFFFF) } ∧
        sets (BitVec.ofNat 8 (0x18 + n.val)) { x with bmat := x.bmat.set n.val v }) ∧
      VecDoes (.mtc c d 0x05) s c k (x.past 2) { z with bankwin := v &&& 0x107 } ∧
      VecDoes (.mtc c d 0x10) s c k (x.past 2) { z with vown := v &&& 0xF } ∧
      (mayUseVector s c b = true → VecDoes (.mtc c d 0x11) s c k (x.past 2) { z with vstat := v &&& 0x133F } ∧
        Completes (.mfc c d 0x11) s k (x.wrote d (fix z.vstat) 2)))

/-- MFB and MTB reach the locations of Table 7.14 in the bank that BANKWIN selects (R177, R178). -/
def Obligations.OtherBanksAreReached : Prop :=
  ∀ (s : State) (c : CoreId) (b b' : Fin 8) (d a : R5) (n : Nat), Issues s c b → pswRing (s.ctx (bk c b)).psw = 0 →
    let k := bk c b
    let j := bk c b'
    let x := s.ctx k
    let y := s.ctx j
    s.selected c b = j → x.get a = fixN n →
    (n < 0x98 → y.flaws = [] → Completes (.mfb c d a) s k (x.wrote d (y.at_ n) 2)) ∧
    (0x200 ≤ n → n < 0x240 → Completes (.mfb c d a) s k (x.wrote d (mget wordD y.sill (n - 0x200)) 2)) ∧
    (n = 0x300 → Completes (.mfb c d a) s k (x.wrote d (fix (s.bstate j)) 2)) ∧
    ((0x98 ≤ n ∧ n < 0x100) ∨ (0x240 ≤ n ∧ n < 0x300) ∨ 0x300 < n → n < 2 ^ 64 → Raises (.mfb c d a) s c b ⟨.illegalOp, none, none⟩) ∧
    (j ≠ k → n < 0x98 → ∃ t, exec (.mtb c d a) s = .next t ∧ t.ctx j = y.put n (x.get d) ∧ t.ctx k = x.past 2 ∧
      (∀ i, i ≠ j → i ≠ k → t.bankOf i = s.bankOf i) ∧ { t with banks := s.banks } = s) ∧
    (j = k → n < 0x98 → Completes (.mtb c d a) s k ((x.put n (x.get d)).past 2)) ∧
    (j = k → n = 0x100 → ∀ v, x.get d = fix v → x.st = .running →
      Completes (.mtb c d a) s k ({ x with psw := (v &&& 0x11F03) ||| (x.psw &&& 0x20000) }.past 2)) ∧
    (n = 0x300 → ∀ v, x.get d = fix v → (y.frame = true ∨ 1 < fld v 8 3 ∨ (fld v 8 3 = 1 ∧ y.st ≠ .idle)) →
      Completes (.mtb c d a) s k (x.past 2)) ∧
    (n = 0x300 → j ≠ k → ∀ v, x.get d = fix v → fld v 8 3 = 1 → y.st = .idle → y.frame = false → BitVec.ofNat 3 v.toNat = y.prio →
      (∀ i, (s.ctx i).frame = false) →
      ∃ t, exec (.mtb c d a) s = .next t ∧ (t.ctx j).st = .ready ∧ (t.ctx j).prio = y.prio ∧ t.ctx k = x.past 2)

/-- TLBI, WCI and TLBSYNC (R198 to R200): the local forms, the broadcast ones, and a wait behind a store that is not performed yet. That
WCI with a negative span raises TYPE is the model's choice (DESIGN CHOICE, log 29). ABANDON of the bank itself and of another (R41); TPSEND and
TPRECV (R339, R340). CX n (R223, R224, R226, R231, R232): an entry of CXD that is not valid or above its ring traps; else the core fetches the micro-word at
ENTRY from its stores and executes it with its nano-word. A routine of one word that ends writes the operands that it has written, after its
read or its write of memory; one that traps raises TYPE, OVF or QUALITY; bad parity fails the core. What a nano-word computes is open (log 11). -/
def Obligations.SystemOperationsComplete : Prop :=
  (∀ (s : State) (c : CoreId) (b : Fin 8) (d a q : R5), Issues s c b → pswRing (s.ctx (bk c b)).psw = 0 →
    let k := bk c b
    let x := s.ctx k
    let z := s.coreOf c
    let page := vaOf (x.get a).val / 1024
    (∀ asid : Val, x.get q = fix asid → x.based a →
      -- the local form (sub-function m) and the broadcast one (m + 4) leave core c as z'; the broadcast one waits at every other core
      let both (i : BitVec 3 → Instr) (tlb : Bool) (m : Nat) (z' : Core) : Prop :=
        (s.behind k = true → NoEffect (i (BitVec.ofNat 3 m)) s ∧ NoEffect (i (BitVec.ofNat 3 (m + 4))) s) ∧
        (s.behind k = false → VecDoes (i (BitVec.ofNat 3 m)) s c k (x.past 2) z' ∧
          ∃ t, exec (i (BitVec.ofNat 3 (m + 4))) s = .next t ∧ t.ctx k = x.past 2 ∧ t.coreOf c = z' ∧
            (∀ c', c' ≠ c → t.coreOf c' = { s.coreOf c' with inval := (s.coreOf c').inval ++
              (if s.deaf c' then [] else [⟨c, tlb, m, vaOf (x.get a).val, asid.toNat, asid.toNat⟩]) }) ∧
            (∀ j, j ≠ k → t.bankOf j = s.bankOf j) ∧ { t with banks := s.banks, cores := s.cores } = s)
      let slots (gone : TlbSlot → Bool) : Core :=
        { z with itlb := z.itlb.filter fun e => !gone e, dtlb := z.dtlb.filter fun e => !gone e }
      both (.tlbi c a q) true 0 (slots fun e => e.covers asid.toNat page) ∧
      both (.tlbi c a q) true 1 (slots fun e => e.asid == asid.toNat && !pteG e.leaf) ∧
      both (.tlbi c a q) true 2 { z with itlb := [], dtlb := [] } ∧
      (0 ≤ asid.toInt → both (.wci c a q) false 0
        { z with wcache := z.wcache.filter fun e =>
            !(decide (0 < asid.toNat) && decide (e.pre * 2 ^ (e.width - 10 * e.lvl) < vaOf (x.get a).val + asid.toNat) &&
              decide (vaOf (x.get a).val < (e.pre + 1) * 2 ^ (e.width - 10 * e.lvl))) }) ∧
      (asid.toInt < 0 → ∀ m ∈ [(0 : BitVec 3), 4], Raises (.wci c a q m) s c b ⟨.type, some (x.get a), some (x.get q)⟩) ∧
      both (.wci c a q) false 1 { z with wcache := z.wcache.filter fun e => !(e.asid == asid.toNat) } ∧
      both (.wci c a q) false 2 { z with wcache := [] }) ∧
    (∀ m ∈ [(3 : BitVec 3), 7], Raises (.tlbi c a q m) s c b ⟨.illegalOp, none, none⟩ ∧ Raises (.wci c a q m) s c b ⟨.illegalOp, none, none⟩) ∧
    ((∀ c', ∀ i ∈ (s.coreOf c').inval, i.from_ ≠ c) → Completes (.tlbsync c) s k (x.past 2)) ∧
    ((∃ c', ∃ i ∈ (s.coreOf c').inval, i.from_ = c) → NoEffect (.tlbsync c) s) ∧
    (∀ u, s.selected c b = k → s.taskOf k = some u → u.phase.isOpen = true → s.runOpen = true →
      ∃ t, exec (.abandon c) s = .next t ∧ t.taskOf k = some { u with phase := .abandoned, restart := true, staged := 0 } ∧
        (t.ctx k).st = .waitt ∧ (t.coreOf c).cur = none ∧ (t.tstatOf k).lastcause = (if x.isOver then 1 else 5) ∧
        (t.tstatOf k).abcnt = min ((s.tstatOf k).abcnt + 1) 65535) ∧
    (∀ b' : Fin 8, let j := bk c b'
      b' ≠ b → s.selected c b = j →
      (∀ u, s.taskOf j = some u → u.phase.isOpen = true → s.runOpen = true →
        ∃ t, exec (.abandon c) s = .next t ∧ t.taskOf j = some { u with phase := .abandoned, restart := true, staged := 0 } ∧
          (t.ctx j).st = .waitt ∧ (t.tstatOf j).lastcause = (if (s.ctx j).isOver then 1 else 5) ∧
          (t.tstatOf j).abcnt = min ((s.tstatOf j).abcnt + 1) 65535 ∧ t.ctx k = x.past 2 ∧ (t.coreOf c).cur = some b) ∧
      (s.taskOf j = none → Completes (.abandon c) s k (x.past 2))) ∧
    (∀ h p : Val, x.get a = fix h → x.get q = fix p →
      (z.sendq.length < 4 → VecDoes (.tpsend c d a q) s c k (x.wrote d wTrue 2)
        { z with sendq := z.sendq ++ [⟨fld h 0 16, BitVec.ofNat 32 (fld h 16 32), fld h 48 5, p.toNat, b, s.weir.pound, false⟩] }) ∧
      (4 ≤ z.sendq.length → Completes (.tpsend c d a q) s k (x.wrote d wNil 2))) ∧
    (∀ n r : Nat, n ≤ 7 → r ≤ 1 → x.get a = fixN n → x.get q = fixN r →
      (z.inbox = [] → Completes (.tprecv c d a q) s k (x.wrote d wNil 2)) ∧
      (∀ e rest, z.inbox = e :: rest → r = 0 → Completes (.tprecv c d a q) s k (x.wrote d (e.getD n unbound) 2)) ∧
      (∀ e rest, z.inbox = e :: rest → r = 1 → s.lk.tpWait = [] → mget boolD s.evt.lvl (evTowpath c) = true → ∃ t, exec (.tprecv c d a q) s = .next t ∧ (t.coreOf c).inbox = rest ∧
        t.ctx k = x.wrote d (e.getD n unbound) 2))) ∧
  ((∀ (st : Stores) (a p : Nat), a < 0x4000 → 0x4000 ≤ p → p < 0x4800 → st.pairs.find? (fun e => e.1 == a) = some (a, p) →
    st.micro a = st.patMicro[p - 0x4000]?) ∧
  ∀ (s : State) (c : CoreId) (b : Fin 8) (n d a q : R5), IssuesMem s c b →
    let k := bk c b
    let x := s.ctx k
    let st := (s.coreOf c).stores
    let cxd := mget valD s.lk.cxd n.toNat
    let entry := fld cxd 0 16
    let start := cxStart s.free (s.coreOf c) false (x.get d) (x.get a) (x.get q)
    -- the temporaries have used a free value
    let s1 := { s with free := s.free + 1 }
    let does := Instr.cx c n d a q
    let set (wrote : Bool) (r : R5) (w : Word) (y : BankCtx) : BankCtx := if wrote then y.set r w else y
    let after (e : Config.CxDp) : BankCtx := (set (bit e.wrote 2) q e.b (set (bit e.wrote 1) a e.a (set (bit e.wrote 0) d e.d x))).past 2
    (bit cxd 63 = false → Gives does s (s.trapAt c b ⟨.illegalOp, none, none⟩)) ∧
    (bit cxd 63 = true → fld cxd 60 2 < pswRing x.psw → Gives does s (s.trapAt c b ⟨.privOp, none, none⟩)) ∧
    (bit cxd 63 = true → bit cxd 62 = false → pswRing x.psw ≤ fld cxd 60 2 → s.isFrame k = false →
      ∀ (m : BitVec 24) (w : BitVec 192), st.fetch entry = some (m, w) →
      let y := Config.nanoAccess w start
      let base := [x.get d, x.get a, x.get q].getD y.base.val unbound
      let va := (((vaOf base.val : Int) + y.offset) % (2 ^ 60 : Nat)).toNat
      (st.badFetch entry = true → ∃ t, exec does s = .next t ∧ (t.coreOf c).run = .failed) ∧
      (st.badFetch entry = false →
        (Config.nanoReads w = false → Config.nanoWrites w = false →
          (microSeq m = 5 → ∃ t, exec does s = .next t ∧ OnlyBank s1 t k (after (Config.nanoStep w none start))) ∧
          (microSeq m = 6 → Gives does s (s1.trapAt c b
            ⟨if microSarg m = 4 then .type else if microSarg m = 5 then .ovf else .quality, some (x.get a), some (x.get q)⟩))) ∧
        (microSeq m = 5 → (isHeap base || isFix base) = true → Flat s k va → PlainStore s →
          (Config.nanoReads w = true → Config.nanoWrites w = false → (s.rd va).tag ≠ tCODE → isPoison (s.rd va) = false →
            cxForbidden (s.rd va).tag = false → ∃ t, exec does s = .next t ∧ t.ctx k = after (Config.nanoStep w (some (s.rd va)) start) ∧
              (t.bankOf k).shadow = none ∧ t.cores = s.cores ∧ (∀ p, t.rd p = s.rd p) ∧ Near s1 t k) ∧
          (Config.nanoReads w = false → Config.nanoWrites w = true → Storable x (s.rd va) (Config.nanoStore w start) (spaceOf base.val) →
            ∃ t, exec does s = .next t ∧ t.ctx k = after (Config.nanoStep w none start) ∧ (t.bankOf k).shadow = none ∧
              ResvEnded s t [va] ∧ t.rd va = Config.nanoStore w start ∧ (∀ p, p ≠ va → t.rd p = s.rd p) ∧ Near s1 t k)))))

/-- CMAINT and CRANGE (R208 to R211, R213). -/
def Obligations.CacheMaintenanceCompletes : Prop :=
  ∀ (s : State) (c : CoreId) (b : Fin 8) (a q : R5), IssuesMem s c b → PlainStore s →
    let k := bk c b
    let x := s.ctx k
    let va := x.ea a 0
    let line := va / 8
    let cl := clusterOf c
    let after (i : Instr) (y : BankCtx) (p : State → Prop) : Prop :=
      ∃ t, exec i s = .next t ∧ t.ctx k = y ∧ (∀ w, t.rd w = s.rd w) ∧ p t
    -- a line whose modification is discarded reads as its SGRAM devices have it
    let discarded (i : Instr) (y : BankCtx) (n : Nat) : Prop := ∃ t, exec i s = .next t ∧ t.ctx k = y ∧
      t.dirty n = false ∧ (∀ i < 8, t.rd (8 * n + i) = (s.dirEnt n).old.getD i unbound) ∧ ∀ w, w / 8 ≠ n → t.rd w = s.rd w
    let holes (n : Nat) (t : State) (cl' : ClusterId) : Prop := ∀ e ∈ (t.l2Of cl').slots, e.line = n → e.hole = true
    (x.based a → Flat s k va → a ≠ q →
    (x.get q = fix 0 →
      (a ≠ 0 → Gives (.cmaint c a q 3) s (s.trapAt c b ⟨.illegalOp, none, none⟩)) ∧
      after (.cmaint c a q 0) (x.past 2) (fun t => t.dirty line = false) ∧
      after (.cmaint c a q 2) (x.past 2) (fun t => t.dirty line = false ∧ ∀ cl', holes line t cl') ∧
      (s.dirty line = false → after (.cmaint c a q 1) (x.past 2) fun t => ∀ cl', holes line t cl') ∧
      (s.dirty line = true → (s.dirEnt line).old.length = 8 → discarded (.cmaint c a q 1) (x.past 2) line) ∧
      (∀ m : BitVec 3, m.toNat < 3 → Completes (.crange c a q m) s k (x.past 2))) ∧
    (∀ n : Nat, 1 ≤ n → n < 2 ^ 63 → x.get q = fixN n →
      -- one line is done; after the last one the instruction ends
      let step := 8 - va % 8
      let y0 := (x.set a ⟨(x.get a).tag, put (va + step) 0 60 ||| put (spaceOf (x.get a).val) 60 4⟩).set q (fixN (n - step))
      let y := if n ≤ step then y0.past 2 else y0
      after (.crange c a q 0) y (fun t => t.dirty line = false) ∧
      after (.crange c a q 2) y (fun t => t.dirty line = false ∧ ∀ cl', holes line t cl') ∧
      (s.dirty line = false → after (.crange c a q 1) y fun t => ∀ cl', holes line t cl') ∧
      (s.dirty line = true → (s.dirEnt line).old.length = 8 → discarded (.crange c a q 1) y line) ∧
      (s.runLock cl = false →
        after (.crange c a q 4) y (fun t => ∀ e ∈ (t.l2Of cl).slots, e.line ≠ line) ∧
        (∀ w, bit (s.l2Of cl).ctl 0 = true → (∀ e ∈ (s.l2Of cl).slots, e.line ≠ line) → (s.l2Of cl).freeSlot (line % 2048) = some w →
          after (.crange c a q 3) y fun t => (t.l2Of cl).slots = (s.l2Of cl).slots ++ [⟨line % 2048, w, line, false⟩]) ∧
        ((∀ e ∈ (s.l2Of cl).slots, e.line ≠ line) → (bit (s.l2Of cl).ctl 0 = false ∨ (s.l2Of cl).freeSlot (line % 2048) = none) →
          after (.crange c a q 3) y fun t => (t.l2Of cl).lockmiss = min ((s.l2Of cl).lockmiss + 1) 65535))) ∧
    (∀ n : Val, x.get q = fix n → 0 ≤ n.toInt → s.runLock cl = true → ∃ t, exec (.crange c a q 3) s = .next t ∧
      (t.l2Of cl).refused = min ((s.l2Of cl).refused + 1) 65535 ∧ t.ctx k = x.past 2 ∧ t.mem = s.mem)) ∧
    -- by set and way, on the line as the cluster holds it (R208)
    (∀ n : Nat, n < 2 ^ 15 → x.get q = fixN n → pswRing x.psw = 0 →
      ((s.l2Of cl).lineAt (n / 16) (n % 16) = none → ∀ m ∈ [(3 : BitVec 3), 4, 5], Completes (.cmaint c 0 q m) s k (x.past 2)) ∧
      (∀ l, (s.l2Of cl).lineAt (n / 16) (n % 16) = some l →
        (s.dirtyIn cl l = true → after (.cmaint c 0 q 3) (x.past 2) fun t => t.dirty l = false) ∧
        (s.dirtyIn cl l = false → Completes (.cmaint c 0 q 3) s k (x.past 2) ∧
          after (.cmaint c 0 q 4) (x.past 2) fun t => (t.l2Of cl).holds l = false ∧ holes l t cl) ∧
        (s.dirtyIn cl l = true → (s.dirEnt l).old.length = 8 → discarded (.cmaint c 0 q 4) (x.past 2) l) ∧
        after (.cmaint c 0 q 5) (x.past 2) fun t => t.dirtyIn cl l = false ∧ (t.l2Of cl).holds l = false ∧ holes l t cl))

/-! ### Events at a core -/

/-- A fill (R48, R72 to R75, R214, R215, R221). Of a line from the devices whose signature is sound, sound words stand, a corrected word is
counted, an uncorrectable one becomes POISON of origin 4 and is counted; of a line from a cluster's copy, an uncorrectable word becomes
POISON of origin 2 in that copy, counted and logged there, and the line's own word is lost where that copy is the modified one. An EDC mismatch
is counted at each repeat, in the fill's burst and in that of the modified line that it evicts. A transfer costs the task a credit, and one more
where the line that `State.victim` picks to make room is modified; a hit in the cluster's L2 costs none. -/
def Obligations.FillCorrectsOrPoisons : Prop :=
  ∀ (s : State) (c : CoreId) (b : Fin 8) (line : BitVec 33) (e : ReadErr) (j : Nat),
    let n := line.toNat
    let k := bk c b
    let cl := clusterOf c
    let trip := n % 8
    let held := (s.l2Of cl).holds n
    let does (p : State → Prop) : Prop := ∃ t, exec (.fillComplete c b line e) s = .next t ∧ p t
    let others (t : State) : Prop := ∀ a, a ≠ 8 * n + j → t.rd a = s.rd a
    -- the modified line that makes room, if the L2 is on and one does
    let out : Option Nat := if l2On (s.l2Of cl) then (s.victim cl n).filter (s.dirtyIn cl) else none
    s.awaits c n = true → PlainStore s → j < 8 → e.stored = {} → e.wedc.val < 4 →
    (held = true → e.first = {} → NoEffect (.fillComplete c b line e) s) ∧
    (held = false → e.first = {} → e.edc.val < 4 → l2On (s.l2Of cl) = true → (∃ w < 16, s.wayOk cl w = true) → does fun t =>
      (t.l2Of cl).holds n = true ∧ (∀ a, t.rd a = s.rd a) ∧ t.banks = s.banks ∧ t.cores = s.cores ∧
      (∀ cl', cl' ≠ cl → t.dirtyIn cl' n = false)) ∧
    (held = false → s.dirty n = false → e.edc = 0 →
      let i1 := s.stored n ^^^ burstMask e.first
      imageSig (i1 % 2 ^ 744) = signature n → (∀ i < 8, i ≠ j → (decodeWord i1 i).map Prod.snd = some 0) →
      (∀ w, decodeWord i1 j = some (w, 0) → does fun t => ∀ a, t.rd a = s.rd a) ∧
      (∀ w m, decodeWord i1 j = some (w, m) → 0 < m → does fun t =>
        t.rd (8 * n + j) = w ∧ (t.eccOf trip).corr = ((s.eccOf trip).corr + m) % 65536 ∧ others t) ∧
      (decodeWord i1 j = none → does fun t =>
        t.rd (8 * n + j) = ⟨tPOISON, put 4 56 8 ||| put (8 * n + j) 0 36⟩ ∧ (t.eccOf trip).pois = ((s.eccOf trip).pois + 1) % 65536 ∧
        others t)) ∧
    (held = true ∨ s.dirty n = true →
      let img := encodeLine n (s.rdLine n) ^^^ burstMask e.first
      let at_ := if held then cl else (s.dirEnt n).owner
      let lost : Word := ⟨tPOISON, put 2 56 8 ||| put (8 * n + j) 0 36⟩
      (∀ i < 8, i ≠ j → decodeWord img i = some (s.rd (8 * n + i), 0)) → decodeWord img j = none → does fun t =>
        t.copyWord at_ ((s.l2Of at_).source none n) (8 * n + j) = lost ∧
        t.rd (8 * n + j) = (if s.dirtyIn at_ n then lost else s.rd (8 * n + j)) ∧ (t.l2Of at_).dpois = ((s.l2Of at_).dpois + 1) % 65536 ∧
        fld (t.l2Of at_).errlog 60 4 = 1 ∧ fld (t.l2Of at_).errlog 0 36 = 8 * n ∧ others t) ∧
    (held = false → s.dirty n = false → e.first = {} → e.edc.val < 4 → does fun t =>
      (∀ a, t.rd a = s.rd a) ∧ ∀ d : Nat, (s.eccOf d).edc < 65536 →
        (t.eccOf d).edc = ((s.eccOf d).edc + (if d = trip then e.edc.val else 0) +
          (if out.map (· % 8) = some d then e.wedc.val else 0)) % 65536) ∧
    (∀ u, s.taskOf k = some u → u.phase = .active → e.edc = 0 →
      (held = true → does fun t => t.taskOf k = some u) ∧
      (held = false → let m := if out.isSome then 1 else 0
        does fun t => t.taskOf k = some { u with credLeft := u.credLeft - 1 - m, credOut := u.credOut || decide (u.credLeft ≤ 1 + m) }))

/-- At a boundary a pended condition or an event above the mask level is delivered (R161, R172, R182): the trap window, the handler, and
the pending bit of an edge-mode source. Where accesses must wait, so does the entry (R207, R212, R371). -/
def Obligations.EventIsDelivered : Prop :=
  ∀ (s : State) (c : CoreId) (b : Fin 8) (i : Item), Issues s c b →
    (s.stalled c = true → NoEffect (.trapEntry c) s) ∧
    let k := bk c b
    let x := s.ctx k
    let q := s.itemReq i
    let ring := min q.ring (pswRing x.psw)
    let va := (x.trapv.toNat + (16 * ring + q.level)) % 2 ^ 60
    s.stalled c = false → s.rival c (some (s.prioOf c b)) = none → s.nextItem k = some i → winTw x.winpos = false → pswInlast x.psw = false →
    tcEn (s.tctx k) = false → s.storeOk va = true → (s.rd va).tag = tCREF → PlainStore s →
    ∃ t, exec (.trapEntry c) s = .next t ∧ (t.ctx k).tw 0 = cref x.pc ∧ (t.ctx k).tw 1 = fix x.psw ∧
      (t.ctx k).tw 2 = fix (put q.level 48 4 ||| put q.evsrc 28 12 ||| put q.cause.code 0 8) ∧ (t.ctx k).tw 5 = fix x.winpos ∧
      (t.ctx k).pc = BitVec.ofNat 62 (s.rd va).val.toNat ∧ pswRing (t.ctx k).psw = ring ∧ pswMl (t.ctx k).psw = q.level ∧
      winTw (t.ctx k).winpos = true ∧
      (match i with
        | .event n => s.levelMode n = false → t.pendBit n = false
        | .budget => (t.ctx k).pendBudget = false
        | .tstack _ _ => (t.ctx k).pendTstack = none)

/-- Switching (R174, R175), budgets (R39), the end of a reservation (R124), received broadcasts (R199), and a reserved 1-parcel encoding
(R101). -/
def Obligations.CoreEventsComplete : Prop :=
  ∀ (s : State) (c : CoreId), s.engines = true →
    (∀ b', (s.coreOf c).run = .running → bit s.lk.restarting (clusterOf c).val = false →
      ((s.coreOf c).cur = none → s.rival c none = some b' →
        ∃ t, exec (.bankSwitch c) s = .next t ∧ (t.coreOf c).cur = some b' ∧ t.ctx (bk c b') = { s.ctx (bk c b') with st := .running }) ∧
      (∀ b, (s.coreOf c).cur = some b → s.rival c (some (s.prioOf c b)) = some b' → (s.bankOf (bk c b)).shadow = none →
        (s.ctx (bk c b)).due = none → b ≠ b' →
        ∃ t, exec (.bankSwitch c) s = .next t ∧ (t.coreOf c).cur = some b' ∧ (t.coreOf c).resv = none ∧
          t.ctx (bk c b') = { s.ctx (bk c b') with st := .running } ∧ t.ctx (bk c b) = { s.ctx (bk c b) with st := .ready } ∧ t.mem = s.mem)) ∧
    (∀ k, s.spending c = some k →
      ((s.ctx k).isOver = false → Completes (.budgetExhausted c) s k { s.ctx k with remain := 0, isOver := true, pendBudget := true }) ∧
      ((s.ctx k).isOver = true → (s.bankOf k).shadow = none → s.runOpen = true →
        ∃ t, exec (.graceExhausted c) s = .next t ∧ (t.taskOf k).map Task.phase = some .abandoned ∧ (t.tstatOf k).lastcause = 2 ∧
          (t.ctx k).st = .waitt ∧ (t.ctx k).grace = 0)) ∧
    Gives (.reservationTimeout c) s (s.modCore c fun y => { y with resv := none }) ∧
    (∀ i rest, (s.coreOf c).run = .running → (s.coreOf c).inval = i :: rest → (s.coreOf c).cur = none →
      Gives (.broadcastInvalidation c) s
        (s.modCore c fun y => { y.invalidate i.tlb i.kind i.va i.asid i.span with inval := rest })) ∧
    (∀ b, Issues s c b →
      let x := s.ctx (bk c b)
      let va := x.pc.toNat / 4
      let n := x.pc.toNat % 4
      Flat s (bk c b) va → (s.rd va).tag = tCODE → bit (s.rd va).val (56 + n) = true → fld (s.rd va).val (14 * n) 14 < 0x2000 →
      oneOk (fld (s.rd va).val (14 * n) 14) = false → PlainStore s →
      s.stalled c = false → Traps (.reservedOpcode c) s c b ⟨.illegalOp, none, none⟩)

/-- A deadline that passes abandons its task with code 3 (R33); a start offset makes the task's bank ready, from its carry area after an
abandonment (R38, R39), in guarded mode where the bank restarts in a recovery (R171). -/
def Obligations.DeadlinesAndStarts : Prop :=
  ∀ (s : State) (id : TaskId) (u : Task), s.engines = true → s.runOpen = true → s.taskOf id.val = some u →
    (s.bankOf id.val).shadow = none →
    let k := id.val
    let x := s.ctx k
    (u.phase.isOpen = true →
      ∃ t, exec (.deadlineReached id) s = .next t ∧ t.taskOf k = some { u with phase := .abandoned, restart := true, staged := 0 } ∧
        (t.ctx k).st = .waitt ∧ (t.tstatOf k).lastcause = 3 ∧ (t.tstatOf k).abcnt = min ((s.tstatOf k).abcnt + 1) 65535 ∧ t.mem = s.mem) ∧
    (u.phase = .waiting → (s.coreOf (coreOfId k)).run = .running → bit s.lk.restarting (clusterOf (coreOfId k)).val = false →
      (u.restart = false →
        ∃ t, exec (.startOffset id) s = .next t ∧
          t.taskOf k = some
            { u with phase := .active, restart := false, begun := true, credLeft := u.args.credits, credOut := false, staged := 0,
                     guarded := false } ∧
          t.ctx k = { x with isOver := false, grace := 2000, remain := u.args.budget, st := .ready } ∧ t.mem = s.mem) ∧
      (u.restart = true → PlainStore s → (∀ i < 32, isPoison (s.rd (u.args.carryBase + i)) = false) →
        let w (i : Nat) : Val := (s.rd (u.args.carryBase + i)).val
        ∃ t, exec (.startOffset id) s = .next t ∧ (t.taskOf k).map Task.phase = some .active ∧ (t.ctx k).st = .ready ∧
          (t.ctx k).pc = BitVec.ofNat 62 (w 1).toNat ∧ (t.ctx k).psw = (w 2 &&& 0x31F03) ||| (if u.guarded then 0x10000 else 0) ∧
          (t.ctx k).winpos = w 3 &&& 0xFFFF00F7 ∧ (t.ctx k).basin = w 5 &&& basinMask ∧ (t.ctx k).alloc = w 6 ∧
          (t.ctx k).alimit = w 7 &&& alimitMask ∧ (t.ctx k).tdepth = 0 ∧
          (t.ctx k).remain = u.args.budget ∧
          (∀ i, i ∉ carryIxs x.carrymask (winCur (w 3 &&& 0xFFFF00F7)) → (t.ctx k).at_ i = unbound) ∧ t.mem = s.mem))

/-! ### The tick and the pound -/

/-- A tick ends the pound and opens the next (R22 to R26, R30, Table 2.1): from the internal generator, from a TICK_IN edge in its window,
or synthesised; an early edge is only counted. An edge taken in another REFCLK period than the one in which it is told opens a pound that
counts from there (R388; the model's `lead` is log 23). What a tick does to the run (R34, R36, R265, R390, Table 2.17): the first tick of a run clears every abort but one that latches in its own
REFCLK period and, while ABORT_IN_N is low, the abort of all groups. -/
def Obligations.TickOpensPound : Prop :=
  (∀ (s : State), s.engines = true → s.weir.ticking = true →
    -- `late` is by how many periods the tick lies before the present one, `early` after it
    let opens (i : Instr) (len late early : Nat) : Prop :=
      ∃ t, exec i s = .next t ∧ t.weir.pound = s.weir.pound + 1 ∧ t.weir.elapsed = late ∧ t.weir.lead = early ∧ t.weir.lastLen = len ∧ t.pendBit evTick = true ∧
        (∀ u ∈ t.weir.tasks, u.phase = .waiting ∨ ∃ n, u.phase = .joining n) ∧ t.lk.replies = [] ∧
        (s.memc.mirLen = 0 → s.lk.replies = [] → t.mem = s.mem)
    (s.weir.src = false → opens .tick (max s.weir.elapsed s.weir.len) 0 0) ∧
    (s.weir.src = true →
      (∀ f ps, s.weir.edge = f →
        let n := (s.edgeTaken ps.val).1
        let r := ps.val + (min 11500 (1500 + s.cal.tickIn.toInt)).toNat
        (200 < r % 10000 → r % 10000 < 9800 → s.edgeTaken ps.val = (s.weir.elapsed + r / 10000, s)) ∧
        (s.weir.firstEdge = true → opens (.tickInEdge ⟨f, ps⟩) n (s.weir.elapsed - n) (n - s.weir.elapsed)) ∧
        (s.weir.firstEdge = false → s.weir.len - s.weir.tol ≤ n →
          opens (.tickInEdge ⟨f, ps⟩) n (s.weir.elapsed - n) (n - s.weir.elapsed)) ∧
        (s.weir.firstEdge = false → n < s.weir.len - s.weir.tol →
          Gives (.tickInEdge ⟨f, ps⟩) s ((s.edgeTaken ps.val).2.modWeir fun w => { w with earlycnt := min (w.earlycnt + 1) 65535 }))) ∧
      (∀ f ps, s.weir.edge ≠ f → NoEffect (.tickInEdge ⟨f, ps⟩) s) ∧
      (s.weir.hasTick = true → opens .tickSynthesised (s.weir.len + s.weir.tol) 0 0 ∧
        ∃ t, exec .tickSynthesised s = .next t ∧ t.weir.syncnt = min (s.weir.syncnt + 1) 65535 ∧ t.weir.synrun = min (s.weir.synrun + 1) 255 ∧
          t.pendBit evTickLost = true))) ∧
  (∀ (s : State), s.engines = true → s.weir.ticking = true → s.weir.src = false → s.weir.synlim = 0 →
    let gives (p : State → Prop) : Prop := ∃ t, exec .tick s = .next t ∧ p t
    (s.weir.runSt = .stopping → gives fun t => t.weir.runSt = .stopped ∧ t.sil.permit = false) ∧
    (s.weir.runSt = .starting → 1 < s.weir.startIn → gives fun t => t.weir.runSt = .starting ∧ t.weir.startIn = s.weir.startIn - 1) ∧
    (s.weir.runSt = .starting → s.weir.startIn ≤ 1 → gives fun t => t.weir.runSt = .running ∧
      t.sil.aborted = if s.pins.abortIn then 15 else s.freshAborts) ∧
    (s.weir.runSt = .running → gives fun t => t.weir.runSt = .running ∧ t.sil.aborted = s.sil.aborted) ∧
    (s.weir.runSt = .stopped → gives fun t => t.weir.runSt = .stopped))

/-- The commit word (R304), D_out (R32) and the close of a stream's pound (R252, R302). That a commit word without a commit in progress changes
nothing is log 1, what its two copies in the mirrored region hold log 63 (the model's choices). -/
def Obligations.PoundEventsComplete : Prop :=
  ∀ (s : State), s.engines = true →
    (∀ c, s.man.inCommit = some c → ∃ t, exec .commitWordPerformed s = .next t ∧ t.man.inCommit = none ∧ t.man.next = c.next ∧
      t.man.rbp = c.rbp ∧ t.man.commits = s.man.commits + 1 ∧ t.man.backlog = s.man.backlog ++ c.placed ∧
      (s.memc.mirLen = 0 → t.mem = s.mem) ∧
      (s.memc.mirLen = 1024 → s.memc.mirBase % 64 = 0 → PlainStore (s.modMemc fun m => { m with mirLen := 0 }) →
        s.man.commits + 1 < 2 ^ 64 → c.next < 2 ^ 64 → c.rbp < 2 ^ 64 → c.placed.length < 2 ^ 64 →
        ∀ n < 2, t.commitCopy n = some (s.man.commits + 1, c.next, c.rbp))) ∧
    (s.man.inCommit = none → NoEffect .commitWordPerformed s) ∧
    (s.weir.ticking = true → ∃ t, exec .dOut s = .next t ∧ t.mem = s.mem ∧ ∀ n < 24, s.abortedOn n = 0 →
      let l := s.linkOf n
      (lEn l.lcfg = true → lDrive l.lcfg = true → (t.linkOf n).drvSent = true) ∧
      (lEn l.lcfg = true → lDrive l.lcfg = true → l.drvSent = false → l.st.alive = true → l.waitq.any TxCell.isDrive = false →
        (t.linkOf n).waitq = l.waitq ++ [{ typ := 4, pound := s.weir.pound.toNat % 65536, repl := true }])) ∧
    (∀ k : StreamId,
      let x := s.streamOf k.val
      let p := s.weir.pound - 1
      s.weir.ticking = true → sEn x.scfg = true → sKind x.scfg = 0 → s.weir.pound ≠ 0 → x.closed ≠ some p →
      ∃ t, exec (.streamClose k) s = .next t ∧ (t.streamOf k.val).closed = some p ∧ (t.streamOf k.val).stale = false ∧
        (PlainStore s → sLog x.scfg = false → t.man.staged = s.man.staged) ∧
        (PlainStore s → sLog x.scfg = true → ∃ r, t.man.staged = s.man.staged ++ [r] ∧ r.cls = 1 ∧ r.typ = 1 ∧ r.srcid = k.val ∧
          r.when_ = timeVal p 0 ∧ r.link = sLink x.scfg))

/-- SAMPLE cells by class (R244, R250, R252, R402, Table 11.7). An on-time cell in order is delivered to the stream's channel, the last one
behind the pound's status entry; one before its turn waits; the guard compares the samples that either carried within its share, and a payload
of another length is counted and fitted to it. An INDEX beyond the stream or met before is counted and discarded. Late, stale and early cells
are counted and deliver nothing; a late one shows in the status entry while the ring holds it. -/
def Obligations.SampleCellsAreClassed : Prop :=
  ∀ (s : State) (n : LinkId) (cell : RxCell) (k : Nat) (x : Stream),
    let l := s.linkOf n.val
    let d := (cell.pound - BitVec.ofNat 16 s.weir.pound.toNat).toInt
    let p := s.weir.pound + BitVec.ofInt 48 d
    let i := cell.index.toNat
    let r := x.rxOf p
    let base := fld x.sbase 0 36 + 2 * (p.toNat % 4)
    let share := min 116 (x.bytes - 116 * i)
    let bs := fit share cell.payload
    let counted := s.modLink n.val fun l => { l with crcerr := min (l.crcerr + 1) 65535 }
    -- after the guard's comparisons
    let u := (if cell.payload.length = share then s else counted).guardCell x p i (cell.payload.take share)
    let does (q : State → Prop) : Prop := ∃ t, exec (.sampleCell n cell) s = .next t ∧ q t
    let rx (t : State) : RxPound := (t.streamOf k).rxOf p
    let nothing (t : State) : Prop := t.slu = s.slu ∧ t.sil = s.sil ∧ rx t = rx s
    s.engines = true → cell.payload.length ≤ 116 →
    (l.st.alive = false → NoEffect (.sampleCell n cell) s) ∧
    (l.st.alive = true → s.streamBySid n.val 0 cell.sid.toNat = none → Gives (.sampleCell n cell) s counted) ∧
    (s.streamBySid n.val 0 cell.sid.toNat = some (k, x) → l.st = .align → NoEffect (.sampleCell n cell) s) ∧
    (s.streamBySid n.val 0 cell.sid.toNat = some (k, x) → s.streamOf k = x → l.st.carries = true →
      (d = 0 ∨ (d = -1 ∧ x.closed ≠ some p) →
        (gCells x.sgeom ≤ i ∨ mget bytesD r.got i ≠ [] ∨ i < r.next → Gives (.sampleCell n cell) s counted) ∧
        (i < gCells x.sgeom → mget bytesD r.got i = [] → 0 < share →
          (r.next < i → mget bytesD r.got r.next = [] → does fun t =>
            (rx t).next = r.next ∧ mget bytesD (rx t).got i = bs ∧ t.twl.links = u.twl.links ∧ { t with twl := u.twl } = u) ∧
          (i = r.next → i + 1 < gCells x.sgeom → mget bytesD r.got (i + 1) = [] → does fun t =>
            (rx t).next = i + 1 ∧ t.twl.links = u.twl.links ∧ { t with twl := u.twl } = u.feed k bs) ∧
          (i = r.next → i + 1 = gCells x.sgeom → PlainStore s → does fun t =>
            (rx t).next = i + 1 ∧ t.sil = u.sil ∧ t.slu = (u.feed k bs).slu ∧ t.rd base = timeW (timeVal p 0) ∧
            (∃ w, t.rd (base + 1) = fix w ∧ fld w 56 8 = (if x.stale then 4 else 0) ∧ fld w 24 24 = 0) ∧
            ∀ a, a ≠ base → a ≠ base + 1 → t.rd a = s.rd a))) ∧
      ((d = -1 ∧ x.closed = some p) ∨ d = -2 → PlainStore s →
        ((∀ e ∈ x.ents, e.1 ≠ p) → does fun t => (t.linkOf n.val).late = min (l.late + 1) 255 ∧ nothing t ∧ t.mem = s.mem) ∧
        (∀ w, x.ents.find? (fun e => e.1 == p) = some (p, w) → does fun t => (t.linkOf n.val).late = min (l.late + 1) 255 ∧ nothing t ∧
          t.rd (base + 1) = fix (setFld w 0 24 (min (fld w 0 24 + 1) (2 ^ 24 - 1))) ∧ ∀ a, a ≠ base + 1 → t.rd a = s.rd a)) ∧
      (d < -2 → does fun t => (t.linkOf n.val).stale = min (l.stale + 1) 255 ∧ (t.streamOf k).stale = true ∧ nothing t ∧ t.mem = s.mem) ∧
      (0 < d → l.earlyRun < 2 → does fun t => (t.linkOf n.val).early = min (l.early + 1) 255 ∧ (t.linkOf n.val).st = l.st ∧ nothing t ∧
        t.mem = s.mem) ∧
      (0 < d → l.earlyRun = 2 → l.earlyNow = false → does fun t => (t.linkOf n.val).early = min (l.early + 1) 255 ∧
        (t.linkOf n.val).st = .align ∧ rx t = rx s ∧ t.mem = s.mem))

/-- ABORT_IN_N aborts every group and holds PERMIT low (R265, R268); its release leaves the aborts latched. In reset the pin alone changes. The guard compares a received sample with its channel's entry (R262, R263): the count, the spent mark, one firing in a pound, which is the
device's pound and the one that SIL_LAST shows (log 33). A SAMPLE cell whose first sample fires an entry of action 4 to 7 aborts that group:
PERMIT falls and ABORT_OUT_N asserts where the group has them (R264, R268). -/
def Obligations.AbortInAbortsAll : Prop :=
  (∀ (s : State),
    (s.on = false → ∀ b : Bool, Gives (if b then .abortInQualified else .abortInRelease) s (s.modPins fun p => { p with abortIn := b })) ∧
    (s.on = true → s.dbg.frozen = false →
    (∃ t, exec .abortInQualified s = .next t ∧ t.sil.aborted = 15 ∧ t.sil.src = 2 ∧ t.sil.permit = false ∧ t.sil.abin = true ∧
      t.sil.aborts = min (s.sil.aborts + 1) 65535 ∧ t.mem = s.mem) ∧
    (∃ t, exec .abortInRelease s = .next t ∧ t.pins.abortIn = false ∧ t.sil.abin = false ∧ t.sil.aborted = s.sil.aborted ∧ t.mem = s.mem))) ∧
  ((∀ (s : State) (n : LinkId) (cell : RxCell) (k : Nat) (x : Stream) (j raw : Nat) (rest : List (Nat × Nat)),
    let p := s.weir.pound
    let i := cell.index.toNat
    let fmt := sFmt x.scfg
    let chan := gFirst x.sgeom + j % sNch x.scfg
    let e := mget entryD s.sil.entries chan
    let z := mget chanStD s.sil.chan chan
    let g := e.action - 4
    s.engines = true → (s.linkOf n.val).st.carries = true → cell.payload.length ≤ 116 →
    s.streamBySid n.val 0 cell.sid.toNat = some (k, x) → s.streamOf k = x → cell.pound = BitVec.ofNat 16 p.toNat → i < gCells x.sgeom →
    (x.rxOf p).next ≤ i → mget bytesD (x.rxOf p).got i = [] →
    elements (elemSize fmt) i (cell.payload.take (min 116 (x.bytes - 116 * i))) = (j, raw) :: rest →
    s.sil.armed = true → e.persist ≠ 0 → 4 ≤ e.action → z.spent = false → e.persist ≤ z.count + 1 → z.fired ≠ some p →
    violation fmt e raw (z.before p (j / sNch x.scfg) (gNsamp x.sgeom)) ≠ 0 →
    ∃ t, exec (.sampleCell n cell) s = .next t ∧ bit t.sil.aborted g = true ∧
      (grpPermit (s.sillOf g) = true → t.sil.permit = false) ∧ (grpOuten (s.sillOf g) = true → t.sil.about = true)) ∧
  ∀ (s : State) (chan fmt raw : Nat) (p : BitVec 48) (k n : Nat),
    let e := mget entryD s.sil.entries chan
    let x := mget chanStD s.sil.chan chan
    let cause := violation fmt e raw (x.before p k n)
    let t := s.guardSample chan fmt raw p k n
    let y := mget chanStD t.sil.chan chan
    let quiet : Prop := t.sil.fires = s.sil.fires ∧ t.sil.aborted = s.sil.aborted ∧ t.man = s.man ∧ t.evt = s.evt
    (s.sil.armed = false → t = s) ∧
    (s.sil.armed = true → e.persist ≠ 0 →
      (∀ j, j ≠ chan → mget chanStD t.sil.chan j = mget chanStD s.sil.chan j) ∧ t.mem = s.mem ∧ t.sil.entries = s.sil.entries ∧
      (cause = 0 → y.count = 0 ∧ y.spent = false ∧ y.fired = x.fired ∧ quiet) ∧
      (cause ≠ 0 → x.spent = true → y.count = x.count ∧ y.spent = true ∧ y.fired = x.fired ∧ quiet) ∧
      (cause ≠ 0 → x.spent = false → x.count + 1 < e.persist → y.count = x.count + 1 ∧ y.spent = false ∧ y.fired = x.fired ∧ quiet) ∧
      (cause ≠ 0 → x.spent = false → e.persist ≤ x.count + 1 → x.fired = some s.weir.pound →
        y.count = e.persist ∧ y.spent = false ∧ y.fired = x.fired ∧ quiet) ∧
      (cause ≠ 0 → x.spent = false → e.persist ≤ x.count + 1 → x.fired ≠ some s.weir.pound →
        y.count = 0 ∧ y.spent = true ∧ y.fired = some s.weir.pound ∧ t.sil.fires = min (s.sil.fires + 1) (2 ^ 32 - 1) ∧
        (e.action ≠ 0 → t.sil.lastPound = BitVec.ofNat 16 s.weir.pound.toNat ∧ t.sil.lastCause = BitVec.ofNat 3 cause ∧
          t.sil.lastChan = BitVec.ofNat 14 chan) ∧
        (4 ≤ e.action → bit t.sil.aborted (e.action - 4) = true))))

/-! ### Links -/

/-- What a front-end sends (R238, R239, R248, R257, R258, R259). -/
def Obligations.FrontEndResponsesAct : Prop :=
  ∀ (s : State) (n : LinkId), s.hears n = true →
    let l := s.linkOf n.val
    (∀ pound (v : Val), ∃ t, exec (.feStatus n pound v) s = .next t ∧
      (t.linkOf n.val).dbulk.toNat = fld v 32 32 ∧ (t.linkOf n.val).alarm.toNat = fld v 16 16 ∧ (t.linkOf n.val).festat.toNat = fld v 0 8 ∧
      (t.linkOf n.val).spound = pound ∧
      (t.linkOf n.val).st = (if l.st = .align ∧ bit v 0 = true ∧ l.lastLock = some (pound - 1) then l.alignTarget else l.st)) ∧
    (∀ pos m rtt ta, l.map[pos]? = some m →
      let o := (s.laneOf m).ofs
      let err := rtt - ta - (sx 32 (fld o 32 32) + sx 32 (fld o 0 32))
      Gives (.echoResponse n pos rtt ta) s (s.modLink n.val fun l =>
        { l with rtt := rtt - ta, err := err, calmis := l.calmis || decide (4000 < err.natAbs) })) ∧
    (∀ pos, l.restripe = some (pos, true) → ∃ t, exec (.lanemapResponse n) s = .next t ∧ (t.linkOf n.val).restripe = none ∧
      (t.linkOf n.val).failcnt = min (l.failcnt + 1) 15 ∧ (t.linkOf n.val).st = (if l.st = .up then .degraded else l.st)) ∧
    (∀ k m, l.connector k.toNat = some m → (s.laneOf m).st ≠ 0 → (s.laneOf m).st ≠ 4 →
      ∃ t, exec (.lanefail n k) s = .next t ∧ (t.laneOf m).st = 4 ∧ (t.linkOf (s.laneOf m).link).faillane = m) ∧
    (∀ r vals, l.ctl = some r → Gives (.feAccessResponse n r.seq 0 vals) s
      ((s.modLink n.val fun l => { l with ctl := none }).answer r.src 0x603 .ok (vals.take r.reads))) ∧
    (∀ r, l.ctl = some r →
      (r.attempts < 4 → ∃ t, exec (.controlResendTimeout n) s = .next t ∧ (t.linkOf n.val).ctl = some { r with attempts := r.attempts + 1 } ∧
        (t.linkOf n.val).waitq = l.waitq ++ [r.cell] ∧ (t.linkOf n.val).ctlretry = min (l.ctlretry + 1) 15) ∧
      (4 ≤ r.attempts → Gives (.controlResendTimeout n) s
        ((s.modLink n.val fun l => { l with ctl := none }).answer r.src 0x603 .feTimeout))) ∧
    (∀ cell k x, cell.payload.length ≤ 116 → s.streamBySid n.val 2 cell.sid.toNat = some (k, x) →
      (l.bulkUp < l.bulkCred → Gives (.bulkCell n cell) s ((s.modLink n.val fun l => { l with bulkUp := l.bulkUp + 1 }).feed k cell.payload)) ∧
      (l.bulkCred ≤ l.bulkUp → Gives (.bulkCell n cell) s (s.modLink n.val fun l => { l with drvdisc := min (l.drvdisc + 1) 15 }))) ∧
    Gives (.discardedCell n) s (s.modLink n.val fun l => { l with crcerr := min (l.crcerr + 1) 65535 })

/-- Link states, lanes and re-stripes (Table 11.3, R237 to R240). -/
def Obligations.LinkStatesMove : Prop :=
  ∀ (s : State) (n : LinkId), s.engines = true →
    let l := s.linkOf n.val
    (∀ (m : LaneId) cause, (s.laneOf m.val).st ≠ 0 → (s.laneOf m.val).st ≠ 4 →
      let q := (s.laneOf m.val).link
      let k := s.linkOf q
      ∃ t, exec (.laneFailed m cause) s = .next t ∧ (t.laneOf m.val).st = 4 ∧ (t.linkOf q).faillane = m.val ∧
        (k.map.contains m.val = true → s.spareReady q = false ∨ k.restripe.isSome = true → (t.linkOf q).st = .down) ∧
        (k.map.contains m.val = true → k.st ≠ .down → s.spareReady q = true → k.restripe = none → lSpare k.lcfg ≠ m.val →
          (t.linkOf q).st = k.st ∧ (t.linkOf q).restripe = some (k.map.idxOf m.val, false))) ∧
    (∀ pos, l.restripe = some (pos, false) → ∃ t, exec (.reStripe n) s = .next t ∧ (t.linkOf n.val).restripe = some (pos, true) ∧
      (t.linkOf n.val).map = l.map.set pos (lSpare l.lcfg) ∧ (t.linkOf n.val).spuse = true ∧ (t.laneOf (lSpare l.lcfg)).st = 2 ∧
      (l.posNext = 0 → markerSlot l.slotNext = false → l.st ≠ .train → (∀ m ∈ l.map.set pos (lSpare l.lcfg), (s.laneOf m).st ≠ 4) →
        ∃ c : TxCell, c.typ = 6 ∧ c.payload.length = 24 ∧ leAt c.payload 0 2 = 4 ∧ leAt c.payload 2 2 = l.ctlSeq.toNat ∧
          (∀ p < lWidth l.lcfg, leAt c.payload 16 8 / 8 ^ p % 8 = if p = pos then 4 else p) ∧ t.out = ((List.range l.map.length).reverse.map fun p => .cell n.val p l.slotNext c.bytes) ++ s.out)) ∧
    (lEn l.lcfg = true → l.st = .down → ∃ t, exec (.linkRetrain n) s = .next t ∧ (t.linkOf n.val).st = .train ∧
      (t.linkOf n.val).map = (List.range (lWidth l.lcfg)).map (lLane l.lcfg) ∧ ∀ m ∈ l.lanes, (t.laneOf m).st = 1) ∧
    (∀ pam4 spareOk, l.st = .train → (∀ m ∈ l.map, s.domOn (176 + m) = true) → (lRate l.lcfg = 0 → pam4 = true) →
      ∃ t, exec (.trainComplete n pam4 spareOk) s = .next t ∧ (t.linkOf n.val).st = .align ∧
        (t.linkOf n.val).nrz = decide (lRate l.lcfg = 1 ∨ (2 ≤ lRate l.lcfg ∧ pam4 = false)) ∧
        (t.linkOf n.val).spfail = (lSpen l.lcfg && !(spareOk && !l.spfail))) ∧
    (l.st = .train → ∃ t, exec (.trainTimeout n) s = .next t ∧ (t.linkOf n.val).st = .down ∧ t.mem = s.mem) ∧
    (l.st = .align → ∃ t, exec (.alignTimeout n) s = .next t ∧ (t.linkOf n.val).st = .train ∧ t.mem = s.mem)

/-- The cell slot (R234, R237, R243): nothing in DOWN; the cell that Table 11.5 picks, or IDLE, on the position that comes next; a
replicated cell on every position, in a slot that they share; a lane marker on each when it is due. That a replicated cell waits with IDLE on the
other positions, that markers stand at the slot numbers which 1,280 divides and that IDLE carries the current pound is log 64 (the model's
reading). The 128 bytes of a cell (Table 11.4, R242): header fields, payload with zeros behind it, CRC-32C over bytes 0 to 123. -/
def Obligations.CellsLeaveInTheirSlots : Prop :=
  (∀ (s : State) (n : LinkId), s.engines = true →
    let l := s.linkOf n.val
    let does (p : State → Prop) : Prop := ∃ t, exec (.cellSlot n) s = .next t ∧ p t
    let one (c : TxCell) (q : List TxCell) : Prop := does fun t =>
      t.out = .cell n.val l.posNext l.slotNext c.bytes :: s.out ∧ (t.linkOf n.val).slots = l.slots + 1 ∧ (t.linkOf n.val).waitq = q
    (l.st = .down → NoEffect (.cellSlot n) s) ∧
    (l.st ≠ .down → l.posNext = 0 → markerSlot l.slotNext = true → does fun t =>
      ∀ mp ∈ s.places n.val, (s.laneOf mp.1).st ≠ 4 → .cell n.val mp.2 l.slotNext (s.markerCell n.val mp.2).bytes ∈ t.out) ∧
    (l.st ≠ .down → (l.posNext = 0 → markerSlot l.slotNext = false) →
      (∀ m, l.map[l.posNext]? = some m → (s.laneOf m).st ≠ 4 → (l.posNext = 0 → s.spareSends n.val = false) →
        (s.pickCell n.val = none → one { typ := 0, pound := s.weir.pound.toNat % 65536 } l.waitq) ∧
        (∀ c, s.pickCell n.val = some c → c.repl = false → one c (l.waitq.erase c)) ∧
        (∀ c, s.pickCell n.val = some c → c.repl = true → l.posNext ≠ 0 → one { typ := 0, pound := s.weir.pound.toNat % 65536 } l.waitq)) ∧
      (∀ c, s.pickCell n.val = some c → c.repl = true → l.posNext = 0 → c.typ ≠ 1 → does fun t =>
        (t.linkOf n.val).waitq = l.waitq.erase c ∧
        ∀ mp ∈ s.places n.val, (s.laneOf mp.1).st ≠ 4 → .cell n.val mp.2 l.slotNext c.bytes ∈ t.out))) ∧
  (∀ (c : TxCell), c.payload.length ≤ 116 → c.typ < 16 → c.pound < 2 ^ 16 → c.sid < 2 ^ 8 → c.index < 2 ^ 24 →
    let h := BitVec.ofNat 64 (leNat (c.bytes.take 8))
    c.bytes.length = 128 ∧ fld h 60 4 = c.typ ∧ bit h 59 = c.last ∧ bit h 58 = c.safe ∧ bit h 57 = c.lmark ∧ fld h 40 16 = c.pound ∧
      fld h 32 8 = c.sid ∧ fld h 8 24 = c.index ∧ fld h 0 8 = c.payload.length ∧
      (c.bytes.drop 8).take 116 = c.payload ++ List.replicate (116 - c.payload.length) 0 ∧
      leNat (c.bytes.drop 124) = (crc32c (c.bytes.take 124)).toNat)

/-! ### The sluice -/

/-- What happens to a channel on its own (R272, R281 to R283, R286, R288, R292, R295 to R297): the start of a descriptor, its half completion,
the hand-over to a shadow, along a link or to PARKED or ENDED, bus errors, retries and stops. A bus error on the burst that a STOP lets
complete takes the stop, also where no attempt is left, and a second bus error in BL16 mode halts with BL16STOP (log 65); a hand-over or the end
of a stop whose circumstances are not met leaves the state as it is (log 1). -/
def Obligations.ChannelEventsAct : Prop :=
  ∀ (s : State) (ch : ChanId), s.engines = true →
    let c := ch.val
    let x := s.chanOf c
    let gives (i : Instr) (p : State → Prop) : Prop := ∃ t, exec i s = .next t ∧ p t
    (x.st = .wait → x.latch = true → Gives (.descriptorStart ch) s (s.modChan c fun x => { x with st := .active, latch := false })) ∧
    (∀ d, x.desc = some d → 2 ≤ d.total → d.total / 2 ≤ x.done → x.st = .active → x.halfDone = false →
      gives (.halfCompletion ch) fun t => (t.chanOf c).halfDone = true ∧ (d.hev = true → t.pendBit c = true) ∧ t.mem = s.mem) ∧
    (∀ d, x.desc = some d → x.st = .active → x.stopping = false → x.failed = none →
      (x.atPoint = false → NoEffect (.handOver ch) s) ∧
      (x.atPoint = true → d.crcm = 0 →
        let full (t : State) : Prop := (t.chanOf c).cut = decide (x.done < d.total) ∧ (d.fev = true → t.pendBit (64 + c) = true)
        (x.taken = none → x.curShd = false → PlainStore s → (s.rd (x.curAddr + 7)).tag = tNIL →
          gives (.handOver ch) fun t => (t.chanOf c).st = .parked ∧ (t.chanOf c).parkV = true ∧ (t.chanOf c).parkAddr = x.curAddr ∧
            t.pendBit (128 + c) = true ∧ full t ∧ t.mem = s.mem) ∧
        (x.taken = none → x.curShd = true → bit d.w7 63 = false →
          gives (.handOver ch) fun t => (t.chanOf c).st = .ended ∧ t.pendBit (128 + c) = true ∧ full t ∧ t.mem = s.mem) ∧
        (∀ n, x.taken = none → PlainStore s → Loadable s c n →
          ((x.curShd = false ∧ (s.rd (x.curAddr + 7)).tag = tDESC ∧ fld (s.rd (x.curAddr + 7)).val 36 28 = 0 ∧
              n = fld (s.rd (x.curAddr + 7)).val 0 36) ∨
            (x.curShd = true ∧ bit d.w7 63 = true ∧ n = fld d.w7 0 36)) →
          gives (.handOver ch) fun t => Loaded t c (s.descAt n) ∧ (t.chanOf c).curAddr = n ∧ (t.chanOf c).curShd = false ∧
            (t.chanOf c).shadowTaken = false ∧ full t ∧ t.mem = s.mem) ∧
        (∀ e, x.taken = some e → x.arm = false → s.descOk c e = true → bit e.w7 63 = false →
          gives (.handOver ch) fun t => TookShadow s t c e ∧ full t ∧ t.mem = s.mem))) ∧
    (∀ d code side addr, x.desc = some d → x.st = .active →
      ((d.kindS = 1 ∧ side = 0 ∧ (∃ len, x.req = some (addr, len)) ∧ (code = 1 ∨ code = 2 ∨ code = 4)) ∨
        (d.kindD = 1 ∧ side = 1 ∧ addr = (d.dstU x.wr).toNat ∧ code = 3 ∧ s.pins.linkUp = false ∧
          (d.kindS ≠ 1 ∨ (x.atPoint = false ∧ (x.canWrite d).isSome = true))) ∨
        (d.kindS = 1 ∧ d.kindD ≠ 1 ∧ side = 0 ∧ addr = (d.srcU x.rdPos).toNat ∧ code = 3 ∧ s.pins.linkUp = false ∧ x.req = none)) →
      let undone (t : State) : Prop := (t.chanOf c).done = x.burst / d.unit ∧ t.mem = s.mem
      let back (t : State) : Prop := undone t ∧ (t.chanOf c).errCode = code ∧ (t.chanOf c).errSide = side ∧ (t.chanOf c).errAddr = addr
      (s.slu.bl16 = false → x.stopping = false → x.attempt < s.slu.retrymax.toNat →
        gives (.busError ch (BitVec.ofNat 8 code)) fun t => (t.chanOf c).st = .retry ∧ (t.chanOf c).attempt = x.attempt + 1 ∧ undone t) ∧
      (s.slu.bl16 = false → x.stopping = true →
        gives (.busError ch (BitVec.ofNat 8 code)) fun t => (t.chanOf c).st = .stopped ∧ (t.chanOf c).errV = x.errV ∧
          t.pendBit (128 + c) = true ∧ undone t) ∧
      (s.slu.bl16 = false → x.stopping = false → s.slu.retrymax.toNat ≤ x.attempt →
        gives (.busError ch (BitVec.ofNat 8 code)) fun t => (t.chanOf c).st = .halted ∧ (t.chanOf c).errV = true ∧ t.pendBit (128 + c) = true ∧
          back t) ∧
      (s.slu.bl16 = true → s.slu.bl16halt = false →
        gives (.busError ch (BitVec.ofNat 8 code)) fun t => (t.chanOf c).st = .halted ∧ (t.chanOf c).errV = true ∧ back t ∧
          t.slu.bl16halt = true ∧ t.slu.echanv = true ∧ t.slu.echan = c ∧ t.slu.ecode = code ∧
          ∀ k, k ≠ c → ((s.chanOf k).st ∈ [ChSt.wait, .retry, .parked, .ended, .stopped] →
            (t.chanOf k).st = .halted ∧ (t.chanOf k).errCode = 0x31) ∧
            ((s.chanOf k).st = .active → (t.chanOf k).st = .active ∧ (t.chanOf k).stopping = true ∧ (t.chanOf k).bl16stop = true)) ∧
      (s.slu.bl16 = true → s.slu.bl16halt = true →
        gives (.busError ch (BitVec.ofNat 8 code)) fun t => (t.chanOf c).st = .halted ∧ (t.chanOf c).errCode = 0x31 ∧
          t.slu.echan = s.slu.echan ∧ t.slu.ecode = s.slu.ecode)) ∧
    (x.st = .retry → Gives (.retryAttempt ch) s (s.modChan c fun x => { x with st := .active })) ∧
    (∀ code side kind addr, x.failed = some (code, side, kind, addr) → gives (.channelHalt ch) fun t => (t.chanOf c).st = .halted ∧
      (t.chanOf c).errV = true ∧ (t.chanOf c).errCode = code ∧ (t.chanOf c).errSide = side ∧ (t.chanOf c).errAddr = addr ∧
      t.pendBit (128 + c) = true ∧ t.mem = s.mem) ∧
    (∀ d, x.desc = some d → x.st = .active → x.stopping = true → x.failed = none →
      (x.stopAt ≤ x.wr → x.bl16stop = false → gives (.sluiceStopComplete ch) fun t => (t.chanOf c).st = .stopped ∧
        (t.chanOf c).stopping = false ∧ t.pendBit (128 + c) = true ∧ t.mem = s.mem) ∧
      (x.stopAt ≤ x.wr → x.bl16stop = true → gives (.sluiceStopComplete ch) fun t => (t.chanOf c).st = .halted ∧
        (t.chanOf c).errCode = 0x31 ∧ t.mem = s.mem) ∧
      (x.wr < x.stopAt → x.done < d.total → x.atPoint = false → NoEffect (.sluiceStopComplete ch) s)) ∧
    (∀ n : Fin 16, let v := mget valD s.slu.timers n.val
      bit v 63 = true → (bit v 62 = false ∨ fld v 30 30 < s.weir.len) →
      gives (.sluTimerFire n) fun t => t.pendBit (192 + n.val) = true ∧ t.mem = s.mem)

/-- A beat is one access of one channel (R272, R273, R276 to R279, R286, R296). A read of the tagged store fills the staging buffer from one line
and leaves every word as it was; a host read leaves as a request, as far as the burst, the buffer and 64 contiguous bytes allow, and a later
beat takes its answer (log 10); a stream gives the bytes that it has delivered. A complete write goes before a read (log 65): it stores units
from the buffer and nothing else, or leaves for the host, or goes to a stream, counts them, and samples ARM where an outer iteration or the
descriptor ends. -/
def Obligations.BeatMovesAnElement : Prop :=
  ∀ (s : State) (host : List Byte) (c : Nat) (d : Desc), s.engines = true → PlainStore s → s.pickChan host = some c →
    let x := s.chanOf c
    let gives (p : State → Prop) : Prop := ∃ t, exec (.beat host) s = .next t ∧ p t ∧ (∀ c', c' ≠ c → t.chanOf c' = s.chanOf c') ∧
      t.banks = s.banks
    let p := x.rdPos
    let a := d.srcU p
    let reads (t : State) (us : List Word) : Prop := (t.chanOf c).stage.take (x.stage.length + us.length) = x.stage ++ us ∧
      (t.chanOf c).wr = x.wr ∧ (t.chanOf c).done = x.done
    x.desc = some d → x.atPoint = false →
    (x.canWrite d = none → d.kindS = 0 → 0 ≤ a →
      (d.wordMode = true → s.storeOk a.toNat = true → isPoison (s.rd a.toNat) = false → (s.rd a.toNat).tag ≠ tCODE →
        gives fun t => reads t [s.rd a.toNat] ∧ ∀ w, t.rd w = s.rd w) ∧
      (d.wordMode = false → s.storeOk (a.toNat / 8) = true →
        ((s.rd (a.toNat / 8)).tag = tRAWD →
          gives fun t => reads t [rawd ((byteOf (s.rd (a.toNat / 8)).val (a.toNat % 8)).setWidth 64)] ∧ ∀ w, t.rd w = s.rd w) ∧
        ((s.rd (a.toNat / 8)).tag ≠ tRAWD → isPoison (s.rd (a.toNat / 8)) = false →
          gives fun t => reads t [] ∧ (t.chanOf c).stage = x.stage ∧
            (t.chanOf c).stuck = some (p / d.unit, (0x11, 0, 0, 8 * (a.toNat / 8))) ∧ ∀ w, t.rd w = s.rd w))) ∧
    (x.canWrite d = none → d.kindS = 1 → s.pins.linkUp = true →
      (∀ q, x.req = none → q = d.reach d.srcU hostOk p (min (p + min 64 (x.canRead d)) (d.runEnd d.srcU 0 64 p)) → p < q →
        q - p ≤ 64 ∧ q ≤ x.readTo d ∧ (∀ i < q - p, d.srcU (p + i) = a + i ∧ hostOk (a + i) = true) ∧
        gives fun t => t.out = .hostRead c a.toNat (q - p) :: s.out ∧ (t.chanOf c).req = some (a.toNat, q - p) ∧ reads t [] ∧ t.mem = s.mem) ∧
      (∀ r m, x.req = some (r, m) → x.held = none → gives fun t => (t.chanOf c).req = none ∧ t.out = s.out ∧
        (t.chanOf c).stage = x.stage ++ unitsOf (host.take m) ∧ (t.chanOf c).wr = x.wr ∧ t.mem = s.mem)) ∧
    (x.canWrite d = none → d.kindS = 2 → x.held = none → gives fun t =>
      let n := min 64 (x.canRead d)
      (t.chanOf c).stage = x.stage ++ unitsOf (x.inbuf.take n) ∧ (t.chanOf c).inbuf = x.inbuf.drop n ∧ (t.chanOf c).wr = x.wr ∧ t.mem = s.mem) ∧
    (∀ q, x.canWrite d = some q → x.taken = none → x.cutAt = none →
      let at_ (i : Nat) : Int := d.dstU (x.wr + i)
      let n := q - x.wr
      let bs := bytesOf (x.stage.take n)
      let y := s.streamOf d.baseD
      let moved (t : State) : Prop := (t.chanOf c).wr = q ∧ (t.chanOf c).done = q / d.unit ∧
        (t.chanOf c).atPoint = decide (q = d.totalU ∨ (x.arm = true ∧ q % d.iterU = 0)) ∧
        (x.arm = true → q % d.iterU = 0 ∨ q = d.totalU → (t.chanOf c).taken = some x.shadowDesc ∧ (t.chanOf c).arm = false)
      (d.kindD = 0 → d.wordMode = true → (∀ i < n, 0 ≤ at_ i ∧ s.storeOk (at_ i).toNat = true) →
        gives fun t => moved t ∧ (∀ i < n, t.rd (at_ i).toNat = x.stage.getD i unbound) ∧
          ∀ w, (∀ i < n, w ≠ (at_ i).toNat) → t.rd w = s.rd w) ∧
      (d.kindD = 0 → d.wordMode = false → d.reach d.dstU (s.unitOk d) x.wr q = q → (∀ i < n, (s.rd ((at_ i).toNat / 8)).tag = tRAWD) →
        gives fun t => moved t ∧ (∀ i < n, byteOf (t.rd ((at_ i).toNat / 8)).val ((at_ i).toNat % 8) = byteOf (x.stage.getD i unbound).val 0) ∧
          (∀ w, (t.rd w).tag = (s.rd w).tag) ∧
          ∀ w, ∀ k < 8, (∀ i < n, (at_ i).toNat ≠ 8 * w + k) → byteOf (t.rd w).val k = byteOf (s.rd w).val k) ∧
      (d.kindD = 1 → s.pins.linkUp = true → d.reach d.dstU hostOk x.wr q = q →
        gives fun t => moved t ∧ t.out = .hostWrite (at_ 0).toNat bs :: s.out ∧ t.mem = s.mem) ∧
      (d.kindD = 2 → sKind y.scfg = 1 → y.opened = true → y.stag.length + n ≤ y.bytes →
        gives fun t => moved t ∧ (t.streamOf d.baseD).stag = y.stag ++ bs ∧ t.twl.links = s.twl.links ∧ t.mem = s.mem) ∧
      (d.kindD = 2 → sKind y.scfg = 3 →
        gives fun t => moved t ∧ (t.linkOf (sLink y.scfg)).waitq = (s.linkOf (sLink y.scfg)).waitq ++
          [{ typ := 7, pound := s.weir.pound.toNat % 65536, sid := sSid y.scfg, index := y.bulkIx, payload := bs }] ∧
          (t.streamOf d.baseD).bulkIx = (y.bulkIx + 1) % 2 ^ 24 ∧ t.mem = s.mem))

/-- Register writes of a channel (R283, R287 to R293, R298, Table 13.9): a start from memory, from the shadow or at an address that holds no
descriptor, a refused start, RESUME along a link or back to PARKED, ARM at once in PARKED and ENDED, STOP, GO, the shadow words, the mode
and the timers. -/
def Obligations.SluiceRegistersAct : Prop :=
  ∀ (s : State) (ch : ChanId) (v : Val), s.writable = true →
    let c := ch.val
    let x := s.chanOf c
    let becomes (i : Instr) (f : Chan → Chan) : Prop := Gives i s (s.modChan c f)
    let gives (i : Instr) (p : State → Prop) : Prop := ∃ t, exec i s = .next t ∧ p t
    let a := fld v 0 36
    let e := x.shadowDesc
    let shadowRuns : Prop := s.descOk c e = true ∧ bit e.w7 63 = false
    (x.en = true → startable x.st = true → s.slu.bl16halt = false →
      (PlainStore s → bit v 63 = false → Loadable s c a → gives (.sluStart ch v) fun t => Loaded t c (s.descAt a) ∧ (t.chanOf c).curAddr = a ∧
        (t.chanOf c).curShd = false ∧ (t.chanOf c).errV = false ∧ (t.chanOf c).parkV = false ∧ t.mem = s.mem) ∧
      (bit v 63 = false → a % 8 ≠ 0 ∨ s.storeOk a = false → gives (.sluStart ch v) fun t => (t.chanOf c).st = .halted ∧
        (t.chanOf c).desc = none ∧ (t.chanOf c).done = 0 ∧ (t.chanOf c).errV = true ∧ (t.chanOf c).errCode = 0x14 ∧ (t.chanOf c).errSide = 2 ∧
        (t.chanOf c).errKind = 0 ∧ (t.chanOf c).errAddr = 8 * a ∧ t.pendBit (128 + c) = true ∧ t.mem = s.mem) ∧
      (bit v 63 = true → x.arm = true → shadowRuns → gives (.sluStart ch v) fun t => TookShadow s t c e ∧ (t.chanOf c).errV = false ∧
        t.mem = s.mem)) ∧
    ((x.en = false ∨ startable x.st = false ∨ s.slu.bl16halt = true ∨ (bit v 63 = true ∧ x.arm = false)) →
      becomes (.sluStart ch v) fun x => { x with cmdign := min (x.cmdign + 1) 255 }) ∧
    (∀ n, PlainStore s → x.st = .parked → x.parkV = true → (s.rd (x.parkAddr + 7)).tag = tDESC → fld (s.rd (x.parkAddr + 7)).val 36 28 = 0 →
      n = fld (s.rd (x.parkAddr + 7)).val 0 36 → Loadable s c n → gives (.sluResume ch v) fun t => Loaded t c (s.descAt n) ∧
        (t.chanOf c).curAddr = n ∧ (t.chanOf c).shadowTaken = false ∧ t.mem = s.mem) ∧
    ((x.st = .parked ∨ x.st = .ended) → x.en = true → shadowRuns → gives (.sluArm ch true) fun t => TookShadow s t c e ∧ t.mem = s.mem) ∧
    ((x.st = .parked ∨ x.st = .ended) → becomes (.sluArm ch false) fun x => { x with arm := false }) ∧
    (PlainStore s → x.st = .parked → x.parkV = true → (s.rd (x.parkAddr + 7)).tag = tNIL → gives (.sluResume ch v) fun t =>
      (t.chanOf c).st = .parked ∧ (t.chanOf c).parkV = true ∧ (t.chanOf c).parkAddr = x.parkAddr ∧ t.pendBit (128 + c) = true) ∧
    (x.st ≠ .parked → becomes (.sluResume ch v) fun x => { x with resign := min (x.resign + 1) 65535 }) ∧
    (∀ w : Fin 8, (x.arm = false → becomes (.sluShdWrite ch w v) fun x => { x with shd := mset shdD x.shd w.val v }) ∧
      (x.arm = true → becomes (.sluShdWrite ch w v) fun x => { x with shdrej := true })) ∧
    becomes (.sluEn ch true) (fun x => { x with en := true }) ∧
    (x.en = true → gives (.sluEn ch false) fun t => (t.chanOf c).en = false ∧ (t.chanOf c).st = .idle ∧ (t.chanOf c).desc = none ∧
      (t.chanOf c).arm = false ∧ t.mem = s.mem) ∧
    (∀ k, x.st = .idle → becomes (.sluClass ch k) fun x => { x with cls := k }) ∧
    (∀ k, x.st ≠ .idle → NoEffect (.sluClass ch k) s) ∧
    (∀ k, (x.st ≠ .parked ∧ x.st ≠ .ended) → becomes (.sluArm ch k) fun x => { x with arm := k }) ∧
    (x.st = .wait ∨ x.st = .parked ∨ x.st = .retry → gives (.sluStop ch) fun t => (t.chanOf c).st = .stopped ∧ t.pendBit (128 + c) = true) ∧
    (∀ d, x.st = .active → x.desc = some d →
      (x.stopping = false → becomes (.sluStop ch) fun x =>
        { x with stopping := true,
                 stopAt := if x.wr % d.burstU ≠ 0 ∨ x.stage ≠ [] ∨ x.req ≠ none then (x.wr / d.burstU + 1) * d.burstU else x.wr }) ∧
      (x.stopping = true → NoEffect (.sluStop ch) s)) ∧
    (∀ d, x.desc = some d → trigOf d = 1 → becomes (.sluGo ch) fun x =>
      { x with latch := true, trigovf := x.trigovf || x.st == .active }) ∧
    (∀ p, becomes (.sluPrio ch p) fun x => { x with prio := p }) ∧
    becomes (.sluStatW1c ch v) (fun x => { x with trigovf := x.trigovf && !bit v 58, shdrej := x.shdrej && !bit v 57 }) ∧
    (s.weir.runSt = .stopped → Gives (.sluGctlWrite v) s (s.modSlu fun g => { g with bl16 := bit v 63 })) ∧
    (s.weir.runSt ≠ .stopped → bit v 63 ≠ s.slu.bl16 →
      Gives (.sluGctlWrite v) s (s.modSlu fun g => { g with grefused := min (g.grefused + 1) 65535 })) ∧
    Gives (.bl16haltClear v) s (s.modSlu fun g => { g with bl16halt := g.bl16halt && !bit v 63 }) ∧
    (∀ n : Fin 16, (bit v 63 = false ∨ 10 ≤ fld v 0 30 → Gives (.sluTimerWrite n v) s
        (s.modSlu fun g => { g with timers := mset valD g.timers n.val (v &&& 0xCFFFFFFFFFFFFFFF) })) ∧
      (bit v 63 = true → fld v 0 30 < 10 → NoEffect (.sluTimerWrite n v) s))

/-! ### The event router -/

/-- Raising, clearing, routing and delivering events (R181 to R185). -/
def Obligations.EventRouterActs : Prop :=
  ∀ (s : State) (v : Val) (n : Fin 4096), s.engines = true →
    let gives (i : Instr) (p : State → Prop) : Prop := ∃ t, exec i s = .next t ∧ p t
    (1024 ≤ fld v 0 12 → gives (.evtRaise v) fun t => t.pendBit (fld v 0 12) = true ∧ t.mem = s.mem) ∧
    (fld v 0 12 < 1024 → gives (.evtRaise v) fun t => t.evt.raiseign = min (s.evt.raiseign + 1) 65535 ∧ t.evt.pend = s.evt.pend) ∧
    (∀ k : Fin 64, gives (.evtPendW1c k v) fun t => ∀ i < 64,
      t.pendBit (64 * k.val + i) = (s.pendBit (64 * k.val + i) && !(bit v i && !(levelSource (64 * k.val + i) && s.levelMode (64 * k.val + i) &&
        mget boolD s.evt.lvl (64 * k.val + i))))) ∧
    (fld v 61 2 ≠ 3 → (bit v 63 = false ∨ fld v 61 2 ≠ 0 ∨ (1 ≤ fld v 48 4 ∧ fld v 48 4 ≤ 12 ∧ fld v 42 2 ≤ 1)) →
      gives (.evtRouteWrite n v) fun t => t.route n.val = v &&& 0xF00F0CFF00003F07 ∧ ∀ j, j ≠ n.val → t.route j = s.route j) ∧
    (fld v 61 2 = 3 ∨ (bit v 63 = true ∧ fld v 61 2 = 0 ∧ (fld v 48 4 = 0 ∨ 12 < fld v 48 4 ∨ 1 < fld v 42 2)) →
      gives (.evtRouteWrite n v) fun t => t.evt.route = s.evt.route ∧ t.evt.badwr = min (s.evt.badwr + 1) 65535) ∧
    (s.pendBit n.val = true → bit (s.route n.val) 63 = true → s.levelMode n.val = false →
      (fld (s.route n.val) 61 2 = 1 → gives (.lockkeeperEventDelivery n) fun t => t.pendBit n.val = false ∧ t.out = s.out) ∧
      (fld (s.route n.val) 61 2 = 2 → s.pins.linkUp = true →
        gives (.msixMessage n) fun t => t.pendBit n.val = false ∧
          (s.msixMasked (fld (s.route n.val) 32 8) = false → t.out = .msix (fld (s.route n.val) 32 8) :: s.out) ∧
          (s.msixMasked (fld (s.route n.val) 32 8) = true → bit t.mbx.pba (fld (s.route n.val) 32 8) = true ∧ t.out = s.out)))

/-! ### The manifest, the host link, power failure -/

/-- A batch writes the accepted entries in order, as the mirrored region holds them, as far as the ring has room and until 256 KiB have been
written; behind the last record the produced-through word (R307, R309, R311). The host's durable number releases the ring space of every
record up to it (R310); in the held state the write waits at the crossing (R372). The link (R311, R337, R380). -/
def Obligations.ManifestDelivers : Prop :=
  ∀ (s : State) (v : Val),
    let m := s.man
    let n := fld v 0 48
    let pos := max m.written m.durEnd
    let room := m.durEnd + 2 ^ m.sz
    let cost (p : Placed) : Nat := if p.record.isSome then p.len else 32
    (s.engines = true → m.st = .opened → s.pins.linkUp = true → SoundStore s →
      (∀ ps rest l, m.backlog = ps ++ rest → (ps.filter fun p => p.record.isSome).getLast? = some l →
        m.backlog.Pairwise (fun p q => p.rbp + p.len ≤ q.rbp) → (∀ p ∈ ps, pos ≤ p.rbp ∧ p.rbp + p.len ≤ room ∧ RegionHolds s p) →
        (ps.dropLast.map cost).sum < 262144 → (∀ q ∈ rest.head?, room < q.rbp + q.len) → m.ptRbp ≤ l.rbp + l.len →
        ∃ t, exec .manifestBatch s = .next t ∧
          t.out = .hostWrite m.ptaddr (leBytes 8 l.msn ++ leBytes 8 (l.rbp + l.len)) ::
            ((ps.reverse.map fun p => .hostWrite (m.ring + p.rbp % 2 ^ m.sz) (Manifest.entryBytes p)) ++ s.out) ∧
          t.man.pt = l.msn ∧ t.man.ptRbp = l.rbp + l.len ∧ t.man.backlog = m.backlog ∧ t.mem = s.mem ∧
          (∀ p ∈ ps.getLast?, t.man.written = p.rbp + p.len)) ∧
      (∀ q rest, m.backlog = q :: rest → pos ≤ q.rbp → room < q.rbp + q.len →
        Gives .manifestBatch s (s.modMan fun m => { m with written := max m.written m.durEnd }))) ∧
    (s.hostReach = true → s.mbx.held = [] → s.lk.warm = none → s.clocked = true →
      (∀ ps p rest, m.st = .opened → m.durable < n → n ≤ m.pt → m.backlog = ps ++ p :: rest → p.record.isSome = true → p.msn ≤ n →
        (∀ q ∈ ps, q.rbp + q.len ≤ p.rbp + p.len) → (∀ q ∈ rest, p.rbp + p.len < q.rbp + q.len ∧ (q.record.isSome = true → n < q.msn)) →
        ∃ t, exec (.manDurable v) s = .next t ∧ t.man.durable = n ∧ t.man.durEnd = p.rbp + p.len ∧ t.man.backlog = rest ∧ t.mem = s.mem) ∧
      ((n ≤ m.durable ∨ m.pt < n) → Gives (.manDurable v) s (s.modMan fun m => { m with durbad := min (m.durbad + 1) 65535 }))) ∧
    (s.hostReach = true → s.mbx.held = [] → s.lk.warm = none → s.dbg.held = true →
      Gives (.manDurable v) s (s.modDbg fun d => { d with crossing := d.crossing ++ [(.host, 0x506, v)] })) ∧
    (∀ w sp, s.on = true → s.dbg.frozen = false → s.pins.perst = false → s.pins.linkUp = false → s.mbx.rspWait = [] →
      Gives (.pcieLinkUp w sp) s (((s.modPins fun p => { p with linkUp := true, width := w, speed := sp }).modPwr fun p =>
        { p with on := setBit p.on 234 (decide (8 < w)) }).modMan fun m => { m with written := m.durEnd })) ∧
    (s.on = true → Gives .pcieLinkDown s (s.modPins fun p => { p with linkUp := false }))

/-- PFAIL_N (R268, R318, R319, R361, R392, Table 14.5): PERMIT falls, the flush starts and keeps LKSTATE 4 in the failed state, the image stands in
its die with the next sequence number and what the region holds of the backlog, the device restarts when PFAIL_N is high, and a restored image's
second copy is erased. A boot held at STEP 1 goes on 10 ms later from the valid copy of its partition, or fails without one; one that PFAIL_N
stopped starts anew. The steps to STEP 7 are taken at once (log 36); the cold start at the release after a finished flush is log 44. -/
def Obligations.PowerFailFlushes : Prop :=
  ∀ (s : State), s.on = true → s.dbg.frozen = false →
    let m := s.man
    (s.dbg.held = false → s.pins.flush = .none → s.lk.st ≠ .booting → m.inCommit = none →
      ∃ t, exec .pfailQualified s = .next t ∧ t.sil.permit = false ∧ t.sil.about = true ∧ t.sil.src = 5 ∧
        t.lk.st = (if s.lk.st = .failed then .failed else .flushing) ∧ t.pins.flush = .flushing ∧ t.man.st = .flushing ∧
        t.man.target = (if m.st = .opened then s.vault.flushTarget else 0) ∧ t.man.backlog = m.backlog ∧ t.mem = s.mem ∧
        ∀ c, (t.coreOf c).run ≠ .running) ∧
    (s.pins.flush = .flushing → s.pins.pfailN = true → m.st = .flushing →
      let image (im : Image) : Prop := im.seq = m.flushSeq + 1 ∧ im.man.backlog = m.backlog ∧ im.man.next = m.next ∧
        im.man.durable = m.durable ∧ im.man.rbp = m.rbp ∧ im.man.commits = m.commits ∧
        (SoundStore s → (∀ p ∈ m.backlog, RegionHolds s p) → im.store = m.backlog.flatMap Placed.words)
      (m.target = 1 → ∃ t im, exec .flushImageComplete s = .next t ∧ t.vault.area0 = some im ∧ image im ∧ t.man.flushArea = 1 ∧
        t.pins.flush = .done) ∧
      (m.target = 2 → ∃ t im, exec .flushImageComplete s = .next t ∧ t.vault.area1 = some im ∧ image im ∧ t.man.flushArea = 2 ∧
        t.pins.flush = .done)) ∧
    (s.pins.flush = .done → ∃ t, exec .pfailRelease s = .next t ∧ t.pins.pfailN = false ∧ t.pins.flush = .none ∧ t.weir.runSt = .stopped ∧
      (∀ v, s.vault.atStart s.pins.boot.bootGood = some v → t.lk.step = 7 ∧ t.vault.boots = v.boots) ∧
      (s.vault.atStart s.pins.boot.bootGood = none → t.lk.st = .failed ∧ t.lk.step = 2)) ∧
    (s.pins.flush = .none → ∃ t, exec .pfailRelease s = .next t ∧ t.pins.pfailN = false ∧
      t.sil.about = (s.anyAborted grpOuten || s.pins.freezeN) ∧ t.mem = s.mem) ∧
    (∃ t, exec .imageEraseComplete s = .next t ∧ t.vault.erasing = 0 ∧ t.vault.area0 = (if bit s.vault.erasing 0 then none else s.vault.area0) ∧
      t.vault.area1 = (if bit s.vault.erasing 1 then none else s.vault.area1) ∧ { t with vault := s.vault } = s) ∧
    (∀ a : BootArgs, s.lk.bootStop = false → s.lk.bootHeld = true →
      (s.vault.atStart a.bootGood = none → ∃ t, exec (.pfailHigh10ms a) s = .next t ∧ t.lk.st = .failed ∧ t.lk.step = 2) ∧
      (∀ v, s.vault.atStart a.bootGood = some v → a.trainFail = 0 → s.vault.area0 = none → s.vault.area1 = none →
        ∃ t, exec (.pfailHigh10ms a) s = .next t ∧ t.lk.step = 7 ∧ t.lk.bootHeld = false ∧ t.mem = [] ∧ t.memc.zeroed = true ∧
          t.memc.clamshell = a.clamshell ∧ t.vault.boots = v.boots ∧ t.sil.about = (s.anyAborted grpOuten || s.pins.freezeN))) ∧
    (∀ a : BootArgs, s.lk.bootStop = true → ∃ t, exec (.pfailHigh10ms a) s = .next t ∧ t.lk.bootStop = false ∧ t.lk.bootHeld = false ∧
      t.pins.pfailN = false ∧ t.weir.runSt = .stopped)

/-! ### Memory controllers, caches, power -/

/-- The memory controllers' rows and the registers of an L2 controller (R187, R210, R212, R213, R221, R222). That MEM_SCRUB counts a pass as the
index of TRIP[0] wraps is log 35 (the model's reading). -/
def Obligations.ArraysAct : Prop :=
  ∀ (s : State) (cl : ClusterId) (v : Val), s.engines = true → bit s.lk.restarting cl.val = false →
    let l := s.l2Of cl
    let gives (i : Instr) (p : State → Prop) : Prop := ∃ t, exec i s = .next t ∧ p t
    (∀ (t : Fin 8) (stored : Burst) (e : PassingErr),
      let q := (s.eccOf t.val).idx
      let n := 8 * q + t.val
      let moves (p : State → Prop) : Prop := gives (.patrolScrubRead t stored e) fun u =>
        (u.eccOf t.val).idx = (if q + 1 = s.tripLines then 0 else q + 1) ∧
        (t.val = 0 → u.memc.passes = if q + 1 = s.tripLines then (s.memc.passes + 1) % 2 ^ 32 else s.memc.passes) ∧ p u
      moves (fun _ => True) ∧
      (bit s.memc.tfail t.val = true → moves fun u => u.mem = s.mem) ∧
      (∀ j < 8, bit s.memc.tfail t.val = false → stored = {} → e = {} → s.memc.mirLen = 0 → s.dirty n = false →
        imageSig (s.stored n % 2 ^ 744) = signature n → (∀ i < 8, i ≠ j → (decodeWord (s.stored n) i).map Prod.snd = some 0) →
        (∀ w m, decodeWord (s.stored n) j = some (w, m) → 0 < m → moves fun u => u.rd (8 * n + j) = w ∧ u.flawOf n = 0 ∧
          (u.eccOf t.val).corr = ((s.eccOf t.val).corr + m) % 65536) ∧
        (decodeWord (s.stored n) j = none → moves fun u =>
          u.rd (8 * n + j) = ⟨tPOISON, put 6 56 8 ||| put (8 * n + j) 0 36⟩ ∧ u.flawOf n = 0 ∧
          (u.eccOf t.val).pois = ((s.eccOf t.val).pois + 1) % 65536))) ∧
    (∀ (ch : Fin 24) reason, gives (.channelFailed ch reason) fun u => bit u.memc.cfail ch.val = true ∧ bit u.memc.tfail (ch.val / 3) = true ∧
      u.mem = s.mem ∧ (bit s.memc.tfail (ch.val / 3) = false → u.pendBit evMem = true)) ∧
    (l.l2busy = true → l.heldCtl = [] → NoneWait s → gives (.cacheCleanComplete cl) fun u => (u.l2Of cl).l2busy = false ∧ (u.l2Of cl).l1dbusy = 0 ∧
      (u.l2Of cl).slots = [] ∧ (u.l2Of cl).sets = [] ∧ (u.l2Of cl).l1d = [] ∧ (u.l2Of cl).l1c = [] ∧ (u.l2Of cl).lockways = 0 ∧ (PlainStore s → ∀ a, u.rd a = s.rd a)) ∧
    (l.cleaning = false → s.runLock cl = false →
      (∀ on : Bool, gives (.l2en cl on) fun u => bit (u.l2Of cl).ctl 0 = on ∧ (u.l2Of cl).l2busy = (bit l.ctl 0 && !on) ∧ u.mem = s.mem) ∧
      (∀ (k : Fin 8) (on : Bool), gives (.l1den cl k on) (fun u => bit (u.l2Of cl).ctl (8 + k.val) = on ∧ u.mem = s.mem) ∧
        gives (.l1cen cl k on) (fun u => bit (u.l2Of cl).ctl (16 + k.val) = on ∧ u.mem = s.mem) ∧
        gives (.pfen cl k on) (fun u => bit (u.l2Of cl).ctl (24 + k.val) = on ∧ u.mem = s.mem))) ∧
    (l.cleaning = false → s.runLock cl = true → bit l.ctl 0 = true →
      Gives (.l2en cl false) s (s.modL2 cl fun l => { l with refused := min (l.refused + 1) 65535 })) ∧
    (l.cleaning = true → ∀ on : Bool, Gives (.l2en cl on) s
      (s.modL2 cl fun l => { l with heldCtl := l.heldCtl ++ [(.lockkeeper, setFld l.ctl 0 1 on.toNat)] })) ∧
    (s.runLock cl = false → fld v 0 16 = 0 → gives (.l2cLockwaysWrite cl v) fun u => (u.l2Of cl).lockways = 0 ∧ (u.l2Of cl).slots = [] ∧
      (∀ k ∈ l.slots, k.hole = false → (u.l2Of cl).holds k.line = true) ∧ { u with l2 := s.l2 } = s) ∧
    (s.runLock cl = true → Gives (.l2cLockwaysWrite cl v) s (s.modL2 cl fun l => { l with refused := min (l.refused + 1) 65535 })) ∧
    (∀ (i : Fin 64) (id : TaskId), fld v 58 2 ≠ 3 → Gives (.l2cTctxWrite cl i (.bank id) v) s
      (s.modL2 cl fun l => { l with tctx := mset valD l.tctx i.val (v &&& 0x8C00FFF003FFFFFF) })) ∧
    (∀ i : Fin 64, NoEffect (.l2cTctxWrite cl i .host v) s)

/-- Power domains (R370, R371, Tables 17.6 to 17.8). -/
def Obligations.PowerDomainsSwitch : Prop :=
  ∀ (s : State) (v : Val), s.writable = true →
    let d := fld v 0 8
    let refused (r : Nat) : State := s.modPwr fun p => { p with count := min (p.count + 1) 65535, dom := d, reason := r }
    (d < 72 ∨ (200 ≤ d ∧ d < 240) → Gives (.pwrSet v) s (refused 1) ∧ Gives (.pwrClr v) s (refused 1)) ∧
    (240 ≤ d → Gives (.pwrSet v) s (refused 6) ∧ Gives (.pwrClr v) s (refused 6)) ∧
    (72 ≤ d → d < 200 → bit s.pwr.busy d = false → bit s.pwr.on d = false →
      Gives (.pwrSet v) s (s.modPwr fun p => { p with busy := setBit p.busy d true, toOn := setBit p.toOn d true })) ∧
    (72 ≤ d → d < 136 → bit s.pwr.busy d = false → bit s.pwr.on d = true →
      (bit (s.coreOf (coreOfId (8 * (d - 72)))).vown 3 = true → Gives (.pwrClr v) s (refused 3)) ∧
      (bit (s.coreOf (coreOfId (8 * (d - 72)))).vown 3 = false → s.weir.runSt ≠ .stopped →
        (∃ u ∈ s.weir.tasks, u.args.vector = true ∧ u.args.id.val / 8 = d - 72) → Gives (.pwrClr v) s (refused 2)) ∧
      (bit (s.coreOf (coreOfId (8 * (d - 72)))).vown 3 = false → s.weir.runSt = .stopped →
        Gives (.pwrClr v) s (s.modPwr fun p => { p with busy := setBit p.busy d true, toOn := setBit p.toOn d false }))) ∧
    (NoneWait s → ∀ (e : Fin 240), bit s.pwr.busy e.val = true → mget wantD s.pwr.want e.val = none →
      let done (p : State → Prop) : Prop := ∃ t, exec (.powerTransitionComplete e) s = .next t ∧ bit t.pwr.on e.val = bit s.pwr.toOn e.val ∧
        bit t.pwr.busy e.val = false ∧ t.banks = s.banks ∧ p t
      ((e.val < 72 ∨ 136 ≤ e.val) → bit s.pwr.toOn e.val = true → done fun t => { t with pwr := s.pwr } = s) ∧
      (∀ c : CoreId, e.val = 72 + c.val → done fun t => (t.coreOf c).vstat = 0 ∧ (t.coreOf c).vown = (s.coreOf c).vown ∧ t.mem = s.mem ∧
        ∀ c', c' ≠ c → t.coreOf c' = s.coreOf c'))

/-! ### Registers and the mailbox -/

/-- Host register and slot writes (R6, R322 to R325, R331, R332): the enabled bytes of a free command slot, doorbells, the mailbox registers, BAR_2
and its staging, which the read of MBX_B2SYNC drains with every posted write behind it. A core's FIX write of MBX_CTL, MBX_DOORBELL and
MBX_RSPHEAD has no effect (log 30); R6 discards a word that is not FIX. -/
def Obligations.WharfWritesAct : Prop :=
  ∀ (s : State) (v : Val), s.hostReach = true →
    let m := s.mbx
    (m.held ≠ [] → ∀ off bs, Gives (.bar2Write off bs) s (s.modMbx fun m => { m with held := m.held ++ [.bar2 off bs] }) ∧
      Gives (.mbxDoorbell v) s (s.modMbx fun m => { m with held := m.held ++ [.reg 0x18 8 v] }) ∧
      ∀ tag, Gives (.haltAll tag) s (s.modMbx fun m => { m with held := m.held ++ [.prio 0x0F01 tag 0] })) ∧
    (∀ off bs, m.held = [.bar2 off bs] → off + bs.length ≤ 0x1000000 → bs.length ≤ 1048576 → ∃ t, exec .mbxB2sync s = .next t ∧
      t.mbx.held = [] ∧ t.mbx.staging = [] ∧ t.out = .readDone 0x58 (List.replicate 8 0) :: s.out ∧
      ∀ i < bs.length, mget byteD t.mbx.bar2 (off + i) = bs.getD i 0) ∧
    (m.held = [] →
    let becomes (i : Instr) (f : Mbx → Mbx) : Prop := Gives i s (s.modMbx f)
    let k := fld v 0 5
    let slot (o n : Nat) : Nat := leNat ((List.range n).map fun i => mget byteD m.slots (0x4000 + 256 * k + o + i))
    (∀ (j : Fin 32) (off : Nat) (bs : List (Option Byte)), bs.length ≤ 64 → off + bs.length ≤ 256 →
      (bit m.slotbusy j.val = true → becomes (.commandSlotWrite j off bs) fun m => { m with slotwr := min (m.slotwr + 1) 65535 }) ∧
      (bit m.slotbusy j.val = false → ∃ t, exec (.commandSlotWrite j off bs) s = .next t ∧
        (∀ i < bs.length, mget byteD t.mbx.slots (0x4000 + 256 * j.val + off + i) =
          (bs.getD i none).getD (mget byteD m.slots (0x4000 + 256 * j.val + off + i))) ∧
        (∀ a, (a < 0x4000 + 256 * j.val + off ∨ 0x4000 + 256 * j.val + off + bs.length ≤ a) →
          mget byteD t.mbx.slots a = mget byteD m.slots a) ∧ { t with mbx := { t.mbx with slots := m.slots } } = s)) ∧
    (bit m.slotbusy k = false → m.en = true → s.lk.st = .ready →
      let args := (List.range (min (slot 8 4) 224)).map fun i => mget byteD m.slots (0x4000 + 256 * k + 32 + i)
      becomes (.mbxDoorbell v) fun m => { m with slotbusy := setBit m.slotbusy k true, queue := m.queue ++ [⟨k, slot 0 2, BitVec.ofNat 32 (slot 4 4), BitVec.ofNat 64 (slot 16 8), slot 24 4, args⟩] }) ∧
    (bit m.slotbusy k = true ∨ m.en = false ∨ s.lk.st ≠ .ready →
      becomes (.mbxDoorbell v) fun m => { m with dbign := min (m.dbign + 1) 65535 }) ∧
    (m.rspWait = [] → bit v 63 = true → 6 ≤ m.log2n.toNat → m.log2n.toNat ≤ 12 → m.en = false →
      becomes (.mbxCtlWrite v) fun m => { m with en := true, rspirq := bit v 62, rspvec := BitVec.ofNat 8 v.toNat, head := 0, tail := 0 }) ∧
    (m.en = false → becomes (.mbxRspbaseWrite v) (fun m => { m with rspbase := v &&& 0xFFFFFFFFFFFFF000 }) ∧
      becomes (.mbxRspcfgWrite v) (fun m => { m with log2n := BitVec.ofNat 4 v.toNat }) ∧
      becomes (.mbxRsptaddrWrite v) (fun m => { m with rsptaddr := v &&& 0xFFFFFFFFFFFFFFF8 })) ∧
    (m.en = true → NoEffect (.mbxRspbaseWrite v) s ∧ NoEffect (.mbxRspcfgWrite v) s ∧ NoEffect (.mbxRsptaddrWrite v) s) ∧
    (m.rspWait = [] → (m.tail - BitVec.ofNat 32 v.toNat).toNat ≤ 2 ^ m.log2n.toNat →
      becomes (.mbxRspheadWrite v) fun m => { m with head := BitVec.ofNat 32 v.toNat }) ∧
    (2 ^ m.log2n.toNat < (m.tail - BitVec.ofNat 32 v.toNat).toNat → NoEffect (.mbxRspheadWrite v) s) ∧
    (becomes (.mbxWinselWrite .host v) fun m => { m with winsel := mset wselD m.winsel 512 (BitVec.ofNat 3 v.toNat) }) ∧
    (∃ t, exec .mbxB2sync s = .next t ∧ t.mbx.staging = [] ∧ t.out = .readDone 0x58 (List.replicate 8 0) :: s.out ∧
      (∀ old off bs, m.staging = old ++ [(off, bs)] → ∀ i < bs.length, mget byteD t.mbx.bar2 (off + i) = bs.getD i 0) ∧
      (∀ a, (∀ w ∈ m.staging, a < w.1 ∨ w.1 + w.2.length ≤ a) → mget byteD t.mbx.bar2 a = mget byteD m.bar2 a) ∧
      { t with mbx := { t.mbx with bar2 := m.bar2, staging := m.staging }, out := s.out } = s) ∧
    (∀ off bs, 1048576 < s.stagedBytes + bs.length →
      becomes (.bar2Write off bs) fun m => { m with held := [.bar2 off bs] }) ∧
    (∀ off bs, off + bs.length ≤ 0x1000000 → s.stagedBytes + bs.length ≤ 1048576 →
      becomes (.bar2Write off bs) fun m => { m with staging := m.staging ++ [(off, bs)] }) ∧
    (∀ w : Word, isFix w = true → s.weir.runSt = .stopped →
      Gives (.registerWrite .host 0x828 8 w) s (s.modLk fun l => { l with degrade := bit w.val 63, autorun := bit w.val 62 })) ∧
    (∀ (w : Word) (id : TaskId), isFix w = false → s.writable = true → NoEffect (.registerWrite (.bank id) 0x50 8 w) s) ∧
    (∀ (w : Word) (id : TaskId), isFix w = true → s.writable = true → Gives (.registerWrite (.bank id) 0x50 8 w) s
      (s.modMbx fun m => { m with winsel := mset wselD m.winsel id.val (BitVec.ofNat 3 w.val.toNat) })) ∧
    (∀ (w : Word) (id : TaskId), s.writable = true → NoEffect (.registerWrite (.bank id) 0x08 8 w) s ∧
      NoEffect (.registerWrite (.bank id) 0x18 8 w) s ∧ NoEffect (.registerWrite (.bank id) 0x38 8 w) s))

/-- The three priority commands act whatever MBX_CTL.EN is, and are answered with the count of MBX_PSTAT (R35, R264, R328, R329). -/
def Obligations.PriorityCommandsAct : Prop :=
  ∀ (s : State) (tag : BitVec 32) (groups : BitVec 8), s.hostReach = true → s.mbx.held = [] → s.mbx.en = false →
    let done (i : Instr) (op : Nat) (p : State → Prop) : Prop :=
      ∃ t, exec i s = .next t ∧ t.mbx.pcount = s.mbx.pcount + 1 ∧ t.mbx.pop = op ∧ t.mem = s.mem ∧ p t
    (done (.haltAll tag) 0x0F01 fun t => t.mbx.pstatus = 0 ∧ t.mbx.halted = true ∧ (∀ c, (t.coreOf c).run ≠ .running) ∧
      (∀ c < 64, (t.chanOf c).st = .stopped) ∧ (∀ k, (t.streamOf k).stag = []) ∧ t.sil.permit = t.permitHigh) ∧
    (s.weir.runSt = .running → done (.stopRun tag) 0x0F02 fun t => t.mbx.pstatus = 0 ∧ t.weir.runSt = .stopping ∧ t.weir.stopCause = 1) ∧
    (s.weir.runSt = .stopped → done (.stopRun tag) 0x0F02 fun t => t.mbx.pstatus = 0 ∧ t.weir = s.weir) ∧
    (groups.toNat % 16 ≠ 0 → done (.guardAbort tag groups) 0x0F03 fun t => t.mbx.pstatus = 0 ∧
      (∀ g < 4, bit t.sil.aborted g = (bit s.sil.aborted g || bit groups g)) ∧ t.sil.src = 3) ∧
    (groups.toNat % 16 = 0 → done (.guardAbort tag groups) 0x0F03 fun t => t.mbx.pstatus = 2 ∧ t.sil = s.sil)

/-! ### Imeimin commands -/

/-- Taking a command (R325 to R327): the host's command leaves its slot free, a core's its send queue; with the response ring full no
host command begins. A row that may not execute changes nothing but its answer (R334, Table 15.9). -/
def Obligations.CommandsAreTaken : Prop :=
  ∀ (s : State), s.on = true → s.dbg.frozen = false → s.lk.st = .ready →
    (∀ q rest, s.mbx.queue = q :: rest → s.nextSource = some 0 → s.take (.host q.tag q.outAddr q.outLen) q.op = some
      (((s.modLk fun l => { l with turn := 0 }).modMbx fun m => { m with queue := rest, slotbusy := setBit m.slotbusy q.slot false }).modLk fun l =>
        { l with argBytes := q.args, argWords := [] })) ∧
    (∀ (c : CoreId) q rest a, (s.coreOf c).sendq = q :: rest → q.nw = 0 → s.nextSource = some (c.val + 1) → s.take (.towpath c q.tag a) q.op = some
      (((s.modLk fun l => { l with turn := c.val + 1 }).modCore c fun x => { x with sendq := rest }).modLk fun l =>
        { l with argBytes := [], argWords := [] })) ∧
    (∀ (c : CoreId) q rest a s1, (s.coreOf c).sendq = q :: rest → s.take (.towpath c q.tag a) q.op = some s1 →
      s1.lk.argWords.length = q.nw ∧ (s1.coreOf c).sendq = rest) ∧
    (s.hostBusy = true → ∀ tag a n op, s.take (.host tag a n) op = none) ∧
    (s.ringFull = true → ∀ tag a n op, s.take (.host tag a n) op = none) ∧
    (∀ src op s1, s.take src op = some s1 →
      (op = 0x0103 → fromHost src = false → ∀ a b ts, Gives (.memWrite src a b ts) s (s1.answer src op .denied)) ∧
      (op = 0x0401 → fromHost src = false → ∀ a, Gives (.poundConfig src a) s (s1.answer src op .denied)) ∧
      (op = 0x0501 → fromHost src = false → Gives (.runStart src) s (s1.answer src op .denied)) ∧
      (op = 0x0B01 → fromHost src = false → ∀ on, Gives (.freezeArm src on) s (s1.answer src op .denied)) ∧
      (op = 0x0C02 → fromHost src = false → Gives (.deviceReset src) s (s1.answer src op .denied)) ∧
      (op = 0x0103 → fromHost src = true → s1.dbg.held = true → ∀ a b ts, Gives (.memWrite src a b ts) s (s1.answer src op .notReady)) ∧
      (op = 0x0301 → s1.dbg.held = true → ∀ a, s.spellsAdmit src a = true → Gives (.taskAdmit src a) s (s1.answer src op .notReady)) ∧
      (op = 0x0601 → fromHost src = true → s1.dbg.held = false → s1.weir.runSt ≠ .stopped →
        ∀ n v, Gives (.linkConfig src n v) s (s1.answer src op .runActive)) ∧
      (op = 0x0801 → fromHost src = true → s1.dbg.held = false → s1.weir.runSt ≠ .stopped →
        ∀ a, Gives (.manSetup src a) s (s1.answer src op .runActive)) ∧
      (op = 0x0502 → fromHost src = true → s1.dbg.held = false → s1.weir.runSt = .stopped →
        Gives (.runStop src) s (s1.answer src op .runActive)))

/-- The answer (R327, R339, R340): an entry of the response ring, the tail word and RSPTAIL, or an inbox entry of the core; a code that no row
has is answered E_BAD_OP. That values take 8 bytes each is log 15, that answers wait while the ring is disabled log 31 (the model's choices). The six reads of Table 15.13 and the refused write (R338). The layout of the STATE read is the model's choice (log 38), as are the polynomial of
the packet error code (log 59) and that the target answers whenever the device is on and its clocks run (log 50); temperatures are free
values. -/
def Obligations.AnswersReachTheirSource : Prop :=
  (∀ (s : State),
    (∀ tag a n op (e : Err) vs ws, let m := s.mbx
      m.en = true → s.ringFull = false → s.pins.linkUp = true → m.rspWait = [] → m.rspirq = false → 8 * vs.length + 9 * ws.length ≤ 48 →
      s.answer (.host tag a n) op e vs ws = ((s.emit (.hostWrite (m.rspbase.toNat + 64 * (m.tail.toNat % 2 ^ m.log2n.toNat))
        (leBytes 4 tag.toNat ++ leBytes 2 op ++ leBytes 2 e.code ++ List.replicate 8 0 ++
          fit 48 ((vs.flatMap fun v => leBytes 8 v.toNat) ++ serialise ws)))).emit (.hostWrite m.rsptaddr.toNat
          (leBytes 8 (m.tail + 1).toNat))).modMbx fun m => { m with tail := m.tail + 1 }) ∧
    -- a longer result goes to OUTADDR ahead of its entry
    (∀ tag a n op vs, let m := s.mbx
      m.en = true → s.ringFull = false → s.pins.linkUp = true → m.rspWait = [] → m.rspirq = false → 48 < 8 * vs.length → 8 * vs.length ≤ n →
      s.answer (.host tag a n) op .ok vs = (((s.emit (.hostWrite a.toNat (valBytes vs))).emit (.hostWrite
        (m.rspbase.toNat + 64 * (m.tail.toNat % 2 ^ m.log2n.toNat)) (leBytes 4 tag.toNat ++ leBytes 2 op ++ leBytes 2 0 ++
          leBytes 4 (8 * vs.length) ++ List.replicate 4 0 ++ fit 48 []))).emit (.hostWrite m.rsptaddr.toNat
          (leBytes 8 (m.tail + 1).toNat))).modMbx fun m => { m with tail := m.tail + 1 }) ∧
    -- nothing is written while the ring is disabled or full or the link down: result and entry wait
    (s.mbx.en = false ∨ s.ringFull = true ∨ s.pins.linkUp = false →
      let waits (i : State) (r : Response) : Prop := i = s.modMbx fun m => { m with rspWait := m.rspWait ++ [r] }
      (∀ tag a n op (e : Err) vs ws, 8 * vs.length + 9 * ws.length ≤ 48 → waits (s.answer (.host tag a n) op e vs ws)
        { tag := tag, op := op, status := e.code, outAddr := a.toNat, result := valBytes vs ++ serialise ws }) ∧
      ∀ tag a n op vs, 48 < 8 * vs.length →
        (8 * vs.length ≤ n → waits (s.answer (.host tag a n) op .ok vs) { tag := tag, op := op, status := 0, outAddr := a.toNat, out := valBytes vs }) ∧
        (n < 8 * vs.length → waits (s.answer (.host tag a n) op .ok vs) { tag := tag, op := op, status := 2, outAddr := a.toNat })) ∧
    (∀ (c : CoreId) tag a op (e : Err) vs, s.lk.tpWait = [] → (s.coreOf c).inbox.length < 4 → vs.length ≤ 7 →
      ((s.answer (.towpath c tag a) op e vs).coreOf c).inbox =
        (s.coreOf c).inbox ++ [fix (put op 0 16 ||| put e.code 16 16 ||| put tag.toNat 32 32) :: padWords 7 (vs.map fix)]) ∧
    (∀ src (op : BitVec 16) s1, opCodes.contains op.toNat = false → s.take src op.toNat = some s1 →
      Gives (.badOpCommand src op) s (s1.answer src op.toNat .badOp)) ∧
    (Err.badOp.code = 1 ∧ Err.arg.code = 2 ∧ Err.notReady.code = 4 ∧ Err.denied.code = 5 ∧ Err.runActive.code = 7)) ∧
  (∀ (s : State), s.on = true → s.dbg.frozen = false →
    let answers (i : Instr) (cmd : Byte) (bs : List Byte) : Prop :=
      let addr : Byte := (0x58 + s.smb.strap.setWidth 8) <<< 1
      let n := BitVec.ofNat 8 bs.length
      Gives i s (s.emit (.smbus (n :: bs ++ [pec ([addr, cmd, addr ||| 1, n] ++ bs)])))
    answers .smbusStateRead 0 s.smb.state ∧ answers .smbusPoundRead 1 (leBytes 8 s.smb.pound.toNat) ∧
    answers .smbusMsnRead 2 (leBytes 8 s.smb.next ++ leBytes 8 s.smb.durable) ∧ answers .smbusThermalRead 3 s.smb.thermal ∧
    answers .smbusBbxRead 4 (leBytes 8 s.smb.bbx.toNat) ∧ answers .smbusIdRead 5 (leBytes 8 s.smb.id.toNat) ∧
    (s.syncPermit.smb.state = [s.lk.st.code, s.weir.runSt.code, fld s.syncPermit.silStat 57 7, s.man.st.code,
      (s.cores.any fun kc => kc.2.run == .lockup).toNat, s.mbx.halted.toNat].map (BitVec.ofNat 8) ++ [0, 0]) ∧
    (let t := s.smbSnap
     t.smb.state = s.smbState ∧ t.smb.pound = s.now ∧ t.smb.next = s.man.next ∧ t.smb.durable = s.man.durable ∧ t.smb.bbx = s.bbxLast ∧
      t.smb.id = s.lkpId ∧ t.smb.thermal.length = 34 ∧ (s.smb.state ≠ s.smbState → s.smbSync = t)) ∧
    ∀ x, Gives (.smbusWriteNack x) s (s.emit .smbusNack))

/-- The commands that read (Table 15.9). The layout of results of several values is log 15 and that of a black-box entry's bytes log 20 (the
model's choices); a towpath command runs as the one that its argument block spells (R339, log 15). -/
def Obligations.ReadCommandsComplete : Prop :=
  ∀ (s s1 : State) (src : Src),
    let taken (op : Nat) : Prop := s.take src op = some s1
    let host : Prop := fromHost src = true
    let sends (i : Instr) (op : Nat) (bs : List Byte) (vs : List Val) : Prop :=
      s1.outFits src bs.length = true → Gives i s (s1.entry src op 0 (valBytes vs) bs false)
    (taken 0x0001 → Gives (.identify src) s (s1.answerBytes src 0x0001 0 ([0xA1, 0] ++ leBytes 2 s1.lk.romver.toNat ++ leBytes 1 s1.lk.patch ++
      leBytes 4 s1.lk.patchSeq ++ leBytes 8 s1.vault.serial.toNat ++ leBytes 1 (fld s1.memc.cfg 0 8) ++ leBytes 1 (fld s1.memc.cfg 16 8) ++
      leBytes 1 s1.pins.width ++ leBytes 1 s1.pins.speed ++ (List.range 8).map fun cl => if bit s1.lk.spareUsed cl then 0 else 1))) ∧
    (taken 0x0002 → Gives (.status src) s (s1.answer src 0x0002 .ok
      [s1.weiRead 5, s1.manRead 8, s1.silStat, s1.mbxStat, s1.failedCores, s1.failedLanes])) ∧
    (taken 0x0203 → s.spells src [outArg src] = true → sends (.ucodeStatus src) 0x0203 ((List.range 32).flatMap fun n => leBytes 8 (mget valD s1.lk.cxd n).toNat) []) ∧
    (taken 0x0303 → ∀ id, s.spells src [(64, id)] = true → (∀ t, s1.taskOf id = some t → Gives (.taskQuery src id) s (s1.answerBytes src 0x0303 0 (taskBytes t.args))) ∧
      (s1.taskOf id = none → Gives (.taskQuery src id) s (s1.answer src 0x0303 .arg))) ∧
    (taken 0x0901 → ∀ first count, s.spells src [(64, first), (64, count), outArg src] = true → count ≤ 16384 → let es := (s1.bbx.from_ first).take count
      sends (.bbxRead src first count) 0x0901 (es.flatMap BbxEntry.bytes)
        [BitVec.ofNat 64 (match es.getLast? with | some e => e.index + 1 | none => max first s1.bbx.oldest), BitVec.ofNat 64 s1.bbx.nextIx]) ∧
    (taken 0x0A01 → s.spells src [outArg src] = true → s1.cal.valid = true → sends (.calRead src) 0x0A01 s1.cal.bytes [s1.cal.crc.setWidth 64]) ∧
    (taken 0x0A03 → ∀ off n, s.spells src [(64, off), (64, n), outArg src] = true → n ≤ 1048576 → off + n ≤ 15300558848 → s1.vault.failed = 0 →
      sends (.vaultRead src off n) 0x0A03 ((List.range n).map fun i => mget byteD s1.vault.user (off + i)) []) ∧
    (taken 0x0104 → host → s1.dbg.held = false → PlainStore s1 → ∀ a n, s1.rangeOk a n = true →
      sends (.memRead src a n) 0x0104 (serialise ((List.range n).map fun i => s1.rd (a + i))) []) ∧
    (taken 0x0D01 → host → s1.dbg.held = false → s1.weir.runSt = .stopped → ∀ mask, ∃ pass : Val, (∀ k, bit pass k = true → bit mask k = true) ∧
      Gives (.selfTest src mask) s (s1.fresh.2.answer src 0x0D01 .ok [pass]))

/-- The commands that use memory and manage frame tasks and messages (R38, R47, R49, R66, R69, R82, R335). A towpath command, and TASK_ADMIT in a
slot, runs as the one that its arguments spell (R339, log 15); which error `admitErr` gives where several causes hold is the order of log 40,
that TASK_REPLY's own answer is not staged log 52 (the model's choices). -/
def Obligations.MemoryAndTaskCommandsComplete : Prop :=
  ∀ (s s1 : State) (src : Src), s1.dbg.held = false → PlainStore s1 →
    let taken (op : Nat) : Prop := s.take src op = some s1
    let host : Prop := fromHost src = true
    let gives (i : Instr) (p : State → Prop) : Prop := ∃ t, exec i s = .next t ∧ p t
    let writes (t : State) (a : Nat) (ws : List Word) : Prop :=
      (∀ i < ws.length, t.rd (a + i) = ws.getD i unbound) ∧ ∀ x, (x < a ∨ a + ws.length ≤ x) → t.rd x = s1.rd x
    (taken 0x0101 → ∀ n al raw, s.spells src [(64, n), (64, al), (1, raw.toNat)] = true → 0 < n → 8 ≤ al → isPow2 al = true →
      (∀ f, s1.firstFit n al = some f → gives (.memAlloc src n al raw) fun t => ∃ a, a % al = 0 ∧ s1.placeFree a n = true ∧
        t.lk.allocs = s1.lk.allocs ++ [(a, n)] ∧ t.mem = s1.mem) ∧
      (s1.firstFit n al = none → Gives (.memAlloc src n al raw) s (s1.answer src 0x0101 .noMem))) ∧
    (taken 0x0102 → ∀ a n, s.spells src [(64, a)] = true → s1.lk.allocs = [(a, n)] →
      (s1.weir.tasks.all (fun t => !spansMeet a n t.args.carryBase 32) = true →
        Gives (.memFree src a) s ((s1.modLk fun l => { l with allocs := [] }).answer src 0x0102 .ok)) ∧
      (s1.weir.tasks.any (fun t => spansMeet a n t.args.carryBase 32) = true → Gives (.memFree src a) s (s1.answer src 0x0102 .busy))) ∧
    (taken 0x0103 → host → ∀ a b bs ts, s1.b2Bytes src b = .ok bs → serialOk bs = true → s1.rangeOk a (deserialise bs).length = true →
      (∀ w ∈ deserialise bs, w.tag ∈ ts) → gives (.memWrite src a b ts) fun t => writes t a (deserialise bs)) ∧
    (taken 0x0103 → host → ∀ a b bs ts, s1.b2Bytes src b = .ok bs → serialOk bs = true → s1.rangeOk a (deserialise bs).length = true →
      (∃ w ∈ deserialise bs, w.tag ∉ ts) → Gives (.memWrite src a b ts) s (s1.answer src 0x0103 .tag)) ∧
    (taken 0x0201 → host → s1.weir.runSt = .stopped → ∀ a b bs, s1.b2Bytes src b = .ok bs → bs.length % 8 = 0 →
      s1.rangeOk a (bs.length / 8) = true → gives (.codeLoad src a b) fun t =>
        writes t a ((List.range (bs.length / 8)).map fun k => ⟨tCODE, BitVec.ofNat 64 (leAt bs (8 * k) 8)⟩)) ∧
    (taken 0x0301 → ∀ a, s.spellsAdmit src a = true → let n := (valBytes (s1.admitReport a)).length
      s1.admitErr a = none → s1.resultFits src n = true →
      (∀ c tag oa, src = .towpath c tag oa → n ≤ 56 ∨ spansMeet oa.toNat ((n + 7) / 8) a.carryBase 32 = false) → gives (.taskAdmit src a) fun t =>
      (∃ k, t.taskOf a.id.val = some k ∧ k.args = a ∧ (s1.weir.runSt = .stopped → k.phase = .waiting) ∧ (s1.weir.runSt ≠ .stopped → k.phase = .joining 2)) ∧
      (t.ctx a.id.val).frame = true ∧ (t.ctx a.id.val).prio = a.prio ∧ (t.ctx a.id.val).st = .waitt ∧ t.rd (a.carryBase + 1) = cref a.entry ∧
      t.rd (a.carryBase + 2) = fix a.psw ∧ t.rd (a.carryBase + 3) = fix a.winpos ∧ (t.tstatOf a.id.val).adm = true) ∧
    (taken 0x0301 → ∀ a e, s.spellsAdmit src a = true → s1.admitErr a = some e → Gives (.taskAdmit src a) s (s1.answer src 0x0301 e)) ∧
    (taken 0x0302 → ∀ (id : TaskId) k, s.spells src [(64, id.val)] = true → s1.taskOf id.val = some k →
      (s1.weir.runSt = .stopped → gives (.taskWithdraw src id.val) fun t => t.isFrame id.val = false ∧ (t.ctx id.val).frame = false ∧
        (t.ctx id.val).st = .idle ∧ (t.ctx id.val).prio = (s1.ctx id.val).prio ∧ t.mem = s1.mem) ∧
      (s1.weir.runSt ≠ .stopped → gives (.taskWithdraw src id.val) fun t =>
        ∃ j, t.taskOf id.val = some j ∧ j.leaving = true ∧ j.phase = k.phase)) ∧
    (taken 0x0304 → host → ∀ (id : TaskId) n ws, s.carriesWords src ws = true → ws.length ≤ 6 → s1.lk.tpWait = [] → (s1.coreOf (coreOfId id.val)).inbox.length < 4 →
      gives (.taskMsg src id.val n ws) fun t => t.lk.msgs = s1.lk.msgs ++ [⟨src, srcTag src, id.val, n⟩] ∧
        (t.coreOf (coreOfId id.val)).inbox = (s1.coreOf (coreOfId id.val)).inbox ++
          [inboxHeader 0x0304 0 (srcTag src) :: padWords 7 (fixN (id.val % 8) :: ws)]) ∧
    (taken 0x0305 → ∀ (c : CoreId) tag oa ht (b : Fin 8) ws q, src = .towpath c tag oa → s.headMsg src = some q → q.bank = b →
      s.carriesWords src ws = true → s.spells src [(32, ht.toNat)] = true → ws.length ≤ 5 →
      (s1.isFrame (bk c b) = true → Gives (.taskReply src ht b ws) s
        ((s1.modLk fun l => { l with replies := l.replies ++ [⟨bk c b, ht, ws, q.pound, q.dead⟩] }).answer src 0x0305 .ok)) ∧
      (∀ m, s1.isFrame (bk c b) = false → s1.lk.msgs = [m] → m.tag = ht → Gives (.taskReply src ht b ws) s
        (((s1.modLk fun l => { l with msgs := [] }).answer m.src 0x0304 .ok [] ws).answer src 0x0305 .ok))) ∧
    (∀ m, s.on = true → s.dbg.frozen = false → s.lk.st = .ready → s.lk.msgs = [m] → m.left = 0 →
      Gives (.taskMsgTimeout m.tag) s ((s.modLk fun l => { l with msgs := [] }).answer m.src 0x0304 .taskTimeout))

/-- The commands that configure the pound, the run, links, streams, the guard and the manifest (R27, R34, R36, R237, R249, R257, R269, R270, R316).
What each copy of the commit word holds after MAN_SETUP is log 63, MAN_DURABLE = 0 then log 34, and the error of a RUN_START for which several
causes hold the order of log 37 (the model's choices). -/
def Obligations.ConfigurationCommandsComplete : Prop :=
  ∀ (s s1 : State) (src : Src), s1.dbg.held = false → fromHost src = true →
    let taken (op : Nat) : Prop := s.take src op = some s1
    let gives (i : Instr) (p : State → Prop) : Prop := ∃ t, exec i s = .next t ∧ p t
    (taken 0x0502 → s1.weir.runSt = .running → gives (.runStop src) fun t => t.weir.runSt = .stopping ∧ t.weir.stopCause = 0 ∧ t.weir.pound = s1.weir.pound) ∧
    (taken 0x0603 → ∀ (n : LinkId) wr a k vs, (s.linkOf n.val).ctl = none → 0 < k → k ≤ 12 → (wr = true → vs.length = k) →
      s1.resultFits src (if wr then 0 else 8 * k) = true →
      gives (.feAccess src n wr a k vs) fun t => (t.linkOf n.val).ctlSeq = (s1.linkOf n.val).ctlSeq + 1 ∧
        ∃ q, (t.linkOf n.val).ctl = some q ∧ q.src = src ∧ q.seq = (s1.linkOf n.val).ctlSeq ∧ q.attempts = 1 ∧ q.cell.typ = 6 ∧ q.reads = (if wr then 0 else k) ∧
          q.cell.payload = ctlPayload wr.toNat q.seq.toNat a.toNat k 0 (if wr then vs else []) ∧
          (t.linkOf n.val).waitq = (s1.linkOf n.val).waitq ++ [q.cell]) ∧
    (s1.weir.runSt = .stopped →
      (taken 0x0401 → ∀ a, s1.poundErr a = none → gives (.poundConfig src a) fun t => t.weir.len = a.p ∧ t.weir.din = a.din ∧
        t.weir.dout = a.dout ∧ t.weir.src = a.src ∧ t.weir.edge = a.edge ∧ t.weir.tol = a.tol ∧ t.weir.synlim = a.synlim ∧ t.weir.outen = a.outen ∧
        t.weir.earlycnt = 0 ∧ t.weir.syncnt = 0 ∧ t.weir.ticking = true ∧ t.weir.ccap = (a.dout - a.din) * s1.linesPer ∧ t.mem = s1.mem) ∧
      (taken 0x0401 → ∀ a, poundOk a = false → Gives (.poundConfig src a) s (s1.answer src 0x0401 .poundParam)) ∧
      (taken 0x0501 → s1.dbg.level ≠ 2 → s1.lk.patch ≠ 3 → 0 < s1.weir.len → s1.cal.valid = true → (s1.cores.all fun kc => kc.2.run != .halted) = true → s1.sil.armed = true →
        s1.man.st = .opened → gives (.runStart src) fun t => t.weir.runSt = .starting ∧ t.weir.first = s1.weir.pound + 2 ∧ t.weir.startIn = 2 ∧
          t.lk.runDegrade = s1.lk.degrade ∧ t.lk.runAutorun = s1.lk.autorun) ∧
      (taken 0x0501 → s1.dbg.level = 2 → Gives (.runStart src) s (s1.answer src 0x0501 .denied)) ∧
      (taken 0x0501 → s1.dbg.level ≠ 2 → s1.lk.patch ≠ 3 → 0 < s1.weir.len → s1.cal.valid = true → (s1.cores.all fun kc => kc.2.run != .halted) = true → s1.sil.armed = false →
        Gives (.runStart src) s (s1.answer src 0x0501 .guardUnarmed)) ∧
      (taken 0x0601 → ∀ (n : LinkId) v, s1.linkErr n.val (v &&& lcfgMask) = none → gives (.linkConfig src n v) fun t =>
        (t.linkOf n.val).lcfg = v &&& lcfgMask ∧ (bit v 63 = false → (t.linkOf n.val).st = .down) ∧ (bit v 63 = true → (t.linkOf n.val).st = .train) ∧
        (t.linkOf n.val).crcerr = 0 ∧ (t.linkOf n.val).drvdisc = 0 ∧ ∀ m, m ≠ n.val → t.linkOf m = s1.linkOf m) ∧
      (taken 0x0602 → ∀ (k : StreamId) a b c, s1.streamErr k.val (a &&& scfgMask) (geomWith (a &&& scfgMask) b) c = none →
        gives (.streamConfig src k a b c) fun t => (t.streamOf k.val).scfg = a &&& scfgMask ∧
          (t.streamOf k.val).sgeom = geomWith (a &&& scfgMask) b ∧ (t.streamOf k.val).sbase = c &&& 0xFFFFFFFFF ∧
          ∀ j, j ≠ k.val → t.streamOf j = s1.streamOf j) ∧
      -- a DRIVE stream has 1 to 4,096 channels, a BULK stream none; neither is logged or has a first channel (Tables 11.17, 11.18)
      (taken 0x0602 → ∀ (k : StreamId) a b c, sKind a ≠ 0 →
        ((sKind a = 1 ∧ (sNch a = 0 ∨ 4096 < sNch a)) ∨ (2 ≤ sKind a ∧ sNch a ≠ 0) ∨ sLog a = true ∨ gFirst b ≠ 0) →
        Gives (.streamConfig src k a b c) s (s1.answer src 0x0602 .linkParam)) ∧
      (taken 0x0701 → s1.sil.armed = true → ∀ f, Gives (.guardLoad src f) s (s1.answer src 0x0701 .guardArmed)) ∧
      (taken 0x0701 → s1.sil.armed = false → ∀ first b bs, s1.b2Bytes src b = .ok bs → bs.length % 16 = 0 → first + bs.length / 16 ≤ 16384 →
        (∀ e ∈ entriesOf bs, e.ok = true) → gives (.guardLoad src (.entries first b)) fun t => t.sil.loaded = true ∧
          (∀ i < bs.length / 16, mget entryD t.sil.entries (first + i) = ⟨BitVec.ofNat 64 (leAt bs (16 * i) 8), BitVec.ofNat 64 (leAt bs (16 * i + 8) 8)⟩) ∧
          ∀ j, (j < first ∨ first + bs.length / 16 ≤ j) → mget entryD t.sil.entries j = mget entryD s1.sil.entries j) ∧
      -- the safe profile of a link (R267, R269): FRAMES frames, one value for each channel of its drive streams
      (taken 0x0701 → s1.sil.armed = false → ∀ (n : LinkId) frames b bs, s1.b2Bytes src b = .ok bs → let nval := frames * (s1.frameSizes n.val).length
        (frames ≤ 4096 → nval ≤ 4096 → bs.length = frames * (s1.frameSizes n.val).foldl (· + ·) 0 →
          gives (.guardLoad src (.profile n frames b)) fun t => t.sil.loaded = true ∧ mget profD t.sil.prof n.val = ⟨frames, nval, bs⟩ ∧
            (∀ m, m ≠ n.val → mget profD t.sil.prof m = mget profD s1.sil.prof m) ∧ t.sil.entries = s1.sil.entries ∧ t.sil.grp = s1.sil.grp) ∧
        (4096 < nval → Gives (.guardLoad src (.profile n frames b)) s (s1.answer src 0x0701 .guardParam))) ∧
      -- the group words SIL_GRP[0] to SIL_GRP[3] (Table 12.5)
      (taken 0x0701 → s1.sil.armed = false → ∀ b bs, s1.b2Bytes src b = .ok bs → bs.length = 32 →
        ((∀ g < 4, fld (BitVec.ofNat 64 (leAt bs (8 * g) 8)) 24 37 = 0) → gives (.guardLoad src (.groups b)) fun t => t.sil.loaded = true ∧
          (∀ g < 4, mget valD t.sil.grp g = BitVec.ofNat 64 (leAt bs (8 * g) 8)) ∧ t.sil.entries = s1.sil.entries ∧ t.sil.prof = s1.sil.prof) ∧
        ((∃ g < 4, fld (BitVec.ofNat 64 (leAt bs (8 * g) 8)) 24 37 ≠ 0) →
          Gives (.guardLoad src (.groups b)) s (s1.answer src 0x0701 .guardParam))) ∧
      (taken 0x0702 → gives (.guardPrepare src) fun t => t.sil.armed = false ∧ t.sil.permit = false ∧ t.sil.cfgcrc = crc32c s1.guardBytes ∧
        (∃ v, t.sil.nonce = some v) ∧ t.sil.loaded = false ∧ t.sil.entries = s1.sil.entries) ∧
      (taken 0x0703 → ∀ v r, (s1.sil.nonce = some v ∧ s1.sil.loaded = false ∧ s1.sil.cfgcrc = r → gives (.guardArm src v r) fun t =>
          t.sil.armed = true ∧ t.sil.nonce = none ∧ (∀ kc ∈ t.sil.chan, kc.2.count = 0 ∧ kc.2.spent = false) ∧
          (∀ kc ∈ s1.sil.chan, kc.2.fired.isSome = true → ∃ x, (kc.1, x) ∈ t.sil.chan ∧ x.fired = kc.2.fired) ∧ t.sil.fires = 0 ∧ t.sil.aborts = 0 ∧ t.sil.entries = s1.sil.entries) ∧
        (s1.sil.nonce ≠ some v ∨ s1.sil.loaded = true ∨ s1.sil.cfgcrc ≠ r → Gives (.guardArm src v r) s (s1.answer src 0x0703 .guardNonce))) ∧
      (taken 0x0801 → ∀ a, s1.manErr a = none → s1.man.st = .closed → s1.man.inCommit = none → gives (.manSetup src a) fun t => t.man.st = .opened ∧ t.man.en = true ∧
        t.man.sz = a.sz ∧ t.man.thresh = a.thresh ∧ t.man.ring = a.ring.toNat ∧ t.man.ptaddr = a.ptaddr.toNat ∧ t.man.next = 1 ∧ t.man.rbp = 0 ∧
        t.man.durable = 0 ∧ t.man.backlog = [] ∧
        (s1.vault.boot0.isSome = true ∨ s1.vault.boot1.isSome = true → t.vault.instance_ = s1.vault.instance_ + 1) ∧ t.memc.mirBase = a.region ∧ t.memc.mirLen = 1024 ∧
        (PlainStore s1 → t.commitCopy 0 = some (0, 1, 0) ∧ t.commitCopy 1 = some (0, 1, 0) ∧
          ∀ x, (x < a.region ∨ a.region + 0x4000000 ≤ x) → t.rd x = s1.rd x)) ∧
      -- DISCARD drops what an opened or restored manifest still holds, with entry 0023h (R320)
      (taken 0x0801 → ∀ a, a.discard = true → s1.manErr a = none → s1.man.inCommit = none → gives (.manSetup src a) fun t => t.man.st = .opened ∧
        t.man.backlog = [] ∧ t.man.next = 1 ∧ t.man.rbp = 0 ∧ t.man.durable = 0 ∧
        (t.bbx.queued.getLast?.map fun e => (e.code, e.unit, e.data)) = some (0x23, 0, [s1.man.durable + 1, s1.man.next - 1]) ∧
        (s1.vault.boot0.isSome = true ∨ s1.vault.boot1.isSome = true → t.vault.instance_ = s1.vault.instance_ + 1)))

/-- Service commands (R225, R228, R229, R350, R353, R365, R368, R374, R376, R378). What a signature, a decryption or a routine of the customer
image shows is open (log 12, log 13), so those conclusions are cases of it; the layout of that image, which the words that `imgMicroAt` and
`imgNanoAt` read and the E_ARG of a wrong size rest on, and slot A where neither slot is in use are log 42 (the model's choices). -/
def Obligations.ServiceCommandsComplete : Prop :=
  ∀ (s s1 : State) (src : Src), s1.dbg.held = false → fromHost src = true →
    let taken (op : Nat) : Prop := s.take src op = some s1
    let gives (i : Instr) (p : State → Prop) : Prop := ∃ t, exec i s = .next t ∧ p t
    (taken 0x0A04 → ∀ off b bs, s1.b2Bytes src b = .ok bs → bs.length ≤ 1048576 → off + bs.length ≤ 15300558848 → s1.vault.failed = 0 →
      gives (.vaultWrite src off b) fun t => (∀ i < bs.length, mget byteD t.vault.user (off + i) = bs.getD i 0) ∧
        (∀ a, (a < off ∨ off + bs.length ≤ a) → mget byteD t.vault.user a = mget byteD s1.vault.user a) ∧ t.mem = s1.mem) ∧
    (taken 0x0B01 → ∀ on, gives (.freezeArm src on) fun t => t.dbg = { s1.dbg with armed := on } ∧ t.mem = s1.mem) ∧
    (taken 0x0C02 → s1.lk.warm = none → s1.pins.flush = .none → gives (.deviceReset src) fun t => t.lk.st = .restarting ∧ t.lk.warm = some 5 ∧
      t.lk.autoPending = false ∧ t.lk.deferred = s1.lk.deferred ++ [⟨src, 0x0C02, 0⟩] ∧ t.sil.permit = false ∧ ∀ c, (t.coreOf c).run ≠ .running) ∧
    (taken 0x0E01 → gives (.debugChallenge src) fun t => (∃ c, t.lk.challenge = some c ∧ c.length = 32) ∧ t.dbg = s1.dbg ∧ t.mem = s1.mem) ∧
    (s1.weir.runSt = .stopped →
      (taken 0x0A02 → ∀ b bs, s1.b2Bytes src b = .ok bs → s1.cal.valid = true → calOk s1.vault.serial bs = true → s1.vault.failed = 0 →
        gives (.calWrite src b s1.cal.crc) fun t => t.cal.valid = true ∧ t.cal.factory = false ∧ t.cal.copies = 3 ∧
          t.cal.wrcnt = (s1.cal.wrcnt + 1) % 2 ^ 32 ∧ (∀ i, 12 ≤ i → i < 508 → t.cal.bytes.getD i 0 = bs.getD i 0) ∧
          t.cal.tickOut = s1.cal.tickOut ∧ t.cal.tickIn = s1.cal.tickIn ∧
          t.vault.cal0 = some ⟨t.cal.bytes, t.cal.wrcnt, t.cal.crc⟩ ∧ t.vault.cal1 = t.vault.cal0) ∧
      (taken 0x0A02 → ∀ b bs r, s1.b2Bytes src b = .ok bs → s1.cal.valid = true → r ≠ s1.cal.crc →
        Gives (.calWrite src b r) s (s1.answer src 0x0A02 .denied)) ∧
      (taken 0x0C01 → ∀ cl : ClusterId, bit s1.lk.restarting cl.val = false → gives (.clusterReset src cl) fun t =>
        bit t.lk.restarting cl.val = true ∧ t.lk.deferred = s1.lk.deferred ++ [⟨src, 0x0C01, cl.val⟩] ∧
        ∀ c, clusterOf c = cl → (t.coreOf c).run = .inReset ∧ (t.coreOf c).vown = 0 ∧ (t.coreOf c).itlb = []) ∧
      (taken 0x0202 → ∀ b img m, s1.b2Bytes src b = .ok img → s1.ucodeErr img = .ok m → s1.resultFits src 256 = true → gives (.ucodeLoad src b) fun t =>
        t.lk.image = img ∧ t.lk.cxd = m ∧ t.mem = s1.mem ∧
        ∀ c, (∀ i < imgMicros img, (t.coreOf c).stores.micro (0x8000 + i) = some (imgMicroAt img i)) ∧
          ∀ i < imgNanos img, (t.coreOf c).stores.nano (0x1800 + i) = some (imgNanoAt img i)) ∧
      (taken 0x0202 → ∀ b img, s1.b2Bytes src b = .ok img → imgSizeOk img = false → Gives (.ucodeLoad src b) s (s1.answer src 0x0202 .arg)) ∧
      (taken 0x0204 → ∀ b bs, s1.b2Bytes src b = .ok bs → s1.vault.failed = 0 → s1.vault.boot0.isSome = true ∨ s1.vault.boot1.isSome = true →
        gives (.patchInstall src b) fun t =>
        t.lk.patch = s1.lk.patch ∧ t.mem = s1.mem ∧
        let slot := fun v : Vault => if s1.vault.inUse = 1 then v.slotB else v.slotA
        match checkBundle s1.lk.romver.toNat s1.vault.floor bs with
        | .ok _ => slot t.vault = some ⟨bSeq bs, bs⟩ ∧ t.vault.floor = bSeq bs
        | .error _ => slot t.vault = none ∧ t.vault.floor = s1.vault.floor) ∧
      (taken 0x0E02 → ∀ level sig, sig.length = 96 → level.toNat ≤ 2 → gives (.debugUnlock src level sig) fun t => t.lk.challenge = none ∧
        (s1.lk.challenge = none → t.dbg = s1.dbg) ∧
        ∀ c, s1.lk.challenge = some c → t.dbg = if Config.sigOk (c ++ [level] ++ leBytes 8 s1.vault.serial.toNat) sig = true then
          { s1.dbg with level := level.setWidth 2 } else s1.dbg)) ∧
    (∀ u : State, u.take src 0x0B02 = some { s1 with dbg := { s1.dbg with held := true } } →
      let thawed (t : State) : Prop := t.dbg.held = false ∧ t.dbg.crossing = [] ∧ t.weir.runSt = .stopped ∧ t.weir.elapsed = 0 ∧
        t.weir.pound = s1.weir.pound ∧ t.mem = s1.mem ∧ ∀ k ∈ t.man.staged, k.cls = 3 → k.task = false
      (s1.dbg.crossing = [] → ∃ t, exec (.thaw src) u = .next t ∧ thawed t) ∧
      -- the register write that was held at a crossing then completes (R372)
      ∀ w, s1.dbg.crossing = [w] → ∃ t, thawed t ∧ exec (.thaw src) u = .next ((t.spaceWrite w.1 w.2.1 w.2.2).answer src 0x0B02 .ok))

/-! ### Recovery -/

/-- Core failures, spare takeover, lost cores (R341 to R347, R403). That EV[448] is raised at CORE_LOST too, where Table 16.2 names the spare's
release, is log 45, and which facts of a spare the rows leave to the model is log 46 (the model's choices). -/
def Obligations.CoreFailuresAct : Prop :=
  ∀ (s : State) (c : CoreId), s.engines = true →
    let gives (i : Instr) (p : State → Prop) : Prop := ∃ t, exec i s = .next t ∧ p t
    let fails (i : Instr) : Prop := gives i fun t => (t.coreOf c).run = .failed ∧ (t.coreOf c).resv = none ∧ (t.coreOf c).sendq = [] ∧
      (t.coreOf c).inval = [] ∧ (s.runOpen = true → ∀ id k, t.taskOf id = some k → id / 8 = c.val → k.phase.isOpen = false) ∧ t.mem = s.mem ∧
      (bit s.lk.spareUsed (clusterOf c).val = false → (∀ k ∈ s.lk.claims, clusterOf k.core ≠ clusterOf c) → ∃ k ∈ t.lk.claims, k.core = c) ∧
      (∀ k : Claim, bit s.lk.spareUsed (clusterOf c).val = false → s.lk.claims = [k] → clusterOf k.core = clusterOf c →
        k.pound = s.weir.pound → k.elapsed = s.weir.elapsed → t.lk.claims = [{ k with core := if c.val < k.core.val then c else k.core }]) ∧
      (s.spareGone c = true → s.lk.runDegrade = false → s.weir.runSt = .running → t.weir.runSt = .stopping)
    -- what the L2 reads back of a failed core reads as before; a line that it cannot read is poisoned
    let readBack (t : State) : Prop := PlainStore s → ∀ a, t.rd a = s.rd a ∨
      (a / 8 ∈ (s.l2Of (clusterOf c)).dirtyAt (posOf c) ∧ t.rd a = poison 2 a)
    ((s.coreOf c).run = .running →
      (∀ cause, 1 ≤ cause.toNat → cause.toNat ≤ 6 → fails (.coreFailed c cause)) ∧
      (∀ b : Fin 8, (s.coreOf c).cur = some b → fails (.hangTimeout c) ∧ ((s.ctx (bk c b)).due.isSome = true → fails (.abandonBoundaryTimeout c))) ∧
      ((s.coreOf c).inval ≠ [] → fails (.invalidationAckTimeout c))) ∧
    ((s.coreOf c).run = .failed → bit s.lk.restarting (clusterOf c).val = false → (∃ k ∈ s.lk.claims, k.core = c) →
      gives (.spareTakeover c) fun t => (t.coreOf c).run = .inReset ∧ (t.coreOf c).phys = 8 ∧
        bit t.lk.spareUsed (clusterOf c).val = true ∧ (∀ k ∈ t.lk.claims, k.core ≠ c) ∧ (t.coreOf c).inbox = (s.coreOf c).inbox ∧
        (t.coreOf c).dtlb = [] ∧ (t.coreOf c).itlb = [] ∧ (t.coreOf c).stores = s.lkStores ∧ readBack t ∧
        (∀ id k, t.taskOf id = some k → id / 8 = c.val → k.restart = true ∧ k.guarded = true) ∧
        (s.weir.runSt = .stopped → bit t.pwr.on c.val = bit s.pwr.on (64 + (clusterOf c).val) ∧
          bit t.pwr.on (72 + c.val) = bit s.pwr.on (136 + (clusterOf c).val)) ∧
        (∀ b : Fin 8, (t.ctx (bk c b)).prio = (s.ctx (bk c b)).prio ∧ (t.ctx (bk c b)).alloc = (mget ctxD s.lk.snap (bk c b)).alloc ∧ (s.isFrame (bk c b) = true → (t.ctx (bk c b)).frame = true ∧ (t.ctx (bk c b)).st = .waitt) ∧
          (s.isFrame (bk c b) = false → (t.ctx (bk c b)).st = .idle ∧ (t.ctx (bk c b)).psw = 0x10F00)) ∧
        ∀ j, j / 8 ≠ c.val → t.bankOf j = s.bankOf j) ∧
    (∀ cause, (s.coreOf c).run = .inReset → (s.coreOf c).phys = 8 → bit s.lk.restarting (clusterOf c).val = false → 1 ≤ cause.toNat →
      cause.toNat ≤ 6 → gives (.coreFailed c cause) fun t => bit t.lk.restarting (clusterOf c).val = true) ∧
    ((s.coreOf c).run = .inReset → (s.coreOf c).phys = 8 → bit s.lk.restarting (clusterOf c).val = false → s.lk.st ≠ .booting →
      gives (.spareRelease c) fun t => (t.coreOf c).run = (if s.mbx.halted = true then .halted else .running) ∧
        t.pendBit evLk = true) ∧
    ((s.coreOf c).run = .failed → s.spareGone c = true → (∀ k ∈ s.lk.claims, k.core ≠ c) → gives (.coreLost c) fun t => (t.coreOf c).run = .lost ∧
      bit t.lk.lostCores c.val = true ∧ t.tasksOfCore c = [] ∧ t.pendBit evLk = true ∧ readBack t) ∧
    ((s.coreOf c).run = .lockup → bit s.lk.lockups c.val = true → gives (.lockupWithdraw c) fun t => t.tasksOfCore c = [] ∧
      (t.coreOf c).run = .lockup ∧ bit t.lk.lockups c.val = false ∧ t.mem = s.mem)

/-- Cluster restarts, warm restarts, the vault dies and the black box (R350 to R356, R359). That EV[448] is raised at CLUSTER_RELEASE is log 45
(the model's choice). -/
def Obligations.RestartsAct : Prop :=
  ∀ (s : State) (cl : ClusterId), s.on = true → s.dbg.frozen = false →
    let gives (i : Instr) (p : State → Prop) : Prop := ∃ t, exec i s = .next t ∧ p t
    (s.engines = true → bit s.lk.restarting cl.val = false → PlainStore s → ∀ trg, 1 ≤ trg.toNat → trg.toNat ≤ 4 →
      gives (.clusterRestart cl trg) fun t => bit t.lk.restarting cl.val = true ∧
        (∀ c, clusterOf c = cl → (t.coreOf c).run = .inReset ∧ (t.coreOf c).inbox = (s.coreOf c).inbox) ∧
        (∀ line k, k < 8 → (s.dirEnt line).owner = cl → s.dirty line = true → t.rd (8 * line + k) = poison 2 (8 * line + k)) ∧
        (mwf dirD s.dir = true → ∀ a, (s.dirty (a / 8) = false ∨ (s.dirEnt (a / 8)).owner ≠ cl) → t.rd a = s.rd a)) ∧
    (s.engines = true → bit s.lk.restarting cl.val = true → s.lk.deferred = [] → gives (.clusterRelease cl 0x1FF) fun t =>
      bit t.lk.restarting cl.val = false ∧ (t.l2Of cl).ctl = 0x00FFFF01 ∧ t.pendBit evLk = true ∧
      ∀ c, clusterOf c = cl → (t.coreOf c).run = .running ∧ (t.coreOf c).phys = posOf c ∧ (t.coreOf c).itlb = [] ∧
        (t.coreOf c).stores = s.lkStores ∧ ∀ b : Fin 8, (t.ctx (bk c b)).prio.toNat = b.val) ∧
    (s.pins.flush = .none → s.lk.st = .ready → s.lk.warm = none →
      let begins (i : Instr) (trg : Nat) : Prop := gives i fun t => t.lk.st = .restarting ∧ t.lk.warm = some trg ∧ t.lk.warmAgain = false ∧
        t.sil.permit = false ∧ (∀ c, (t.coreOf c).run ≠ .running) ∧ ∀ n < 24, (t.linkOf n).st = .down
      (∀ trg, 1 ≤ trg.toNat → trg.toNat ≤ 5 → trg.toNat = 5 ∨ s.dbg.held = false → begins (.warmRestart trg) trg.toNat) ∧
      (s.dbg.held = false → begins .heartbeatWatchdog 1) ∧
      (s.dbg.held = false → bit s.lk.restarting cl.val = true → begins (.clusterRestartTimeout cl) 4)) ∧
    -- of the held state no other trigger is a way out (R375)
    (s.dbg.held = true → NoEffect .heartbeatWatchdog s ∧ NoEffect (.clusterRestartTimeout cl) s ∧
      ∀ trg, trg.toNat ≠ 5 → NoEffect (.warmRestart trg) s) ∧
    (s.pins.flush = .none → s.lk.st = .restarting → s.lk.warm.isSome = true →
      (s.dbg.held = false → gives .heartbeatWatchdog fun t => (s.lk.warmAgain = false → t.lk.warmAgain = true ∧ t.lk.st = .restarting) ∧
        (s.lk.warmAgain = true → t.lk.st = .failed)) ∧
      (s.lk.autoPending = false → s.lk.deferred = [] → gives .warmRestartComplete fun t => t.lk.st = .ready ∧ t.lk.warm = none ∧ t.weir.runSt = .stopped ∧
        t.sil.permit = false ∧ t.lk.heart = 0 ∧ t.mbx.halted = false ∧ t.mbx.en = false ∧ t.pins.linkUp = false ∧ t.slu.bl16 = false ∧ t.weir.pound = s.weir.pound ∧
        t.man.backlog = s.man.backlog ∧ t.sil.entries = s.sil.entries ∧
        t.sil.armed = (s.sil.armed && crc32c s.guardBytes == s.sil.cfgcrc))) ∧
    (s.lk.st ≠ .failed → Gives .heartbeat s (s.modLk fun l => { l with heart := (l.heart + 1) % 2 ^ 64 })) ∧
    (∀ (d : Fin 4) op page, bit s.vault.failed d.val = false → gives (.vaultDieFailed d op page) fun t => bit t.vault.failed d.val = true ∧
      (d.val < 2 → bit t.cal.copies d.val = false) ∧
      (d.val = 0 → t.vault.boot0 = none ∧ t.vault.cal0 = none ∧ t.bbx.copy0 = [] ∧ t.vault.boot1 = s.vault.boot1 ∧ t.vault.cal1 = s.vault.cal1) ∧
      (d.val = 1 → t.vault.boot1 = none ∧ t.vault.cal1 = none ∧ t.bbx.copy1 = [] ∧ t.vault.boot0 = s.vault.boot0 ∧ t.vault.cal0 = s.vault.cal0) ∧
      (d.val = 2 → t.vault.area0 = none) ∧
      (d.val = 3 → t.vault.area1 = none) ∧ t.mem = s.mem) ∧
    (∀ e rest, bit s.vault.failed 0 = false ∨ bit s.vault.failed 1 = false → s.bbxOpen = false → s.bbx.queued = e :: rest →
      gives .blackBoxWrite fun t => t.bbx.queued = rest ∧
      (bit s.bbx.dies 0 = true → t.bbx.copy0.getLast? = some e) ∧ (bit s.bbx.dies 1 = true → t.bbx.copy1.getLast? = some e) ∧ t.bbx.nextIx = s.bbx.nextIx ∧ { t with bbx := s.bbx } = s)

/-! ### Start, pins, debug -/

/-- Power good, cold start and boot, PERST#, freeze, thermal trip, monitors, the IEEE 1687 network (R361 to R364, R373 to R378, R384, R386, R396).
STEP 2 takes the copy of the boot partition with the higher write count and repairs the other from it. That a start reaches STEP 7 at once is
log 36, the unit of a reading's correction log 49, EV[448] at a limit and at the boot's end log 45, memory that reads as empty after power was
lost log 5, the test access port's states (IEEE 1149.1's) log 66 (the model's choices). -/
def Obligations.StartAndPinsAct : Prop :=
  ∀ (s : State),
    let gives (i : Instr) (p : State → Prop) : Prop := ∃ t, exec i s = .next t ∧ p t
    let copy (a : BootArgs) : Option BootCopy := higher BootCopy.writes (validOf a.bootGood 0 s.vault.boot0) (validOf a.bootGood 1 s.vault.boot1)
    (∀ a : BootArgs, s.pins.pwrOk = false → s.pins.thermtrip = false ∨ s.pins.tripFell = true → a.monitorsOk = true → a.pfailLow = false →
      (∀ x, copy a = some x → a.trainFail = 0 → s.vault.area0 = none → s.vault.area1 = none → gives (.powerGood a) fun t => t.pins.pwrOk = true ∧
        t.lk.st = .booting ∧ t.lk.step = 7 ∧ t.lk.bootCause = 1 ∧ t.memc.zeroed = true ∧ t.mem = [] ∧
        (let new : BootCopy := ⟨{ x.part with boots := x.part.boots + 1 }, x.writes + 1⟩
         t.vault.boot0 = s.vault.boot0.map (fun _ => new) ∧ t.vault.boot1 = s.vault.boot1.map (fun _ => new)) ∧
        t.weir.runSt = .stopped ∧ t.sil.permit = false ∧ t.smb.strap = a.smbStrap) ∧
      (copy a = none → gives (.powerGood a) fun t => t.lk.st = .failed ∧ t.lk.step = 2)) ∧
    (∀ a : BootArgs, s.pins.pwrOk = false → s.pins.thermtrip = false ∨ s.pins.tripFell = true → a.monitorsOk = false →
      Gives (.powerGood a) s (s.modPins fun p => { p with pwrOk := true, railBad := true, thermtrip := false })) ∧
    -- a thermal trip stands until PWR_OK has fallen and risen
    (∀ a, s.pins.pwrOk = false → s.pins.thermtrip = true → s.pins.tripFell = false →
      Gives (.powerGood a) s (s.modPins fun p => { p with pwrOk := true })) ∧
    (gives .pwrOkFall fun t => t.pins.pwrOk = false ∧ t.pins.thermtrip = s.pins.thermtrip ∧
      (s.pins.pwrOk = true → t.pins.tripFell = true) ∧ t.mem = [] ∧ t.cores = [] ∧ t.weir = {} ∧ t.sil = {} ∧ t.man = {} ∧ t.bbx = s.bbx ∧
      t.vault = { s.vault with erasing := 0 }) ∧
    (gives .thermtrip fun t => t.pins.thermtrip = true ∧ t.on = false ∧
      (s.on = true → t.mem = [] ∧ t.cores = [] ∧ t.weir = {} ∧ t.vault = { s.vault with erasing := 0 })) ∧
    (∀ pass, s.on = true → s.lk.st = .booting → s.lk.step = 7 → s.lk.bootHeld = false → s.lk.bootStop = false →
      gives (.bootComplete pass) fun t => t.lk.st = .ready ∧ t.lk.step = 9 ∧ t.pendBit evLk = true ∧
        ∀ c : CoreId, bit (pass.getD (clusterOf c).val 0) (posOf c) = true → (t.coreOf c).run = .running ∧ (t.coreOf c).phys = posOf c ∧
          (t.coreOf c).stores = s.lkStores) ∧
    (s.on = true →
      let groupReset (t : State) : Prop := t.mbx.en = false ∧ t.mbx.slotbusy = 0 ∧ t.mbx.rspWait = [] ∧ t.mbx.head = 0 ∧ t.mbx.tail = 0 ∧
        t.mbx.queue = s.mbx.queue ∧ t.pins.linkUp = false ∧ t.mem = s.mem ∧ t.weir = s.weir
      let told (t : State) : Prop := (s.dbg.frozen = false → t.bbx.nextIx = s.bbx.nextIx + 1) ∧
        (s.dbg.frozen = true → t.bbx = s.bbx ∧ t.dbg.regroup = true)
      (gives .pcieGroupReset fun t => groupReset t ∧ told t ∧ (s.pins.perst = true → t.pins.perst = true)) ∧
      (∀ a, (s.lk.st ≠ .failed ∧ s.lk.st ≠ .booting) ∨ s.dbg.frozen = true ∨ s.pins.flush = .flushing →
        gives (.perstRelease a) fun t => groupReset t ∧ told t ∧ t.pins.perst = false) ∧
      (∀ a : BootArgs, s.dbg.frozen = false → s.pins.flush ≠ .flushing → s.lk.st = .failed ∨ s.lk.st = .booting → a.pfailLow = false →
        gives (.perstRelease a) fun t => t.lk.bootCause = (if s.lk.st = .failed then 2 else 3) ∧ t.pins.perst = false ∧
          (copy a = none → t.lk.st = .failed ∧ t.lk.step = 2) ∧ ((copy a).isSome = true → t.lk.st = .booting ∧ t.lk.step = 7))) ∧
    (s.on = true → s.dbg.frozen = false →
      (s.pins.flush = .none → s.dbg.armed = true → gives .freezeQualified fun t => t.dbg.frozen = true ∧ t.pins.freezeN = true ∧
        t.pins.linkUp = false ∧ t.sil.permit = false ∧ t.sil.src = 4) ∧
      (s.pins.flush = .none → s.dbg.armed = false → gives .freezeQualified fun t => t.dbg = { s.dbg with igncnt := min (s.dbg.igncnt + 1) 65535 } ∧
        t.sil.permit = false ∧ t.sil.about = true ∧ t.mem = s.mem) ∧
      (∀ (n : Fin 28) (r : BitVec 16), bit s.pins.limited n.val = false → gives (.monitorLimit n r) fun t => bit t.pins.limited n.val = true ∧
        (t.bbx.queued.getLast?.map fun e => (e.code, e.data)) = some (0x78, [n.val, s.corrected n.val r.toInt]) ∧
        t.pendBit evLk = true ∧ t.mem = s.mem) ∧
      (∀ (n : Fin 28) r, bit s.pins.limited n.val = true → gives (.monitorLimit n r) fun t => t.bbx = s.bbx ∧ t.evt = s.evt)) ∧
    (s.on = true → s.dbg.frozen = true → gives .freezeRelease fun t => t.dbg.frozen = false ∧ t.dbg.held = true ∧ t.pins.freezeN = false ∧
      t.sil.permit = false ∧ t.mem = s.mem ∧ t.banks = s.banks) ∧
    (s.on = true → s.dbg.level = 2 → ∀ (c : CoreId) (b : Fin 8),
      (∀ p, gives (.ieee1687Write (.pc c b p)) fun t => t.ctx (bk c b) = { s.ctx (bk c b) with pc := p } ∧ { t with banks := s.banks } = s) ∧
      (∀ i w, i < 0x98 → gives (.ieee1687Write (.reg c b i w)) fun t => t.ctx (bk c b) = (s.ctx (bk c b)).put i w ∧ { t with banks := s.banks } = s)) ∧
    (s.on = true → s.dbg.level = 2 → ∀ (c : CoreId) n asid vpn leaf lvl pte, n < (s.coreOf c).dtlb.length →
      gives (.ieee1687Write (.tlbSlot c false n asid vpn leaf lvl pte)) fun t => (t.coreOf c).dtlb[n]? = some { asid := asid, vpn := vpn, leaf := leaf, lvl := lvl, pte := pte } ∧
        (∀ m, m ≠ n → (t.coreOf c).dtlb[m]? = (s.coreOf c).dtlb[m]?) ∧ { t with cores := s.cores } = s) ∧
    (s.dbg.level ≠ 2 → ∀ d, (∀ m, d ≠ .tck m) → (∀ i, d ≠ .tapInstr i) → (∀ b v, d ≠ .boundary b v) → NoEffect (.ieee1687Write d) s) ∧
    -- the test access port works at every level: five TCK cycles with TMS high reset it; EXTEST drives a ball from its cell (R377, R386)
    (∀ m, Gives (.ieee1687Write (.tck m)) s (s.modPins fun p => { p with tap := p.tap.clock m })) ∧
    (let up (p : Tap) : Tap := p.clock true
     ∀ p : Tap, (up (up (up (up (up p))))).st = .reset ∧ (up (up (up (up (up p))))).ir = .idcode) ∧
    (∀ i, gives (.ieee1687Write (.tapInstr i)) fun t => { t with pins := s.pins } = s ∧
      (s.pins.tap.st = .shiftIr → t.pins.tap.next = i) ∧ (s.pins.tap.st ≠ .shiftIr → t = s)) ∧
    (∀ b v, gives (.ieee1687Write (.boundary b v)) fun t => { t with pins := s.pins } = s ∧
      (s.pins.tap.ir = .extest → b ≠ .tdo → t.ball b = some v) ∧ (s.pins.tap.ir ≠ .extest → ∀ b', t.ball b' = s.ball b')) ∧
    (s.pins.tap.st ≠ .shiftDr → s.pins.tap.st ≠ .shiftIr → s.ball .tdo = none) ∧
    -- reading out (R360, R377, Table 17.12): black-box entries at any level, the rest from level 1 in the frozen and held states
    (∀ n, s.on = true → s.scanRead (.blackBox n) = (s.bbx.entries.find? fun e => e.index == n).map .entry) ∧
    (s.dbg.frozen = false → s.dbg.held = false → ∀ t, (∀ n, t ≠ .blackBox n) → s.scanRead t = none) ∧
    (s.dbg.frozen = true ∨ s.dbg.held = true →
      (s.dbg.level = 0 → ∀ t, (∀ n, t ≠ .blackBox n) → s.scanRead t = none) ∧
      (s.dbg.level ≠ 0 → ∀ k i a c, (i < 0x98 → s.scanRead (.reg k i) = some (.word ((s.ctx k).at_ i))) ∧
        (i < 64 → s.scanRead (.sill k i) = some (.word (mget wordD (s.ctx k).sill i))) ∧
        s.scanRead (.sram a) = some (.byte (mget byteD s.lk.sram a)) ∧ s.scanRead (.tlb c false) = some (.tlb (s.coreOf c).dtlb) ∧
        ∀ cl x, s.scanRead (.lockedSlots cl) = some (.locked x) → ∀ y ∈ x, y.1.hole = true → y.2 = []))

/-! ### Encodings and invariants -/

/-- R81, R82: serialising words and reading them back gives the words, and the other way round for a whole serialisation. -/
def Obligations.SerialisationRoundTrips : Prop :=
  (∀ ws : List Word, deserialise (serialise ws) = ws ∧ (serialise ws).length = 9 * ws.length ∧ serialOk (serialise ws) = true) ∧
  ∀ bs : List Byte, serialOk bs = true → serialise (deserialise bs) = bs

/-- R71 to R75: the image of a line gives its words back; with one bit wrong anywhere in data, tags or check bits it still does; two
wrong bits of one section are found. -/
def Obligations.LineCodeCorrects : Prop :=
  ∀ (line : Nat) (ws : List Word), ws.length = 8 →
    let img := encodeLine line ws
    imageSig img = signature line ∧
    (∀ k < 8, decodeWord img k = some (ws.getD k unbound, 0)) ∧
    (∀ k < 8, ∀ i < 728, ∃ n, n ≤ 1 ∧ decodeWord (img ^^^ 2 ^ i) k = some (ws.getD k unbound, n)) ∧
    (∀ k < 8, let section_ (j : Nat) (i : Nat) : Prop :=
        (j < 2 ∧ (64 * k + 32 * j ≤ i ∧ i < 64 * k + 32 * j + 32 ∨ 576 + 19 * k + 7 * j ≤ i ∧ i < 576 + 19 * k + 7 * j + 7)) ∨
        (j = 2 ∧ (512 + 8 * k ≤ i ∧ i < 512 + 8 * k + 8 ∨ 576 + 19 * k + 14 ≤ i ∧ i < 576 + 19 * k + 19))
      ∀ j i i', section_ j i → section_ j i' → i ≠ i' → decodeWord (img ^^^ 2 ^ i ^^^ 2 ^ i') k = none)

/-- Every step keeps the tagged store in its canonical form. -/
def Obligations.StepKeepsMemoryCanonical : Prop := ∀ s t : State, MemCanonical s → step s = .next t → MemCanonical t
end

