-- ==== Sys2Proof/Laws/Map.lean ====
section
/-! SUPPORT. Reading and writing a sparse map, and its canonical form. -/

namespace Sys2Proof.Machine

variable {α : Type}

theorem mget_mdrop_same (d : Nat → α) (m : SMap α) (k : Nat) : mget d (mdrop m k) k = d k := by
  induction m with
  | nil => rfl
  | cons e m ih =>
    obtain ⟨j, v⟩ := e
    by_cases h : j = k
    · simpa [mdrop, h] using ih
    · simpa [mdrop, h, mget] using ih

theorem mget_mdrop_ne (d : Nat → α) (m : SMap α) {k j : Nat} (h : j ≠ k) : mget d (mdrop m k) j = mget d m j := by
  induction m with
  | nil => rfl
  | cons e m ih =>
    obtain ⟨i, v⟩ := e
    have ih' : mget d (List.filter (fun e => e.1 != k) m) j = mget d m j := ih
    by_cases hi : i = k
    · have hij : i ≠ j := fun e => h (e ▸ hi)
      simp [mdrop, hi, mget, Ne.symm h, ih']
    · by_cases hj : i = j
      · simp [mdrop, mget, hj, h]
      · simp [mdrop, hi, mget, hj, ih']

theorem mget_minsert_same (d : Nat → α) (k : Nat) (v : α) (m : SMap α) (h : ∀ e ∈ m, e.1 ≠ k) :
    mget d (minsert k v m) k = v := by
  induction m with
  | nil => simp [minsert, mget]
  | cons e m ih =>
    obtain ⟨j, w⟩ := e
    have hj : j ≠ k := h (j, w) (List.mem_cons_self ..)
    have hm : ∀ e ∈ m, e.1 ≠ k := fun e he => h e (List.mem_cons_of_mem _ he)
    by_cases hk : k < j
    · simp [minsert, hk, mget]
    · simp [minsert, hk, mget, hj, ih hm]

theorem mget_minsert_ne (d : Nat → α) {k j : Nat} (v : α) (m : SMap α) (h : j ≠ k) : mget d (minsert k v m) j = mget d m j := by
  induction m with
  | nil => simp [minsert, mget, Ne.symm h]
  | cons e m ih =>
    obtain ⟨i, w⟩ := e
    by_cases hk : k < i
    · simp [minsert, hk, mget, Ne.symm h]
    · by_cases hi : i = j
      · subst hi; simp [minsert, hk, mget]
      · simp [minsert, hk, mget, hi, ih]

theorem mem_mdrop {m : SMap α} {k : Nat} {e : Nat × α} (h : e ∈ mdrop m k) : e ∈ m ∧ e.1 ≠ k := by
  simpa [mdrop] using h

variable [DecidableEq α]

/-- A read after a write of the same key gives the value written. -/
@[simp] theorem mget_mset_same (d : Nat → α) (m : SMap α) (k : Nat) (v : α) : mget d (mset d m k v) k = v := by
  unfold mset
  split
  · next h => rw [mget_mdrop_same, h]
  · exact mget_minsert_same d k v _ fun e he => (mem_mdrop he).2

/-- A write leaves every other key alone. -/
@[simp] theorem mget_mset_ne (d : Nat → α) (m : SMap α) {k j : Nat} (v : α) (h : j ≠ k) :
    mget d (mset d m k v) j = mget d m j := by
  unfold mset
  split
  · exact mget_mdrop_ne d m h
  · rw [mget_minsert_ne d v _ h, mget_mdrop_ne d m h]

theorem mget_mset (d : Nat → α) (m : SMap α) (k j : Nat) (v : α) :
    mget d (mset d m k v) j = if j = k then v else mget d m j := by
  split
  · next h => rw [h, mget_mset_same]
  · next h => exact mget_mset_ne d m v h

/-! ### The canonical form -/

theorem mwfFrom_weaken (d : Nat → α) {l l' : Nat} (m : SMap α) (h : mwfFrom d (some l) m = true) (hl : l' ≤ l) :
    mwfFrom d (some l') m = true := by
  cases m with
  | nil => rfl
  | cons e m =>
    obtain ⟨j, v⟩ := e
    simp only [mwfFrom, Bool.and_eq_true, decide_eq_true_eq] at h ⊢
    exact ⟨⟨by omega, h.1.2⟩, h.2⟩

theorem mwfFrom_none (d : Nat → α) {l : Nat} (m : SMap α) (h : mwfFrom d (some l) m = true) : mwfFrom d none m = true := by
  cases m with
  | nil => rfl
  | cons e m =>
    obtain ⟨j, v⟩ := e
    simp only [mwfFrom, Bool.and_eq_true, decide_eq_true_eq] at h ⊢
    exact ⟨⟨trivial, h.1.2⟩, h.2⟩

theorem mwfFrom_mdrop (d : Nat → α) (lo : Option Nat) (m : SMap α) (k : Nat) (h : mwfFrom d lo m = true) :
    mwfFrom d lo (mdrop m k) = true := by
  induction m generalizing lo with
  | nil => rfl
  | cons e m ih =>
    obtain ⟨j, v⟩ := e
    have hm : mwfFrom d (some j) m = true := by
      simp only [mwfFrom, Bool.and_eq_true] at h
      exact h.2
    by_cases hk : j = k
    · have e : mdrop ((j, v) :: m) k = mdrop m k := by simp [mdrop, hk]
      rw [e]
      cases lo with
      | none => exact mwfFrom_none d _ (ih _ hm)
      | some l =>
        have hl : l < j := by
          simp only [mwfFrom, Bool.and_eq_true, decide_eq_true_eq] at h
          exact h.1.1
        exact mwfFrom_weaken d _ (ih _ hm) (Nat.le_of_lt hl)
    · have e : mdrop ((j, v) :: m) k = (j, v) :: mdrop m k := by simp [mdrop, hk]
      rw [e]
      simp only [mwfFrom, Bool.and_eq_true] at h ⊢
      exact ⟨h.1, ih _ hm⟩

theorem mwfFrom_minsert (d : Nat → α) (lo : Option Nat) (m : SMap α) (k : Nat) (v : α) (h : mwfFrom d lo m = true)
    (hk : ∀ e ∈ m, e.1 ≠ k) (hv : v ≠ d k) (hlo : ∀ l, lo = some l → l < k) : mwfFrom d lo (minsert k v m) = true := by
  induction m generalizing lo with
  | nil =>
    cases lo with
    | none => simp [minsert, mwfFrom, hv]
    | some l => simp [minsert, mwfFrom, hv, hlo l rfl]
  | cons e m ih =>
    obtain ⟨j, w⟩ := e
    have hj : j ≠ k := hk (j, w) (List.mem_cons_self ..)
    have hm : ∀ e ∈ m, e.1 ≠ k := fun e he => hk e (List.mem_cons_of_mem _ he)
    simp only [mwfFrom, Bool.and_eq_true, decide_eq_true_eq] at h
    by_cases hlt : k < j
    · simp only [minsert, hlt, if_true, mwfFrom, Bool.and_eq_true, decide_eq_true_eq]
      refine ⟨⟨?_, hv⟩, ⟨trivial, h.1.2⟩, h.2⟩
      cases lo with
      | none => rfl
      | some l => simpa using hlo l rfl
    · simp only [minsert, hlt, if_false, mwfFrom, Bool.and_eq_true, decide_eq_true_eq]
      exact ⟨h.1, ih _ h.2 hm fun l hl => by cases hl; omega⟩

/-- Every write keeps the canonical form. -/
theorem mwf_mset (d : Nat → α) (m : SMap α) (k : Nat) (v : α) (h : mwf d m = true) : mwf d (mset d m k v) = true := by
  unfold mset
  split
  · exact mwfFrom_mdrop d none m k h
  · next hv => exact mwfFrom_minsert d none _ k v (mwfFrom_mdrop d none m k h) (fun e he => (mem_mdrop he).2) hv (fun l hl => by cases hl)

end Sys2Proof.Machine
end

