-- ==== Sys2Proof/Laws/State.lean ====
section
/-!
SUPPORT. What each update of the state leaves alone and what it sets: one lemma per field per update.
-/

namespace Sys2Proof.Machine

/-! ### modWeir -/

@[simp] theorem State.modWeir_pending (s f) : (State.modWeir s f).pending = s.pending := rfl
@[simp] theorem State.modWeir_free (s f) : (State.modWeir s f).free = s.free := rfl
@[simp] theorem State.modWeir_out (s f) : (State.modWeir s f).out = s.out := rfl
@[simp] theorem State.modWeir_mem (s f) : (State.modWeir s f).mem = s.mem := rfl
@[simp] theorem State.modWeir_dir (s f) : (State.modWeir s f).dir = s.dir := rfl
@[simp] theorem State.modWeir_cores (s f) : (State.modWeir s f).cores = s.cores := rfl
@[simp] theorem State.modWeir_banks (s f) : (State.modWeir s f).banks = s.banks := rfl
@[simp] theorem State.modWeir_l2 (s f) : (State.modWeir s f).l2 = s.l2 := rfl
@[simp] theorem State.modWeir_memc (s f) : (State.modWeir s f).memc = s.memc := rfl
@[simp] theorem State.modWeir_weir (s f) : (State.modWeir s f).weir = f s.weir := rfl
@[simp] theorem State.modWeir_twl (s f) : (State.modWeir s f).twl = s.twl := rfl
@[simp] theorem State.modWeir_sil (s f) : (State.modWeir s f).sil = s.sil := rfl
@[simp] theorem State.modWeir_slu (s f) : (State.modWeir s f).slu = s.slu := rfl
@[simp] theorem State.modWeir_man (s f) : (State.modWeir s f).man = s.man := rfl
@[simp] theorem State.modWeir_evt (s f) : (State.modWeir s f).evt = s.evt := rfl
@[simp] theorem State.modWeir_mbx (s f) : (State.modWeir s f).mbx = s.mbx := rfl
@[simp] theorem State.modWeir_lk (s f) : (State.modWeir s f).lk = s.lk := rfl
@[simp] theorem State.modWeir_pwr (s f) : (State.modWeir s f).pwr = s.pwr := rfl
@[simp] theorem State.modWeir_cal (s f) : (State.modWeir s f).cal = s.cal := rfl
@[simp] theorem State.modWeir_vault (s f) : (State.modWeir s f).vault = s.vault := rfl
@[simp] theorem State.modWeir_bbx (s f) : (State.modWeir s f).bbx = s.bbx := rfl
@[simp] theorem State.modWeir_dbg (s f) : (State.modWeir s f).dbg = s.dbg := rfl
@[simp] theorem State.modWeir_pins (s f) : (State.modWeir s f).pins = s.pins := rfl
@[simp] theorem State.modWeir_smb (s f) : (State.modWeir s f).smb = s.smb := rfl

/-! ### modSil -/

@[simp] theorem State.modSil_pending (s f) : (State.modSil s f).pending = s.pending := rfl
@[simp] theorem State.modSil_free (s f) : (State.modSil s f).free = s.free := rfl
@[simp] theorem State.modSil_out (s f) : (State.modSil s f).out = s.out := rfl
@[simp] theorem State.modSil_mem (s f) : (State.modSil s f).mem = s.mem := rfl
@[simp] theorem State.modSil_dir (s f) : (State.modSil s f).dir = s.dir := rfl
@[simp] theorem State.modSil_cores (s f) : (State.modSil s f).cores = s.cores := rfl
@[simp] theorem State.modSil_banks (s f) : (State.modSil s f).banks = s.banks := rfl
@[simp] theorem State.modSil_l2 (s f) : (State.modSil s f).l2 = s.l2 := rfl
@[simp] theorem State.modSil_memc (s f) : (State.modSil s f).memc = s.memc := rfl
@[simp] theorem State.modSil_weir (s f) : (State.modSil s f).weir = s.weir := rfl
@[simp] theorem State.modSil_twl (s f) : (State.modSil s f).twl = s.twl := rfl
@[simp] theorem State.modSil_sil (s f) : (State.modSil s f).sil = f s.sil := rfl
@[simp] theorem State.modSil_slu (s f) : (State.modSil s f).slu = s.slu := rfl
@[simp] theorem State.modSil_man (s f) : (State.modSil s f).man = s.man := rfl
@[simp] theorem State.modSil_evt (s f) : (State.modSil s f).evt = s.evt := rfl
@[simp] theorem State.modSil_mbx (s f) : (State.modSil s f).mbx = s.mbx := rfl
@[simp] theorem State.modSil_lk (s f) : (State.modSil s f).lk = s.lk := rfl
@[simp] theorem State.modSil_pwr (s f) : (State.modSil s f).pwr = s.pwr := rfl
@[simp] theorem State.modSil_cal (s f) : (State.modSil s f).cal = s.cal := rfl
@[simp] theorem State.modSil_vault (s f) : (State.modSil s f).vault = s.vault := rfl
@[simp] theorem State.modSil_bbx (s f) : (State.modSil s f).bbx = s.bbx := rfl
@[simp] theorem State.modSil_dbg (s f) : (State.modSil s f).dbg = s.dbg := rfl
@[simp] theorem State.modSil_pins (s f) : (State.modSil s f).pins = s.pins := rfl
@[simp] theorem State.modSil_smb (s f) : (State.modSil s f).smb = s.smb := rfl

/-! ### modLk -/

@[simp] theorem State.modLk_pending (s f) : (State.modLk s f).pending = s.pending := rfl
@[simp] theorem State.modLk_free (s f) : (State.modLk s f).free = s.free := rfl
@[simp] theorem State.modLk_out (s f) : (State.modLk s f).out = s.out := rfl
@[simp] theorem State.modLk_mem (s f) : (State.modLk s f).mem = s.mem := rfl
@[simp] theorem State.modLk_dir (s f) : (State.modLk s f).dir = s.dir := rfl
@[simp] theorem State.modLk_cores (s f) : (State.modLk s f).cores = s.cores := rfl
@[simp] theorem State.modLk_banks (s f) : (State.modLk s f).banks = s.banks := rfl
@[simp] theorem State.modLk_l2 (s f) : (State.modLk s f).l2 = s.l2 := rfl
@[simp] theorem State.modLk_memc (s f) : (State.modLk s f).memc = s.memc := rfl
@[simp] theorem State.modLk_weir (s f) : (State.modLk s f).weir = s.weir := rfl
@[simp] theorem State.modLk_twl (s f) : (State.modLk s f).twl = s.twl := rfl
@[simp] theorem State.modLk_sil (s f) : (State.modLk s f).sil = s.sil := rfl
@[simp] theorem State.modLk_slu (s f) : (State.modLk s f).slu = s.slu := rfl
@[simp] theorem State.modLk_man (s f) : (State.modLk s f).man = s.man := rfl
@[simp] theorem State.modLk_evt (s f) : (State.modLk s f).evt = s.evt := rfl
@[simp] theorem State.modLk_mbx (s f) : (State.modLk s f).mbx = s.mbx := rfl
@[simp] theorem State.modLk_lk (s f) : (State.modLk s f).lk = f s.lk := rfl
@[simp] theorem State.modLk_pwr (s f) : (State.modLk s f).pwr = s.pwr := rfl
@[simp] theorem State.modLk_cal (s f) : (State.modLk s f).cal = s.cal := rfl
@[simp] theorem State.modLk_vault (s f) : (State.modLk s f).vault = s.vault := rfl
@[simp] theorem State.modLk_bbx (s f) : (State.modLk s f).bbx = s.bbx := rfl
@[simp] theorem State.modLk_dbg (s f) : (State.modLk s f).dbg = s.dbg := rfl
@[simp] theorem State.modLk_pins (s f) : (State.modLk s f).pins = s.pins := rfl
@[simp] theorem State.modLk_smb (s f) : (State.modLk s f).smb = s.smb := rfl

/-! ### modMbx -/

@[simp] theorem State.modMbx_pending (s f) : (State.modMbx s f).pending = s.pending := rfl
@[simp] theorem State.modMbx_free (s f) : (State.modMbx s f).free = s.free := rfl
@[simp] theorem State.modMbx_out (s f) : (State.modMbx s f).out = s.out := rfl
@[simp] theorem State.modMbx_mem (s f) : (State.modMbx s f).mem = s.mem := rfl
@[simp] theorem State.modMbx_dir (s f) : (State.modMbx s f).dir = s.dir := rfl
@[simp] theorem State.modMbx_cores (s f) : (State.modMbx s f).cores = s.cores := rfl
@[simp] theorem State.modMbx_banks (s f) : (State.modMbx s f).banks = s.banks := rfl
@[simp] theorem State.modMbx_l2 (s f) : (State.modMbx s f).l2 = s.l2 := rfl
@[simp] theorem State.modMbx_memc (s f) : (State.modMbx s f).memc = s.memc := rfl
@[simp] theorem State.modMbx_weir (s f) : (State.modMbx s f).weir = s.weir := rfl
@[simp] theorem State.modMbx_twl (s f) : (State.modMbx s f).twl = s.twl := rfl
@[simp] theorem State.modMbx_sil (s f) : (State.modMbx s f).sil = s.sil := rfl
@[simp] theorem State.modMbx_slu (s f) : (State.modMbx s f).slu = s.slu := rfl
@[simp] theorem State.modMbx_man (s f) : (State.modMbx s f).man = s.man := rfl
@[simp] theorem State.modMbx_evt (s f) : (State.modMbx s f).evt = s.evt := rfl
@[simp] theorem State.modMbx_mbx (s f) : (State.modMbx s f).mbx = f s.mbx := rfl
@[simp] theorem State.modMbx_lk (s f) : (State.modMbx s f).lk = s.lk := rfl
@[simp] theorem State.modMbx_pwr (s f) : (State.modMbx s f).pwr = s.pwr := rfl
@[simp] theorem State.modMbx_cal (s f) : (State.modMbx s f).cal = s.cal := rfl
@[simp] theorem State.modMbx_vault (s f) : (State.modMbx s f).vault = s.vault := rfl
@[simp] theorem State.modMbx_bbx (s f) : (State.modMbx s f).bbx = s.bbx := rfl
@[simp] theorem State.modMbx_dbg (s f) : (State.modMbx s f).dbg = s.dbg := rfl
@[simp] theorem State.modMbx_pins (s f) : (State.modMbx s f).pins = s.pins := rfl
@[simp] theorem State.modMbx_smb (s f) : (State.modMbx s f).smb = s.smb := rfl

/-! ### modPins -/

@[simp] theorem State.modPins_pending (s f) : (State.modPins s f).pending = s.pending := rfl
@[simp] theorem State.modPins_free (s f) : (State.modPins s f).free = s.free := rfl
@[simp] theorem State.modPins_out (s f) : (State.modPins s f).out = s.out := rfl
@[simp] theorem State.modPins_mem (s f) : (State.modPins s f).mem = s.mem := rfl
@[simp] theorem State.modPins_dir (s f) : (State.modPins s f).dir = s.dir := rfl
@[simp] theorem State.modPins_cores (s f) : (State.modPins s f).cores = s.cores := rfl
@[simp] theorem State.modPins_banks (s f) : (State.modPins s f).banks = s.banks := rfl
@[simp] theorem State.modPins_l2 (s f) : (State.modPins s f).l2 = s.l2 := rfl
@[simp] theorem State.modPins_memc (s f) : (State.modPins s f).memc = s.memc := rfl
@[simp] theorem State.modPins_weir (s f) : (State.modPins s f).weir = s.weir := rfl
@[simp] theorem State.modPins_twl (s f) : (State.modPins s f).twl = s.twl := rfl
@[simp] theorem State.modPins_sil (s f) : (State.modPins s f).sil = s.sil := rfl
@[simp] theorem State.modPins_slu (s f) : (State.modPins s f).slu = s.slu := rfl
@[simp] theorem State.modPins_man (s f) : (State.modPins s f).man = s.man := rfl
@[simp] theorem State.modPins_evt (s f) : (State.modPins s f).evt = s.evt := rfl
@[simp] theorem State.modPins_mbx (s f) : (State.modPins s f).mbx = s.mbx := rfl
@[simp] theorem State.modPins_lk (s f) : (State.modPins s f).lk = s.lk := rfl
@[simp] theorem State.modPins_pwr (s f) : (State.modPins s f).pwr = s.pwr := rfl
@[simp] theorem State.modPins_cal (s f) : (State.modPins s f).cal = s.cal := rfl
@[simp] theorem State.modPins_vault (s f) : (State.modPins s f).vault = s.vault := rfl
@[simp] theorem State.modPins_bbx (s f) : (State.modPins s f).bbx = s.bbx := rfl
@[simp] theorem State.modPins_dbg (s f) : (State.modPins s f).dbg = s.dbg := rfl
@[simp] theorem State.modPins_pins (s f) : (State.modPins s f).pins = f s.pins := rfl
@[simp] theorem State.modPins_smb (s f) : (State.modPins s f).smb = s.smb := rfl

/-! ### modDbg -/

@[simp] theorem State.modDbg_pending (s f) : (State.modDbg s f).pending = s.pending := rfl
@[simp] theorem State.modDbg_free (s f) : (State.modDbg s f).free = s.free := rfl
@[simp] theorem State.modDbg_out (s f) : (State.modDbg s f).out = s.out := rfl
@[simp] theorem State.modDbg_mem (s f) : (State.modDbg s f).mem = s.mem := rfl
@[simp] theorem State.modDbg_dir (s f) : (State.modDbg s f).dir = s.dir := rfl
@[simp] theorem State.modDbg_cores (s f) : (State.modDbg s f).cores = s.cores := rfl
@[simp] theorem State.modDbg_banks (s f) : (State.modDbg s f).banks = s.banks := rfl
@[simp] theorem State.modDbg_l2 (s f) : (State.modDbg s f).l2 = s.l2 := rfl
@[simp] theorem State.modDbg_memc (s f) : (State.modDbg s f).memc = s.memc := rfl
@[simp] theorem State.modDbg_weir (s f) : (State.modDbg s f).weir = s.weir := rfl
@[simp] theorem State.modDbg_twl (s f) : (State.modDbg s f).twl = s.twl := rfl
@[simp] theorem State.modDbg_sil (s f) : (State.modDbg s f).sil = s.sil := rfl
@[simp] theorem State.modDbg_slu (s f) : (State.modDbg s f).slu = s.slu := rfl
@[simp] theorem State.modDbg_man (s f) : (State.modDbg s f).man = s.man := rfl
@[simp] theorem State.modDbg_evt (s f) : (State.modDbg s f).evt = s.evt := rfl
@[simp] theorem State.modDbg_mbx (s f) : (State.modDbg s f).mbx = s.mbx := rfl
@[simp] theorem State.modDbg_lk (s f) : (State.modDbg s f).lk = s.lk := rfl
@[simp] theorem State.modDbg_pwr (s f) : (State.modDbg s f).pwr = s.pwr := rfl
@[simp] theorem State.modDbg_cal (s f) : (State.modDbg s f).cal = s.cal := rfl
@[simp] theorem State.modDbg_vault (s f) : (State.modDbg s f).vault = s.vault := rfl
@[simp] theorem State.modDbg_bbx (s f) : (State.modDbg s f).bbx = s.bbx := rfl
@[simp] theorem State.modDbg_dbg (s f) : (State.modDbg s f).dbg = f s.dbg := rfl
@[simp] theorem State.modDbg_pins (s f) : (State.modDbg s f).pins = s.pins := rfl
@[simp] theorem State.modDbg_smb (s f) : (State.modDbg s f).smb = s.smb := rfl

/-! ### modMan -/

@[simp] theorem State.modMan_pending (s f) : (State.modMan s f).pending = s.pending := rfl
@[simp] theorem State.modMan_free (s f) : (State.modMan s f).free = s.free := rfl
@[simp] theorem State.modMan_out (s f) : (State.modMan s f).out = s.out := rfl
@[simp] theorem State.modMan_mem (s f) : (State.modMan s f).mem = s.mem := rfl
@[simp] theorem State.modMan_dir (s f) : (State.modMan s f).dir = s.dir := rfl
@[simp] theorem State.modMan_cores (s f) : (State.modMan s f).cores = s.cores := rfl
@[simp] theorem State.modMan_banks (s f) : (State.modMan s f).banks = s.banks := rfl
@[simp] theorem State.modMan_l2 (s f) : (State.modMan s f).l2 = s.l2 := rfl
@[simp] theorem State.modMan_memc (s f) : (State.modMan s f).memc = s.memc := rfl
@[simp] theorem State.modMan_weir (s f) : (State.modMan s f).weir = s.weir := rfl
@[simp] theorem State.modMan_twl (s f) : (State.modMan s f).twl = s.twl := rfl
@[simp] theorem State.modMan_sil (s f) : (State.modMan s f).sil = s.sil := rfl
@[simp] theorem State.modMan_slu (s f) : (State.modMan s f).slu = s.slu := rfl
@[simp] theorem State.modMan_man (s f) : (State.modMan s f).man = f s.man := rfl
@[simp] theorem State.modMan_evt (s f) : (State.modMan s f).evt = s.evt := rfl
@[simp] theorem State.modMan_mbx (s f) : (State.modMan s f).mbx = s.mbx := rfl
@[simp] theorem State.modMan_lk (s f) : (State.modMan s f).lk = s.lk := rfl
@[simp] theorem State.modMan_pwr (s f) : (State.modMan s f).pwr = s.pwr := rfl
@[simp] theorem State.modMan_cal (s f) : (State.modMan s f).cal = s.cal := rfl
@[simp] theorem State.modMan_vault (s f) : (State.modMan s f).vault = s.vault := rfl
@[simp] theorem State.modMan_bbx (s f) : (State.modMan s f).bbx = s.bbx := rfl
@[simp] theorem State.modMan_dbg (s f) : (State.modMan s f).dbg = s.dbg := rfl
@[simp] theorem State.modMan_pins (s f) : (State.modMan s f).pins = s.pins := rfl
@[simp] theorem State.modMan_smb (s f) : (State.modMan s f).smb = s.smb := rfl

/-! ### modSlu -/

@[simp] theorem State.modSlu_pending (s f) : (State.modSlu s f).pending = s.pending := rfl
@[simp] theorem State.modSlu_free (s f) : (State.modSlu s f).free = s.free := rfl
@[simp] theorem State.modSlu_out (s f) : (State.modSlu s f).out = s.out := rfl
@[simp] theorem State.modSlu_mem (s f) : (State.modSlu s f).mem = s.mem := rfl
@[simp] theorem State.modSlu_dir (s f) : (State.modSlu s f).dir = s.dir := rfl
@[simp] theorem State.modSlu_cores (s f) : (State.modSlu s f).cores = s.cores := rfl
@[simp] theorem State.modSlu_banks (s f) : (State.modSlu s f).banks = s.banks := rfl
@[simp] theorem State.modSlu_l2 (s f) : (State.modSlu s f).l2 = s.l2 := rfl
@[simp] theorem State.modSlu_memc (s f) : (State.modSlu s f).memc = s.memc := rfl
@[simp] theorem State.modSlu_weir (s f) : (State.modSlu s f).weir = s.weir := rfl
@[simp] theorem State.modSlu_twl (s f) : (State.modSlu s f).twl = s.twl := rfl
@[simp] theorem State.modSlu_sil (s f) : (State.modSlu s f).sil = s.sil := rfl
@[simp] theorem State.modSlu_slu (s f) : (State.modSlu s f).slu = f s.slu := rfl
@[simp] theorem State.modSlu_man (s f) : (State.modSlu s f).man = s.man := rfl
@[simp] theorem State.modSlu_evt (s f) : (State.modSlu s f).evt = s.evt := rfl
@[simp] theorem State.modSlu_mbx (s f) : (State.modSlu s f).mbx = s.mbx := rfl
@[simp] theorem State.modSlu_lk (s f) : (State.modSlu s f).lk = s.lk := rfl
@[simp] theorem State.modSlu_pwr (s f) : (State.modSlu s f).pwr = s.pwr := rfl
@[simp] theorem State.modSlu_cal (s f) : (State.modSlu s f).cal = s.cal := rfl
@[simp] theorem State.modSlu_vault (s f) : (State.modSlu s f).vault = s.vault := rfl
@[simp] theorem State.modSlu_bbx (s f) : (State.modSlu s f).bbx = s.bbx := rfl
@[simp] theorem State.modSlu_dbg (s f) : (State.modSlu s f).dbg = s.dbg := rfl
@[simp] theorem State.modSlu_pins (s f) : (State.modSlu s f).pins = s.pins := rfl
@[simp] theorem State.modSlu_smb (s f) : (State.modSlu s f).smb = s.smb := rfl

/-! ### modPwr -/

@[simp] theorem State.modPwr_pending (s f) : (State.modPwr s f).pending = s.pending := rfl
@[simp] theorem State.modPwr_free (s f) : (State.modPwr s f).free = s.free := rfl
@[simp] theorem State.modPwr_out (s f) : (State.modPwr s f).out = s.out := rfl
@[simp] theorem State.modPwr_mem (s f) : (State.modPwr s f).mem = s.mem := rfl
@[simp] theorem State.modPwr_dir (s f) : (State.modPwr s f).dir = s.dir := rfl
@[simp] theorem State.modPwr_cores (s f) : (State.modPwr s f).cores = s.cores := rfl
@[simp] theorem State.modPwr_banks (s f) : (State.modPwr s f).banks = s.banks := rfl
@[simp] theorem State.modPwr_l2 (s f) : (State.modPwr s f).l2 = s.l2 := rfl
@[simp] theorem State.modPwr_memc (s f) : (State.modPwr s f).memc = s.memc := rfl
@[simp] theorem State.modPwr_weir (s f) : (State.modPwr s f).weir = s.weir := rfl
@[simp] theorem State.modPwr_twl (s f) : (State.modPwr s f).twl = s.twl := rfl
@[simp] theorem State.modPwr_sil (s f) : (State.modPwr s f).sil = s.sil := rfl
@[simp] theorem State.modPwr_slu (s f) : (State.modPwr s f).slu = s.slu := rfl
@[simp] theorem State.modPwr_man (s f) : (State.modPwr s f).man = s.man := rfl
@[simp] theorem State.modPwr_evt (s f) : (State.modPwr s f).evt = s.evt := rfl
@[simp] theorem State.modPwr_mbx (s f) : (State.modPwr s f).mbx = s.mbx := rfl
@[simp] theorem State.modPwr_lk (s f) : (State.modPwr s f).lk = s.lk := rfl
@[simp] theorem State.modPwr_pwr (s f) : (State.modPwr s f).pwr = f s.pwr := rfl
@[simp] theorem State.modPwr_cal (s f) : (State.modPwr s f).cal = s.cal := rfl
@[simp] theorem State.modPwr_vault (s f) : (State.modPwr s f).vault = s.vault := rfl
@[simp] theorem State.modPwr_bbx (s f) : (State.modPwr s f).bbx = s.bbx := rfl
@[simp] theorem State.modPwr_dbg (s f) : (State.modPwr s f).dbg = s.dbg := rfl
@[simp] theorem State.modPwr_pins (s f) : (State.modPwr s f).pins = s.pins := rfl
@[simp] theorem State.modPwr_smb (s f) : (State.modPwr s f).smb = s.smb := rfl

/-! ### modMemc -/

@[simp] theorem State.modMemc_pending (s f) : (State.modMemc s f).pending = s.pending := rfl
@[simp] theorem State.modMemc_free (s f) : (State.modMemc s f).free = s.free := rfl
@[simp] theorem State.modMemc_out (s f) : (State.modMemc s f).out = s.out := rfl
@[simp] theorem State.modMemc_mem (s f) : (State.modMemc s f).mem = s.mem := rfl
@[simp] theorem State.modMemc_dir (s f) : (State.modMemc s f).dir = s.dir := rfl
@[simp] theorem State.modMemc_cores (s f) : (State.modMemc s f).cores = s.cores := rfl
@[simp] theorem State.modMemc_banks (s f) : (State.modMemc s f).banks = s.banks := rfl
@[simp] theorem State.modMemc_l2 (s f) : (State.modMemc s f).l2 = s.l2 := rfl
@[simp] theorem State.modMemc_memc (s f) : (State.modMemc s f).memc = f s.memc := rfl
@[simp] theorem State.modMemc_weir (s f) : (State.modMemc s f).weir = s.weir := rfl
@[simp] theorem State.modMemc_twl (s f) : (State.modMemc s f).twl = s.twl := rfl
@[simp] theorem State.modMemc_sil (s f) : (State.modMemc s f).sil = s.sil := rfl
@[simp] theorem State.modMemc_slu (s f) : (State.modMemc s f).slu = s.slu := rfl
@[simp] theorem State.modMemc_man (s f) : (State.modMemc s f).man = s.man := rfl
@[simp] theorem State.modMemc_evt (s f) : (State.modMemc s f).evt = s.evt := rfl
@[simp] theorem State.modMemc_mbx (s f) : (State.modMemc s f).mbx = s.mbx := rfl
@[simp] theorem State.modMemc_lk (s f) : (State.modMemc s f).lk = s.lk := rfl
@[simp] theorem State.modMemc_pwr (s f) : (State.modMemc s f).pwr = s.pwr := rfl
@[simp] theorem State.modMemc_cal (s f) : (State.modMemc s f).cal = s.cal := rfl
@[simp] theorem State.modMemc_vault (s f) : (State.modMemc s f).vault = s.vault := rfl
@[simp] theorem State.modMemc_bbx (s f) : (State.modMemc s f).bbx = s.bbx := rfl
@[simp] theorem State.modMemc_dbg (s f) : (State.modMemc s f).dbg = s.dbg := rfl
@[simp] theorem State.modMemc_pins (s f) : (State.modMemc s f).pins = s.pins := rfl
@[simp] theorem State.modMemc_smb (s f) : (State.modMemc s f).smb = s.smb := rfl

/-! ### emit -/

@[simp] theorem State.emit_pending (s o) : (State.emit s o).pending = s.pending := rfl
@[simp] theorem State.emit_free (s o) : (State.emit s o).free = s.free := rfl
@[simp] theorem State.emit_mem (s o) : (State.emit s o).mem = s.mem := rfl
@[simp] theorem State.emit_dir (s o) : (State.emit s o).dir = s.dir := rfl
@[simp] theorem State.emit_cores (s o) : (State.emit s o).cores = s.cores := rfl
@[simp] theorem State.emit_banks (s o) : (State.emit s o).banks = s.banks := rfl
@[simp] theorem State.emit_l2 (s o) : (State.emit s o).l2 = s.l2 := rfl
@[simp] theorem State.emit_memc (s o) : (State.emit s o).memc = s.memc := rfl
@[simp] theorem State.emit_weir (s o) : (State.emit s o).weir = s.weir := rfl
@[simp] theorem State.emit_twl (s o) : (State.emit s o).twl = s.twl := rfl
@[simp] theorem State.emit_sil (s o) : (State.emit s o).sil = s.sil := rfl
@[simp] theorem State.emit_slu (s o) : (State.emit s o).slu = s.slu := rfl
@[simp] theorem State.emit_man (s o) : (State.emit s o).man = s.man := rfl
@[simp] theorem State.emit_evt (s o) : (State.emit s o).evt = s.evt := rfl
@[simp] theorem State.emit_mbx (s o) : (State.emit s o).mbx = s.mbx := rfl
@[simp] theorem State.emit_lk (s o) : (State.emit s o).lk = s.lk := rfl
@[simp] theorem State.emit_pwr (s o) : (State.emit s o).pwr = s.pwr := rfl
@[simp] theorem State.emit_cal (s o) : (State.emit s o).cal = s.cal := rfl
@[simp] theorem State.emit_vault (s o) : (State.emit s o).vault = s.vault := rfl
@[simp] theorem State.emit_bbx (s o) : (State.emit s o).bbx = s.bbx := rfl
@[simp] theorem State.emit_dbg (s o) : (State.emit s o).dbg = s.dbg := rfl
@[simp] theorem State.emit_pins (s o) : (State.emit s o).pins = s.pins := rfl
@[simp] theorem State.emit_smb (s o) : (State.emit s o).smb = s.smb := rfl

/-! ### putMem -/

@[simp] theorem State.putMem_pending (s p w) : (State.putMem s p w).pending = s.pending := rfl
@[simp] theorem State.putMem_free (s p w) : (State.putMem s p w).free = s.free := rfl
@[simp] theorem State.putMem_out (s p w) : (State.putMem s p w).out = s.out := rfl
@[simp] theorem State.putMem_dir (s p w) : (State.putMem s p w).dir = s.dir := rfl
@[simp] theorem State.putMem_cores (s p w) : (State.putMem s p w).cores = s.cores := rfl
@[simp] theorem State.putMem_banks (s p w) : (State.putMem s p w).banks = s.banks := rfl
@[simp] theorem State.putMem_l2 (s p w) : (State.putMem s p w).l2 = s.l2 := rfl
@[simp] theorem State.putMem_memc (s p w) : (State.putMem s p w).memc = s.memc := rfl
@[simp] theorem State.putMem_weir (s p w) : (State.putMem s p w).weir = s.weir := rfl
@[simp] theorem State.putMem_twl (s p w) : (State.putMem s p w).twl = s.twl := rfl
@[simp] theorem State.putMem_sil (s p w) : (State.putMem s p w).sil = s.sil := rfl
@[simp] theorem State.putMem_slu (s p w) : (State.putMem s p w).slu = s.slu := rfl
@[simp] theorem State.putMem_man (s p w) : (State.putMem s p w).man = s.man := rfl
@[simp] theorem State.putMem_evt (s p w) : (State.putMem s p w).evt = s.evt := rfl
@[simp] theorem State.putMem_mbx (s p w) : (State.putMem s p w).mbx = s.mbx := rfl
@[simp] theorem State.putMem_lk (s p w) : (State.putMem s p w).lk = s.lk := rfl
@[simp] theorem State.putMem_pwr (s p w) : (State.putMem s p w).pwr = s.pwr := rfl
@[simp] theorem State.putMem_cal (s p w) : (State.putMem s p w).cal = s.cal := rfl
@[simp] theorem State.putMem_vault (s p w) : (State.putMem s p w).vault = s.vault := rfl
@[simp] theorem State.putMem_bbx (s p w) : (State.putMem s p w).bbx = s.bbx := rfl
@[simp] theorem State.putMem_dbg (s p w) : (State.putMem s p w).dbg = s.dbg := rfl
@[simp] theorem State.putMem_pins (s p w) : (State.putMem s p w).pins = s.pins := rfl
@[simp] theorem State.putMem_smb (s p w) : (State.putMem s p w).smb = s.smb := rfl

/-! ### putDir -/

@[simp] theorem State.putDir_pending (s n d) : (State.putDir s n d).pending = s.pending := rfl
@[simp] theorem State.putDir_free (s n d) : (State.putDir s n d).free = s.free := rfl
@[simp] theorem State.putDir_out (s n d) : (State.putDir s n d).out = s.out := rfl
@[simp] theorem State.putDir_mem (s n d) : (State.putDir s n d).mem = s.mem := rfl
@[simp] theorem State.putDir_cores (s n d) : (State.putDir s n d).cores = s.cores := rfl
@[simp] theorem State.putDir_banks (s n d) : (State.putDir s n d).banks = s.banks := rfl
@[simp] theorem State.putDir_l2 (s n d) : (State.putDir s n d).l2 = s.l2 := rfl
@[simp] theorem State.putDir_memc (s n d) : (State.putDir s n d).memc = s.memc := rfl
@[simp] theorem State.putDir_weir (s n d) : (State.putDir s n d).weir = s.weir := rfl
@[simp] theorem State.putDir_twl (s n d) : (State.putDir s n d).twl = s.twl := rfl
@[simp] theorem State.putDir_sil (s n d) : (State.putDir s n d).sil = s.sil := rfl
@[simp] theorem State.putDir_slu (s n d) : (State.putDir s n d).slu = s.slu := rfl
@[simp] theorem State.putDir_man (s n d) : (State.putDir s n d).man = s.man := rfl
@[simp] theorem State.putDir_evt (s n d) : (State.putDir s n d).evt = s.evt := rfl
@[simp] theorem State.putDir_mbx (s n d) : (State.putDir s n d).mbx = s.mbx := rfl
@[simp] theorem State.putDir_lk (s n d) : (State.putDir s n d).lk = s.lk := rfl
@[simp] theorem State.putDir_pwr (s n d) : (State.putDir s n d).pwr = s.pwr := rfl
@[simp] theorem State.putDir_cal (s n d) : (State.putDir s n d).cal = s.cal := rfl
@[simp] theorem State.putDir_vault (s n d) : (State.putDir s n d).vault = s.vault := rfl
@[simp] theorem State.putDir_bbx (s n d) : (State.putDir s n d).bbx = s.bbx := rfl
@[simp] theorem State.putDir_dbg (s n d) : (State.putDir s n d).dbg = s.dbg := rfl
@[simp] theorem State.putDir_pins (s n d) : (State.putDir s n d).pins = s.pins := rfl
@[simp] theorem State.putDir_smb (s n d) : (State.putDir s n d).smb = s.smb := rfl

/-! ### putPend -/

@[simp] theorem State.putPend_pending (s n b) : (State.putPend s n b).pending = s.pending := rfl
@[simp] theorem State.putPend_free (s n b) : (State.putPend s n b).free = s.free := rfl
@[simp] theorem State.putPend_out (s n b) : (State.putPend s n b).out = s.out := rfl
@[simp] theorem State.putPend_mem (s n b) : (State.putPend s n b).mem = s.mem := rfl
@[simp] theorem State.putPend_dir (s n b) : (State.putPend s n b).dir = s.dir := rfl
@[simp] theorem State.putPend_cores (s n b) : (State.putPend s n b).cores = s.cores := rfl
@[simp] theorem State.putPend_banks (s n b) : (State.putPend s n b).banks = s.banks := rfl
@[simp] theorem State.putPend_l2 (s n b) : (State.putPend s n b).l2 = s.l2 := rfl
@[simp] theorem State.putPend_memc (s n b) : (State.putPend s n b).memc = s.memc := rfl
@[simp] theorem State.putPend_weir (s n b) : (State.putPend s n b).weir = s.weir := rfl
@[simp] theorem State.putPend_twl (s n b) : (State.putPend s n b).twl = s.twl := rfl
@[simp] theorem State.putPend_sil (s n b) : (State.putPend s n b).sil = s.sil := rfl
@[simp] theorem State.putPend_slu (s n b) : (State.putPend s n b).slu = s.slu := rfl
@[simp] theorem State.putPend_man (s n b) : (State.putPend s n b).man = s.man := rfl
@[simp] theorem State.putPend_mbx (s n b) : (State.putPend s n b).mbx = s.mbx := rfl
@[simp] theorem State.putPend_lk (s n b) : (State.putPend s n b).lk = s.lk := rfl
@[simp] theorem State.putPend_pwr (s n b) : (State.putPend s n b).pwr = s.pwr := rfl
@[simp] theorem State.putPend_cal (s n b) : (State.putPend s n b).cal = s.cal := rfl
@[simp] theorem State.putPend_vault (s n b) : (State.putPend s n b).vault = s.vault := rfl
@[simp] theorem State.putPend_bbx (s n b) : (State.putPend s n b).bbx = s.bbx := rfl
@[simp] theorem State.putPend_dbg (s n b) : (State.putPend s n b).dbg = s.dbg := rfl
@[simp] theorem State.putPend_pins (s n b) : (State.putPend s n b).pins = s.pins := rfl
@[simp] theorem State.putPend_smb (s n b) : (State.putPend s n b).smb = s.smb := rfl

/-! ### modCore -/

@[simp] theorem State.modCore_pending (s c f) : (State.modCore s c f).pending = s.pending := rfl
@[simp] theorem State.modCore_free (s c f) : (State.modCore s c f).free = s.free := rfl
@[simp] theorem State.modCore_out (s c f) : (State.modCore s c f).out = s.out := rfl
@[simp] theorem State.modCore_mem (s c f) : (State.modCore s c f).mem = s.mem := rfl
@[simp] theorem State.modCore_dir (s c f) : (State.modCore s c f).dir = s.dir := rfl
@[simp] theorem State.modCore_banks (s c f) : (State.modCore s c f).banks = s.banks := rfl
@[simp] theorem State.modCore_l2 (s c f) : (State.modCore s c f).l2 = s.l2 := rfl
@[simp] theorem State.modCore_memc (s c f) : (State.modCore s c f).memc = s.memc := rfl
@[simp] theorem State.modCore_weir (s c f) : (State.modCore s c f).weir = s.weir := rfl
@[simp] theorem State.modCore_twl (s c f) : (State.modCore s c f).twl = s.twl := rfl
@[simp] theorem State.modCore_sil (s c f) : (State.modCore s c f).sil = s.sil := rfl
@[simp] theorem State.modCore_slu (s c f) : (State.modCore s c f).slu = s.slu := rfl
@[simp] theorem State.modCore_man (s c f) : (State.modCore s c f).man = s.man := rfl
@[simp] theorem State.modCore_evt (s c f) : (State.modCore s c f).evt = s.evt := rfl
@[simp] theorem State.modCore_mbx (s c f) : (State.modCore s c f).mbx = s.mbx := rfl
@[simp] theorem State.modCore_lk (s c f) : (State.modCore s c f).lk = s.lk := rfl
@[simp] theorem State.modCore_pwr (s c f) : (State.modCore s c f).pwr = s.pwr := rfl
@[simp] theorem State.modCore_cal (s c f) : (State.modCore s c f).cal = s.cal := rfl
@[simp] theorem State.modCore_vault (s c f) : (State.modCore s c f).vault = s.vault := rfl
@[simp] theorem State.modCore_bbx (s c f) : (State.modCore s c f).bbx = s.bbx := rfl
@[simp] theorem State.modCore_dbg (s c f) : (State.modCore s c f).dbg = s.dbg := rfl
@[simp] theorem State.modCore_pins (s c f) : (State.modCore s c f).pins = s.pins := rfl
@[simp] theorem State.modCore_smb (s c f) : (State.modCore s c f).smb = s.smb := rfl

/-! ### modBank -/

@[simp] theorem State.modBank_pending (s k f) : (State.modBank s k f).pending = s.pending := rfl
@[simp] theorem State.modBank_free (s k f) : (State.modBank s k f).free = s.free := rfl
@[simp] theorem State.modBank_out (s k f) : (State.modBank s k f).out = s.out := rfl
@[simp] theorem State.modBank_mem (s k f) : (State.modBank s k f).mem = s.mem := rfl
@[simp] theorem State.modBank_dir (s k f) : (State.modBank s k f).dir = s.dir := rfl
@[simp] theorem State.modBank_cores (s k f) : (State.modBank s k f).cores = s.cores := rfl
@[simp] theorem State.modBank_l2 (s k f) : (State.modBank s k f).l2 = s.l2 := rfl
@[simp] theorem State.modBank_memc (s k f) : (State.modBank s k f).memc = s.memc := rfl
@[simp] theorem State.modBank_weir (s k f) : (State.modBank s k f).weir = s.weir := rfl
@[simp] theorem State.modBank_twl (s k f) : (State.modBank s k f).twl = s.twl := rfl
@[simp] theorem State.modBank_sil (s k f) : (State.modBank s k f).sil = s.sil := rfl
@[simp] theorem State.modBank_slu (s k f) : (State.modBank s k f).slu = s.slu := rfl
@[simp] theorem State.modBank_man (s k f) : (State.modBank s k f).man = s.man := rfl
@[simp] theorem State.modBank_evt (s k f) : (State.modBank s k f).evt = s.evt := rfl
@[simp] theorem State.modBank_mbx (s k f) : (State.modBank s k f).mbx = s.mbx := rfl
@[simp] theorem State.modBank_lk (s k f) : (State.modBank s k f).lk = s.lk := rfl
@[simp] theorem State.modBank_pwr (s k f) : (State.modBank s k f).pwr = s.pwr := rfl
@[simp] theorem State.modBank_cal (s k f) : (State.modBank s k f).cal = s.cal := rfl
@[simp] theorem State.modBank_vault (s k f) : (State.modBank s k f).vault = s.vault := rfl
@[simp] theorem State.modBank_bbx (s k f) : (State.modBank s k f).bbx = s.bbx := rfl
@[simp] theorem State.modBank_dbg (s k f) : (State.modBank s k f).dbg = s.dbg := rfl
@[simp] theorem State.modBank_pins (s k f) : (State.modBank s k f).pins = s.pins := rfl
@[simp] theorem State.modBank_smb (s k f) : (State.modBank s k f).smb = s.smb := rfl

/-! ### modCtx -/

@[simp] theorem State.modCtx_pending (s k f) : (State.modCtx s k f).pending = s.pending := rfl
@[simp] theorem State.modCtx_free (s k f) : (State.modCtx s k f).free = s.free := rfl
@[simp] theorem State.modCtx_out (s k f) : (State.modCtx s k f).out = s.out := rfl
@[simp] theorem State.modCtx_mem (s k f) : (State.modCtx s k f).mem = s.mem := rfl
@[simp] theorem State.modCtx_dir (s k f) : (State.modCtx s k f).dir = s.dir := rfl
@[simp] theorem State.modCtx_cores (s k f) : (State.modCtx s k f).cores = s.cores := rfl
@[simp] theorem State.modCtx_l2 (s k f) : (State.modCtx s k f).l2 = s.l2 := rfl
@[simp] theorem State.modCtx_memc (s k f) : (State.modCtx s k f).memc = s.memc := rfl
@[simp] theorem State.modCtx_weir (s k f) : (State.modCtx s k f).weir = s.weir := rfl
@[simp] theorem State.modCtx_twl (s k f) : (State.modCtx s k f).twl = s.twl := rfl
@[simp] theorem State.modCtx_sil (s k f) : (State.modCtx s k f).sil = s.sil := rfl
@[simp] theorem State.modCtx_slu (s k f) : (State.modCtx s k f).slu = s.slu := rfl
@[simp] theorem State.modCtx_man (s k f) : (State.modCtx s k f).man = s.man := rfl
@[simp] theorem State.modCtx_evt (s k f) : (State.modCtx s k f).evt = s.evt := rfl
@[simp] theorem State.modCtx_mbx (s k f) : (State.modCtx s k f).mbx = s.mbx := rfl
@[simp] theorem State.modCtx_lk (s k f) : (State.modCtx s k f).lk = s.lk := rfl
@[simp] theorem State.modCtx_pwr (s k f) : (State.modCtx s k f).pwr = s.pwr := rfl
@[simp] theorem State.modCtx_cal (s k f) : (State.modCtx s k f).cal = s.cal := rfl
@[simp] theorem State.modCtx_vault (s k f) : (State.modCtx s k f).vault = s.vault := rfl
@[simp] theorem State.modCtx_bbx (s k f) : (State.modCtx s k f).bbx = s.bbx := rfl
@[simp] theorem State.modCtx_dbg (s k f) : (State.modCtx s k f).dbg = s.dbg := rfl
@[simp] theorem State.modCtx_pins (s k f) : (State.modCtx s k f).pins = s.pins := rfl
@[simp] theorem State.modCtx_smb (s k f) : (State.modCtx s k f).smb = s.smb := rfl

/-! ### modL2 -/

@[simp] theorem State.modL2_pending (s cl f) : (State.modL2 s cl f).pending = s.pending := rfl
@[simp] theorem State.modL2_free (s cl f) : (State.modL2 s cl f).free = s.free := rfl
@[simp] theorem State.modL2_out (s cl f) : (State.modL2 s cl f).out = s.out := rfl
@[simp] theorem State.modL2_mem (s cl f) : (State.modL2 s cl f).mem = s.mem := rfl
@[simp] theorem State.modL2_dir (s cl f) : (State.modL2 s cl f).dir = s.dir := rfl
@[simp] theorem State.modL2_cores (s cl f) : (State.modL2 s cl f).cores = s.cores := rfl
@[simp] theorem State.modL2_banks (s cl f) : (State.modL2 s cl f).banks = s.banks := rfl
@[simp] theorem State.modL2_memc (s cl f) : (State.modL2 s cl f).memc = s.memc := rfl
@[simp] theorem State.modL2_weir (s cl f) : (State.modL2 s cl f).weir = s.weir := rfl
@[simp] theorem State.modL2_twl (s cl f) : (State.modL2 s cl f).twl = s.twl := rfl
@[simp] theorem State.modL2_sil (s cl f) : (State.modL2 s cl f).sil = s.sil := rfl
@[simp] theorem State.modL2_slu (s cl f) : (State.modL2 s cl f).slu = s.slu := rfl
@[simp] theorem State.modL2_man (s cl f) : (State.modL2 s cl f).man = s.man := rfl
@[simp] theorem State.modL2_evt (s cl f) : (State.modL2 s cl f).evt = s.evt := rfl
@[simp] theorem State.modL2_mbx (s cl f) : (State.modL2 s cl f).mbx = s.mbx := rfl
@[simp] theorem State.modL2_lk (s cl f) : (State.modL2 s cl f).lk = s.lk := rfl
@[simp] theorem State.modL2_pwr (s cl f) : (State.modL2 s cl f).pwr = s.pwr := rfl
@[simp] theorem State.modL2_cal (s cl f) : (State.modL2 s cl f).cal = s.cal := rfl
@[simp] theorem State.modL2_vault (s cl f) : (State.modL2 s cl f).vault = s.vault := rfl
@[simp] theorem State.modL2_bbx (s cl f) : (State.modL2 s cl f).bbx = s.bbx := rfl
@[simp] theorem State.modL2_dbg (s cl f) : (State.modL2 s cl f).dbg = s.dbg := rfl
@[simp] theorem State.modL2_pins (s cl f) : (State.modL2 s cl f).pins = s.pins := rfl
@[simp] theorem State.modL2_smb (s cl f) : (State.modL2 s cl f).smb = s.smb := rfl

/-! ### modLink -/

@[simp] theorem State.modLink_pending (s n f) : (State.modLink s n f).pending = s.pending := rfl
@[simp] theorem State.modLink_free (s n f) : (State.modLink s n f).free = s.free := rfl
@[simp] theorem State.modLink_out (s n f) : (State.modLink s n f).out = s.out := rfl
@[simp] theorem State.modLink_mem (s n f) : (State.modLink s n f).mem = s.mem := rfl
@[simp] theorem State.modLink_dir (s n f) : (State.modLink s n f).dir = s.dir := rfl
@[simp] theorem State.modLink_cores (s n f) : (State.modLink s n f).cores = s.cores := rfl
@[simp] theorem State.modLink_banks (s n f) : (State.modLink s n f).banks = s.banks := rfl
@[simp] theorem State.modLink_l2 (s n f) : (State.modLink s n f).l2 = s.l2 := rfl
@[simp] theorem State.modLink_memc (s n f) : (State.modLink s n f).memc = s.memc := rfl
@[simp] theorem State.modLink_weir (s n f) : (State.modLink s n f).weir = s.weir := rfl
@[simp] theorem State.modLink_sil (s n f) : (State.modLink s n f).sil = s.sil := rfl
@[simp] theorem State.modLink_slu (s n f) : (State.modLink s n f).slu = s.slu := rfl
@[simp] theorem State.modLink_man (s n f) : (State.modLink s n f).man = s.man := rfl
@[simp] theorem State.modLink_evt (s n f) : (State.modLink s n f).evt = s.evt := rfl
@[simp] theorem State.modLink_mbx (s n f) : (State.modLink s n f).mbx = s.mbx := rfl
@[simp] theorem State.modLink_lk (s n f) : (State.modLink s n f).lk = s.lk := rfl
@[simp] theorem State.modLink_pwr (s n f) : (State.modLink s n f).pwr = s.pwr := rfl
@[simp] theorem State.modLink_cal (s n f) : (State.modLink s n f).cal = s.cal := rfl
@[simp] theorem State.modLink_vault (s n f) : (State.modLink s n f).vault = s.vault := rfl
@[simp] theorem State.modLink_bbx (s n f) : (State.modLink s n f).bbx = s.bbx := rfl
@[simp] theorem State.modLink_dbg (s n f) : (State.modLink s n f).dbg = s.dbg := rfl
@[simp] theorem State.modLink_pins (s n f) : (State.modLink s n f).pins = s.pins := rfl
@[simp] theorem State.modLink_smb (s n f) : (State.modLink s n f).smb = s.smb := rfl

/-! ### modLane -/

@[simp] theorem State.modLane_pending (s n f) : (State.modLane s n f).pending = s.pending := rfl
@[simp] theorem State.modLane_free (s n f) : (State.modLane s n f).free = s.free := rfl
@[simp] theorem State.modLane_out (s n f) : (State.modLane s n f).out = s.out := rfl
@[simp] theorem State.modLane_mem (s n f) : (State.modLane s n f).mem = s.mem := rfl
@[simp] theorem State.modLane_dir (s n f) : (State.modLane s n f).dir = s.dir := rfl
@[simp] theorem State.modLane_cores (s n f) : (State.modLane s n f).cores = s.cores := rfl
@[simp] theorem State.modLane_banks (s n f) : (State.modLane s n f).banks = s.banks := rfl
@[simp] theorem State.modLane_l2 (s n f) : (State.modLane s n f).l2 = s.l2 := rfl
@[simp] theorem State.modLane_memc (s n f) : (State.modLane s n f).memc = s.memc := rfl
@[simp] theorem State.modLane_weir (s n f) : (State.modLane s n f).weir = s.weir := rfl
@[simp] theorem State.modLane_sil (s n f) : (State.modLane s n f).sil = s.sil := rfl
@[simp] theorem State.modLane_slu (s n f) : (State.modLane s n f).slu = s.slu := rfl
@[simp] theorem State.modLane_man (s n f) : (State.modLane s n f).man = s.man := rfl
@[simp] theorem State.modLane_evt (s n f) : (State.modLane s n f).evt = s.evt := rfl
@[simp] theorem State.modLane_mbx (s n f) : (State.modLane s n f).mbx = s.mbx := rfl
@[simp] theorem State.modLane_lk (s n f) : (State.modLane s n f).lk = s.lk := rfl
@[simp] theorem State.modLane_pwr (s n f) : (State.modLane s n f).pwr = s.pwr := rfl
@[simp] theorem State.modLane_cal (s n f) : (State.modLane s n f).cal = s.cal := rfl
@[simp] theorem State.modLane_vault (s n f) : (State.modLane s n f).vault = s.vault := rfl
@[simp] theorem State.modLane_bbx (s n f) : (State.modLane s n f).bbx = s.bbx := rfl
@[simp] theorem State.modLane_dbg (s n f) : (State.modLane s n f).dbg = s.dbg := rfl
@[simp] theorem State.modLane_pins (s n f) : (State.modLane s n f).pins = s.pins := rfl
@[simp] theorem State.modLane_smb (s n f) : (State.modLane s n f).smb = s.smb := rfl

/-! ### modStream -/

@[simp] theorem State.modStream_pending (s k f) : (State.modStream s k f).pending = s.pending := rfl
@[simp] theorem State.modStream_free (s k f) : (State.modStream s k f).free = s.free := rfl
@[simp] theorem State.modStream_out (s k f) : (State.modStream s k f).out = s.out := rfl
@[simp] theorem State.modStream_mem (s k f) : (State.modStream s k f).mem = s.mem := rfl
@[simp] theorem State.modStream_dir (s k f) : (State.modStream s k f).dir = s.dir := rfl
@[simp] theorem State.modStream_cores (s k f) : (State.modStream s k f).cores = s.cores := rfl
@[simp] theorem State.modStream_banks (s k f) : (State.modStream s k f).banks = s.banks := rfl
@[simp] theorem State.modStream_l2 (s k f) : (State.modStream s k f).l2 = s.l2 := rfl
@[simp] theorem State.modStream_memc (s k f) : (State.modStream s k f).memc = s.memc := rfl
@[simp] theorem State.modStream_weir (s k f) : (State.modStream s k f).weir = s.weir := rfl
@[simp] theorem State.modStream_sil (s k f) : (State.modStream s k f).sil = s.sil := rfl
@[simp] theorem State.modStream_slu (s k f) : (State.modStream s k f).slu = s.slu := rfl
@[simp] theorem State.modStream_man (s k f) : (State.modStream s k f).man = s.man := rfl
@[simp] theorem State.modStream_evt (s k f) : (State.modStream s k f).evt = s.evt := rfl
@[simp] theorem State.modStream_mbx (s k f) : (State.modStream s k f).mbx = s.mbx := rfl
@[simp] theorem State.modStream_lk (s k f) : (State.modStream s k f).lk = s.lk := rfl
@[simp] theorem State.modStream_pwr (s k f) : (State.modStream s k f).pwr = s.pwr := rfl
@[simp] theorem State.modStream_cal (s k f) : (State.modStream s k f).cal = s.cal := rfl
@[simp] theorem State.modStream_vault (s k f) : (State.modStream s k f).vault = s.vault := rfl
@[simp] theorem State.modStream_bbx (s k f) : (State.modStream s k f).bbx = s.bbx := rfl
@[simp] theorem State.modStream_dbg (s k f) : (State.modStream s k f).dbg = s.dbg := rfl
@[simp] theorem State.modStream_pins (s k f) : (State.modStream s k f).pins = s.pins := rfl
@[simp] theorem State.modStream_smb (s k f) : (State.modStream s k f).smb = s.smb := rfl

/-! ### modChan -/

@[simp] theorem State.modChan_pending (s c f) : (State.modChan s c f).pending = s.pending := rfl
@[simp] theorem State.modChan_free (s c f) : (State.modChan s c f).free = s.free := rfl
@[simp] theorem State.modChan_out (s c f) : (State.modChan s c f).out = s.out := rfl
@[simp] theorem State.modChan_mem (s c f) : (State.modChan s c f).mem = s.mem := rfl
@[simp] theorem State.modChan_dir (s c f) : (State.modChan s c f).dir = s.dir := rfl
@[simp] theorem State.modChan_cores (s c f) : (State.modChan s c f).cores = s.cores := rfl
@[simp] theorem State.modChan_banks (s c f) : (State.modChan s c f).banks = s.banks := rfl
@[simp] theorem State.modChan_l2 (s c f) : (State.modChan s c f).l2 = s.l2 := rfl
@[simp] theorem State.modChan_memc (s c f) : (State.modChan s c f).memc = s.memc := rfl
@[simp] theorem State.modChan_weir (s c f) : (State.modChan s c f).weir = s.weir := rfl
@[simp] theorem State.modChan_twl (s c f) : (State.modChan s c f).twl = s.twl := rfl
@[simp] theorem State.modChan_sil (s c f) : (State.modChan s c f).sil = s.sil := rfl
@[simp] theorem State.modChan_man (s c f) : (State.modChan s c f).man = s.man := rfl
@[simp] theorem State.modChan_evt (s c f) : (State.modChan s c f).evt = s.evt := rfl
@[simp] theorem State.modChan_mbx (s c f) : (State.modChan s c f).mbx = s.mbx := rfl
@[simp] theorem State.modChan_lk (s c f) : (State.modChan s c f).lk = s.lk := rfl
@[simp] theorem State.modChan_pwr (s c f) : (State.modChan s c f).pwr = s.pwr := rfl
@[simp] theorem State.modChan_cal (s c f) : (State.modChan s c f).cal = s.cal := rfl
@[simp] theorem State.modChan_vault (s c f) : (State.modChan s c f).vault = s.vault := rfl
@[simp] theorem State.modChan_bbx (s c f) : (State.modChan s c f).bbx = s.bbx := rfl
@[simp] theorem State.modChan_dbg (s c f) : (State.modChan s c f).dbg = s.dbg := rfl
@[simp] theorem State.modChan_pins (s c f) : (State.modChan s c f).pins = s.pins := rfl
@[simp] theorem State.modChan_smb (s c f) : (State.modChan s c f).smb = s.smb := rfl

/-! ### modTask -/

@[simp] theorem State.modTask_pending (s i f) : (State.modTask s i f).pending = s.pending := rfl
@[simp] theorem State.modTask_free (s i f) : (State.modTask s i f).free = s.free := rfl
@[simp] theorem State.modTask_out (s i f) : (State.modTask s i f).out = s.out := rfl
@[simp] theorem State.modTask_mem (s i f) : (State.modTask s i f).mem = s.mem := rfl
@[simp] theorem State.modTask_dir (s i f) : (State.modTask s i f).dir = s.dir := rfl
@[simp] theorem State.modTask_cores (s i f) : (State.modTask s i f).cores = s.cores := rfl
@[simp] theorem State.modTask_banks (s i f) : (State.modTask s i f).banks = s.banks := rfl
@[simp] theorem State.modTask_l2 (s i f) : (State.modTask s i f).l2 = s.l2 := rfl
@[simp] theorem State.modTask_memc (s i f) : (State.modTask s i f).memc = s.memc := rfl
@[simp] theorem State.modTask_twl (s i f) : (State.modTask s i f).twl = s.twl := rfl
@[simp] theorem State.modTask_sil (s i f) : (State.modTask s i f).sil = s.sil := rfl
@[simp] theorem State.modTask_slu (s i f) : (State.modTask s i f).slu = s.slu := rfl
@[simp] theorem State.modTask_man (s i f) : (State.modTask s i f).man = s.man := rfl
@[simp] theorem State.modTask_evt (s i f) : (State.modTask s i f).evt = s.evt := rfl
@[simp] theorem State.modTask_mbx (s i f) : (State.modTask s i f).mbx = s.mbx := rfl
@[simp] theorem State.modTask_lk (s i f) : (State.modTask s i f).lk = s.lk := rfl
@[simp] theorem State.modTask_pwr (s i f) : (State.modTask s i f).pwr = s.pwr := rfl
@[simp] theorem State.modTask_cal (s i f) : (State.modTask s i f).cal = s.cal := rfl
@[simp] theorem State.modTask_vault (s i f) : (State.modTask s i f).vault = s.vault := rfl
@[simp] theorem State.modTask_bbx (s i f) : (State.modTask s i f).bbx = s.bbx := rfl
@[simp] theorem State.modTask_dbg (s i f) : (State.modTask s i f).dbg = s.dbg := rfl
@[simp] theorem State.modTask_pins (s i f) : (State.modTask s i f).pins = s.pins := rfl
@[simp] theorem State.modTask_smb (s i f) : (State.modTask s i f).smb = s.smb := rfl

/-! ### modTstat -/

@[simp] theorem State.modTstat_pending (s i f) : (State.modTstat s i f).pending = s.pending := rfl
@[simp] theorem State.modTstat_free (s i f) : (State.modTstat s i f).free = s.free := rfl
@[simp] theorem State.modTstat_out (s i f) : (State.modTstat s i f).out = s.out := rfl
@[simp] theorem State.modTstat_mem (s i f) : (State.modTstat s i f).mem = s.mem := rfl
@[simp] theorem State.modTstat_dir (s i f) : (State.modTstat s i f).dir = s.dir := rfl
@[simp] theorem State.modTstat_cores (s i f) : (State.modTstat s i f).cores = s.cores := rfl
@[simp] theorem State.modTstat_banks (s i f) : (State.modTstat s i f).banks = s.banks := rfl
@[simp] theorem State.modTstat_l2 (s i f) : (State.modTstat s i f).l2 = s.l2 := rfl
@[simp] theorem State.modTstat_memc (s i f) : (State.modTstat s i f).memc = s.memc := rfl
@[simp] theorem State.modTstat_twl (s i f) : (State.modTstat s i f).twl = s.twl := rfl
@[simp] theorem State.modTstat_sil (s i f) : (State.modTstat s i f).sil = s.sil := rfl
@[simp] theorem State.modTstat_slu (s i f) : (State.modTstat s i f).slu = s.slu := rfl
@[simp] theorem State.modTstat_man (s i f) : (State.modTstat s i f).man = s.man := rfl
@[simp] theorem State.modTstat_evt (s i f) : (State.modTstat s i f).evt = s.evt := rfl
@[simp] theorem State.modTstat_mbx (s i f) : (State.modTstat s i f).mbx = s.mbx := rfl
@[simp] theorem State.modTstat_lk (s i f) : (State.modTstat s i f).lk = s.lk := rfl
@[simp] theorem State.modTstat_pwr (s i f) : (State.modTstat s i f).pwr = s.pwr := rfl
@[simp] theorem State.modTstat_cal (s i f) : (State.modTstat s i f).cal = s.cal := rfl
@[simp] theorem State.modTstat_vault (s i f) : (State.modTstat s i f).vault = s.vault := rfl
@[simp] theorem State.modTstat_bbx (s i f) : (State.modTstat s i f).bbx = s.bbx := rfl
@[simp] theorem State.modTstat_dbg (s i f) : (State.modTstat s i f).dbg = s.dbg := rfl
@[simp] theorem State.modTstat_pins (s i f) : (State.modTstat s i f).pins = s.pins := rfl
@[simp] theorem State.modTstat_smb (s i f) : (State.modTstat s i f).smb = s.smb := rfl

/-! ### modEcc -/

@[simp] theorem State.modEcc_pending (s t f) : (State.modEcc s t f).pending = s.pending := rfl
@[simp] theorem State.modEcc_free (s t f) : (State.modEcc s t f).free = s.free := rfl
@[simp] theorem State.modEcc_out (s t f) : (State.modEcc s t f).out = s.out := rfl
@[simp] theorem State.modEcc_mem (s t f) : (State.modEcc s t f).mem = s.mem := rfl
@[simp] theorem State.modEcc_dir (s t f) : (State.modEcc s t f).dir = s.dir := rfl
@[simp] theorem State.modEcc_cores (s t f) : (State.modEcc s t f).cores = s.cores := rfl
@[simp] theorem State.modEcc_banks (s t f) : (State.modEcc s t f).banks = s.banks := rfl
@[simp] theorem State.modEcc_l2 (s t f) : (State.modEcc s t f).l2 = s.l2 := rfl
@[simp] theorem State.modEcc_weir (s t f) : (State.modEcc s t f).weir = s.weir := rfl
@[simp] theorem State.modEcc_twl (s t f) : (State.modEcc s t f).twl = s.twl := rfl
@[simp] theorem State.modEcc_sil (s t f) : (State.modEcc s t f).sil = s.sil := rfl
@[simp] theorem State.modEcc_slu (s t f) : (State.modEcc s t f).slu = s.slu := rfl
@[simp] theorem State.modEcc_man (s t f) : (State.modEcc s t f).man = s.man := rfl
@[simp] theorem State.modEcc_evt (s t f) : (State.modEcc s t f).evt = s.evt := rfl
@[simp] theorem State.modEcc_mbx (s t f) : (State.modEcc s t f).mbx = s.mbx := rfl
@[simp] theorem State.modEcc_lk (s t f) : (State.modEcc s t f).lk = s.lk := rfl
@[simp] theorem State.modEcc_pwr (s t f) : (State.modEcc s t f).pwr = s.pwr := rfl
@[simp] theorem State.modEcc_cal (s t f) : (State.modEcc s t f).cal = s.cal := rfl
@[simp] theorem State.modEcc_vault (s t f) : (State.modEcc s t f).vault = s.vault := rfl
@[simp] theorem State.modEcc_bbx (s t f) : (State.modEcc s t f).bbx = s.bbx := rfl
@[simp] theorem State.modEcc_dbg (s t f) : (State.modEcc s t f).dbg = s.dbg := rfl
@[simp] theorem State.modEcc_pins (s t f) : (State.modEcc s t f).pins = s.pins := rfl
@[simp] theorem State.modEcc_smb (s t f) : (State.modEcc s t f).smb = s.smb := rfl

/-! ### Parts behind their reader -/

@[simp] theorem State.coreOf_modCore_same (s : State) (c : CoreId) (f) : (s.modCore c f).coreOf c = f (s.coreOf c) := by
  simp [State.modCore, State.coreOf]

@[simp] theorem State.coreOf_modCore_ne (s : State) {c c' : CoreId} (f) (h : c' ≠ c) : (s.modCore c f).coreOf c' = s.coreOf c' := by
  simp [State.modCore, State.coreOf, Fin.val_ne_of_ne h]

@[simp] theorem State.bankOf_modBank_same (s : State) (k f) : (State.modBank s k f).bankOf k = f (s.bankOf k) := by
  simp [State.modBank, State.bankOf]

@[simp] theorem State.bankOf_modBank_ne (s : State) {k k' : Nat} (f) (h : k' ≠ k) : (s.modBank k f).bankOf k' = s.bankOf k' := by
  simp [State.modBank, State.bankOf, h]

@[simp] theorem State.bankOf_modCtx_same (s : State) (k f) :
    (State.modCtx s k f).bankOf k = { s.bankOf k with x := f (s.ctx k) } := by
  simp [State.modCtx, State.ctx]

@[simp] theorem State.bankOf_modCtx_ne (s : State) {k k' : Nat} (f) (h : k' ≠ k) : (s.modCtx k f).bankOf k' = s.bankOf k' := by
  simp [State.modCtx, h]

@[simp] theorem State.ctx_modCtx_same (s : State) (k f) : (State.modCtx s k f).ctx k = f (s.ctx k) := by
  simp [State.ctx]

@[simp] theorem State.ctx_modCtx_ne (s : State) {k k' : Nat} (f) (h : k' ≠ k) : (s.modCtx k f).ctx k' = s.ctx k' := by
  simp [State.ctx, h]

@[simp] theorem State.coreOf_modCtx (s : State) (k f c) : (State.modCtx s k f).coreOf c = s.coreOf c := rfl
@[simp] theorem State.coreOf_modBank (s : State) (k f c) : (State.modBank s k f).coreOf c = s.coreOf c := rfl
@[simp] theorem State.bankOf_modCore (s : State) (c f k) : (State.modCore s c f).bankOf k = s.bankOf k := rfl
@[simp] theorem State.ctx_modCore (s : State) (c f k) : (State.modCore s c f).ctx k = s.ctx k := rfl
@[simp] theorem State.ctx_putMem (s : State) (p w k) : (State.putMem s p w).ctx k = s.ctx k := rfl

@[simp] theorem State.l2Of_modL2_same (s : State) (cl : ClusterId) (f) : (s.modL2 cl f).l2Of cl = f (s.l2Of cl) := by
  simp [State.modL2, State.l2Of]

@[simp] theorem State.l2Of_modL2_ne (s : State) {cl cl' : ClusterId} (f) (h : cl' ≠ cl) : (s.modL2 cl f).l2Of cl' = s.l2Of cl' := by
  simp [State.modL2, State.l2Of, Fin.val_ne_of_ne h]

@[simp] theorem State.linkOf_modLink_same (s : State) (n f) : (State.modLink s n f).linkOf n = f (s.linkOf n) := by
  simp [State.modLink, State.linkOf]

@[simp] theorem State.linkOf_modLink_ne (s : State) {n n' : Nat} (f) (h : n' ≠ n) : (s.modLink n f).linkOf n' = s.linkOf n' := by
  simp [State.modLink, State.linkOf, h]

@[simp] theorem State.laneOf_modLane_same (s : State) (n f) : (State.modLane s n f).laneOf n = f (s.laneOf n) := by
  simp [State.modLane, State.laneOf]

@[simp] theorem State.laneOf_modLane_ne (s : State) {n n' : Nat} (f) (h : n' ≠ n) : (s.modLane n f).laneOf n' = s.laneOf n' := by
  simp [State.modLane, State.laneOf, h]

@[simp] theorem State.streamOf_modStream_same (s : State) (n f) : (State.modStream s n f).streamOf n = f (s.streamOf n) := by
  simp [State.modStream, State.streamOf]

@[simp] theorem State.streamOf_modStream_ne (s : State) {n n' : Nat} (f) (h : n' ≠ n) :
    (s.modStream n f).streamOf n' = s.streamOf n' := by
  simp [State.modStream, State.streamOf, h]

@[simp] theorem State.chanOf_modChan_same (s : State) (n f) : (State.modChan s n f).chanOf n = f (s.chanOf n) := by
  simp [State.modChan, State.chanOf]

@[simp] theorem State.chanOf_modChan_ne (s : State) {n n' : Nat} (f) (h : n' ≠ n) : (s.modChan n f).chanOf n' = s.chanOf n' := by
  simp [State.modChan, State.chanOf, h]

/-! ### Registers of a bank (R84) -/

@[simp] theorem BankCtx.at_put_same (x : BankCtx) (i w) : (x.put i w).at_ i = w := by simp [BankCtx.put, BankCtx.at_]

@[simp] theorem BankCtx.at_put_ne (x : BankCtx) {i j : Nat} (w) (h : j ≠ i) : (x.put i w).at_ j = x.at_ j := by
  simp [BankCtx.put, BankCtx.at_, h]

@[simp] theorem BankCtx.get_set_same (x : BankCtx) (r w) : (x.set r w).get r = w :=
  mget_mset_same wordD x.regs _ w

@[simp] theorem BankCtx.put_pc (x : BankCtx) (i w) : (x.put i w).pc = x.pc := rfl
@[simp] theorem BankCtx.set_pc (x : BankCtx) (r w) : (x.set r w).pc = x.pc := rfl
@[simp] theorem BankCtx.put_psw (x : BankCtx) (i w) : (x.put i w).psw = x.psw := rfl
@[simp] theorem BankCtx.set_psw (x : BankCtx) (r w) : (x.set r w).psw = x.psw := rfl
@[simp] theorem BankCtx.put_winpos (x : BankCtx) (i w) : (x.put i w).winpos = x.winpos := rfl
@[simp] theorem BankCtx.set_winpos (x : BankCtx) (r w) : (x.set r w).winpos = x.winpos := rfl
@[simp] theorem BankCtx.put_spill (x : BankCtx) (i w) : (x.put i w).spill = x.spill := rfl
@[simp] theorem BankCtx.set_spill (x : BankCtx) (r w) : (x.set r w).spill = x.spill := rfl
@[simp] theorem BankCtx.put_basin (x : BankCtx) (i w) : (x.put i w).basin = x.basin := rfl
@[simp] theorem BankCtx.set_basin (x : BankCtx) (r w) : (x.set r w).basin = x.basin := rfl
@[simp] theorem BankCtx.put_trapv (x : BankCtx) (i w) : (x.put i w).trapv = x.trapv := rfl
@[simp] theorem BankCtx.set_trapv (x : BankCtx) (r w) : (x.set r w).trapv = x.trapv := rfl
@[simp] theorem BankCtx.put_tsp (x : BankCtx) (i w) : (x.put i w).tsp = x.tsp := rfl
@[simp] theorem BankCtx.set_tsp (x : BankCtx) (r w) : (x.set r w).tsp = x.tsp := rfl
@[simp] theorem BankCtx.put_tsl (x : BankCtx) (i w) : (x.put i w).tsl = x.tsl := rfl
@[simp] theorem BankCtx.set_tsl (x : BankCtx) (r w) : (x.set r w).tsl = x.tsl := rfl
@[simp] theorem BankCtx.put_tdepth (x : BankCtx) (i w) : (x.put i w).tdepth = x.tdepth := rfl
@[simp] theorem BankCtx.set_tdepth (x : BankCtx) (r w) : (x.set r w).tdepth = x.tdepth := rfl
@[simp] theorem BankCtx.put_alloc (x : BankCtx) (i w) : (x.put i w).alloc = x.alloc := rfl
@[simp] theorem BankCtx.set_alloc (x : BankCtx) (r w) : (x.set r w).alloc = x.alloc := rfl
@[simp] theorem BankCtx.put_alimit (x : BankCtx) (i w) : (x.put i w).alimit = x.alimit := rfl
@[simp] theorem BankCtx.set_alimit (x : BankCtx) (r w) : (x.set r w).alimit = x.alimit := rfl
@[simp] theorem BankCtx.put_toalloc (x : BankCtx) (i w) : (x.put i w).toalloc = x.toalloc := rfl
@[simp] theorem BankCtx.set_toalloc (x : BankCtx) (r w) : (x.set r w).toalloc = x.toalloc := rfl
@[simp] theorem BankCtx.put_cmask (x : BankCtx) (i w) : (x.put i w).cmask = x.cmask := rfl
@[simp] theorem BankCtx.set_cmask (x : BankCtx) (r w) : (x.set r w).cmask = x.cmask := rfl
@[simp] theorem BankCtx.put_cardbase (x : BankCtx) (i w) : (x.put i w).cardbase = x.cardbase := rfl
@[simp] theorem BankCtx.set_cardbase (x : BankCtx) (r w) : (x.set r w).cardbase = x.cardbase := rfl
@[simp] theorem BankCtx.put_bmat (x : BankCtx) (i w) : (x.put i w).bmat = x.bmat := rfl
@[simp] theorem BankCtx.set_bmat (x : BankCtx) (r w) : (x.set r w).bmat = x.bmat := rfl
@[simp] theorem BankCtx.put_isOver (x : BankCtx) (i w) : (x.put i w).isOver = x.isOver := rfl
@[simp] theorem BankCtx.set_isOver (x : BankCtx) (r w) : (x.set r w).isOver = x.isOver := rfl
@[simp] theorem BankCtx.put_frame (x : BankCtx) (i w) : (x.put i w).frame = x.frame := rfl
@[simp] theorem BankCtx.set_frame (x : BankCtx) (r w) : (x.set r w).frame = x.frame := rfl
@[simp] theorem BankCtx.put_grace (x : BankCtx) (i w) : (x.put i w).grace = x.grace := rfl
@[simp] theorem BankCtx.set_grace (x : BankCtx) (r w) : (x.set r w).grace = x.grace := rfl
@[simp] theorem BankCtx.put_remain (x : BankCtx) (i w) : (x.put i w).remain = x.remain := rfl
@[simp] theorem BankCtx.set_remain (x : BankCtx) (r w) : (x.set r w).remain = x.remain := rfl
@[simp] theorem BankCtx.put_carrymask (x : BankCtx) (i w) : (x.put i w).carrymask = x.carrymask := rfl
@[simp] theorem BankCtx.set_carrymask (x : BankCtx) (r w) : (x.set r w).carrymask = x.carrymask := rfl
@[simp] theorem BankCtx.put_st (x : BankCtx) (i w) : (x.put i w).st = x.st := rfl
@[simp] theorem BankCtx.set_st (x : BankCtx) (r w) : (x.set r w).st = x.st := rfl
@[simp] theorem BankCtx.put_prio (x : BankCtx) (i w) : (x.put i w).prio = x.prio := rfl
@[simp] theorem BankCtx.set_prio (x : BankCtx) (r w) : (x.set r w).prio = x.prio := rfl
@[simp] theorem BankCtx.put_sill (x : BankCtx) (i w) : (x.put i w).sill = x.sill := rfl
@[simp] theorem BankCtx.set_sill (x : BankCtx) (r w) : (x.set r w).sill = x.sill := rfl
@[simp] theorem BankCtx.put_pendBudget (x : BankCtx) (i w) : (x.put i w).pendBudget = x.pendBudget := rfl
@[simp] theorem BankCtx.set_pendBudget (x : BankCtx) (r w) : (x.set r w).pendBudget = x.pendBudget := rfl
@[simp] theorem BankCtx.put_pendTstack (x : BankCtx) (i w) : (x.put i w).pendTstack = x.pendTstack := rfl
@[simp] theorem BankCtx.set_pendTstack (x : BankCtx) (r w) : (x.set r w).pendTstack = x.pendTstack := rfl
@[simp] theorem BankCtx.put_due (x : BankCtx) (i w) : (x.put i w).due = x.due := rfl
@[simp] theorem BankCtx.set_due (x : BankCtx) (r w) : (x.set r w).due = x.due := rfl
@[simp] theorem BankCtx.put_openRec (x : BankCtx) (i w) : (x.put i w).openRec = x.openRec := rfl
@[simp] theorem BankCtx.set_openRec (x : BankCtx) (r w) : (x.set r w).openRec = x.openRec := rfl

end Sys2Proof.Machine
end

