-- ==== Sys2Proof/Laws/Memory.lean ====
section
/-!
SUPPORT. The operations on the tagged store: that each keeps the canonical form, and, where no triplet has failed, nothing is mirrored
and no bit has flipped, what each word reads as afterwards.
-/

namespace Sys2Proof.Machine

variable (s : State)

/-! ### Folds -/

/-- A property that every round keeps holds after the fold. -/
theorem forEach_keeps {α : Type} (P : State → Prop) (l : List α) (f : State → α → State) (h : ∀ t a, P t → P (f t a)) (hs : P s) :
    P (forEach l s f) := by
  induction l generalizing s with
  | nil => exact hs
  | cons a l ih => exact ih (f s a) (h s a hs)

/-- A fold whose every round does nothing where P holds does nothing. -/
theorem forEach_id {α : Type} (l : List α) (f : State → α → State) (h : ∀ a ∈ l, f s a = s) : forEach l s f = s := by
  induction l with
  | nil => rfl
  | cons a l ih =>
    show forEach l (f s a) f = s
    rw [h a (List.mem_cons_self ..)]
    exact ih fun b hb => h b (List.mem_cons_of_mem _ hb)

/-! ### What leaves memory alone -/

theorem pended_mem (n : Nat) : (s.pended n).mem = s.mem := by
  unfold State.pended
  dsimp only
  split
  · rfl
  · split
    · unfold State.wakeBank
      split <;> rfl
    · split <;> rfl

theorem raise_mem (n : Nat) : (s.raise n).mem = s.mem := by
  unfold State.raise State.pend
  split
  · rfl
  · rw [pended_mem]
    rfl

theorem stageLk_mem (typ ws) : (s.stageLk typ ws).mem = s.mem := by
  unfold State.stageLk
  dsimp only
  split <;> rfl

theorem log_mem (code unit data) : (s.log code unit data).mem = s.mem := by
  unfold State.log
  dsimp only
  split
  · rw [stageLk_mem]
    rfl
  · rfl

theorem logCount_mem (code unit data) : (s.logCount code unit data).mem = s.mem := by
  unfold State.logCount
  dsimp only
  split
  · rfl
  · exact log_mem s _ _ _

theorem countCorr_mem (t n : Nat) : (s.countCorr t n).mem = s.mem := by
  unfold State.countCorr
  dsimp only
  split
  · rfl
  · split
    · rw [raise_mem]
      rfl
    · rfl

theorem modEcc_mem (t f) : (s.modEcc t f).mem = s.mem := rfl
theorem modL2_mem (cl f) : (s.modL2 cl f).mem = s.mem := rfl
theorem setFlaw_mem (line f : Nat) : (s.setFlaw line f).mem = s.mem := rfl
theorem snoop_mem (line : Nat) (own : Option ClusterId) : (s.snoop line own).mem = s.mem := rfl

theorem soundLine_mem (line : Nat) : (s.soundLine line).mem = s.mem := by
  simp only [State.soundLine, apply_ite State.mem, setFlaw_mem, ite_self]

theorem l2Error_mem (cl log f) : (s.l2Error cl log f).mem = s.mem := by
  unfold State.l2Error
  rw [raise_mem]
  rfl

theorem endResv_mem (a : Nat) : (s.endResv a).mem = s.mem :=
  forEach_keeps s (fun t => t.mem = s.mem) _ _ (fun _ _ ht => ht) rfl

theorem spendCredits_mem (k n : Nat) : (s.spendCredits k n).mem = s.mem := by
  unfold State.spendCredits
  split <;> rfl

/-! ### The canonical form -/

/-- The form is a matter of memory alone. -/
theorem canonical_of_mem {s t : State} (e : t.mem = s.mem) (h : MemCanonical s) : MemCanonical t := by
  unfold MemCanonical
  rw [e]
  exact h

theorem reset_canonical : MemCanonical State.reset := rfl

variable {s}

theorem putMem_canonical {a w} (h : MemCanonical s) : MemCanonical (s.putMem a w) := mwf_mset _ _ _ _ h

theorem putSgram_canonical {a w} (h : MemCanonical s) : MemCanonical (s.putSgram a w) := by
  have h1 : MemCanonical (if s.tfailed a then s else s.putMem a w) := by
    split
    · exact h
    · exact putMem_canonical h
  unfold State.putSgram
  dsimp only
  split
  · exact putMem_canonical h1
  · exact h1

theorem putLine_canonical {line ws} (h : MemCanonical s) : MemCanonical (s.putLine line ws) :=
  canonical_of_mem (soundLine_mem _ _) (forEach_keeps s MemCanonical _ _ (fun _ _ ht => putSgram_canonical ht) h)

theorem writeBack_canonical {line} (h : MemCanonical s) : MemCanonical (s.writeBack line) := by
  have h1 : MemCanonical ((s.putDir line ⟨0, []⟩).putLine line (s.rdLine line)) := putLine_canonical (s := s.putDir line ⟨0, []⟩) h
  unfold State.writeBack
  dsimp only
  split
  · split
    · exact canonical_of_mem ((modL2_mem ..).trans (modL2_mem ..)) h1
    · exact canonical_of_mem (modL2_mem ..) h1
  · exact h

theorem keepCopies_canonical {line} (h : MemCanonical s) : MemCanonical (s.keepCopies line) := by
  unfold State.keepCopies
  split
  · exact h
  · exact forEach_keeps s MemCanonical _ _ (fun _ _ ht => canonical_of_mem (modL2_mem ..) ht) h

theorem putLineWord_canonical {line k w} (h : MemCanonical s) : MemCanonical (s.putLineWord line k w) := by
  unfold State.putLineWord
  split
  · exact h
  · refine putMem_canonical ?_
    split
    · exact h
    · exact keepCopies_canonical h

theorem loseWord_canonical {line k origin} (h : MemCanonical s) : MemCanonical (s.loseWord line k origin) := by
  unfold State.loseWord
  dsimp only
  split
  · exact canonical_of_mem (countCorr_mem _ _ _) (putLineWord_canonical h)
  · exact canonical_of_mem (logCount_mem _ _ _ _) (putLineWord_canonical (s := s) h)

theorem checkedWord_canonical {line origin wk} (h : MemCanonical s) : MemCanonical (s.checkedWord line origin wk) := by
  unfold State.checkedWord
  split
  · split
    · exact h
    · exact canonical_of_mem (countCorr_mem _ _ _) (putLineWord_canonical h)
  · exact loseWord_canonical h

theorem checkImage_canonical {line img origin rewrite} (h : MemCanonical s) : MemCanonical (s.checkImage line img origin rewrite) := by
  have h1 := forEach_keeps s MemCanonical ((List.range 8).map fun k => decodeWord img k).zipIdx
    (fun s wk => s.checkedWord line origin wk) (fun _ _ ht => checkedWord_canonical ht) h
  refine canonical_of_mem ?_ h1
  simp only [State.checkImage, apply_ite State.mem, setFlaw_mem, ite_self]

theorem readLine_canonical {line e origin rewrite} (h : MemCanonical s) : MemCanonical (s.readLine line e origin rewrite) := by
  have h0 : MemCanonical (s.setFlaw line (s.flawOf line ^^^ burstMask e.stored)) := canonical_of_mem (setFlaw_mem ..) h
  unfold State.readLine
  dsimp only
  generalize s.setFlaw line (s.flawOf line ^^^ burstMask e.stored) = s0 at h0 ⊢
  have hc (t : State) (ht : MemCanonical t) :
      MemCanonical (t.modEcc (tripOf (8 * line)) fun e => { e with sig := (e.sig + 1) % 65536 }) := canonical_of_mem (modEcc_mem ..) ht
  split
  · exact h
  · split
    · split
      · refine canonical_of_mem ((raise_mem _ _).trans (setFlaw_mem _ _ _)) ?_
        exact forEach_keeps _ MemCanonical _ _ (fun _ _ ht => loseWord_canonical ht) (hc _ (hc _ h0))
      · exact checkImage_canonical (hc _ h0)
    · exact checkImage_canonical h0

theorem checkLine_canonical {line rewrite} (h : MemCanonical s) : MemCanonical (s.checkLine line rewrite) := by
  unfold State.checkLine
  split
  · exact h
  · exact readLine_canonical h

theorem mirrorWord_canonical {pa} (h : MemCanonical s) : MemCanonical (s.mirrorWord pa) := by
  have h1 : MemCanonical (s.checkLine (pa / 8 + 4) false) := checkLine_canonical h
  unfold State.mirrorWord
  dsimp only
  split
  · split
    · split
      · exact h1
      · exact canonical_of_mem (countCorr_mem _ _ _) (putMem_canonical h1)
    · exact h1
  · exact h

theorem poisonLine_canonical {line} (h : MemCanonical s) : MemCanonical (s.poisonLine line) :=
  putLine_canonical (canonical_of_mem ((snoop_mem ..).trans (State.putDir_mem ..)) h)

theorem loseLine_canonical {cl kind line} (h : MemCanonical s) : MemCanonical (s.loseLine cl kind line) :=
  canonical_of_mem ((logCount_mem ..).trans (l2Error_mem ..)) (poisonLine_canonical h)

theorem tagError_canonical {cl b} (h : MemCanonical s) : MemCanonical (s.tagError cl b) := by
  have h1 (log f g) : MemCanonical ((s.l2Error cl log f).modL2 cl g) := canonical_of_mem ((modL2_mem ..).trans (l2Error_mem ..)) h
  unfold State.tagError
  dsimp only
  split
  · split
    · split
      · exact loseLine_canonical (h1 _ _ _)
      · exact h1 _ _ _
    · exact h
  · split
    · exact h
    · split
      · exact loseLine_canonical (h1 _ _ _)
      · exact h1 _ _ _

theorem checkTags_canonical {cl line} (h : MemCanonical s) : MemCanonical (s.checkTags cl line) := by
  unfold State.checkTags
  dsimp only
  split
  · exact h
  · exact forEach_keeps _ MemCanonical _ _ (fun _ _ ht => tagError_canonical ht) (canonical_of_mem (modL2_mem ..) h)

theorem own_canonical {cl pos line} (h : MemCanonical s) : MemCanonical (s.own cl pos line) := by
  unfold State.own
  dsimp only
  split
  · exact h
  · refine canonical_of_mem ((modL2_mem ..).trans (State.putDir_mem ..)) ?_
    exact forEach_keeps (s.writeBack line) MemCanonical _ _ (fun _ _ ht => putMem_canonical ht) (writeBack_canonical h)

theorem keepL1_canonical {cl line} (h : MemCanonical s) : MemCanonical (s.keepL1 cl line) :=
  forEach_keeps s MemCanonical _ _ (fun _ _ ht => canonical_of_mem (modL2_mem ..) ht) h

theorem putCopy_canonical {cl place line k w} (h : MemCanonical s) : MemCanonical (s.putCopy cl place line k w) := by
  have h1 : MemCanonical (if place = 0 then s.keepL1 cl line else s) := by
    split
    · exact keepL1_canonical h
    · exact h
  unfold State.putCopy
  dsimp only
  split
  · exact h
  · split
    · exact putMem_canonical h1
    · exact canonical_of_mem (modL2_mem ..) h1

theorem checkArrayWord_canonical {cl place line img k} (h : MemCanonical s) : MemCanonical (State.checkArrayWord cl place line img s k) := by
  unfold State.checkArrayWord
  dsimp only
  split
  · split
    · exact putCopy_canonical h
    · exact canonical_of_mem (modL2_mem ..) (putCopy_canonical h)
  · exact canonical_of_mem ((logCount_mem ..).trans (l2Error_mem ..)) (putCopy_canonical h)

theorem checkArrays_canonical {cl place line e} (h : MemCanonical s) : MemCanonical (s.checkArrays cl place line e) := by
  unfold State.checkArrays
  dsimp only
  split
  · exact h
  · exact forEach_keeps _ MemCanonical _ _ (fun _ _ ht => checkArrayWord_canonical ht) (canonical_of_mem (modL2_mem ..) h)

theorem checkDir_canonical {line o} (h : MemCanonical s) : MemCanonical (s.checkDir line o) := by
  unfold State.checkDir
  split
  · exact loseLine_canonical (canonical_of_mem (State.modMemc_mem ..) h)
  · exact h

theorem settle_canonical {line o} (h : MemCanonical s) : MemCanonical (s.settle line o) := by
  have h1 : MemCanonical (s.checkDir line o) := checkDir_canonical h
  unfold State.settle
  dsimp only
  split
  · split
    · exact checkArrays_canonical (checkTags_canonical h1)
    · exact checkTags_canonical h1
  · exact h1

theorem homeRead_canonical {pa} (h : MemCanonical s) : MemCanonical (s.homeRead pa) := by
  have h1 : MemCanonical (s.settle (pa / 8) none) := settle_canonical h
  unfold State.homeRead
  dsimp only
  split
  · exact mirrorWord_canonical h1
  · exact mirrorWord_canonical (checkLine_canonical h1)

theorem homeReads_canonical {pas} (h : MemCanonical s) : MemCanonical (s.homeReads pas) :=
  forEach_keeps s MemCanonical _ _ (fun _ _ ht => homeRead_canonical ht) h

theorem wrAt_canonical {a w} (h : MemCanonical s) : MemCanonical (s.wrAt a w) := by
  have h1 : MemCanonical ((s.settle (a / 8) none).writeBack (a / 8)) := writeBack_canonical (settle_canonical h)
  exact canonical_of_mem (soundLine_mem _ _) (putSgram_canonical (checkLine_canonical (canonical_of_mem (snoop_mem ..) h1)))

theorem wr_canonical {a w} (h : MemCanonical s) : MemCanonical (s.wr a w) := wrAt_canonical (canonical_of_mem (endResv_mem s a) h)

theorem wrLine_canonical {line ws} (h : MemCanonical s) : MemCanonical (s.wrLine line ws) := by
  have h1 : MemCanonical (forEach (lineWords line) (s.checkDir line none) State.endResv) :=
    forEach_keeps _ MemCanonical _ _ (fun t a ht => canonical_of_mem (endResv_mem t a) ht) (checkDir_canonical h)
  exact putLine_canonical (canonical_of_mem ((snoop_mem ..).trans (State.putDir_mem ..)) h1)

/-! ### The canonical form through the caches -/

theorem evictLine_canonical {k cl line} (h : MemCanonical s) : MemCanonical (s.evictLine k cl line) := by
  have h1 : MemCanonical (if s.dirtyIn cl line then s.settle line (some cl) else s) := by
    split
    · exact settle_canonical h
    · exact h
  unfold State.evictLine
  dsimp only
  generalize (if s.dirtyIn cl line then s.settle line (some cl) else s) = s1 at h1 ⊢
  refine canonical_of_mem (modL2_mem ..) ?_
  split
  · exact writeBack_canonical (canonical_of_mem (spendCredits_mem s1 k 1) h1)
  · exact h1

theorem clearWay_canonical {k cl set way} (h : MemCanonical s) : MemCanonical (s.clearWay k cl set way) := by
  unfold State.clearWay
  split
  · exact evictLine_canonical h
  · exact h

theorem placeL2_canonical {k cl line} (h : MemCanonical s) : MemCanonical (s.placeL2 k cl line) := by
  unfold State.placeL2
  dsimp only
  split
  · exact canonical_of_mem (modL2_mem ..) h
  · split
    · refine canonical_of_mem (modL2_mem ..) ?_
      split
      · exact evictLine_canonical h
      · exact h
    · exact h

theorem fetchLine_canonical {cl line} (h : MemCanonical s) : MemCanonical (s.fetchLine cl line) := by
  have h1 : MemCanonical (s.settle line (some cl)) := settle_canonical h
  unfold State.fetchLine
  dsimp only
  refine forEach_keeps _ MemCanonical _ _ (fun _ _ ht => mirrorWord_canonical ht) ?_
  split
  · split
    · exact h1
    · exact writeBack_canonical h1
  · exact checkLine_canonical h1

theorem obtain_canonical {k cl line fetch} (h : MemCanonical s) : MemCanonical (s.obtain k cl line fetch) := by
  unfold State.obtain
  split
  · exact canonical_of_mem (modL2_mem ..) h
  · refine placeL2_canonical ?_
    split
    · exact fetchLine_canonical (canonical_of_mem (spendCredits_mem s k 1) h)
    · exact h

theorem reach_canonical {k line u} (h : MemCanonical s) : MemCanonical (s.reach k line u) := by
  have h0 : MemCanonical (s.checkTags (clOf k) line) := checkTags_canonical h
  unfold State.reach
  dsimp only
  generalize s.checkTags (clOf k) line = s0 at h0 ⊢
  have h1 : MemCanonical (if (decide (u = .code) && s0.l1Hit k line u) = true then s0
      else s0.checkArrays (clOf k) ((s0.l2Of (clOf k)).source (some (posOfBank k)) line) line 0) := by
    split
    · exact h0
    · exact checkArrays_canonical h0
  generalize (if (decide (u = .code) && s0.l1Hit k line u) = true then s0
      else s0.checkArrays (clOf k) ((s0.l2Of (clOf k)).source (some (posOfBank k)) line) line 0) = s1 at h1 ⊢
  refine canonical_of_mem (modL2_mem ..) ?_
  split
  · exact h1
  · exact obtain_canonical h1

theorem wrCached_canonical {k a w} (h : MemCanonical s) : MemCanonical (s.wrCached k a w) := by
  have h1 : MemCanonical ((s.endResv a).reach k (a / 8) .write) := reach_canonical (canonical_of_mem (endResv_mem s a) h)
  unfold State.wrCached
  dsimp only
  split
  · exact putMem_canonical (canonical_of_mem (snoop_mem ..) (own_canonical h1))
  · exact wrAt_canonical h1

theorem wholeCached_canonical {k line ws} (h : MemCanonical s) : MemCanonical (s.wholeCached k line ws) := by
  have h1 : MemCanonical ((forEach (lineWords line) s State.endResv).reach k line .whole) :=
    reach_canonical (forEach_keeps s MemCanonical _ _ (fun t a ht => canonical_of_mem (endResv_mem t a) ht) h)
  unfold State.wholeCached
  dsimp only
  split
  · exact forEach_keeps _ MemCanonical _ _ (fun _ _ ht => putMem_canonical ht) (canonical_of_mem (snoop_mem ..) (own_canonical h1))
  · exact wrLine_canonical h1

theorem checkCode_canonical {k a} (h : MemCanonical s) : MemCanonical (s.checkCode k a) := by
  unfold State.checkCode
  dsimp only
  split
  · exact canonical_of_mem (modL2_mem ..) h
  · exact h

theorem noteRead_canonical {k pa unc} (h : MemCanonical s) : MemCanonical (s.noteRead k pa unc) := by
  unfold State.noteRead
  split
  · exact homeRead_canonical h
  · exact reach_canonical h

end Sys2Proof.Machine
end

