-- ==== Sys2Proof/Laws/Plain.lean ====
section
/-!
SUPPORT. The tagged store where no triplet has failed, nothing is mirrored and no bit has flipped: the checks do nothing, a store
changes its one word, and an access through the caches moves lines but no word.
-/

namespace Sys2Proof.Machine

variable {s t u : State}

/-! ### Reading -/

theorem tfailed_plain (h : PlainStore s) (a : Nat) : s.tfailed a = false := by simp [State.tfailed, h.1, bit]
theorem inMirror_plain (h : PlainStore s) (a : Nat) : s.inMirror a = false := by
  simp only [State.inMirror, h.2.1, Bool.and_eq_false_iff, decide_eq_false_iff_not]
  omega

/-- A word reads as memory holds it. -/
theorem rd_plain (h : PlainStore s) (a : Nat) : s.rd a = mget wordD s.mem a := by
  simp [State.rd, State.sgram, State.cell, tfailed_plain h, State.primary, inMirror_plain h]

theorem primary_plain (h : PlainStore s) (a : Nat) : s.primary a = false := by simp [State.primary, inMirror_plain h]

theorem copyLine_plain (h : PlainStore s) (a : Nat) : s.copyLine a = false := by simp [State.copyLine, inMirror_plain h]

/-! ### The checks find nothing -/

theorem flawD_toNat (n : Nat) : (flawD n).toNat = 0 := by simp only [flawD, BitVec.ofNat_eq_ofNat, BitVec.toNat_zero]

theorem flawOf_plain (h : PlainStore s) (line : Nat) : s.flawOf line = 0 := by
  unfold State.flawOf
  rw [h.2.2.1]
  exact flawD_toNat line
theorem checkLine_plain (h : PlainStore s) (line : Nat) (r : Bool) : s.checkLine line r = s := by simp [State.checkLine, flawOf_plain h]
theorem checkDir_plain (h : PlainStore s) (line : Nat) (o : Option ClusterId) : s.checkDir line o = s := by
  simp [State.checkDir, h.2.2.2.1]
theorem checkTags_plain (h : PlainStore s) (cl : ClusterId) (line : Nat) : s.checkTags cl line = s := by
  simp [State.checkTags, (h.2.2.2.2 cl).2.1]
theorem L2.flawAt_clean {l : L2} (h : l.Clean) (place line : Nat) : l.flawAt place line = 0 := by
  unfold L2.flawAt
  rw [h.1]
  exact flawD_toNat _
theorem L2.keptAt_clean {l : L2} (h : l.Clean) (place line : Nat) : l.keptAt place line = [] := by
  unfold L2.keptAt
  rw [h.2.2.1]
  rfl
theorem checkArrays_plain (h : PlainStore s) (cl : ClusterId) (place line : Nat) : s.checkArrays cl place line 0 = s := by
  unfold State.checkArrays
  simp only [L2.flawAt_clean (h.2.2.2.2 cl), Nat.xor_self, if_true]

/-- Every copy of a word holds what the word reads as. -/
theorem copyWord_plain (h : PlainStore s) (cl : ClusterId) (place pa : Nat) : s.copyWord cl place pa = s.rd pa := by
  simp [State.copyWord, L2.keptAt_clean (h.2.2.2.2 cl)]
theorem copyLineWords_plain (h : PlainStore s) (cl : ClusterId) (place line : Nat) : s.copyLineWords cl place line = s.rdLine line :=
  List.map_congr_left fun _ _ => copyWord_plain h ..
theorem see_plain (h : PlainStore s) (k pa : Nat) (unc : Bool) : s.see k pa unc = s.rd pa := by
  unfold State.see
  split
  · rfl
  · exact copyWord_plain h ..
theorem seeCode_plain (h : PlainStore s) (k pa : Nat) (unc : Bool) : s.seeCode k pa unc = s.rd pa := by
  unfold State.seeCode
  split
  · exact copyWord_plain h ..
  · exact see_plain h ..
theorem checkCode_plain (h : PlainStore s) (k pa : Nat) : s.checkCode k pa = s := by
  have e : (s.l2Of (clOf k)).codeBadAt (posOfBank k) (pa / 8) = 0 := by
    unfold L2.codeBadAt
    rw [(h.2.2.2.2 _).2.2.2]
    rfl
  simp [State.checkCode, e, bit]

/-- A request finds its directory entry and the copies sound. -/
theorem settle_plain (h : PlainStore s) (line : Nat) (o : Option ClusterId) : s.settle line o = s := by
  simp [State.settle, checkDir_plain h, checkTags_plain h, checkArrays_plain h]

theorem mirrorWord_plain (h : PlainStore s) (pa : Nat) : s.mirrorWord pa = s := by simp [State.mirrorWord, primary_plain h]

/-- A read at the home agent changes nothing. -/
theorem homeRead_plain (h : PlainStore s) (pa : Nat) : s.homeRead pa = s := by
  simp [State.homeRead, settle_plain h, checkLine_plain h, mirrorWord_plain h]
theorem homeReads_plain (h : PlainStore s) (pas : List Nat) : s.homeReads pas = s := forEach_id s pas _ fun _ _ => homeRead_plain h _

theorem soundLine_plain (h : PlainStore s) (line : Nat) : s.soundLine line = s := by
  simp [State.soundLine, flawOf_plain h, primary_plain h]
theorem putSgram_plain (h : PlainStore s) (a : Nat) (w : Word) : s.putSgram a w = s.putMem a w := by
  simp [State.putSgram, tfailed_plain h, primary_plain h]

/-! ### What keeps the store plain -/

theorem plain_congr (hm : t.memc = s.memc) (hl : t.l2 = s.l2) (h : PlainStore s) : PlainStore t := by
  simpa [PlainStore, State.l2Of, hm, hl] using h

theorem plain_putMem (h : PlainStore s) (a : Nat) (w : Word) : PlainStore (s.putMem a w) := plain_congr rfl rfl h
theorem plain_putDir (h : PlainStore s) (l : Nat) (d : DirEntry) : PlainStore (s.putDir l d) := plain_congr rfl rfl h

/-- A store of one word: it reads as stored, every other word as before. -/
theorem rd_putMem (h : PlainStore s) (a : Nat) (w : Word) (b : Nat) : (s.putMem a w).rd b = if b = a then w else s.rd b := by
  rw [rd_plain (plain_putMem h a w), rd_plain h]
  exact mget_mset _ _ _ _ _

/-- The directory decides who holds a line, not what it reads as. -/
theorem rd_putDir (h : PlainStore s) (l : Nat) (d : DirEntry) (b : Nat) : (s.putDir l d).rd b = s.rd b := by
  rw [rd_plain (plain_putDir h l d), rd_plain h, State.putDir_mem]

/-! ### What an access through the caches may do -/

/-- An L2 but for which lines its caches hold. -/
def L2.SameBut (l l' : L2) : Prop :=
  { l' with slots := l.slots, holeev := l.holeev, sets := l.sets, l1d := l.l1d, l1c := l.l1c, vict := l.vict, drops := l.drops } = l

/-- From s to t lines have moved between caches and the home agents, at the cost of credits, and no word has changed. -/
structure Moved (s t : State) : Prop where
  plain : PlainStore t
  rd : ∀ a, t.rd a = s.rd a
  l2 : ∀ cl, (s.l2Of cl).SameBut (t.l2Of cl)
  tasks : t.weir.tasks.map Task.uncharged = s.weir.tasks.map Task.uncharged
  frame : { t with mem := s.mem, dir := s.dir, l2 := s.l2, weir := { t.weir with tasks := s.weir.tasks } } = s

theorem L2.SameBut.refl (l : L2) : l.SameBut l := rfl
theorem L2.SameBut.trans {l m n : L2} (h : l.SameBut m) (g : m.SameBut n) : l.SameBut n := by
  unfold L2.SameBut at *
  rw [← h, ← g]
theorem L2.SameBut.clean {l m : L2} (h : l.SameBut m) (hl : l.Clean) : m.Clean := by
  unfold L2.SameBut at h
  exact ⟨(congrArg L2.flaws h).trans hl.1, (congrArg L2.badTags h).trans hl.2.1, (congrArg L2.kept h).trans hl.2.2.1,
    (congrArg L2.codeBad h).trans hl.2.2.2⟩

theorem Moved.refl (h : PlainStore s) : Moved s s := ⟨h, fun _ => rfl, fun _ => rfl, rfl, rfl⟩
theorem Moved.trans (h : Moved s t) (g : Moved t u) : Moved s u where
  plain := g.plain
  rd a := (g.rd a).trans (h.rd a)
  l2 cl := (h.l2 cl).trans (g.l2 cl)
  tasks := g.tasks.trans h.tasks
  frame := by
    have hf := h.frame
    have gf := g.frame
    rw [← hf, ← gf]

/-- A change of which lines a cluster's caches hold. -/
theorem moved_modL2 (h : PlainStore s) (cl : ClusterId) (f : L2 → L2) (hf : (s.l2Of cl).SameBut (f (s.l2Of cl))) :
    Moved s (s.modL2 cl f) := by
  have hl : ∀ c, (s.l2Of c).SameBut ((s.modL2 cl f).l2Of c) := fun c => by
    by_cases e : c = cl
    · subst e
      simpa using hf
    · rw [State.l2Of_modL2_ne s f e]
      exact .refl _
  have hp : PlainStore (s.modL2 cl f) := ⟨h.1, h.2.1, h.2.2.1, h.2.2.2.1, fun c => (hl c).clean (h.2.2.2.2 c)⟩
  exact ⟨hp, fun a => by rw [rd_plain hp, rd_plain h, modL2_mem], hl, rfl, rfl⟩

/-! ### The operations of an L2 whose arrays are clean move lines alone -/

section
variable {l l' : L2}

/-- A fold whose every round moves lines alone does so. -/
theorem L2.sameBut_fold {α : Type} (xs : List α) (f : L2 → α → L2) (hf : ∀ (m : L2) a, m.Clean → m.SameBut (f m a)) (hl : l.Clean) :
    l.SameBut (xs.foldl f l) := by
  induction xs generalizing l with
  | nil => exact .refl l
  | cons a xs ih => exact (hf l a hl).trans (ih ((hf l a hl).clean hl))

theorem L2.sameBut_setL1 (l : L2) (code pos line c) : l.SameBut (l.setL1 code pos line c) := by
  unfold L2.setL1
  split <;> rfl
theorem L2.sameBut_setVict (l : L2) (pos v) : l.SameBut (l.setVict pos v) := rfl
theorem L2.sameBut_putSet (l : L2) (line c) : l.SameBut (l.putSet line c) := rfl

/-- A clean copy goes without a trace. -/
theorem L2.forget_clean (hl : l.Clean) (place line : Nat) : l.forget place line = l := by
  have e1 : mset flawD ([] : SMap (BitVec 768)) (copyKey place line) 0 = [] := by
    unfold mset
    rw [if_pos (show (0 : BitVec 768) = flawD (copyKey place line) by unfold flawD; rfl)]
    rfl
  have e2 : mset keptD ([] : SMap (List Word)) (copyKey place line) [] = [] := rfl
  have e3 : mset codeD ([] : SMap (BitVec 8)) (copyKey place line) 0 = [] := rfl
  unfold L2.forget
  obtain ⟨h1, -, h3, h4⟩ := hl
  cases l
  simp only at h1 h3 h4
  subst h1 h3 h4
  rw [e1, e2, e3]

/-- The two ways of a choice both move lines alone. -/
theorem L2.sameBut_ite {p : Prop} [Decidable p] {l m n : L2} (hm : l.SameBut m) (hn : l.SameBut n) : l.SameBut (if p then m else n) := by
  split
  · exact hm
  · exact hn

theorem L2.sameBut_forget (hl : l.Clean) (place line : Nat) : l.SameBut (l.forget place line) := by
  rw [L2.forget_clean hl]
  exact .refl l

theorem L2.sameBut_shedAt (hl : l.Clean) (line pos : Nat) : l.SameBut (l.shedAt line pos) := by
  unfold L2.shedAt
  dsimp only
  have h1 := L2.sameBut_ite (p := ((l.l1 false pos line).find line).isSome = true) (L2.sameBut_setL1 l false pos line ((l.l1 false pos line).drop line)) (.refl l)
  generalize (if ((l.l1 false pos line).find line).isSome = true then l.setL1 false pos line ((l.l1 false pos line).drop line) else l) = l1 at h1 ⊢
  have h2 := L2.sameBut_ite (p := ((l1.l1 true pos line).find line).isSome = true) (L2.sameBut_setL1 l1 true pos line ((l1.l1 true pos line).drop line)) (.refl l1)
  generalize (if ((l1.l1 true pos line).find line).isSome = true then l1.setL1 true pos line ((l1.l1 true pos line).drop line) else l1) = l2 at h2 ⊢
  have h3 := (h1.trans h2).trans (L2.sameBut_ite (p := ((l2.victOf pos).any fun w => w.line == line) = true)
    (L2.sameBut_setVict l2 pos ((l2.victOf pos).filter fun w => w.line != line)) (.refl _))
  generalize (if ((l2.victOf pos).any fun w => w.line == line) = true then l2.setVict pos ((l2.victOf pos).filter fun w => w.line != line) else l2) = l3 at h3 ⊢
  rw [L2.forget_clean (h3.clean hl), L2.forget_clean (h3.clean hl)]
  exact h3

theorem L2.sameBut_shed (hl : l.Clean) (line : Nat) (keep : Option Nat) : l.SameBut (l.shed line keep) :=
  L2.sameBut_fold _ _ (fun _ p hm => L2.sameBut_shedAt hm line p) hl

theorem L2.sameBut_share (hl : l.Clean) (line pos : Nat) : l.SameBut (l.share line pos) := by
  refine L2.sameBut_fold _ _ (fun m p _ => ?_) hl
  dsimp only
  have h1 := L2.sameBut_ite (p := ((m.l1 false p line).find line).any Way.dirty = true)
    (L2.sameBut_setL1 m false p line ((m.l1 false p line).mark line false)) (.refl m)
  exact h1.trans (L2.sameBut_ite (L2.sameBut_setVict ..) (.refl _))

theorem L2.sameBut_leave (hl : l.Clean) (pos : Nat) (w : Way) : l.SameBut (l.leave pos w) := by
  unfold L2.leave
  rw [L2.forget_clean hl, L2.flawAt_clean hl]
  simp only [bne_self_eq_false, Bool.and_false, Bool.false_eq_true, if_false]
  exact .refl l

theorem L2.sameBut_fillL1d (hl : l.Clean) (pos line : Nat) (dirty : Bool) : l.SameBut (l.fillL1d pos line dirty) := by
  unfold L2.fillL1d
  dsimp only
  split
  · exact L2.sameBut_setL1 ..
  · refine ((L2.sameBut_setL1 ..).trans (L2.sameBut_setVict ..)).trans (L2.sameBut_fold _ _ (fun _ _ hm => L2.sameBut_leave hm ..) ?_)
    exact ((L2.sameBut_setL1 ..).trans (L2.sameBut_setVict ..)).clean hl

theorem L2.sameBut_fillL1c (hl : l.Clean) (pos line : Nat) : l.SameBut (l.fillL1c pos line) := by
  unfold L2.fillL1c
  dsimp only
  split
  · exact L2.sameBut_setL1 ..
  · exact (L2.sameBut_setL1 ..).trans (L2.sameBut_forget ((L2.sameBut_setL1 ..).clean hl) ..)

theorem L2.sameBut_enterL1 (hl : l.Clean) (pos line : Nat) (w : Use) : l.SameBut (l.enterL1 pos line w) := by
  unfold L2.enterL1
  dsimp only
  refine L2.sameBut_ite (.refl l) ?_
  split
  · exact L2.sameBut_setL1 ..
  · split
    · exact L2.sameBut_fillL1c hl ..
    · split
      · exact (L2.sameBut_setVict ..).trans (L2.sameBut_fillL1d ((L2.sameBut_setVict ..).clean hl) ..)
      · exact L2.sameBut_fillL1d hl ..

theorem L2.sameBut_others (hl : l.Clean) (pos line : Nat) (w : Use) : l.SameBut (l.others pos line w) := by
  have h1 := L2.sameBut_shed hl line (some pos)
  unfold L2.others
  dsimp only
  generalize l.shed line (some pos) = m at h1 ⊢
  split
  · have h2 := h1.trans (L2.sameBut_ite (p := ((m.l1 true pos line).find line).isSome = true)
      (L2.sameBut_setL1 m true pos line ((m.l1 true pos line).drop line)) (.refl m))
    exact h2.trans (L2.sameBut_forget (h2.clean hl) ..)
  · exact L2.sameBut_share hl ..

theorem L2.sameBut_use (l : L2) (line : Nat) : l.SameBut (l.use line) := by
  unfold L2.use
  split
  · exact L2.sameBut_putSet ..
  · exact .refl l

/-- A line goes from clean arrays without a trace. -/
theorem L2.sameBut_drop (hl : l.Clean) (line : Nat) : l.SameBut (l.drop line) := by
  have h1 := (L2.sameBut_shed hl line none).trans
    (L2.sameBut_ite (p := (((l.shed line none).setOf line).find line).isSome = true)
      (L2.sameBut_putSet (l.shed line none) line (((l.shed line none).setOf line).drop line)) (.refl _))
  exact h1.trans (L2.sameBut_forget (h1.clean hl) ..)

theorem L2.sameBut_punch (hl : l.Clean) (line : Nat) : l.SameBut (l.punch line) := by
  have h1 := L2.sameBut_drop hl line
  unfold L2.punch
  dsimp only
  generalize l.drop line = m at h1 ⊢
  split
  · exact h1
  · exact h1.trans rfl

end

/-! ### Accesses move lines alone -/

/-- Line transfers cost credits. -/
theorem moved_spendCredits (h : PlainStore s) (k n : Nat) : Moved s (s.spendCredits k n) := by
  unfold State.spendCredits
  split
  · refine ⟨h, fun a => rfl, fun _ => .refl _, ?_, rfl⟩
    simp only [State.modTask, List.map_map]
    refine List.map_congr_left fun t _ => ?_
    simp only [Function.comp]
    split <;> rfl
  · exact .refl h

/-- Stores that put back what is there. -/
theorem moved_refresh (h : PlainStore s) (l : List (Word × Nat)) (base : Nat) (hl : ∀ wi ∈ l, wi.1 = s.rd (base + wi.2)) :
    Moved s (forEach l s fun t wi => t.putMem (base + wi.2) wi.1) := by
  suffices H : ∀ t : State, Moved s t → Moved s (forEach l t fun t wi => t.putMem (base + wi.2) wi.1) from H s (.refl h)
  induction l with
  | nil => exact fun _ ht => ht
  | cons wi l ih =>
    intro t ht
    refine ih (fun x hx => hl x (List.mem_cons_of_mem _ hx)) _ (ht.trans ⟨plain_putMem ht.plain _ _, fun c => ?_, fun _ => .refl _, rfl, rfl⟩)
    rw [rd_putMem ht.plain]
    split
    · next e => rw [e, ht.rd, hl wi (List.mem_cons_self ..)]
    · rfl

theorem moved_putDir (h : PlainStore s) (line : Nat) (d : DirEntry) : Moved s (s.putDir line d) :=
  ⟨plain_putDir h line d, rd_putDir h line d, fun _ => .refl _, rfl, rfl⟩

theorem rdLine_zip (line : Nat) : ∀ wi ∈ (s.rdLine line).zipIdx, wi.1 = s.rd (8 * line + wi.2) := by
  intro wi hwi
  simp only [State.rdLine, lineWords, List.map_map] at hwi
  obtain ⟨w, i⟩ := wi
  obtain ⟨-, h2, h3⟩ := List.mem_zipIdx hwi
  simp only [List.length_map, List.length_range, Nat.zero_add] at h2
  simpa using h3

/-- A whole line as the devices hold it afterwards. -/
theorem putLine_plain (h : PlainStore s) (line : Nat) (ws : List Word) :
    s.putLine line ws = forEach ws.zipIdx s fun t wi => t.putMem (8 * line + wi.2) wi.1 := by
  have e : ∀ (l : List (Word × Nat)) (t : State), PlainStore t →
      (forEach l t fun t wi => t.putSgram (8 * line + wi.2) wi.1) = (forEach l t fun t wi => t.putMem (8 * line + wi.2) wi.1) ∧
      PlainStore (forEach l t fun t wi => t.putMem (8 * line + wi.2) wi.1) := by
    intro l
    induction l with
    | nil => exact fun _ ht => ⟨rfl, ht⟩
    | cons wi l ih =>
      intro t ht
      show forEach l (t.putSgram _ _) _ = forEach l (t.putMem _ _) _ ∧ _
      rw [putSgram_plain ht]
      exact ih _ (plain_putMem ht _ _)
  unfold State.putLine
  rw [(e _ s h).1]
  exact soundLine_plain (e _ s h).2 _

/-- Writing a modified line back changes no word. -/
theorem moved_writeBack (h : PlainStore s) (line : Nat) : Moved s (s.writeBack line) := by
  unfold State.writeBack
  split
  · have h1 := moved_putDir h line ⟨0, []⟩
    dsimp only
    rw [putLine_plain h1.plain]
    have h2 := h1.trans (moved_refresh h1.plain _ _ fun wi hwi => (rdLine_zip line wi hwi).trans (h1.rd _).symm)
    simp only [tfailed_plain h, Bool.false_and, Bool.false_eq_true, if_false]
    exact h2.trans (moved_modL2 h2.plain _ _ (L2.sameBut_share (h2.plain.2.2.2.2 _) ..))
  · exact .refl h

/-- Taking a line into a cluster as modified changes no word. -/
theorem moved_own (h : PlainStore s) (cl : ClusterId) (pos line : Nat) : Moved s (s.own cl pos line) := by
  unfold State.own
  dsimp only
  split
  · exact .refl h
  · have h1 := moved_writeBack h line
    rw [copyLineWords_plain h1.plain]
    have h2 := h1.trans (moved_refresh h1.plain _ (8 * line) (rdLine_zip line))
    have h3 := h2.trans (moved_putDir h2.plain line ⟨cl, (s.writeBack line).rdLine line⟩)
    refine h3.trans (moved_modL2 h3.plain _ _ ?_)
    have e : ∀ {l : L2}, l.Clean → l.unkeep line = l := fun {l} hl => by
      unfold L2.unkeep
      rw [hl.2.2.1, List.filter_nil, ← hl.2.2.1]
    rw [e (h3.plain.2.2.2.2 _)]
    exact .refl _

theorem moved_evictLine (h : PlainStore s) (k : Nat) (cl : ClusterId) (line : Nat) : Moved s (s.evictLine k cl line) := by
  unfold State.evictLine
  simp only [settle_plain h, ite_self]
  have h1 : Moved s (if s.dirtyIn cl line = true then (s.spendCredits k 1).writeBack line else s) := by
    split
    · have h0 := moved_spendCredits h k 1
      exact h0.trans (moved_writeBack h0.plain line)
    · exact .refl h
  exact h1.trans (moved_modL2 h1.plain cl _ (L2.sameBut_drop (h1.plain.2.2.2.2 cl) line))

theorem moved_clearWay (h : PlainStore s) (k : Nat) (cl : ClusterId) (set way : Nat) : Moved s (s.clearWay k cl set way) := by
  unfold State.clearWay
  split
  · exact moved_evictLine h ..
  · exact .refl h

theorem moved_placeL2 (h : PlainStore s) (k : Nat) (cl : ClusterId) (line : Nat) : Moved s (s.placeL2 k cl line) := by
  unfold State.placeL2
  dsimp only
  split
  · exact moved_modL2 h cl _ rfl
  · split
    · have h1 : Moved s (match s.victim cl line with | some v => s.evictLine k cl v | none => s) := by
        split
        · exact moved_evictLine h ..
        · exact .refl h
      exact h1.trans (moved_modL2 h1.plain cl _ (L2.sameBut_putSet ..))
    · exact .refl h

theorem moved_fetchLine (h : PlainStore s) (cl : ClusterId) (line : Nat) : Moved s (s.fetchLine cl line) := by
  have h1 : Moved s (if s.dirty line = true then (if s.dirtyIn cl line = true then s else s.writeBack line) else s.checkLine line false) := by
    rw [checkLine_plain h]
    split
    · split
      · exact .refl h
      · exact moved_writeBack h line
    · exact .refl h
  unfold State.fetchLine
  simp only [settle_plain h]
  rw [forEach_id _ _ _ fun _ _ => mirrorWord_plain h1.plain _]
  exact h1

theorem moved_obtain (h : PlainStore s) (k : Nat) (cl : ClusterId) (line : Nat) (fetch : Bool) : Moved s (s.obtain k cl line fetch) := by
  unfold State.obtain
  split
  · exact moved_modL2 h cl _ (L2.sameBut_use ..)
  · have h1 : Moved s (if fetch = true then (s.spendCredits k 1).fetchLine cl line else s) := by
      split
      · have h0 := moved_spendCredits h k 1
        exact h0.trans (moved_fetchLine h0.plain cl line)
      · exact .refl h
    exact h1.trans (moved_placeL2 h1.plain k cl line)

/-- A cached access moves lines alone. -/
theorem moved_reach (h : PlainStore s) (k line : Nat) (w : Use) : Moved s (s.reach k line w) := by
  unfold State.reach
  simp only [checkTags_plain h, checkArrays_plain h, ite_self]
  have h1 : Moved s (if s.l1Hit k line w = true then s else s.obtain k (clOf k) line (w != .whole)) := by
    split
    · exact .refl h
    · exact moved_obtain h ..
  refine h1.trans (moved_modL2 h1.plain _ _ (L2.sameBut_ite ?_ (.refl _)))
  have h2 := L2.sameBut_others (h1.plain.2.2.2.2 (clOf k)) (posOfBank k) line w
  exact h2.trans (L2.sameBut_enterL1 (h2.clean (h1.plain.2.2.2.2 (clOf k))) ..)

/-- A data read, cached or not, moves lines alone. -/
theorem moved_noteRead (h : PlainStore s) (k pa : Nat) (unc : Bool) : Moved s (s.noteRead k pa unc) := by
  unfold State.noteRead
  split
  · rw [homeRead_plain h]
    exact .refl h
  · exact moved_reach h ..

/-! ### Stores -/

/-- A snoop moves lines alone. -/
theorem moved_snoop (h : PlainStore s) (line : Nat) (own : Option ClusterId) : Moved s (s.snoop line own) := by
  have hl : ∀ cl, (s.l2Of cl).SameBut ((s.snoop line own).l2Of cl) := fun cl => by
    have hf := h.2.2.2.2 cl
    unfold State.l2Of at hf ⊢
    unfold State.snoop
    dsimp only
    generalize s.l2 = m at hf ⊢
    induction m with
    | nil => exact .refl _
    | cons e m ih =>
      simp only [List.map_cons]
      by_cases o : own.map Fin.val = some e.1
      · rw [if_pos o]
        unfold mget at hf ⊢
        split at hf
        · next he => simpa only [if_pos he] using L2.SameBut.refl _
        · next he => simpa only [if_neg he] using ih hf
      · rw [if_neg o]
        unfold mget at hf ⊢
        split at hf
        · next he => simpa only [if_pos he] using L2.sameBut_punch hf line
        · next he => simpa only [if_neg he] using ih hf
  have hp : PlainStore (s.snoop line own) := ⟨h.1, h.2.1, h.2.2.1, h.2.2.2.1, fun c => (hl c).clean (h.2.2.2.2 c)⟩
  exact ⟨hp, fun a => by rw [rd_plain hp, rd_plain h, snoop_mem], hl, rfl, rfl⟩

theorem endResv_frame (s : State) (a : Nat) : { s.endResv a with cores := s.cores } = s :=
  forEach_keeps s (fun t => { t with cores := s.cores } = s) _ _ (fun _ _ ht => ht) rfl

theorem plain_endResv (h : PlainStore s) (a : Nat) : PlainStore (s.endResv a) :=
  plain_congr (forEach_keeps s (fun t => t.memc = s.memc) _ _ (fun _ _ ht => ht) rfl)
    (forEach_keeps s (fun t => t.l2 = s.l2) _ _ (fun _ _ ht => ht) rfl) h

theorem rd_endResv (h : PlainStore s) (a b : Nat) : (s.endResv a).rd b = s.rd b := by
  rw [rd_plain (plain_endResv h a), rd_plain h, endResv_mem]

/-- A store at the home agent: the reservations on the word end, lines move, and the word is written. -/
theorem wrAt_moved (h : PlainStore s) (a : Nat) (w : Word) : ∃ t, Moved s t ∧ s.wrAt a w = t.putMem a w := by
  have h1 := moved_writeBack h (a / 8)
  have h2 := h1.trans (moved_snoop h1.plain (a / 8) none)
  refine ⟨_, h2, ?_⟩
  unfold State.wrAt
  simp only [settle_plain h, checkLine_plain h2.plain, putSgram_plain h2.plain]
  exact soundLine_plain (plain_putMem h2.plain a w) _
theorem wr_moved (h : PlainStore s) (a : Nat) (w : Word) : ∃ t, Moved (s.endResv a) t ∧ s.wr a w = t.putMem a w :=
  wrAt_moved (plain_endResv h a) a w

/-- A cached store: the reservations on the word end, lines move, and the word is written. -/
theorem wrCached_moved (h : PlainStore s) (k a : Nat) (w : Word) : ∃ t, Moved (s.endResv a) t ∧ s.wrCached k a w = t.putMem a w := by
  have h1 := moved_reach (plain_endResv h a) k (a / 8) .write
  have h2 := h1.trans (moved_own h1.plain (clOf k) (posOfBank k) (a / 8))
  unfold State.wrCached
  dsimp only
  split
  · exact ⟨_, h2.trans (moved_snoop h2.plain (a / 8) (some (clOf k))), rfl⟩
  · obtain ⟨t, ht, e⟩ := wrAt_moved h1.plain a w
    exact ⟨t, h1.trans ht, e⟩

/-- A store, cached or not: the word reads as stored, every other word as before. -/
theorem rd_storeNow (h : PlainStore s) (k a : Nat) (w : Word) (unc : Bool) (b : Nat) :
    (s.storeNow k a w unc).rd b = if b = a then w else s.rd b := by
  have H : ∃ t, Moved (s.endResv a) t ∧ s.storeNow k a w unc = t.putMem a w := by
    unfold State.storeNow
    split
    · exact wr_moved h a w
    · exact wrCached_moved h k a w
  obtain ⟨t, ht, e⟩ := H
  rw [e, rd_putMem ht.plain, ht.rd, rd_endResv h]

theorem storeNow_canonical {k a : Nat} {w : Word} {unc : Bool} (h : MemCanonical s) : MemCanonical (s.storeNow k a w unc) := by
  unfold State.storeNow
  split
  · exact wr_canonical h
  · exact wrCached_canonical h

end Sys2Proof.Machine
end

