-- ==== Sys2Proof/Laws/Run.lean ====
section
/-!
SUPPORT. How a computation of a core instruction runs, and what the frame of one instruction does with its answer.
-/

namespace Sys2Proof.Machine

variable {α β : Type} (s : State)

/-! ### One lemma per combinator -/

@[simp] theorem State.run_pure (a : α) : s.run (pure a : Run α) = (.ok a, s) := rfl

theorem State.run_bind (m : Run α) (f : α → Run β) :
    s.run (m >>= f) = match s.run m with | (.ok a, s1) => s1.run (f a) | (.error t, s1) => (.error t, s1) := by
  have e : s.run (m >>= f) = ExceptT.bindCont f (s.run m).1 (s.run m).2 := rfl
  rw [e]
  rcases s.run m with ⟨_ | a, s1⟩ <;> rfl

@[simp] theorem State.run_map (m : Run α) (f : α → β) :
    s.run (f <$> m) = match s.run m with | (.ok a, s1) => (.ok (f a), s1) | (.error t, s1) => (.error t, s1) := by
  have e : s.run (f <$> m) = s.run (m >>= fun a => pure (f a)) := rfl
  rw [e, State.run_bind]
  rcases s.run m with ⟨_ | a, s1⟩ <;> rfl

/-- A computation that answers hands its value and state on. -/
theorem State.run_bind_ok {m : Run α} {f : α → Run β} {a : α} {s1 : State} (h : s.run m = (.ok a, s1)) :
    s.run (m >>= f) = s1.run (f a) := by rw [State.run_bind, h]

/-- A trap ends the whole computation. -/
theorem State.run_bind_error {m : Run α} {f : α → Run β} {t : Trap} {s1 : State} (h : s.run m = (.error t, s1)) :
    s.run (m >>= f) = (.error t, s1) := by rw [State.run_bind, h]

@[simp] theorem State.run_get : s.run (get : Run State) = (.ok s, s) := rfl
@[simp] theorem State.run_set (t : State) : s.run (set t : Run Unit) = (.ok (), t) := rfl
@[simp] theorem State.run_update (f : State → State) : s.run (update f) = (.ok (), f s) := rfl
@[simp] theorem State.run_raise (c t3 t4) : s.run (raiseTrap c t3 t4 : Run α) = (.error ⟨c, t3, t4⟩, s) := rfl

@[simp] theorem State.run_trapIf_false (c t3 t4) : s.run (trapIf false c t3 t4) = (.ok (), s) := rfl
@[simp] theorem State.run_trapIf_true (c t3 t4) : s.run (trapIf true c t3 t4) = (.error ⟨c, t3, t4⟩, s) := rfl

@[simp] theorem State.run_lift_ok (a : α) : s.run (lift_ (.ok a)) = (.ok a, s) := rfl
@[simp] theorem State.run_lift_error (t : Trap) : s.run (lift_ (.error t) : Run α) = (.error t, s) := rfl

@[simp] theorem State.run_getX (k : Nat) : s.run (getX k) = (.ok (s.ctx k), s) := rfl
@[simp] theorem State.run_getAt (k i : Nat) :
    s.run (getAt k i) = (.ok (((s.checkReg k i).ctx k).at_ i), s.checkReg k i) := rfl
@[simp] theorem State.run_getR (k : Nat) (r : R5) :
    s.run (getR k r) = s.run (getAt k ((s.ctx k).ix r.toNat)) := by simp [getR, State.run_bind]
@[simp] theorem State.run_setR (k : Nat) (r : R5) (w : Word) :
    s.run (setR k r w) = (.ok (), s.modCtx k fun x => x.set r w) := rfl
@[simp] theorem State.run_ringOf (k : Nat) : s.run (ringOf k) = (.ok (pswRing (s.ctx k).psw), s) := rfl
@[simp] theorem State.run_legal_true : s.run (legal true) = (.ok (), s) := rfl
@[simp] theorem State.run_legal_false : s.run (legal false) = (.error ⟨.illegalOp, none, none⟩, s) := rfl

theorem State.run_notPoison {w : Word} (h : isPoison w = false) : s.run (notPoison w) = (.ok (), s) := by
  simp [notPoison, h]

theorem State.run_ring0 {k : Nat} (h : pswRing (s.ctx k).psw = 0) : s.run (ring0 k) = (.ok (), s) := by
  simp [ring0, State.run_bind, h]

@[simp] theorem State.run_effect (k : Nat) (h : Held) : s.run (effect k h) = (.ok (),
    if (s.bankOf k).shadow.isSome then
      s.modBank k fun b => { b with shadow := b.shadow.map fun d => { d with held := d.held ++ [h] } }
    else match h with
      | .device a w => s.performOrWait k (.device a w)
      | h => s.perform k h) := rfl

/-! ### Registers without flipped bits -/

variable {s}

/-- A register whose stored bits are sound is read as it stands (R72). -/
theorem State.checkReg_sound {k : Nat} (h : (s.ctx k).flaws = []) (i : Nat) : s.checkReg k i = s := by
  simp [State.checkReg, h, mget, regFlawD]

/-- Reading a register of a bank in which no bit has flipped changes nothing. -/
theorem State.run_getR_sound {k : Nat} (h : (s.ctx k).flaws = []) (r : R5) : s.run (getR k r) = (.ok ((s.ctx k).get r), s) := by
  simp [State.checkReg_sound h, BankCtx.get]

/-- An indexed read of a register of a bank in which no bit has flipped changes nothing. -/
theorem State.run_getAt_sound {k : Nat} (h : (s.ctx k).flaws = []) (i : Nat) : s.run (getAt k i) = (.ok ((s.ctx k).at_ i), s) := by
  simp [State.checkReg_sound h]

variable (s)

/-! ### The frame of one instruction -/

/-- On a core that issues nothing an instruction does nothing. -/
theorem State.instr_none {c : CoreId} {len : Nat} {slot : Bool} {body : Fin 8 → Run Ending} (h : s.executing c = none) :
    s.instr c len slot body = s := by simp [State.instr, State.issue, h]

/-- The bank that executes is the core's current bank. -/
theorem State.cur_of_executing {c : CoreId} {b : Fin 8} (h : s.executing c = some b) : (s.coreOf c).cur = some b := by
  unfold State.executing at h
  dsimp only at h
  split at h
  · exact h
  · cases h

/-- An instruction that may fill a shadow slot, whose computation answers. -/
theorem State.instr_slot {c : CoreId} {b : Fin 8} {len : Nat} {body : Fin 8 → Run Ending} {e : Ending} {s1 : State}
    (h : s.executing c = some b) (hw : s.stalled c = false) (hb : s.run (body b) = (.ok e, s1)) :
    s.instr c len true body = s1.endInstr c (bk c b) len e := by
  simp [State.instr, State.issue, h, hw, hb]

/-- An instruction with no open shadow, whose computation answers. -/
theorem State.instr_ok {c : CoreId} {b : Fin 8} {len : Nat} {slot : Bool} {body : Fin 8 → Run Ending} {e : Ending} {s1 : State}
    (h : s.executing c = some b) (hs : (s.bankOf (bk c b)).shadow = none) (hb : s.run (body b) = (.ok e, s1)) :
    s.instr c len slot body = s1.endInstr c (bk c b) len e := by
  have hc : s.closeShadow (bk c b) = s := by simp [State.closeShadow, hs]
  cases slot <;> simp [State.instr, State.issue, h, hs, hc, hb]

/-- An instruction with no open shadow, whose computation traps while nothing makes the entry wait. -/
theorem State.instr_trap {c : CoreId} {b : Fin 8} {len : Nat} {slot : Bool} {body : Fin 8 → Run Ending} {t : Trap} {s1 : State}
    (h : s.executing c = some b) (hs : (s.bankOf (bk c b)).shadow = none) (hw : s.stalled c = false)
    (hb : s.run (body b) = (.error t, s1)) : s.instr c len slot body = s1.trapAt c b t := by
  have hc : s.closeShadow (bk c b) = s := by simp [State.closeShadow, hs]
  cases slot <;> simp [State.instr, State.issue, h, hs, hw, hc, hb]

/-- An instruction with no open shadow that waits for nothing issues like any other. -/
theorem State.issue_ready {c : CoreId} {b : Fin 8} {len : Nat} {slot : Bool} {wait : State → Nat → Bool} {body : Fin 8 → Run Ending}
    (h : s.executing c = some b) (hs : (s.bankOf (bk c b)).shadow = none) (hw : wait s (bk c b) = false) :
    s.issue c len slot wait body = s.instr c len slot body := by
  have hc : s.closeShadow (bk c b) = s := by simp [State.closeShadow, hs]
  cases slot <;> simp [State.instr, State.issue, h, hs, hc, hw]

/-- An instruction that accesses memory, while nothing makes it wait. -/
theorem State.memInstr_ready {c : CoreId} {b : Fin 8} {len : Nat} {slot : Bool} {body : Fin 8 → Run Ending}
    (h : s.executing c = some b) (hs : (s.bankOf (bk c b)).shadow = none) (hw : s.stalled c = false) :
    s.memInstr c len slot body = s.instr c len slot body := s.issue_ready h hs hw

@[simp] theorem State.endInstr_next (c : CoreId) (k len : Nat) :
    s.endInstr c k len .next = (s.modCtx k fun x => { x with pc := x.pc + BitVec.ofNat 62 len }).countSlot k := rfl
@[simp] theorem State.endInstr_jump (c : CoreId) (k len : Nat) (p) :
    s.endInstr c k len (.jump p) = s.modCtx k fun x => { x with pc := p } := rfl
@[simp] theorem State.endInstr_stay (c : CoreId) (k len : Nat) : s.endInstr c k len .stay = s := rfl
@[simp] theorem State.endInstr_settled (c : CoreId) (k len : Nat) : s.endInstr c k len .settled = s := rfl
@[simp] theorem State.endInstr_loaded (c : CoreId) (k len i : Nat) (w) :
    s.endInstr c k len (.loaded i w) = s.openShadow c k len i w := rfl

/-- With no open shadow there is no slot to count. -/
theorem State.countSlot_none {k : Nat} (h : (s.bankOf k).shadow = none) : s.countSlot k = s := by
  simp [State.countSlot, h]

end Sys2Proof.Machine
end

