-- ==== Sys2Proof/Laws/Access.lean ====
section
/-!
SUPPORT. The shared steps of a memory access where translation is off: the translation, the read, the store.
-/

namespace Sys2Proof.Machine

variable {s : State}

/-- An address of the tagged store lies below the device region and in the 36-bit range. -/
theorem storeOk_lt {a : Nat} (h : s.storeOk a = true) : a < 2 ^ 32 := by
  simp only [State.storeOk, Bool.and_eq_true, beq_iff_eq] at h
  have h1 := h.1
  unfold State.region at h1
  split at h1
  · omega
  · split at h1
    · assumption
    · split at h1 <;> cases h1

theorem storeOk_region {a : Nat} (h : s.storeOk a = true) : s.region a = .store := by
  simp only [State.storeOk, Bool.and_eq_true, beq_iff_eq] at h
  exact h.1

theorem storeOk_copy {a : Nat} (h : s.storeOk a = true) : s.copyLine a = false := by
  simp only [State.storeOk, Bool.and_eq_true] at h
  simpa using h.2

/-- Untranslated, ring 0 uses the address as it stands; uncached where the L2 is off. -/
theorem run_translate_flat {c : CoreId} {k va : Nat} {acc : Acc} {dev : Bool} {t3 : Word} {onDev : Cause} (h : Flat s k va) :
    s.run (translate c k 0 acc va dev t3 onDev) = (.ok ⟨va, !bit (s.l2Of (clusterOf c)).ctl 0, 0, 0, false, va, 0⟩, s) := by
  have hw : ¬2 ^ vaWidth (s.tctx k) ≤ va := by
    have := storeOk_lt h.2.2
    simp [vaWidth, h.1]
    omega
  have e1 : (Region.store == Region.absent) = false := rfl
  have e2 : (Region.store == Region.device) = false := rfl
  simp [translate, translateVa, State.run_bind, h.1, hw, storeOk_region h.2.2, storeOk_copy h.2.2, e1, e2]

/-- Reaching a word of the tagged store for a data read, with the prefetch off, leaves every word as it reads. -/
theorem run_touch {c : CoreId} {k : Nat} {x : Xl} (hp : bit (s.l2Of (clOf k)).ctl (24 + posOfBank k) = false) :
    s.run (touch c k x .read) = (.ok (), s.noteRead k x.pa x.unc) := by
  have e : (Use.read = Use.code) = False := by simp
  simp [touch, State.run_bind, hp, e]

/-- A read of the tagged store, with the prefetch off, delivers the word as it reads. -/
theorem run_readAt {c : CoreId} {k : Nat} {x : Xl} (p : PlainStore s) (h : s.storeOk x.pa = true)
    (hp : bit (s.l2Of (clOf k)).ctl (24 + posOfBank k) = false) :
    s.run (readAt c k x) = (.ok (s.rd x.pa), s.noteRead k x.pa x.unc) := by
  have hd : ¬devBase ≤ x.pa := by
    have := storeOk_lt h
    simp only [devBase]
    omega
  have m := moved_noteRead p k x.pa x.unc
  simp only [readAt, State.run_bind, State.run_get, hd, if_false, run_touch hp, State.run_pure, see_plain m.plain, m.rd]

/-- A store with no shadow open is performed at once. -/
theorem run_store {k : Nat} {x : Xl} {w : Word} (hs : (s.bankOf k).shadow = none) (h : s.storeOk x.pa = true) :
    s.run (store k x w) = (.ok (), s.storeNow k x.pa w x.unc) := by
  have hd : ¬devBase ≤ x.pa := by
    have := storeOk_lt h
    simp only [devBase]
    omega
  simp [store, hd, hs, State.perform]

theorem view_none {k pa : Nat} {unc : Bool} (hs : (s.bankOf k).shadow = none) : s.view k pa unc = s.see k pa unc := by simp [State.view, hs]

end Sys2Proof.Machine
end

