-- ==== Sys2Proof/Laws/Completes.lean ====
section
/-!
SUPPORT. From the answer of an instruction's computation to what `exec` answers: completion with a frame, and a trap.
-/

namespace Sys2Proof.Machine

/-- Two updates of one bank with no open shadow change nothing else. -/
theorem onlyBank_two (s : State) (k : Nat) (f g : BankCtx → BankCtx) (h : (s.bankOf k).shadow = none) :
    OnlyBank s (((s.modCtx k f).modCtx k g).countSlot k) k (g (f (s.ctx k))) := by
  have h1 : (((s.modCtx k f).modCtx k g).bankOf k).shadow = none := by simp [h]
  rw [State.countSlot_none _ h1]
  exact ⟨by simp, by simp, fun j hj => by simp [hj], rfl⟩

/-- One update of a bank with no open shadow changes nothing else. -/
theorem onlyBank_one (s : State) (k : Nat) (g : BankCtx → BankCtx) (h : (s.bankOf k).shadow = none) :
    OnlyBank s ((s.modCtx k g).countSlot k) k (g (s.ctx k)) := by
  have h1 : ((s.modCtx k g).bankOf k).shadow = none := by simp [h]
  rw [State.countSlot_none _ h1]
  exact ⟨by simp, by simp, fun j hj => by simp [hj], rfl⟩

/-- An update of a bank alone changes nothing else. -/
theorem onlyBank_mod (s : State) (k : Nat) (g : BankCtx → BankCtx) : OnlyBank s (s.modCtx k g) k (g (s.ctx k)) :=
  ⟨by simp, by simp, fun j hj => by simp [hj], rfl⟩

variable {i : Instr} {s : State} {c : CoreId} {b : Fin 8} {len : Nat} {slot : Bool} {body : Fin 8 → Run Ending}

/-- An instruction whose computation updates its bank and goes on completes. -/
theorem completes_of_run (f : BankCtx → BankCtx) (h : Issues s c b) (he : exec i s = .next (s.instr c len slot body))
    (hb : s.run (body b) = (.ok .next, s.modCtx (bk c b) f)) :
    Completes i s (bk c b) { f (s.ctx (bk c b)) with pc := (f (s.ctx (bk c b))).pc + BitVec.ofNat 62 len } := by
  refine ⟨_, he.trans (congrArg _ (s.instr_ok h.1 h.2.1 hb)), ?_⟩
  exact onlyBank_two s _ f _ h.2.1

/-- An instruction whose computation changes nothing and goes on completes. -/
theorem completes_of_pure (h : Issues s c b) (he : exec i s = .next (s.instr c len slot body))
    (hb : s.run (body b) = (.ok .next, s)) : Completes i s (bk c b) ((s.ctx (bk c b)).past len) := by
  refine ⟨_, he.trans (congrArg _ (s.instr_ok h.1 h.2.1 hb)), ?_⟩
  exact onlyBank_one s _ _ h.2.1

/-- An instruction whose computation updates its bank and jumps completes. -/
theorem completes_of_jump (f : BankCtx → BankCtx) (p : BitVec 62) (h : Issues s c b) (he : exec i s = .next (s.instr c len slot body))
    (hb : s.run (body b) = (.ok (.jump p), s.modCtx (bk c b) f)) :
    Completes i s (bk c b) { f (s.ctx (bk c b)) with pc := p } := by
  refine ⟨_, he.trans (congrArg _ (s.instr_ok h.1 h.2.1 hb)), ?_⟩
  exact ⟨by simp, by simp, fun j hj => by simp [hj], rfl⟩

/-- An instruction whose computation traps delivers the trap. -/
theorem gives_of_trap {t : Trap} {s1 : State} (h : IssuesMem s c b) (he : exec i s = .next (s.instr c len slot body))
    (hb : s.run (body b) = (.error t, s1)) : Gives i s (s1.trapAt c b t) :=
  he.trans (congrArg _ (s.instr_trap h.1.1 h.1.2.1 h.2 hb))

/-- An immediate extended with zeros. -/
theorem immU_eq {n : Nat} (i : BitVec n) : immU i = fixN i.toNat := by
  simp only [immU, fixN]
  congr 1
  apply BitVec.eq_of_toNat_eq
  simp [BitVec.toNat_setWidth]

end Sys2Proof.Machine
end

