-- ==== Sys2Proof/Tests/Slice0.lean ====
section
/-!
SUPPORT. Tests of this model: a refused ill-formed term for each check of WellFormed, worked examples of the spec, and for each
statement with hypotheses a state and operands that meet them (`wit_<statement>`).
-/

namespace Sys2Proof.Tests

open Sys2Proof Sys2Proof.Machine

set_option Elab.async false

/-! ### Ill-formed commands are refused -/

def src0 : Src := .host 1 0 4096
def badSrc : Src := .host 0 0 (2 ^ 32)
def b2ok : B2 := ⟨0, 0, 0⟩
def cellLong : RxCell := ⟨false, 0, 0, 0, List.replicate 256 0⟩
def wf (i : Instr) : Bool := i.wf

theorem test_wf_cells : (wf (.sampleCell 0 cellLong) || wf (.bulkCell 0 cellLong)) = false := by decide +kernel
theorem test_wf_positions : (wf (.echoResponse 0 5 0 0) || wf (.feAccessResponse 0 0 0 (List.replicate 13 0)) ||
    wf (.pcieLinkUp 3 1) || wf (.pcieLinkUp 16 6)) = false := by decide +kernel
theorem test_wf_writes : (wf (.registerWrite .host 0 3 ⟨0, 0⟩) || wf (.registerWrite .host 0xFFFC 8 ⟨0, 0⟩) ||
    wf (.commandSlotWrite 0 250 (List.replicate 8 none)) || wf (.commandSlotWrite 0 0 (List.replicate 65 (some 0))) ||
    wf (.bar2Write 0xFFFFFF [0, 0]) || wf (.beat (List.replicate 65 0)) || wf (.bootComplete [])) = false := by decide +kernel
theorem test_wf_sources : ([Instr.identify badSrc, .status badSrc, .ucodeStatus badSrc, .runStart badSrc, .runStop badSrc,
    .guardPrepare badSrc, .calRead badSrc, .thaw badSrc, .deviceReset badSrc, .debugChallenge badSrc, .badOpCommand badSrc 0,
    .freezeArm badSrc true, .selfTest badSrc 0, .clusterReset badSrc 0, .guardArm badSrc 0 0, .linkConfig badSrc 0 0,
    .streamConfig badSrc 0 0 0 0].any wf) = false := by decide +kernel
theorem test_wf_args : ([Instr.memAlloc src0 (2 ^ 64) 8 false, .memFree src0 (2 ^ 64), .memWrite src0 0 ⟨2 ^ 64, 0, 0⟩ [],
    .memRead src0 0 (2 ^ 64), .codeLoad src0 (2 ^ 64) b2ok, .ucodeLoad src0 ⟨0, 2 ^ 64, 0⟩, .patchInstall src0 ⟨0, 2 ^ 64, 0⟩,
    .taskWithdraw src0 (2 ^ 64), .taskQuery src0 (2 ^ 64), .taskMsg src0 0 0 (List.replicate 25 ⟨0, 0⟩),
    .taskReply src0 0 0 (List.replicate 25 ⟨0, 0⟩), .poundConfig src0 ⟨2 ^ 64, 0, 0, false, false, 0, 0, false⟩,
    .feAccess src0 0 true 0 1 (List.replicate 29 0), .guardLoad src0 (.entries (2 ^ 64) b2ok), .guardLoad src0 (.profile 0 (2 ^ 64) b2ok),
    .guardLoad src0 (.groups ⟨2 ^ 64, 0, 0⟩), .manSetup src0 ⟨0, 2 ^ 64, 0, 0, 0, 0, false⟩, .bbxRead src0 (2 ^ 64) 0,
    .calWrite src0 ⟨2 ^ 64, 0, 0⟩ 0, .vaultRead src0 (2 ^ 64) 0, .vaultWrite src0 (2 ^ 64) b2ok, .debugUnlock src0 0 (List.replicate 225 0),
    .vaultDieFailed 0 (2 ^ 64) 0, .ieee1687Write (.reg 0 0 0x98 ⟨0, 0⟩), .ieee1687Write (.sill 0 0 64 ⟨0, 0⟩),
    .ieee1687Write (.sram (2 ^ 64) 0)].any wf) = false := by decide +kernel
theorem test_wf_admit : wf (.taskAdmit src0 ⟨0, 0, 0, 0, 0, 0, 0, 0, 0, 0, 0, 0, 0, 0, 0, 0, 0, List.replicate 25 ⟨0, 0⟩, false⟩) = false := by decide +kernel


/-! ### A small running device -/

/-- A running bank with tagged registers by index. -/
def bank (rs : List (Nat × Word)) : BankCtx := rs.foldl (fun x iw => x.put iw.1 iw.2) { st := .running }
/-- The device ready, its link up. -/
def device : State := { State.reset with pins := { pwrOk := true, perst := false, linkUp := true }, lk := { st := .ready } }
def store (s : State) (mem : List (Nat × Word)) : State := mem.foldl (fun s aw => s.putMem aw.1 aw.2) s
/-- CORE[0] runs bank 0. -/
def demo (x : BankCtx) (mem : List (Nat × Word) := []) : State :=
  store { device with cores := mset coreD [] 0 { run := .running, cur := some 0 }, banks := mset bankD [] 0 { x := x } } mem

theorem okOf {α β : Type} {e : Except α β} {b : β} (h : e.toOption = some b) : e = .ok b := by
  cases e with
  | ok a => exact congrArg _ (Option.some.inj h)
  | error => cases h

/-- The trap a computation ends in. -/
def trapOf {β : Type} : Except Trap β → Option Trap | .error t => some t | .ok _ => none
theorem errOf {β : Type} {e : Except Trap β} {t : Trap} (h : trapOf e = some t) : e = .error t := by
  cases e with
  | error a => exact congrArg _ (Option.some.inj h)
  | ok => cases h

/-! ### Worked examples of the spec -/

/-- Chapter 03, "one MEAS word": the check fields of MEAS 4020_0000_0200_0089h. -/
theorem test_meas_check_bits : eccCheck 32 6 0x02000089 = 0x17 ∧ eccCheck 32 6 0x40200000 = 0x7E ∧ eccCheck 8 4 0x06 = 0x03 := by decide +kernel

/-- Chapter 05, "a chamber difference with mixed quality". -/
theorem test_mixed_quality_sub : (arith .sub ⟨tMEAS, 0x41BC000000000191⟩ ⟨tMEAS, 0x41AA000001000192⟩).toOption =
    some ⟨tMEAS, 0x4010000001FFFFFF⟩ := by decide +kernel
theorem test_mixed_quality_mul : (arith .mul ⟨tMEAS, 0x41BC000000000191⟩ (fix 2)).toOption = some ⟨tMEAS, 0x423C000000000191⟩ := by decide +kernel
theorem test_mixed_quality_cmplt : (compareWords false ⟨tMEAS, 0x4010000001FFFFFF⟩ (fix 3)).toOption = some (some .lt) := by decide +kernel
theorem test_missing_quality : trapOf (compareWords true ⟨tMEAS, 0x4010000005FFFFFF⟩ (fix 3)) =
    some ⟨.quality, some ⟨tMEAS, 0x4010000005FFFFFF⟩, some (fix 3)⟩ := by decide +kernel

/-- Chapter 02, "admitting CORE[0]": response times, slack and the largest budget. -/
def exUnits : List (Nat × Nat) := [(7, 96), (5, 96), (1, 180)]
def exTask0 : RtTask := ⟨0, 7, 3600, 180000, 120000 + 2000 + 96⟩
def exTask1 : RtTask := ⟨1, 5, 3600, 216000, 9000 + 2000 + 96⟩
theorem test_admission_times : rtime exUnits [exTask0, exTask1] exTask0 = 125946 ∧ rtime exUnits [exTask0, exTask1] exTask1 = 137182 := by
  decide +kernel
theorem test_admission_refused : rtime exUnits [{ exTask0 with cost := 182096 }, exTask1] { exTask0 with cost := 182096 } = 185946 ∧
    rtime exUnits [{ exTask0 with cost := 176150 }, exTask1] exTask1 = 191236 := by decide +kernel

/-- Chapter 04, "one code word": the parcels and START bits of CODE 0BC1_0110_5869_4201h. -/
theorem test_code_word : let v : Val := 0x0BC1011058694201
    [fld v 0 14, fld v 14 14, fld v 28 14, fld v 42 14] = [0x0201, 0x21A5, 0x1105, 0x3040] ∧ fld v 56 4 = 0xB := by decide +kernel

/-- Chapter 07, "nested traps", step 1: TYPE in ring 3 enters entry 52 without a push. -/
def trapBank : BankCtx :=
  { bank [(0, ⟨tMEAS, 0⟩), (1, ⟨tCHAR, 0⟩)] with
    psw := 3, trapv := 0x4000, tsp := { q0 := 0x100000, q1 := 0x200000 }, tsl := { q1 := 0x1FF004 } }
def trapStore : List (Nat × Word) := [(0x4034, cref 0x111), (0x401A, cref 0x222), (0x400F, cref 0x333)]
def trapped : State := (demo trapBank trapStore).trapAt 0 0 ⟨.type, some ⟨tMEAS, 0⟩, some ⟨tCHAR, 0⟩⟩
theorem test_trap_type : ((trapped.ctx 0).tw 2).val = 0x0004000000000004 ∧ pswRing (trapped.ctx 0).psw = 3 ∧ pswMl (trapped.ctx 0).psw = 4 ∧
    winTw (trapped.ctx 0).winpos = true ∧ (trapped.ctx 0).pc = 0x111 := by decide +kernel
/-- Step 2: ALLOC pushes a frame of ring 1 and enters entry 26. -/
def trapped2 : State := ((trapped.modL2 0 fun l => { l with tctx := [(0, 0x8000005000000400)] }).modCore 0 fun y =>
  { y with dtlb := [⟨5, 16, 0xF860000000000010, 3, 0, false⟩, ⟨5, 0x7FF, 0xF8600000000007FF, 3, 0, false⟩] }).trapAt 0 0 ⟨.alloc, some (fix 0), some (fix 0)⟩
theorem test_trap_alloc : ((trapped2.ctx 0).tw 2).val = 0x000A000000000010 ∧ pswRing (trapped2.ctx 0).psw = 1 ∧ depthOf (trapped2.ctx 0).tdepth 1 = 1 ∧
    (trapped2.rd 0x1FFFF2).val = 0x0004000000000004 ∧ (trapped2.ctx 0).pc = 0x222 ∧ (trapped2.ctx 0).pendTstack = none := by decide +kernel
/-- Step 4: TYPE at its own level escalates to ring 0. -/
def trapped4 : State := trapped.trapAt 0 0 ⟨.type, some (fix 0), some (fix 0)⟩
theorem test_trap_escalates : ((trapped4.ctx 0).tw 2).val = 0x044F000000000052 ∧ pswRing (trapped4.ctx 0).psw = 0 ∧
    depthOf (trapped4.ctx 0).tdepth 0 = 1 ∧ (trapped4.ctx 0).pc = 0x333 ∧ (trapped4.rd 0xFFFF0).tag = tCREF := by decide +kernel

/-- Chapter 08, "a code page": the walk of a ring 3 fetch, and the ST that its rights refuse. -/
def pageState : State :=
  (demo { bank [(0, fix 0x1000000140), (1, fix 7)] with psw := 3 } [(0x100040, ⟨tPTE, 0x8000000000000401⟩), (0x100400, ⟨tPTE, 0x8000000000000402⟩),
    (0x100800, ⟨tPTE, 0xD840000000003A00⟩), (0xE80100, ⟨tCODE, 0⟩)]).modL2 0 fun l => { l with tctx := [(0, 0x8000005000000400)] }
def walked : Except Trap Xl × State := pageState.run (translateVa 0 0 3 .fetch 0x1000000100 (fixN 0))
theorem test_walk : (walked.1.toOption).map Xl.pa = some 0xE80100 ∧ (walked.2.coreOf 0).wcache.length = 2 ∧
    (walked.2.coreOf 0).itlb.length = 1 := by decide +kernel
theorem test_walk_rights : trapOf (pageState.run (translateVa 0 0 3 .write 0x1000000140 (fixN 0x1000000140))).1 =
    some ⟨.rights, some (fix 0x1000000140), some (fix 0x5800000000100800)⟩ := by decide +kernel

/-- Chapter 15: EVT_ROUTE[100] at BAR_0 + 8320h with PAGE 3. -/
theorem test_route_page : ((device.modMbx fun m => { m with winsel := mset wselD m.winsel 512 3 }).hostWrite 0x8320 8
    0x8001000000000000).route 100 = 0x8001000000000000 := by decide +kernel

/-- Chapter 13, "de-interleaving": element (0, c, i) of the gather reads byte 384i + 4c of the block. -/
def exDesc : Desc := ⟨0x08000000, 0x08008000, 0x0000080000000180, 0x0000600000000004, 0x0000010000000000, 0x4800040000000000, 0, 0x2008⟩
theorem test_gather : (List.range 16).map (fun j => exDesc.srcAddr j) = (List.range 16).map (fun (j : Nat) => 0x08000000 + 384 * ((j : Int) % 8) + 4 * ((j : Int) / 8)) ∧
    exDesc.esize = 2 ∧ exDesc.total = 768 := by decide +kernel

/-! ### Hypotheses met: the core's instructions -/

def x1 : BankCtx := bank [(0, fix 5), (1, fix 7), (2, fix 2), (9, fix 3)]
def d1 : State := demo x1

theorem wit_ArithmeticCompletes : IssuesMem d1 0 0 ∧
    ((arith .add (x1.get 1) (x1.get 2)).toOption, (arith .sub (x1.get 1) (x1.get 2)).toOption, (arith .mul (x1.get 1) (x1.get 2)).toOption,
      (arith .div (x1.get 1) (x1.get 2)).toOption, (arith .rem (x1.get 1) (x1.get 2)).toOption) =
      (some (fix 9), some (fix 5), some (fix 14), some (fix 3), some (fix 1)) ∧
    (arith .add (x1.get (wide 1)) (fixN 15)).toOption = some (fix 18) ∧ (arith .add (x1.get 1) (fixI (-128))).toOption = some (fixI (-121)) ∧
    (arith .mul (x1.get 1) (fixI 127)).toOption = some (fix 889) := by decide +kernel

theorem wit_ComparisonsComplete : IssuesMem d1 0 0 ∧ (compareWords (pswQstrict x1.psw) (x1.get 1) (x1.get 2)).toOption = some (some .gt) ∧
    (compareWords (pswQstrict x1.psw) (x1.get 1) (fixI (-128))).toOption = some (some .gt) ∧
    isPoison (x1.get 1) = false ∧ isPoison (x1.get 2) = false := by decide +kernel

def x2 : BankCtx := bank [(0, ⟨tCHAR, 65⟩), (1, fix 7), (2, fix 64), (3, poison 4 8)]
theorem wit_BitOperationsComplete : IssuesMem (demo x2) 0 0 ∧ x2.get 1 = fix 7 ∧ x2.get 2 = fix 64 ∧ isPoison (x2.get 0) = false ∧
    (isFix (x2.get 0) && isFix (x2.get 1)) = false ∧ isFix (x2.get 0) = false := by decide +kernel

theorem wit_MovesComplete : IssuesMem d1 0 0 ∧ reservedTag tCONS = false ∧ setTagRing tCONS = some 1 ∧ pswRing x1.psw ≤ 1 ∧
    (cvt 0 (x1.get 1) (x1.get 0)).toOption.isSome = true := by decide +kernel

theorem wit_ScalarOperandsTrap : IssuesMem (demo x2) 0 0 ∧ (trapOf (arith .add (x2.get 0) (x2.get 1))).isSome = true ∧
    (trapOf (arith .div (x2.get 1) (fix 0))).isSome = true ∧ (trapOf (compareWords false (x2.get 3) (x2.get 1))).isSome = true ∧
    (trapOf (bitOp .shl (x2.get 0) (x2.get 1))).isSome = true ∧ isPoison (x2.get 3) = true ∧
    (isPoison (x2.get 0) = false ∧ (isFix (x2.get 0) && isFix (x2.get 1)) = false) := by decide +kernel

def tlbState : State := (demo x1).modL2 0 (fun l => { l with tctx := [(0, 0x8000005000000400)] })
  |>.modCore 0 fun y => { y with dtlb := [⟨5, 3, 0xF860000000000007, 3, 0, false⟩] }
theorem wit_TranslationGivesAddress : tcEn (d1.tctx 0) = false ∧ 2 ^ 36 - 1 < 2 ^ 36 ∧ 2 ^ vaWidth (d1.tctx 0) ≤ 2 ^ 36 ∧
    tcEn (tlbState.tctx 0) = true ∧ (tlbState.coreOf 0).parityOk = true ∧ 3 * 1024 < 2 ^ vaWidth (tlbState.tctx 0) ∧
    ((tlbState.coreOf 0).dtlb.find? fun t => t.covers (tcAsid (tlbState.tctx 0)) 3).isSome = true := by decide +kernel

def x3 : BankCtx := { bank [(0, fix 0x100), (1, fix 0x200), (2, fix 7), (3, ⟨tCONS, 0x100⟩), (4, wNil), (5, ⟨tCODE, 0⟩),
  (9, ⟨tCONS, 0x100⟩), (10, fix 7)] with basin := 0x200, alloc := 0x300, alimit := 0x400 }
def d3 : State := demo x3 [(0x100, fix 9), (0x101, wTrue)]
theorem wit_LoadsOpenTheirShadow : IssuesMem d3 0 0 ∧ PlainStore d3 ∧ x3.based 0 ∧ x3.ea 0 (-1) = 0xFF ∧ Flat d3 0 0xFF ∧
    Flat d3 0 (x3.ea 0 0) ∧ Plain x3 (d3.rd (x3.ea 0 0)) ∧ Flat d3 0 (basinVa x3 511) ∧ Plain x3 (d3.rd (basinVa x3 511)) ∧
    (x3.get 3).tag = tCONS ∧ Plain x3 (d3.rd (x3.ea 3 1)) ∧ (x3.get 4).tag = tNIL := by decide +kernel

def shadowState (slot : Nat) : State :=
  d1.modBank 0 fun b => { b with shadow := some { dest := 4, word := fix 9, slot := slot, pc := 0, saved := {}, vregs := [], vstat := 0, tctx := 0, held := [] } }
theorem wit_LoadShadowCloses : (∀ n ∈ [0, 1], (shadowState n).executing 0 = some 0 ∧ (shadowState n).stalled 0 = false ∧ ((shadowState n).ctx 0).flaws = []) ∧ (((shadowState 0).bankOf 0).shadow.map Shadow.slot) = some 0 ∧
    (((shadowState 1).bankOf 0).shadow.map Shadow.slot) = some 1 ∧ (((shadowState 0).bankOf 0).shadow.map Shadow.held) = some [] ∧
    ((shadowState 0).ctx 0).due = none ∧ (arith .add (x1.get 1) (x1.get 2)).toOption = some (fix 9) ∧
    (trapOf (arith .add (x1.get 1) (fix 0x7FFFFFFFFFFFFFFF))).isSome = true := by decide +kernel

def x4 : BankCtx := { x3 with cardbase := 0x8000000000000800, bmat := { q0 := 1 } }
def d4 : State := demo x4 [(0x800, rawd 0)]
theorem wit_StoresWriteOneWord : IssuesMem d3 0 0 ∧ PlainStore d3 ∧ x3.based 0 ∧ Flat d3 0 (x3.ea 0 0) ∧ Storable x3 (d3.rd (x3.ea 0 0)) (x3.get 2) 0 ∧
    Flat d3 0 (basinVa x3 0) ∧ Storable x3 (d3.rd (basinVa x3 0)) (x3.get 2) 0 ∧ (x3.get (wide 1)).tag = tCONS ∧
    Storable x3 (d3.rd (x3.ea 3 1)) (x3.get 2) 0 ∧ (x3.get 5).tag = tCODE ∧
    (IssuesMem d4 0 0 ∧ PlainStore d4 ∧ x4.based 0 ∧ Flat d4 0 (x4.ea 0 0) ∧ (d4.rd (x4.ea 0 0)).tag ≠ tCODE ∧ (d4.rd (x4.ea 0 0)).tag ≠ tRAWD ∧
      isHeap (x4.get 3) = true ∧ bit x4.cardbase 63 = true ∧
      bit (x4.bmat.get (spaceOf (x4.get 0).val / 4)) (16 * (spaceOf (x4.get 0).val % 4) + spaceOf (x4.get 3).val) = true ∧
      (fld x4.cardbase 0 60 + 0x100 / 512) % 2 ^ 60 = 0x800 ∧ Flat d4 0 0x800 ∧ (d4.rd 0x800).tag = tRAWD) := by decide +kernel

/-- Bits of register 0 have flipped. -/
def flawed (w : Word) (f : BitVec 91) : State := demo { bank [(0, w)] with flaws := [(0, f)] }
def readyFlawed (f : BitVec 91) : Bool := let s := flawed (fix 5) f
  decide (s.executing 0 = some 0 ∧ (s.bankOf 0).shadow = none ∧ (s.ctx 0).ix 0 = 0 ∧ (s.l2Of 0).dcorr < 65536 ∧ (s.l2Of 0).dpois < 65536)
theorem wit_RegisterErrorsAreCorrected : (readyFlawed 1 && readyFlawed 3) = true ∧
    decodeBits (storedBits (fix 5) ^^^ 1) = some (fix 5, 1) ∧ decodeBits (storedBits (fix 5) ^^^ 3) = none := by decide +kernel
/-- A register with one flipped bit reads right, and stands corrected. -/
theorem test_register_corrected : (match exec (.mov 0 (.rrr 1 0)) (flawed (fix 5) 1) with
    | .next t => decide ((t.ctx 0).get 1 = fix 5 ∧ (t.ctx 0).flaws = [] ∧ (t.l2Of 0).dcorr = 1) | _ => false) = true := by decide +kernel

def x5 : BankCtx := bank [(0, poison 4 0), (1, ⟨tCHAR, 65⟩), (2, fix 0x100), (3, fix 0x101), (4, ⟨tCONS, 0⟩)]
def d5 : State := demo x5 [(0x100, ⟨tCODE, 0⟩), (0x101, rawd 0)]
theorem wit_AccessTraps : IssuesMem d5 0 0 ∧ PlainStore d5 ∧ isPoison (x5.get 0) = true ∧ isPoison (x5.get 1) = false ∧ isHeap (x5.get 1) = false ∧
    isFix (x5.get 1) = false ∧ x5.based 2 ∧ Flat d5 0 (x5.ea 2 0) ∧ (d5.rd (x5.ea 2 0)).tag = tCODE ∧ x5.based 3 ∧ Flat d5 0 (x5.ea 3 0) ∧
    (d5.rd (x5.ea 3 0)).tag = tRAWD ∧ isHeap (x5.get 4) = true ∧ (x5.get 1).tag ≠ tCONS ∧ (x5.get 1).tag ≠ tNIL := by decide +kernel

def x6 : BankCtx := { x3 with alloc := 0x302 }
def x7 : BankCtx := { x3 with alloc := 0x400 }
def d6 : State := (demo x6).modCore 0 fun y => { y with resv := some (0, 0x100) }
theorem wit_AllocationAndReservation : IssuesMem d6 0 0 ∧ PlainStore d6 ∧
    (vaOf x6.alloc % 2 = 0 ∧ vaOf x6.alloc + 2 ≤ vaOf x6.alimit ∧ Flat d6 0 0x302 ∧ Flat d6 0 0x303 ∧ vaOf x6.alloc % 8 ≠ 0 ∧
      Storable x6 (d6.rd 0x302) (x6.get 2) 0 ∧ Storable x6 (d6.rd 0x303) (x6.get 9) 0) ∧
    (vaOf x3.alloc % 8 = 0 ∧ vaOf x3.alloc + 8 ≤ vaOf x3.alimit ∧ Flat d3 0 0x300 ∧ Flat d3 0 0x301) ∧ vaOf x7.alimit < vaOf x7.alloc + 2 ∧
    (x6.based 0 ∧ Flat d6 0 (x6.ea 0 127)) ∧ (d6.coreOf 0).resv = some (0, x6.ea 0 0) ∧ Storable x6 (d6.rd (x6.ea 0 0)) (x6.get 2) 0 ∧
    (d3.coreOf 0).resv ≠ some (0, x3.ea 0 0) ∧ (4 : BitVec 3).toNat < 5 ∧ 5 ≤ (5 : BitVec 3).toNat := by decide +kernel

def x8 (n : Nat) : BankCtx := bank [(0, fix 0x100), (1, fix 0x200), (2, fixN n), (3, ⟨tCONS, 0x300⟩), (4, wNil), (5, fix 9)]
def d8 (n : Nat) : State := demo (x8 n) [(0x300, fix 8), (0x301, wNil)]
def blockReady (n : Nat) : Bool := (List.range (min n 16)).all fun i =>
  decide (Flat (d8 n) 0 (0x200 + i) ∧ Flat (d8 n) 0 (0x100 + i) ∧ Plain (x8 n) ((d8 n).rd (0x200 + i)) ∧
    Storable (x8 n) ((d8 n).rd (0x100 + i)) ((d8 n).rd (0x200 + i)) (spaceOf ((x8 n).get 0).val) ∧ (d8 n).rd (0x100 + i) = (d8 n).rd (0x200 + i))
theorem wit_BlockInstructionsComplete : (x8 0).get 2 = fix 0 ∧
    (∀ n ∈ [1, 16, 40], IssuesMem (d8 n) 0 0 ∧ PlainStore (d8 n) ∧ (x8 n).get 2 = fixN n ∧ (x8 n).based 0 ∧ (x8 n).based 1 ∧ blockReady n = true ∧
      isPoison ((x8 n).get 1) = false) ∧ (0 : R5) ≠ 1 ∧ (0 : R5) ≠ 2 ∧ (1 : R5) ≠ 2 ∧ ((x8 1).get 4).tag = tNIL ∧ ((x8 1).get 3).tag = tCONS ∧
    Flat (d8 1) 0 0x300 ∧ (d8 1).rd 0x300 ≠ (x8 1).get 5 ∧ (d8 1).rd 0x300 = fix 8 ∧ Plain (x8 1) ((d8 1).rd 0x301) := by decide +kernel

def x9 : BankCtx := { bank [(0, fix 0x80000001C), (1, fix 0x200), (5, fix 0xFFFF), (6, fix 0)] with winpos := 0x18, openRec := some ⟨0x8000, [fix 1], false⟩ }
def x10 : BankCtx := bank [(0, fix 0x1C), (1, fix 0x200), (5, fix 0xFFFF), (6, fix 0)]
def d9 : State := demo x9
def d10 : State := demo x10
def d9m : State := d9.modMan fun m => { m with en := true, sz := 20, st := .opened }
theorem wit_MultipleAndRecordsComplete : IssuesMem d10 0 0 ∧ PlainStore d10 ∧ x10.get 0 = fix 0x1C ∧ firstBit (0x1C : Val) = some 2 ∧
    (∀ i < 32, bit (0x1C : Val) i = true → maskIx x10 0x1C i ≠ x10.ix 0 ∧ maskIx x10 0x1C i ≠ x10.ix 1) ∧ x10.based 1 ∧ Flat d10 0 (x10.ea 1 0) ∧
    (x10.get 6 = fix 0) ∧ x10.get 5 = fixN 0xFFFF ∧ x10.openRec = none ∧
    (x9.openRec = some ⟨0x8000, [fix 1], false⟩ ∧ (d9.coreOf 0).recBuf < 64 ∧ recordFits d9 0 (closeRecord d9 0 ⟨0x8000, [fix 1], false⟩) = true ∧
      d9.man.st ≠ .opened ∧ recordFits d9m 0 (closeRecord d9m 0 ⟨0x8000, [fix 1], false⟩) = true ∧ d9m.man.st = .opened) := by decide +kernel

/-! ### Hypotheses met: control, traps, vectors, system operations -/

def x11 : BankCtx := bank [(0, wNil), (1, fix 7), (2, poison 4 8)]
theorem wit_BranchesComplete : IssuesMem (demo x11) 0 0 ∧ isPoison (x11.get 0) = false ∧ (x11.get 0).tag = tNIL ∧ isPoison (x11.get 1) = false ∧
    (x11.get 1).tag ≠ tNIL ∧ isPoison (x11.get 2) = true := by decide +kernel

def x12 : BankCtx := { bank [(0, cref 0x444), (1, ⟨tGATE, 0x4000000000000100⟩), (rfIx 5 15, cref 0x555), (rfIx 5 14, fix 0)] with winpos := 0x66 }
theorem wit_CallsAndReturnsComplete : IssuesMem (demo x12) 0 0 ∧ (x12.get 0).tag = tCREF ∧ winTw x12.winpos = false ∧ winRes x12.winpos = 6 ∧
    (x12.get 1).tag = tGATE ∧ pswRing x12.psw ≤ fld (x12.get 1).val 62 2 ∧ fld (x12.get 1).val 60 2 ≤ pswRing x12.psw ∧
    winRes 0x70 = 7 ∧ winTw 0x70 = false ∧ (x12.at_ (rfIx (winCur x12.winpos + 7) 15)).tag = tCREF ∧
    x12.at_ (rfIx (winCur x12.winpos + 7) 14) = fixN 0 ∧ pswRing x12.psw ≤ 0 ∧ winRes 0x10 = 1 ∧ winTw 0x10 = false ∧ winTw 0x90 = true ∧
    IssuesMem (demo { x12 with winpos := 0x76 }) 0 0 ∧ IssuesMem (demo { x12 with winpos := 0x90 }) 0 0 := by decide +kernel

/-- The core's data cache is being cleaned: accesses wait. -/
def stalledState (s : State) : State := s.modL2 0 fun l => { l with l1dbusy := 1 }
def lockedBank : BankCtx := { bank [] with psw := 0x30000 }
theorem wit_TrapEntrySaves : PlainStore (demo trapBank trapStore) ∧ ((demo trapBank trapStore).bankOf 0).shadow = none ∧
    trapBank.flaws = [] ∧ pswInlast trapBank.psw = false ∧ tcEn ((demo trapBank trapStore).tctx 0) = false ∧ (demo trapBank trapStore).storeOk 0x4034 = true ∧
    ((demo trapBank trapStore).rd 0x4034).tag = tCREF ∧ winTw trapBank.winpos = false ∧
    (PlainStore trapped ∧ (trapped.bankOf 0).shadow = none ∧ (trapped.ctx 0).flaws = [] ∧ pswInlast (trapped.ctx 0).psw = false ∧ winTw (trapped.ctx 0).winpos = true ∧
      pswGuard (trapped.ctx 0).psw = false ∧ trapped.storeOk 0x400F = true ∧ (trapped.rd 0x400F).tag = tCREF ∧
      (∀ i < 16, trapped.storeOk (0xFFFF0 + i) = true ∧ (trapped.rd (0xFFFF0 + i)).tag = tUNBOUND)) ∧
    ((demo lockedBank).weir.tasks = [] ∧ pswGuard lockedBank.psw = true ∧ pswInlast lockedBank.psw = true) ∧
    (pswGuard 0x20000 = false ∧ pswInlast 0x20000 = true ∧ ((demo { lockedBank with psw := 0x20000 }).coreOf 0).run = .running ∧
      (demo { lockedBank with psw := 0x20000 }).weir.runSt = .stopped) := by decide +kernel

/-- A task of CORE[0] bank 0: offset 2000, deadline 24000, budget 8000, 16 credits, carry area 1000h. -/
def exArgs : AdmitArgs := ⟨0, 0, 2000, 24000, 8000, 0, 0, 0, 16, 0x1000, 0, 0, 0x10000, 0x10, 0, 0, 0, [], false⟩
def exTask : Task := { args := exArgs, phase := .active, begun := true, credLeft := 16 }
/-- CORE[0] bank 0 is a frame task's, in a running run. -/
def tasked (x : BankCtx) (u : Task := exTask) (mem : List (Nat × Word) := []) : State :=
  (demo { x with frame := true } mem).modWeir fun w => { w with runSt := .running, ticking := true, len := 36000, pound := 9, tasks := [u] }
def nested : BankCtx := { bank [] with winpos := 0x10, psw := 0x400 }
def framed (t5 t1 : Val) : BankCtx := (nested.putTws [cref 0x777, fix t1, fix 0, fix 0, fix 0, fix t5])
theorem wit_TrapReturnAndWaitsComplete :
    (Issues (stalledState (demo nested)) 0 0 ∧ (stalledState (demo nested)).stalled 0 = true) ∧
    (IssuesMem (demo { framed 0x10 0x10F00 with psw := 0x403 }) 0 0 ∧ pswRing (0x403 : Val) = 3 ∧ pswRing (0x10F00 : Val) < 3) ∧
    IssuesMem (demo nested) 0 0 ∧ (nested.tw 0).tag ≠ tCREF ∧ pswRing nested.psw = 0 ∧
    (IssuesMem (demo (framed 0x10 0)) 0 0 ∧ ((framed 0x10 0).tw 0).tag = tCREF ∧ winTw (0x10 : Val) = false) ∧
    (winTw (0x90 : Val) = true ∧ depthOf (framed 0x90 0).tdepth 0 = 0) ∧
    (let x := { framed 0x90 0 with tdepth := 1, tsp := { q0 := 0x10000 } }
     depthOf x.tdepth 0 = 1 ∧ PlainStore (demo x) ∧ 16 ≤ 16 * fld x.tsp.q0 4 56 ∧
      ∀ i < 16, Flat (demo x) 0 (0xFFF0 + i) ∧ ((demo x).rd (0xFFF0 + i)).tag ≠ tCODE) ∧
    ((demo nested).isFrame 0 = false) ∧
    (IssuesMem (tasked nested) 0 0 ∧ (tasked nested).taskOf 0 = some exTask ∧ winRes nested.winpos ≤ 1 ∧ PlainStore (tasked nested)) ∧
    (IssuesMem (tasked { nested with winpos := 0x20 }) 0 0 ∧ 1 < winRes (0x20 : Val)) ∧ (demo nested).evlvl 0 ≤ pswMl nested.psw ∧
    (∀ i < 16, isPoison (nested.tw i) = false ∧ isPoison ((framed 0x10 0).tw i) = false ∧ isPoison ((framed 0x90 0).tw i) = false ∧
      isPoison ((framed 0x10 0x10F00).tw i) = false) ∧
    (let x := (framed 0x10 0).putTws [poison 1 0]; IssuesMem (demo x) 0 0 ∧ isPoison (x.tw 0) = true) := by
  refine ⟨?_, ?_, ?_, ?_, ?_, ?_, ?_, ?_, ?_⟩ <;> decide +kernel

def x13 : BankCtx := bank [(0, fix 0x100), (1, fix 3), (2, rawd 9), (3, fix 15)]
def vectored (s : State) : State := (s.modPwr fun p => { p with on := 1 <<< 72 }).modCore 0 fun y => { y with vown := 8 }
def d13 : State := vectored (demo x13 ((List.range 16).map fun i => (0x100 + i, rawd (i : Val))))
theorem wit_VectorArithmeticCompletes : IssuesMem d13 0 0 ∧ VecReady d13 0 0 ∧ x13.get 1 = fix 3 ∧ isNumber (x13.get 3) = true ∧ (x13.get 2).tag = tRAWD := by decide +kernel
theorem wit_VectorMemoryCompletes : IssuesMem d13 0 0 ∧ PlainStore d13 ∧ VecReady d13 0 0 ∧ x13.based 0 ∧ x13.get 1 = fix 3 ∧
    (∀ n < 8, Flat d13 0 (0x100 + n) ∧ (d13.rd (0x100 + n)).tag = tRAWD) ∧
    mayUseVector (demo x13) 0 0 = false ∧ (d13.modPwr fun _ => {}).domOn (vecDomain 0) = false ∧ mayUseVector (d13.modPwr fun _ => {}) 0 0 = true := by decide +kernel

theorem wit_ControlRegistersComplete : IssuesMem d1 0 0 ∧ cregRings 0 = some (3, some 0) ∧ pswRing x1.psw = 0 ∧ cregRings 0xFF = none ∧
    x1.get 1 = fix 7 ∧ x1.st = .running ∧ mayUseVector (vectored d1) 0 0 = true := by decide +kernel

def d14 (n : Nat) (bw : Val) : State := (demo (bank [(0, fixN n), (1, fix 0x100)])).modCore 0 fun y => { y with bankwin := bw }
theorem wit_OtherBanksAreReached : IssuesMem (d14 0 0x102) 0 0 ∧ (d14 0 0x102).selected 0 0 = bk 0 2 ∧ (d14 0x300 0).selected 0 0 = bk 0 0 ∧
    ((d14 0x300 0x102).ctx (bk 0 2)).prio = BitVec.ofNat 3 (0x102 : Val).toNat ∧ ((d14 0x300 0x102).ctx (bk 0 2)).st = .idle ∧
    fld (0x102 : Val) 8 3 = 1 ∧ (∀ i < 512, ((d14 0x300 0x102).ctx i).frame = false) ∧ 1 < fld (0x200 : Val) 8 3 := by decide +kernel

def x15 : BankCtx := bank [(0, fix 0x100), (1, fix 5), (2, poison 4 0), (3, fix 0), (4, fix 8)]
def d15 : State := (demo x15).modCore 0 fun y => { y with inbox := [[fix 1, fix 2]], sendq := [], inval := [] }
def d16 : State := d15.modCore 3 fun y => { y with run := .running, inval := [⟨0, true, 2, 0, 0, 0⟩] }
def full : State := d15.modCore 0 fun y => { y with sendq := List.replicate 4 ⟨0, 0, 0, 0, 0, 0, false⟩ }
def d17 : State := { full with evt := { lvl := mset boolD [] (evTowpath 0) true } }
def codes (c v : Val) : State := d15.modLk fun l => { l with cxd := mset valD [] c.toNat v }
/-- CX 0 runs one user micro-word with one nano-word from the core's stores. -/
def routine (m : BitVec 24) (bad : List Nat) : State :=
  (codes 0 0x8000000000008000).modCore 0 fun y => { y with stores := { userMicro := [m], userNano := [0], bad := bad } }
def routineReady (m : BitVec 24) : Bool := let s := routine m []
  decide (IssuesMem s 0 0 ∧ PlainStore s ∧ (s.coreOf 0).stores.fetch 0x8000 = some (m, 0) ∧ (s.coreOf 0).stores.badFetch 0x8000 = false)
theorem wit_CustomOpcodeCompletes : IssuesMem d15 0 0 ∧ bit (mget valD (codes 0 0).lk.cxd 0) 63 = false ∧
    bit (mget valD (codes 0 0xB000000000000000).lk.cxd 0) 63 = true ∧ fld (0x8000000000000000 : Val) 60 2 < 3 ∧
    (bit (0x8000000000008000 : Val) 63 = true ∧ bit (0x8000000000008000 : Val) 62 = false ∧ fld (0x8000000000008000 : Val) 0 16 = 0x8000 ∧ d15.isFrame 0 = false) ∧
    (routineReady 0x1D00 = true ∧ microSeq 0x1D00 = 5) ∧ (routineReady 0x1E04 = true ∧ microSeq 0x1E04 = 6 ∧ microSarg 0x1E04 = 4) ∧
    ((routine 0x1D00 [0x8000]).coreOf 0).stores.badFetch 0x8000 = true := by decide +kernel
theorem wit_SystemOperationsComplete : IssuesMem d15 0 0 ∧ pswRing x15.psw = 0 ∧ x15.get 1 = fix 5 ∧ isPoison (x15.get 0) = false ∧ x15.based 0 ∧
    (IssuesMem d16 0 0 ∧ ((d16.coreOf 3).inval.any fun i => i.from_ == 0) = true) ∧ ((allCores.all fun c => (d15.coreOf c).inval.isEmpty) = true) ∧
    ((tasked x15).selected 0 0 = bk 0 0 ∧ (tasked x15).taskOf 0 = some exTask ∧ exTask.phase.isOpen = true ∧ (tasked x15).runOpen = true ∧ IssuesMem (tasked x15) 0 0) ∧
    ((d15.coreOf 0).sendq.length < 4 ∧ 4 ≤ (d17.coreOf 0).sendq.length) ∧
    (x15.get 3 = fixN 0 ∧ (d15.coreOf 0).inbox = [[fix 1, fix 2]] ∧ ((demo x15).coreOf 0).inbox = [] ∧ d17.lk.tpWait = [] ∧
      mget boolD d17.evt.lvl (evTowpath 0) = true) ∧
    0 ≤ (5 : Val).toInt ∧ (-1 : Val).toInt < 0 := by decide +kernel

def locks : State := d15.modL2 0 fun l => { l with ctl := 1, lockways := 4 }
def modified : State := d15.own 0 0 0x20
theorem wit_CacheMaintenanceCompletes : (IssuesMem modified 0 0 ∧ PlainStore modified ∧ modified.dirty 0x20 = true ∧ (modified.dirEnt 0x20).old.length = 8) ∧
    (1 : R5) ≠ 0 ∧ x15.based 1 ∧ Flat d15 0 (x15.ea 1 0) ∧ IssuesMem d15 0 0 ∧ PlainStore d15 ∧ x15.based 0 ∧ Flat d15 0 (x15.ea 0 0) ∧ x15.get 3 = fix 0 ∧
    d15.dirty (x15.ea 0 0 / 8) = false ∧ x15.get 1 = fixN 5 ∧ 5 ≤ 8 - x15.ea 0 0 % 8 ∧ x15.get 4 = fixN 8 ∧ 8 ≤ 8 - x15.ea 0 0 % 8 ∧
    d15.runLock 0 = false ∧ bit (locks.l2Of 0).ctl 0 = true ∧ (locks.l2Of 0).freeSlot (32 % 2048) = some 2 ∧ (locks.l2Of 0).slots = [] ∧
    (IssuesMem (tasked x15) 0 0 ∧ (tasked x15).runLock 0 = true) := by decide +kernel

def image (n : Nat) (e : BitVec 256) : Nat := (demo x15 [(8 * n, fix 9)]).stored n ^^^ burstMask { ch0 := e }
def lastLine : Nat := 2 ^ 28 - 1
/-- The caches of CORE[0]'s cluster are on. -/
def caches (s : State) : State := (s.modL2 0 fun l => { l with ctl := 0x00FFFF01 }).modPwr fun p => { p with on := p.on ||| (0xF <<< 144) }
/-- CORE[0]'s cluster holds line 0 modified; CORE[8]'s cluster does. -/
def held : State := ((caches (demo x15 [(0, fix 9)])).own 0 0 0).fill 0 0 {}
def heldFar : State := (demo x15 [(0, fix 9)]).own 1 0 0
def cached : State := (caches (tasked x15)).fill 0 0 {}
def soundBut0 (img : Nat) : Bool := (List.range 8).all fun i => i == 0 || (decodeWord img i).map Prod.snd == some 0
theorem wit_FillCorrectsOrPoisons :
    (let s := demo x15 [(0, fix 9)]
     s.awaits 0 0 = true ∧ PlainStore s ∧ (s.l2Of 0).holds 0 = false ∧ s.dirty 0 = false) ∧
    (imageSig (image 0 0 % 2 ^ 744) = signature 0 ∧ soundBut0 (image 0 0) = true ∧ decodeWord (image 0 0) 0 = some (fix 9, 0)) ∧
    (imageSig (image 0 1 % 2 ^ 744) = signature 0 ∧ soundBut0 (image 0 1) = true ∧ decodeWord (image 0 1) 0 = some (fix 9, 1)) ∧
    (imageSig (image 0 3 % 2 ^ 744) = signature 0 ∧ soundBut0 (image 0 3) = true ∧ decodeWord (image 0 3) 0 = none) ∧
    (imageSig (image lastLine 1 % 2 ^ 744) = signature lastLine ∧ (demo x15).awaits 0 lastLine = true) ∧
    (held.awaits 0 0 = true ∧ PlainStore held ∧ (held.l2Of 0).holds 0 = true ∧ decodeWord (encodeLine 0 (held.rdLine 0) ^^^ 3) 0 = none ∧
      soundBut0 (encodeLine 0 (held.rdLine 0) ^^^ 3) = true) ∧
    (heldFar.awaits 0 0 = true ∧ PlainStore heldFar ∧ (heldFar.l2Of 0).holds 0 = false ∧ heldFar.dirty 0 = true ∧
      decodeWord (encodeLine 0 (heldFar.rdLine 0) ^^^ 3) 0 = none) ∧
    ((tasked x15).awaits 0 0 = true ∧ (tasked x15).taskOf 0 = some exTask ∧ exTask.phase = .active ∧ PlainStore (tasked x15) ∧
      ((tasked x15).l2Of 0).holds 0 = false ∧ (cached.l2Of 0).holds 0 = true ∧ (cached.taskOf 0).map Task.phase = some .active ∧
      l2On ((tasked x15).l2Of 0) = false) := by
  refine ⟨?_, ?_, ?_, ?_, ?_, ?_, ?_, ?_⟩ <;> decide +kernel

def x18 : BankCtx := { bank [] with trapv := 0x4000 }
def d18 : State := { demo x18 [(0x4003, cref 0x111), (0x400E, cref 0x222)] with
  evt := { route := mset valD [] 1024 0x8003000000000000, pend := mset valD [] 16 1 } }
def d19 (f : BankCtx → BankCtx) : State := d18.modCtx 0 f
def delivers (s : State) (i : Item) : Bool :=
  let va := (0x4000 + (s.itemReq i).level) % 2 ^ 60
  decide (IssuesMem s 0 0 ∧ s.rival 0 (some (s.prioOf 0 0)) = none ∧ s.nextItem 0 = some i ∧ winTw (s.ctx 0).winpos = false ∧
    pswInlast (s.ctx 0).psw = false ∧ tcEn (s.tctx 0) = false ∧ s.storeOk va = true ∧ (s.rd va).tag = tCREF ∧ PlainStore s)
theorem wit_EventIsDelivered : IssuesMem d18 0 0 ∧ (Issues (stalledState d18) 0 0 ∧ (stalledState d18).stalled 0 = true) ∧ delivers d18 (.event 1024) = true ∧ d18.levelMode 1024 = false ∧
    delivers (d19 fun x => { x with pendBudget := true }) .budget = true ∧
    delivers (d19 fun x => { x with pendTstack := some (0, 1) }) (.tstack 0 1) = true := by decide +kernel

def ready (b : Fin 8) (s : State) : State := s.modCtx (bk 0 b) fun x => { x with st := .ready }
def spent : State := (tasked x15).modCtx 0 fun x => { x with isOver := true }
def hinted : State := (demo x15 [(0, ⟨tCODE, 0x0F00000000001FFF⟩)])
theorem wit_CoreEventsComplete : d1.engines = true ∧ (d1.coreOf 0).run = .running ∧ bit d1.lk.restarting 0 = false ∧
    (let s := (ready 7 d1).modCore 0 fun y => { y with cur := none }
     (s.coreOf 0).cur = none ∧ s.rival 0 none = some 7) ∧
    ((ready 7 d1).rival 0 (some (d1.prioOf 0 0)) = some 7 ∧ ((ready 7 d1).bankOf 0).shadow = none ∧ (d1.ctx 0).due = none) ∧
    ((tasked x15).spending 0 = some 0 ∧ ((tasked x15).ctx 0).isOver = false ∧ spent.spending 0 = some 0 ∧ (spent.ctx 0).isOver = true ∧ spent.runOpen = true) ∧
    (d16.coreOf 3).inval ≠ [] ∧ (d16.coreOf 3).cur = none ∧
    (IssuesMem hinted 0 0 ∧ PlainStore hinted ∧ Flat hinted 0 0 ∧ (hinted.rd 0).tag = tCODE ∧ bit (hinted.rd 0).val 56 = true ∧ oneOk (fld (hinted.rd 0).val 0 14) = false ∧
      fld (hinted.rd 0).val 0 14 < 0x2000) := by decide +kernel

def waitingTask (restart : Bool) : State := tasked x15 { exTask with phase := .waiting, restart := restart }
theorem wit_DeadlinesAndStarts : (tasked x15).engines = true ∧ (tasked x15).runOpen = true ∧ (tasked x15).taskOf 0 = some exTask ∧
    ((tasked x15).bankOf 0).shadow = none ∧ exTask.phase.isOpen = true ∧ (waitingTask false).runOpen = true ∧
    ((waitingTask true).taskOf 0).map Task.phase = some .waiting ∧ ((waitingTask true).coreOf 0).run = .running ∧ bit (waitingTask true).lk.restarting 0 = false ∧ PlainStore (waitingTask true) ∧
    (∀ i < 32, isPoison ((waitingTask true).rd (0x1000 + i)) = false) := by decide +kernel

/-! ### Hypotheses met: the pound, links, channels -/

def poundState : State := device.modWeir fun w => { w with ticking := true, hasTick := true, len := 36000, tol := 200, elapsed := 35800, pound := 9 }
theorem wit_TickOpensPound : poundState.engines = true ∧ poundState.weir.ticking = true ∧ poundState.weir.src = false ∧ poundState.weir.synlim = 0 ∧
    (∀ b e, ((poundState.modWeir fun w => { w with src := true, firstEdge := b, elapsed := e }).engines = true)) ∧
    poundState.weir.hasTick = true ∧ 36000 - 200 ≤ poundState.weir.elapsed ∧ (35799 : Nat) < 36000 - 200 ∧ poundState.weir.runSt = .stopped := by
  refine ⟨?_, ?_, ?_, ?_, fun b e => rfl, ?_, ?_⟩ <;> decide +kernel

def sampler (log : Bool) : Stream := { scfg := 0x8005000000000032 ||| (if log then 0x1000000000000000 else 0), sgeom := 0x0001000000000002 }
def linked (l : Link) (x : Stream) : State :=
  { poundState with twl := { links := mset linkD [] 0 l, streams := mset streamD [] 0 x } }
def upLink : Link := { lcfg := 0x8001000000010000, st := .up, map := [0] }
def exRecord : Record := { cls := 3, typ := 0x8000, srcid := 0, when_ := 0x90000, payload := List.replicate 8 0 }
def opened (b : List Placed) : Manifest :=
  { en := true, sz := 20, ring := 0x10000, ptaddr := 0x100, next := 2, rbp := 64, st := .opened, backlog := b }
def manned (m : Manifest) : State := { device with man := m }
def exPlaced : Placed := ⟨1, 0, 64, some exRecord⟩
def committing (len : Nat) : State := { manned { opened [] with inCommit := some ⟨2, 64, [exPlaced]⟩ } with memc := { mirLen := len } }
theorem wit_PoundEventsComplete : ((committing 0).engines = true ∧ (committing 1024).engines = true ∧
      PlainStore ((committing 1024).modMemc fun m => { m with mirLen := 0 }) ∧ (committing 1024).man.commits + 1 < 2 ^ 64 ∧ poundState.man.inCommit = none) ∧
    (∀ b, PlainStore (linked upLink (sampler b))) ∧ (linked upLink (sampler true)).engines = true ∧ (linked upLink (sampler true)).weir.ticking = true ∧
    lEn upLink.lcfg = true ∧ lDrive upLink.lcfg = true ∧ upLink.drvSent = false ∧ upLink.st.alive = true ∧ upLink.waitq.any TxCell.isDrive = false ∧
    (linked upLink (sampler true)).abortedOn 0 = 0 ∧ (∀ b, sEn (sampler b).scfg = true ∧ sKind (sampler b).scfg = 0 ∧ sLog (sampler b).scfg = b ∧
      (sampler b).closed ≠ some 8) := by decide +kernel

def cellAt (pound : BitVec 16) (sid : BitVec 8) (i n : Nat) : RxCell := ⟨false, pound, sid, BitVec.ofNat 24 i, List.replicate n 0⟩
theorem wit_SampleCellsAreClassed : upLink.st.carries = true ∧ (linked upLink (sampler false)).streamBySid 0 0 9 = none ∧
    (linked upLink (sampler false)).streamBySid 0 0 5 = some (0, sampler false) ∧ (linked upLink (sampler false)).streamOf 0 = sampler false ∧
    (linked upLink (sampler false)).sil.armed = false ∧ 1 < gCells (sampler false).sgeom ∧ ((sampler false).rxOf 9).next = 0 ∧
    mget bytesD ((sampler false).rxOf 9).got 1 = [] ∧ mget bytesD ((sampler false).rxOf 9).got 0 = [] ∧ (cellAt 9 5 1 84).payload.length = min 116 ((sampler false).bytes - 116) ∧
    ((cellAt 6 5 0 116).pound - 9).toInt = -3 ∧ ((cellAt 7 5 0 116).pound - 9).toInt = -2 ∧ ((cellAt 9 5 0 116).pound - 9).toInt = 0 ∧
    ((cellAt 10 5 0 116).pound - 9).toInt = 1 ∧ upLink.earlyRun < 2 := by decide +kernel

/-- An armed guard whose channel 0 limits an int16 sample to 100, fires group 0 at the second violation, and has the state x. -/
def watch (x : ChanSt) : State := poundState.modSil fun g =>
  { g with armed := true, entries := mset entryD [] 0 ⟨0x0000006400000000, 0x7FFF000002040000⟩, chan := mset chanStD [] 0 x }
theorem wit_GuardFiresOncePerPound : let e := mget entryD (watch {}).sil.entries 0
    (watch {}).sil.armed = true ∧ device.sil.armed = false ∧ e.persist = 2 ∧ e.action = 4 ∧ violation 1 e 50 none = 0 ∧ violation 1 e 200 none = 2 ∧
    (∀ n ∈ [0, 1], mget chanStD (watch { count := n, fired := some 9 }).sil.chan 0 = { count := n, fired := some 9 }) ∧ poundState.weir.pound = 9 := by
  decide +kernel

theorem wit_AbortInAbortsAll : device.on = true ∧ device.dbg.frozen = false := by decide +kernel

def ctl4 (n : Nat) : CtlReq := ⟨.host 1 0 0, 0, n, { typ := 6 }, 1⟩
def bulker : Stream := { scfg := 0xC005000000000032, sgeom := 0x0001000000000002 }
def talk (l : Link) : State := (linked l bulker).modLane 0 fun x => { x with st := 2 }
def alignLink : Link := { upLink with st := .align, lastLock := some 8, map := [0], bulkCred := 3 }
theorem wit_FrontEndResponsesAct : (talk upLink).hears 0 = true ∧ alignLink.st = .align ∧ (talk alignLink).hears 0 = true ∧ alignLink.lastLock = some (9 - 1) ∧
    alignLink.map[0]? = some 0 ∧ ({ upLink with restripe := some (0, true) } : Link).st.alive = true ∧
    upLink.connector 0 = some 0 ∧ ((talk upLink).laneOf 0).st = 2 ∧ (ctl4 1).attempts < 4 ∧ 4 ≤ (ctl4 4).attempts ∧
    (talk upLink).streamBySid 0 2 5 = some (0, bulker) ∧ alignLink.bulkUp < alignLink.bulkCred ∧ upLink.bulkCred ≤ upLink.bulkUp := by decide +kernel

def trainLink : Link := { upLink with st := .train }
def train : State := (talk trainLink).modPwr fun p => { p with on := 1 <<< 176 }
/-- A link with its spare on lane 1, which is trained. -/
def spareLink : Link := { upLink with lcfg := upLink.lcfg ||| 0x1000010000000000 }
def spared (l : Link) : State := (talk l).modLane 1 fun x => { x with st := 3 }
theorem wit_LinkStatesMove : (talk upLink).engines = true ∧ ((talk upLink).laneOf 0).st = 2 ∧ lEn upLink.lcfg = true ∧ train.engines = true ∧
    trainLink.st = .train ∧ (∀ m ∈ trainLink.map, train.domOn (176 + m) = true) ∧ (talk alignLink).engines = true ∧
    ((talk upLink).linkOf ((talk upLink).laneOf 0).link).map.contains 0 = true ∧ (talk upLink).spareReady 0 = false ∧
    ((spared spareLink).spareReady 0 = true ∧ spareLink.map.contains 0 = true ∧ spareLink.restripe = none ∧ lSpare spareLink.lcfg ≠ 0) ∧
    (let l := { spareLink with restripe := some (0, false), slots := 1 }
     (spared l).engines = true ∧ l.posNext = 0 ∧ markerSlot l.slotNext = false ∧ ∀ m ∈ l.map.set 0 (lSpare l.lcfg), ((spared l).laneOf m).st ≠ 4) ∧
    ({ upLink with st := .down } : Link).st = .down := by decide +kernel

def tickCell : TxCell := { typ := 4, pound := 9, repl := true }
def holdCell : TxCell := { typ := 6, pound := 9 }
def sendLink (c : TxCell) (slots : Nat) : Link := { upLink with waitq := [c], slots := slots }
theorem wit_CellsLeaveInTheirSlots : (talk upLink).engines = true ∧ upLink.st ≠ .down ∧ (upLink.posNext = 0 ∧ markerSlot upLink.slotNext = true) ∧
    ((sendLink holdCell 1).posNext = 0 ∧ markerSlot (sendLink holdCell 1).slotNext = false ∧ (sendLink holdCell 1).map[0]? = some 0 ∧
      ((talk (sendLink holdCell 1)).laneOf 0).st ≠ 4 ∧ (talk (sendLink holdCell 1)).spareSends 0 = false ∧
      (talk (sendLink holdCell 1)).pickCell 0 = some holdCell ∧ (talk { sendLink holdCell 1 with waitq := [] }).pickCell 0 = none) ∧
    ((talk (sendLink tickCell 1)).pickCell 0 = some tickCell ∧ tickCell.repl = true ∧ tickCell.typ ≠ 1) := by decide +kernel
theorem wit_CellsHaveTheirFormat : holdCell.payload.length ≤ 116 ∧ holdCell.typ < 16 ∧ holdCell.pound < 2 ^ 16 ∧ holdCell.sid < 2 ^ 8 ∧
    holdCell.index < 2 ^ 24 := by decide +kernel

/-- Two words from word 100h to word 200h; the same from host memory; bytes to host memory. -/
def wordDesc : Desc := ⟨0x800, 0x1000, 0x20000000008, 0x10000000000, 0x10000000000, 0x8000000000000000, 0, 0⟩
def hostDesc : Desc := ⟨0x4000000000000800, 0x1000, 0x20000000008, 0x10000000000, 0x10000000000, 0x6000000000000000, 0, 0⟩
def toHost : Desc := ⟨0x800, 0x4000000000001000, 0x20000000008, 0x10000000000, 0x10000000000, 0x6000000000000000, 0, 0⟩
def chan (x : Chan) : State := { device with slu := { chans := mset chanD [] 63 x } }
def active (d : Desc) : Chan := { en := true, st := .active, desc := some d }
def startMem : List (Nat × Word) := [wordDesc.w0, wordDesc.w1, wordDesc.w2, wordDesc.w3, wordDesc.w4, wordDesc.w5, wordDesc.w6].zipIdx.map fun vi => (0x200 + vi.2, ⟨tDESC, vi.1⟩)
theorem wit_ChannelEventsAct : (chan (active wordDesc)).engines = true ∧ (2 ≤ wordDesc.total ∧ wordDesc.total / 2 ≤ 1) ∧ wordDesc.crcm = 0 ∧
    (let s := store (chan { active wordDesc with atPoint := true }) [(7, wNil)]
     PlainStore s ∧ (s.rd ((active wordDesc).curAddr + 7)).tag = tNIL) ∧ bit wordDesc.w7 63 = false ∧ (chan {}).descOk 63 wordDesc = true ∧
    (hostDesc.kindS = 1 ∧ toHost.kindS ≠ 1 ∧ toHost.kindD = 1 ∧ ({ device with pins := { device.pins with linkUp := false } } : State).engines = true) ∧
    ((chan (active hostDesc)).slu.bl16 = false ∧ (∀ n : Nat, n = 0 → n < (chan (active hostDesc)).slu.retrymax.toNat) ∧
      (chan (active hostDesc)).slu.retrymax.toNat ≤ 3 ∧ (chan (active hostDesc)).slu.bl16halt = false) ∧
    ((active wordDesc).stopAt ≤ (active wordDesc).wr ∧ (active wordDesc).done < wordDesc.total ∧ (active wordDesc).atPoint = false) ∧
    (bit (0x8000000000000001 : Val) 63 = true ∧ bit (0x8000000000000001 : Val) 62 = false) := by
  refine ⟨?_, ?_, ?_, ?_, ?_, ?_, ?_, ⟨?_, fun n h => ?_, ?_⟩, ?_, ?_⟩ <;> first | (subst h; decide +kernel) | decide +kernel

def beating (x : Chan) : State := store (chan x) [(0x100, fix 7), (0x101, fix 8)]
theorem wit_BeatMovesAnElement :
    (let s := beating (active wordDesc)
     s.engines = true ∧ PlainStore s ∧ s.pickChan [] = some 63 ∧ (active wordDesc).atPoint = false ∧ (active wordDesc).canWrite wordDesc = none ∧
       wordDesc.kindS = 0 ∧ wordDesc.wordMode = true ∧ 0 ≤ wordDesc.srcU 0 ∧ s.storeOk (wordDesc.srcU 0).toNat = true ∧
       isPoison (s.rd (wordDesc.srcU 0).toNat) = false ∧ (s.rd (wordDesc.srcU 0).toNat).tag ≠ tCODE) ∧
    (let s := beating (active hostDesc)
     s.pickChan [] = some 63 ∧ (active hostDesc).canWrite hostDesc = none ∧ hostDesc.kindS = 1 ∧ s.pins.linkUp = true ∧
       ∀ i < 64 + hostDesc.unit, hostOk (hostDesc.srcU i) = true) ∧
    (∀ arm : Bool, let x := { active wordDesc with stage := [fix 7, fix 8], arm := arm }
     (beating x).pickChan [] = some 63 ∧ x.canWrite wordDesc = some 2 ∧ wordDesc.kindD = 0 ∧ 2 = wordDesc.totalU ∧
       ∀ i < 2, 0 ≤ wordDesc.dstU i ∧ (beating x).storeOk (wordDesc.dstU i).toNat = true) ∧
    (let x := { active toHost with stage := List.replicate 16 (rawd 5) }
     (beating x).pickChan [] = some 63 ∧ x.canWrite toHost = some 16 ∧ toHost.kindD = 1 ∧ toHost.reach toHost.dstU hostOk 0 16 = 16) := by decide +kernel

theorem wit_SluiceRegistersAct : let s := store (chan { en := true }) startMem
    s.writable = true ∧ PlainStore s ∧ startable .idle = true ∧ s.slu.bl16halt = false ∧ s.storeOk 0x200 = true ∧ (∀ i < 7, (s.rd (0x200 + i)).tag = tDESC) ∧
    s.descOk 63 wordDesc = true ∧ trigOf wordDesc = 0 ∧ trigOf { wordDesc with w5 := 0x8200000000000000 } = 1 ∧
    (let u := store (chan { st := .parked, parkV := true }) [(7, wNil)]
     PlainStore u ∧ (u.rd 7).tag = tNIL) ∧ s.weir.runSt = .stopped ∧
    ((tasked x15).weir.runSt ≠ .stopped ∧ (tasked x15).writable = true ∧ bit (0x8000000000000000 : Val) 63 ≠ (tasked x15).slu.bl16) := by decide +kernel

def routed (v : Val) (up : Bool) : State :=
  { device with evt := { route := mset valD [] 4095 v, pend := mset valD [] 63 0x8000000000000000 }, pins := { device.pins with linkUp := up } }
theorem wit_EventRouterActs : device.engines = true ∧ fld (0x400 : Val) 0 12 = 1024 ∧ fld (0x3FF : Val) 0 12 = 1023 ∧
    ((∀ up, (routed 0xA000000000000000 up).pendBit 4095 = true ∧ (routed 0xA000000000000000 up).levelMode 4095 = false ∧
      (routed 0xA000000000000000 up).engines = true)) ∧ fld (0xA000000000000000 : Val) 61 2 = 1 ∧ fld (0xC000000300000000 : Val) 61 2 = 2 ∧
    (routed 0xC000000300000000 true).msixMasked 3 = true ∧ fld (0xE000000000000000 : Val) 61 2 = 3 ∧
    fld (0x800C000000000000 : Val) 48 4 = 12 ∧ fld (0x800D000000000000 : Val) 48 4 = 13 := by decide +kernel

theorem wit_ManifestDelivers : let s := manned (opened [exPlaced])
    s.engines = true ∧ s.hostReach = true ∧ s.mbx.held = [] ∧ s.pins.linkUp = true ∧ max (opened [exPlaced]).written (opened [exPlaced]).durEnd ≤ exPlaced.rbp ∧
    exPlaced.rbp + exPlaced.len ≤ (opened [exPlaced]).durEnd + 2 ^ 20 ∧ (opened [exPlaced]).ptRbp ≤ exPlaced.rbp + exPlaced.len ∧ s.writable = true ∧
    (let m := { opened [exPlaced] with pt := 1 }
     m.durable < fld (1 : Val) 0 48 ∧ fld (1 : Val) 0 48 ≤ m.pt ∧ exPlaced.msn ≤ fld (1 : Val) 0 48 ∧ m.pt < fld (2 : Val) 0 48 ∧ fld (0 : Val) 0 48 ≤ m.durable) ∧
    (s.on = true ∧ s.dbg.frozen = false ∧ s.mbx.rspWait = []) ∧ State.reset.pins.linkUp = false ∧
    ({ s with pins := { s.pins with linkUp := false, perst := false } } : State).on = true := by decide +kernel

def flushing (area : Nat) : State :=
  { manned { opened [exPlaced] with st := .flushing, target := area } with pins := { device.pins with flush := .flushing, pfailN := true } }
theorem wit_PowerFailFlushes : (manned (opened [])).on = true ∧ (manned (opened [])).dbg.held = false ∧ (manned (opened [])).pins.flush = .none ∧
    (manned (opened [])).lk.st ≠ .booting ∧ (∀ a ∈ [1, 2], (flushing a).on = true ∧ (flushing a).dbg.frozen = false ∧ (flushing a).man.target = a) ∧
    ({ device with pins := { device.pins with flush := .done } } : State).on = true ∧ (device.modLk fun l => { l with bootHeld := true }).on = true ∧
    device.vault.area0 = none ∧ device.vault.area1 = none := by decide +kernel

def oneBad (e : BitVec 768) : State := store { device with memc := { flaws := mset flawD [] 0 e } } [(0, fix 9)]
def patrolReady (e : BitVec 768) : Bool := let s := oneBad e
  decide (s.engines = true ∧ bit s.memc.tfail 0 = false ∧ s.memc.mirLen = 0 ∧ (s.eccOf 0).idx = 0 ∧ s.dirty 0 = false ∧
    imageSig (s.stored 0 % 2 ^ 744) = signature 0 ∧ soundBut0 (s.stored 0) = true)
theorem wit_patrol : (patrolReady 1 && patrolReady 3) = true ∧ decodeWord ((oneBad 1).stored 0) 0 = some (fix 9, 1) ∧
    decodeWord ((oneBad 3).stored 0) 0 = none := by decide +kernel
theorem wit_ArraysAct : device.engines = true ∧ bit device.lk.restarting 7 = false ∧
    (let s : State := { device with memc := { tfail := 0x80 } }
     bit s.memc.tfail 7 = true ∧ (s.eccOf 7).idx + 1 < s.tripLines) ∧ bit device.memc.tfail (23 / 3) = false ∧ (device.l2Of 7).heldCtl = [] ∧
    ((device.modL2 7 fun l => { l with l2busy := true }).l2Of 7).cleaning = true ∧ (device.l2Of 7).cleaning = false ∧ device.runLock 7 = false ∧
    (tasked x15).runLock 0 = true ∧ bit (((tasked x15).modL2 0 fun l => { l with ctl := 1 }).l2Of 0).ctl 0 = true ∧
    fld (0x0400000000000000 : Val) 58 2 = 1 := by decide +kernel

def powered (on busy toOn : BitVec 240) : State := device.modPwr fun p => { p with on := on, busy := busy, toOn := toOn }
theorem wit_PowerDomainsSwitch : device.writable = true ∧ fld (71 : Val) 0 8 = 71 ∧ fld (200 : Val) 0 8 = 200 ∧ fld (240 : Val) 0 8 = 240 ∧
    (∀ d ∈ [72, 199], bit device.pwr.busy d = false ∧ bit device.pwr.on d = false) ∧
    (∀ d ∈ [72, 135], bit (powered (-1) 0 0).pwr.on d = true ∧ bit (powered (-1) 0 0).pwr.busy d = false ∧
      bit ((powered (-1) 0 0).coreOf (coreOfId (8 * (d - 72)))).vown 3 = false) ∧
    bit (((powered (-1) 0 0).modCore 0 fun y => { y with vown := 8 }).coreOf 0).vown 3 = true ∧
    (∀ d ∈ [0, 239], bit (powered 0 (-1) (-1)).pwr.busy d = true ∧ bit (powered 0 (-1) (-1)).pwr.toOn d = true ∧
      mget wantD (powered 0 (-1) (-1)).pwr.want d = none) ∧
    (bit (powered (-1) (-1) 0).pwr.busy 135 = true ∧ bit (powered (-1) (-1) 0).pwr.toOn 135 = false) ∧ device.weir.runSt = .stopped := by decide +kernel

def boxed (f : Mbx → Mbx) : State := device.modMbx fun m => f { m with log2n := 6 }
theorem wit_WharfWritesAct : ((boxed fun m => { m with held := [.reg 0 8 0] }).hostReach = true ∧ (boxed id).mbx.held = [] ∧ (boxed id).mbx.staging = [] ∧
      (boxed id).mbx.rspWait = [] ∧ 1048576 < (boxed fun m => { m with staging := [(0, List.replicate 64 0)] }).stagedBytes + 1048513) ∧
    (boxed id).hostReach = true ∧ bit (boxed id).mbx.slotbusy 31 = false ∧
    bit (boxed fun m => { m with slotbusy := 0x80000000 }).mbx.slotbusy 31 = true ∧ (boxed fun m => { m with en := true }).mbx.en = true ∧
    (boxed id).lk.st = .ready ∧ (boxed id).mbx.en = false ∧ 6 ≤ (boxed id).mbx.log2n.toNat ∧ (boxed id).mbx.log2n.toNat ≤ 12 ∧
    ((boxed id).mbx.tail - BitVec.ofNat 32 (0 : Val).toNat).toNat ≤ 2 ^ 6 ∧
    2 ^ 6 < ((boxed id).mbx.tail - BitVec.ofNat 32 (1 : Val).toNat).toNat ∧ (boxed id).stagedBytes + 64 ≤ 1048576 ∧
    isFix (fix 0) = true ∧ isFix wNil = false ∧ (boxed id).writable = true ∧ (boxed id).weir.runSt = .stopped := by decide +kernel

theorem wit_PriorityCommandsAct : device.hostReach = true ∧ device.mbx.held = [] ∧ (tasked x15).mbx.held = [] ∧ device.engines = true ∧ device.mbx.en = false ∧ device.weir.runSt = .stopped ∧
    ((tasked x15).hostReach = true ∧ (tasked x15).engines = true ∧ (tasked x15).mbx.en = false ∧ (tasked x15).weir.runSt = .running) ∧
    (15 : BitVec 8).toNat % 16 ≠ 0 ∧ (16 : BitVec 8).toNat % 16 = 0 := by decide +kernel

/-! ### Hypotheses met: commands of the mailbox -/

/-- A host command of an operation waits; what the lockkeeper has once it took it. -/
def hs : Src := .host 1 0 65536
def asked (s : State) (op : Nat) : State := s.modMbx fun m => { m with queue := [⟨0, op, 1, 0, 65536, []⟩] }
def took (s : State) (op : Nat) : State := ((asked s op).take hs op).getD State.reset
def takes (s : State) (op : Nat) : Bool := ((asked s op).take hs op).isSome
def b2of (s : State) (n : Nat) : B2 := ⟨0, n, crc32c ((List.range n).map fun i => mget byteD s.mbx.bar2 i)⟩
def ts : Src := .towpath 0 7 0
def sent (s : State) (op : Nat) : State := s.modCore 0 fun y => { y with sendq := [⟨op, 7, 0, 0, 0, 0, false⟩] }

theorem wit_CommandsAreTaken : device.on = true ∧ device.dbg.frozen = false ∧ device.lk.st = .ready ∧ (asked device 1).mbx.queue = [⟨0, 1, 1, 0, 65536, []⟩] ∧
    (asked device 1).nextSource = some 0 ∧
    (device.modLk fun l => { l with deferred := [⟨hs, 0x0C02, 0⟩] }).hostBusy = true ∧ ((sent d1 1).take ts 1).isSome = true ∧ (sent d1 1).nextSource = some 1 ∧ ((sent d1 1).coreOf 0).sendq = [⟨1, 7, 0, 0, 0, 0, false⟩] ∧
    (boxed fun m => { m with en := true, tail := 64, rspWait := [{ tag := 0, op := 1, status := 0 }] }).ringFull = true ∧
    (∀ op ∈ [0x0103, 0x0401, 0x0501, 0x0B01, 0x0C02], ((sent d1 op).take ts op).isSome = true) ∧ fromHost ts = false ∧
    (takes { device with dbg := { held := true } } 0x0103 && takes { device with dbg := { held := true } } 0x0301) = true ∧
    (takes (tasked x15) 0x0601 && takes (tasked x15) 0x0801 && takes device 0x0502) = true ∧ (took (tasked x15) 0x0601).weir.runSt = .running ∧
    (took device 0x0502).weir.runSt = .stopped := by decide +kernel

theorem wit_AnswersReachTheirSource : (let s := boxed fun m => { m with en := true }
    s.ringFull = false ∧ s.pins.linkUp = true ∧ s.mbx.rspWait = [] ∧ s.mbx.rspirq = false) ∧ device.mbx.en = false ∧
    device.lk.tpWait = [] ∧ (device.coreOf 0).inbox.length < 4 ∧ opCodes.contains (0xFFFF : BitVec 16).toNat = false ∧
    takes device 0xFFFF = true := by decide +kernel

theorem wit_ReadCommandsComplete : ([0x0001, 0x0002, 0x0203, 0x0303, 0x0901, 0x0A01, 0x0A03, 0x0104, 0x0D01].all (takes device)) = true ∧
    fromHost hs = true ∧ (took device 0x0104).outFits hs 65536 = true ∧ PlainStore (took device 0x0104) ∧ (took (tasked x15) 0x0303).taskOf 0 = some exTask ∧
    takes (tasked x15) 0x0303 = true ∧ (took device 0x0303).taskOf 0 = none ∧ (took { device with cal := { valid := true } } 0x0A01).cal.valid = true ∧
    (took device 0x0A03).vault.failed = 0 ∧ (took device 0x0104).rangeOk (2 ^ 32 - 8) 8 = true ∧ (took device 0x0D01).weir.runSt = .stopped ∧
    (took device 0x0104).dbg.held = false := by decide +kernel

def timed : State := device.modWeir fun w => { w with len := 100000, din := 200, dout := 80000, ccap := 10000, ticking := true }
def alloced : State := timed.modLk fun l => { l with allocs := [(0x1000, 32)] }
def busyAlloc : State := (tasked x15).modLk fun l => { l with allocs := [(0x1000, 32)] }
def talking (k : Nat) : State := (sent d1 0x0305).modLk fun l => { l with msgs := [⟨hs, 1, k, 0⟩] }
theorem wit_MemoryAndTaskCommandsComplete : ([0x0101, 0x0102, 0x0103, 0x0201, 0x0301, 0x0302, 0x0304].all (takes timed)) = true ∧
    PlainStore (took timed 0x0101) ∧ (took timed 0x0101).dbg.held = false ∧ fromHost hs = true ∧ isPow2 8 = true ∧
    (took timed 0x0101).firstFit 1 8 = some 0 ∧ (took timed 0x0101).firstFit (2 ^ 32 + 1) 8 = none ∧ takes alloced 0x0102 = true ∧
    (took alloced 0x0102).lk.allocs = [(0x1000, 32)] ∧ (took alloced 0x0102).weir.tasks = [] ∧ takes busyAlloc 0x0102 = true ∧
    (took busyAlloc 0x0102).weir.tasks.any (fun t => spansMeet 0x1000 32 t.args.carryBase 32) = true ∧
    (let s := took timed 0x0103
     (s.b2Bytes hs (b2of s 18)).toOption = some (List.replicate 18 0) ∧ serialOk (List.replicate 18 0) = true ∧ s.rangeOk 0x100 2 = true ∧
      (deserialise (List.replicate 18 0)).map Word.tag = [0, 0]) ∧
    ((took timed 0x0301).admitErr exArgs = none ∧ (took timed 0x0301).resultFits hs 64 = true ∧ PlainStore (took timed 0x0301) ∧ (took timed 0x0301).admitErr { exArgs with budget := 10 ^ 9 } = some .admitParam) ∧
    ((took (tasked x15) 0x0302).taskOf 0 = some exTask ∧ (took (tasked x15) 0x0302).weir.runSt = .running ∧
      takes (tasked x15) 0x0302 = true ∧ takes busyAlloc 0x0304 = true ∧ (took busyAlloc 0x0304).isFrame 0 = true ∧ (asked busyAlloc 0x0304).carriesWords hs [] = true ∧ (took busyAlloc 0x0304).lk.tpWait = [] ∧
      ((took busyAlloc 0x0304).coreOf 0).inbox.length < 4) ∧
    (((talking 0).headMsg ts).map TpMsg.bank = some 0 ∧ (talking 0).carriesWords ts [] = true ∧ ((talking 0).take ts 0x0305).isSome = true ∧ (((talking 0).take ts 0x0305).getD device).lk.msgs = [⟨hs, 1, 0, 0⟩] ∧
      (((sent (tasked x15) 0x0305).take ts 0x0305).getD device).isFrame 0 = true ∧ (talking 0).lk.st = .ready) := by decide +kernel

def guarded : State := timed.modSil fun x => { x with armed := true }
def nonced : State := timed.modSil fun x => { x with nonce := some 5 }
def startable1 : State := { guarded with cal := { valid := true }, man := { st := .opened } }
def entryBytes : List Byte := List.replicate 11 0 ++ [1, 0, 0, 0, 0]
def entried : State := timed.modMbx fun m => { m with bar2 := [(11, 1)] }
theorem wit_ConfigurationCommandsComplete : ([0x0401, 0x0501, 0x0601, 0x0602, 0x0701, 0x0702, 0x0703, 0x0801, 0x0603].all (takes timed)) = true ∧
    (took timed 0x0401).weir.runSt = .stopped ∧ (took timed 0x0401).dbg.held = false ∧ takes (tasked x15) 0x0502 = true ∧
    (took (tasked x15) 0x0502).weir.runSt = .running ∧ ((asked timed 0x0603).linkOf 0).ctl = none ∧
    (took timed 0x0401).poundErr ⟨1000, 200, 300, false, false, 0, 0, false⟩ = none ∧ poundOk ⟨1000, 200, 299, false, false, 0, 0, false⟩ = false ∧
    (takes startable1 0x0501 = true ∧ (took startable1 0x0501).dbg.level ≠ 2 ∧ (took startable1 0x0501).lk.patch ≠ 3 ∧ 0 < (took startable1 0x0501).weir.len ∧
      (took startable1 0x0501).cal.valid = true ∧ ((took startable1 0x0501).cores.all fun kc => kc.2.run != .halted) = true ∧
      (took startable1 0x0501).sil.armed = true ∧ (took startable1 0x0501).man.st = .opened) ∧
    (took { startable1 with dbg := { level := 2 } } 0x0501).dbg.level = 2 ∧
    (took { timed with cal := { valid := true } } 0x0501).sil.armed = false ∧
    (took timed 0x0601).linkErr 0 (0x8001000000010000 &&& lcfgMask) = none ∧ (took timed 0x0601).linkErr 23 0 = none ∧
    (took timed 0x0602).streamErr 0 (1 &&& scfgMask) (geomWith (1 &&& scfgMask) 0x0001000000000000) 0 = none ∧
    (took guarded 0x0701).sil.armed = true ∧
    (let s := took entried 0x0701
     (s.b2Bytes hs (b2of s 16)).toOption = some entryBytes ∧ (entriesOf entryBytes).all Entry.ok = true ∧ 16383 + entryBytes.length / 16 ≤ 16384 ∧
      takes entried 0x0701 = true) ∧
    ((took nonced 0x0703).sil.nonce = some 5 ∧ (took nonced 0x0703).sil.loaded = false ∧ (took nonced 0x0703).sil.cfgcrc = 0 ∧
      takes nonced 0x0703 = true ∧ (took timed 0x0703).sil.nonce ≠ some 5) ∧
    ((took timed 0x0801).manErr ⟨0x10000, 20, 0x100, 0x10000, 0, 0, false⟩ = none ∧ (took timed 0x0801).man.st = .closed ∧ PlainStore (took timed 0x0801) ∧
      (took timed 0x0801).man.inCommit = none) := by decide +kernel

def userImage : List Byte := List.replicate 264 0
def calDevice : State := { device with cal := { valid := true }, mbx := { bar2 := factoryCal.bytes.zipIdx.map fun b => (b.2, b.1) } }
set_option maxRecDepth 20000 in
theorem wit_calibration : calOk 0 factoryCal.bytes = true := by decide +kernel
theorem wit_image : ((took device 0x0202).ucodeErr userImage).toOption.isSome = true ∧ imgSizeOk (List.replicate 263 0) = false := by decide +kernel
theorem wit_calSource : takes calDevice 0x0A02 = true ∧ (took calDevice 0x0A02).cal.valid = true ∧ (took calDevice 0x0A02).vault.serial = 0 ∧
    (1 : BitVec 32) ≠ (took calDevice 0x0A02).cal.crc := by decide +kernel
theorem wit_ServiceCommandsComplete : ([0x0A04, 0x0B01, 0x0C02, 0x0E01, 0x0A02, 0x0C01, 0x0202, 0x0204, 0x0E02].all (takes device)) = true ∧
    fromHost hs = true ∧ ((took device 0x0A04).b2Bytes hs (b2of (took device 0x0A04) 8)).toOption = some (List.replicate 8 0) ∧
    (took device 0x0A04).vault.failed = 0 ∧ (took device 0x0202).resultFits hs 256 = true ∧
    (took device 0x0C02).lk.warm = none ∧ (took device 0x0C02).pins.flush = .none ∧ (took device 0x0A02).weir.runSt = .stopped ∧
    bit (took device 0x0C01).lk.restarting 7 = false ∧
    (List.replicate 96 (0 : Byte)).length = 96 ∧ (2 : BitVec 8).toNat ≤ 2 ∧ (took (device.modLk fun l => { l with challenge := some [] }) 0x0E02).lk.challenge = some [] ∧
    takes { device with dbg := { held := true } } 0x0B02 = true ∧ (took { device with dbg := { held := true } } 0x0B02).dbg = { held := true } := by decide +kernel

theorem wit_SmbusAnswers : device.on = true ∧ device.dbg.frozen = false := by decide +kernel

/-! ### Hypotheses met: recovery, start, pins -/

/-- CORE[63] has failed, served by `phys`; the spares used and the claims to them. -/
def failedCore (run : CoreRun) (phys : Nat) (used : BitVec 8) (claims : List Claim) : State :=
  (device.modCore 63 fun y => { y with run := run, phys := phys }).modLk fun l => { l with spareUsed := used, claims := claims }
def claiming : State := d1.modLk fun l => { l with claims := [⟨1, 0, 0⟩] }
theorem wit_CoreFailuresAct : d1.engines = true ∧ (d1.coreOf 0).run = .running ∧ (1 : BitVec 8).toNat = 1 ∧ (6 : BitVec 8).toNat = 6 ∧
    (d1.coreOf 0).cur = some 0 ∧ ((d1.modCtx 0 fun x => { x with due := some 2 }).ctx (bk 0 0)).due.isSome = true ∧ (d16.coreOf 3).inval ≠ [] ∧
    (d16.coreOf 3).run = .running ∧ d1.lk.claims = [] ∧
    (claiming.lk.claims = [⟨1, 0, 0⟩] ∧ clusterOf 1 = clusterOf 0 ∧ claiming.weir.pound = 0 ∧ claiming.weir.elapsed = 0 ∧ claiming.spareGone 0 = true) ∧
    (let s := failedCore .failed 7 0 [⟨63, 0, 0⟩]
     s.engines = true ∧ (s.coreOf 63).run = .failed ∧ bit s.lk.restarting 7 = false ∧ s.lk.claims.any (fun k => k.core == 63) = true ∧ PlainStore s) ∧
    (let s := failedCore .failed 8 0x80 []
     (s.coreOf 63).run = .failed ∧ s.spareGone 63 = true ∧ s.lk.claims = []) ∧
    (let s := failedCore .inReset 8 0x80 []
     (s.coreOf 63).run = .inReset ∧ (s.coreOf 63).phys = 8 ∧ s.lk.st ≠ .booting ∧ bit s.lk.restarting 7 = false) ∧
    (let s := ((tasked x15).modCore 0 fun y => { y with run := .lockup }).modLk fun l => { l with lockups := 1 }
     (s.coreOf 0).run = .lockup ∧ bit s.lk.lockups 0 = true) := by decide +kernel

def dirtied : State := { demo x15 [(0x100, fix 9)] with dir := [(0x20, ⟨0, List.replicate 8 unbound⟩)] }
def warm (again : Bool) : State := device.modLk fun l => { l with st := .restarting, warm := some 1, warmAgain := again }
theorem wit_RestartsAct : (dirtied.on = true ∧ dirtied.dbg.frozen = false ∧ dirtied.engines = true ∧ bit dirtied.lk.restarting 0 = false ∧
    PlainStore dirtied ∧ (dirtied.dirEnt 0x20).owner = 0 ∧ dirtied.dirty 0x20 = true ∧ mwf dirD dirtied.dir = true ∧ dirtied.dirty 0x21 = false) ∧
    (let s := device.modLk fun l => { l with restarting := 0x80 }
     s.engines = true ∧ bit s.lk.restarting 7 = true ∧ s.lk.deferred = [] ∧ s.pins.flush = .none ∧ s.lk.st = .ready ∧ s.lk.warm = none) ∧
    (∀ b, (warm b).lk.st = .restarting ∧ (warm b).lk.warm.isSome = true ∧ (warm b).lk.autoPending = false ∧ (warm b).lk.deferred = [] ∧
      (warm b).on = true ∧ (warm b).lk.warmAgain = b) ∧ device.lk.st ≠ .failed ∧
    (∀ d ∈ [0, 3], bit device.vault.failed d = false) ∧
    (let s : State := { device with bbx := { queued := [⟨0, 0, 0, 0, 1, 0, 0, []⟩] } }
     s.bbx.queued = [⟨0, 0, 0, 0, 1, 0, 0, []⟩] ∧ s.bbxOpen = false ∧ bit s.vault.failed 0 = false) ∧
    (let s := device.modLk fun l => { l with restarting := 0x80 }
     s.pins.flush = .none ∧ s.lk.st = .ready ∧ s.lk.warm = none ∧ bit s.lk.restarting 7 = true) := by decide +kernel

def bootOk : BootArgs := ⟨true, false, true, 16, 0, 3, 0, 3, true⟩
def bootBad : BootArgs := { bootOk with bootGood := 0 }
/-- The copy of the boot partition that a start from State.reset takes. -/
def firstCopy (a : BootArgs) : Option BootCopy :=
  higher BootCopy.writes (validOf a.bootGood 0 State.reset.vault.boot0) (validOf a.bootGood 1 State.reset.vault.boot1)
def booting : State := { device with lk := { step := 7 } }
theorem wit_StartAndPinsAct : State.reset.pins.pwrOk = false ∧ bootOk.monitorsOk = true ∧ bootOk.pfailLow = false ∧ firstCopy bootOk = some {} ∧ State.reset.pins.thermtrip = false ∧
    bootOk.trainFail = 0 ∧ State.reset.vault.area0 = none ∧ State.reset.vault.area1 = none ∧ firstCopy bootBad = none ∧ device.on = true ∧
    (booting.on = true ∧ booting.lk.st = .booting ∧ booting.lk.step = 7 ∧ booting.lk.bootHeld = false ∧ booting.lk.bootStop = false) ∧
    device.dbg.frozen = false ∧ device.lk.st = .ready ∧ (device.modLk fun l => { l with st := .failed }).on = true ∧
    (∀ b, ({ device with dbg := { armed := b } } : State).pins.flush = .none) ∧ (∀ n ∈ [0, 15, 16, 27], bit device.pins.limited n = false) ∧
    bit ({ device with pins := { device.pins with limited := -1 } } : State).pins.limited 27 = true ∧
    ({ device with dbg := { frozen := true } } : State).on = true ∧ ({ device with dbg := { level := 2 } } : State).dbg.level = 2 ∧
    ({ device with dbg := { level := 2 } } : State).on = true ∧ device.dbg.level ≠ 2 ∧ (device.dbg.frozen = false ∧ device.dbg.held = false) ∧
    ({ device with dbg := { frozen := true, level := 1 } } : State).dbg.level ≠ 0 ∧ ({ device with dbg := { held := true } } : State).dbg.level = 0 := by decide +kernel

/-! ### Hypotheses met: the whole machine, encodings -/

theorem wit_StepRunsFrontCommand : ({ device with pending := [.tick, .heartbeat] } : State).pending = [.tick, .heartbeat] ∧ device.pending = [] := by
  decide +kernel
theorem wit_StepKeepsMemoryCanonical : MemCanonical (demo x3 [(0x100, fix 9), (0x101, wTrue)]) ∧
    (demo x3 [(0x100, fix 9)]).mem ≠ [] := by decide +kernel
theorem wit_SerialisationRoundTrips : serialOk (serialise [fix 5, ⟨tMEAS, 0x4010000001FFFFFF⟩, poison 4 8]) = true := by decide +kernel
theorem wit_LineCodeCorrects : (List.replicate 8 (fix 7)).length = 8 := by decide +kernel

/-! ### One step -/

/-- The front command runs on the rest of the queue. -/
theorem test_step : (match step ({ demo x1 with pending := [.add 0 (.rrr 5 1 2), .tick] } : State) with
    | .next t => decide (t.pending = [.tick] ∧ (t.ctx 0).get 5 = fix 9) | _ => false) = true := by decide +kernel

/-- The check value of CRC-8 with polynomial 07h, as SMBus uses it. -/
theorem test_pec : pec ((List.range 9).map fun i => BitVec.ofNat 8 (0x31 + i)) = 0xF4 := by decide +kernel

/-! ### Hypotheses met: clauses by their circumstances -/

/-- The walk of pageState from ROOT: the address of the entry of each level. -/
def walkEs (l : Nat) : Nat := [0, 0x100040, 0x100400, 0x100800].getD l 0
def pageVa : Nat := 0x1000000140
/-- A ring 3 access of pageVa misses the TLB and walks; the entries before level `sound` are sound. -/
def walks (m : List (Nat × Word)) (sound : Nat) : Bool :=
  let s := store pageState m
  let pte (a : Nat) : Val := (s.rd a).val
  let w := vaWidth (s.tctx 0)
  decide (tcEn (s.tctx 0) = true ∧ tcLevels (s.tctx 0) = 3 ∧ pageVa < 2 ^ w ∧ (s.coreOf 0).parityOk = true ∧ PlainStore s) &&
  decide ((s.coreOf 0).dtlb = [] ∧ (s.coreOf 0).itlb = [] ∧ (s.coreOf 0).wcache = [] ∧ (deepest [] (tcAsid (s.tctx 0)) w pageVa 2).isNone = true ∧
    walkEs 1 = tcRoot (s.tctx 0) * 1024 + (pageVa >>> (w - 10)) % 1024) &&
  ((List.range sound).drop 1).all fun l => decide (s.storeOk (walkEs l) = true ∧ (s.rd (walkEs l)).tag = tPTE ∧ pteV (pte (walkEs l)) = true ∧
    (l < 3 → walkEs (l + 1) = pteFrame (pte (walkEs l)) * 1024 + (pageVa >>> (w - 10 * (l + 1))) % 1024))
/-- A walk meets a POISON word, a word that is no PTE, an invalid one, a leaf that is badly formed; or ends at a leaf. -/
theorem wit_TranslationGivesAddress_walk :
    (walks [(0x100400, poison 4 0)] 2 = true ∧ isPoison ((store pageState [(0x100400, poison 4 0)]).rd (walkEs 2)) = true) ∧
    (walks [(0x100400, fix 1)] 2 = true ∧ ((store pageState [(0x100400, fix 1)]).rd (walkEs 2)).tag ≠ tPTE) ∧
    (walks [(0x100400, ⟨tPTE, 0⟩)] 2 = true ∧ pteV 0 = false) ∧
    (walks [(0x100800, ⟨tPTE, 0x8000000004000000⟩)] 4 = true ∧ pteBad 0x8000000004000000 = true) ∧
    (walks [] 4 = true ∧ pteBad (pageState.rd (walkEs 3)).val = false) := by decide +kernel

/-- Window 0 is the last resident one, or the only one; the words that a return takes lie above it. -/
def x20 (w : Val) : BankCtx := { bank [(0, cref 0x444), (1, ⟨tGATE, 0x4000000000000100⟩), (rfIx 7 15, cref 0x555), (rfIx 7 14, fix 3)] with winpos := w }
def windowed (w : Val) : Bool := let x := x20 w
  decide (IssuesMem (demo x) 0 0) && decide ((x.get 0).tag = tCREF ∧ (x.get 1).tag = tGATE ∧ pswRing x.psw ≤ fld (x.get 1).val 62 2 ∧
    fld (x.get 1).val 60 2 ≤ pswRing x.psw ∧ x.at_ (rfIx (winCur x.winpos + 7) 14) = fixN 3 ∧ pswRing x.psw ≤ 3)
theorem wit_CallsAndReturnsComplete_windows : (windowed 0x70 && windowed 0x10 && windowed 0x90) = true ∧
    (winTw 0x70 = false ∧ winRes 0x70 = 7) ∧ (winTw 0x10 = false ∧ winRes 0x10 = 1) ∧ winTw 0x90 = true := by decide +kernel

/-- The frame of the nested push of trapped2, found by the TLB: ring 1, level 10. -/
def pushing : State := (trapped.modL2 0 fun l => { l with tctx := [(0, 0x8000005000000400)] }).modCore 0 fun y =>
  { y with dtlb := [⟨5, 16, 0xF860000000000010, 3, 0, false⟩, ⟨5, 0x7FF, 0xF8600000000007FF, 3, 0, false⟩] }
def foundByTlb (r : Nat) (acc : Acc) (va pa : Nat) : Bool :=
  let s := pushing
  ((s.coreOf 0).dtlb.find? fun t => t.covers (tcAsid (s.tctx 0)) (va / 1024)).any fun e => decide ((2 ≤ r → pteU e.leaf = true) ∧
    hasRight acc e.leaf = true ∧ pteA e.leaf = true ∧ (acc.writes = true → pteD e.leaf = true) ∧ pa = e.frame (va / 1024) * 1024 + va % 1024)
theorem wit_TrapEntrySaves_push : let s := pushing
    let x := s.ctx 0
    PlainStore s ∧ (s.bankOf 0).shadow = none ∧ x.flaws = [] ∧ pswInlast x.psw = false ∧ pswGuard x.psw = false ∧ winTw x.winpos = true ∧
    (tcEn (s.tctx 0) = true ∧ 0x401A < 2 ^ vaWidth (s.tctx 0) ∧ (s.coreOf 0).parityOk = true ∧ bit (s.l2Of 0).ctl (24 + posOf 0) = false) ∧
    (pswMl x.psw < Cause.level .alloc ∧ min (Cause.ring .alloc (pswRing x.psw)) (pswRing x.psw) = 1 ∧ x.trapv.toNat + (16 * 1 + Cause.level .alloc) = 0x401A) ∧
    foundByTlb 0 .read 0x401A 0x401A = true ∧ s.storeOk 0x401A = true ∧ (s.rd 0x401A).tag = tCREF ∧ depthOf x.tdepth 1 = 0 ∧
    16 * fld (x.tsl.get 1) 4 56 + 16 ≤ 16 * fld (x.tsp.get 1) 4 56 ∧ 16 * fld (x.tsp.get 1) 4 56 - 16 = 0x1FFFF0 ∧
    (∀ i < 16, foundByTlb 1 .write (0x1FFFF0 + i) (0x1FFFF0 + i) = true ∧ s.storeOk (0x1FFFF0 + i) = true ∧ (s.rd (0x1FFFF0 + i)).tag = tUNBOUND) := by
  decide +kernel
/-- A core whose frame task stands in a running run stops in guarded mode. -/
theorem wit_TrapEntrySaves_stop : (tasked lockedBank).runOpen = true ∧ ((tasked lockedBank).taskOf 0).any (fun u => u.phase.isOpen) = true ∧
    pswGuard ((tasked lockedBank).ctx 0).psw = true ∧ pswInlast ((tasked lockedBank).ctx 0).psw = true ∧ ((tasked lockedBank).bankOf 1).shadow = none ∧
    pswGuard (0x20000 : Val) = false ∧ ((tasked { lockedBank with psw := 0x20000 }).coreOf 0).run = .running := by decide +kernel
/-- A push that leaves fewer frames than RESERVE raises TSTACK_LOW. -/
theorem wit_TrapEntrySaves_reserve : let x := (pushing.modCtx 0 fun x => { x with tsl := { x.tsl with q1 := 0x1FFFC4 } }).ctx 0
    (0x1FFFF0 - 16 * fld (x.tsl.get 1) 4 56) / 16 < fld (x.tsl.get 1) 0 4 ∧
    16 * fld (x.tsl.get 1) 4 56 + 16 ≤ 16 * fld (x.tsp.get 1) 4 56 := by decide +kernel

/-- A task that is the last writer of link 0, whose one drive stream has its bytes. -/
def driver : Stream := { scfg := 0xA005000000000002, sgeom := 0x0001000000000001, stag := List.replicate 8 1, opened := true }
def driveTask : Task := { exTask with args := { exArgs with links := 1 } }
def driving : State :=
  { tasked nested driveTask with twl := { links := mset linkD [] 0 { upLink with drvSent := false }, streams := mset streamD [] 0 driver } }
theorem wit_TrapReturnAndWaitsComplete_drive : IssuesMem driving 0 0 ∧ driving.taskOf 0 = some driveTask ∧ winRes nested.winpos ≤ 1 ∧
    linksOf driveTask = [0] ∧ (driving.writersOf 0).map Task.args = [driveTask.args] ∧ driveTask.args.id.val = 0 ∧
    ((driving.linkOf 0).drvSent = false ∧ (driving.linkOf 0).aborted = 0 ∧ (driving.linkOf 0).lost = false ∧ (driving.linkOf 0).st ≠ .align) ∧
    driving.streamsOn 0 1 = [(0, driver)] ∧ driver.stag.length = driver.bytes := by decide +kernel

def x21 : BankCtx := bank [(0, fix 0x100), (1, fix (-1)), (2, fix 0), (3, fix 9)]
/-- A write of an L2C_CTL by bank 0 is held by a clean. -/
def behindOne : State := d15.modL2 0 fun l => { l with heldCtl := [(bankReq 0, 0)] }
def otherBank (u : Option Task) : State := ((tasked x15).modCore 0 fun y => { y with bankwin := 0x102 }).modWeir fun w =>
  { w with tasks := w.tasks ++ u.toList }
def task2 : Task := { exTask with args := { exArgs with id := 2 } }
theorem wit_SystemOperationsComplete_more : (Issues behindOne 0 0 ∧ behindOne.behind 0 = true) ∧ (d15.behind 0 = false ∧ x15.based 0 ∧ x15.get 1 = fix 5) ∧
    (IssuesMem (demo x21) 0 0 ∧ pswRing x21.psw = 0 ∧ x21.based 0 ∧ x21.get 1 = fix (-1)) ∧
    (∀ c : CoreId, c.val ≠ 3 → d16.deaf c = decide (c.val ≠ 0)) ∧ d16.deaf 3 = false ∧
    (IssuesMem (otherBank (some task2)) 0 0 ∧ (otherBank (some task2)).selected 0 0 = bk 0 2 ∧ (otherBank (some task2)).taskOf (bk 0 2) = some task2 ∧
      task2.phase.isOpen = true ∧ (otherBank (some task2)).runOpen = true) ∧
    (Issues (otherBank none) 0 0 ∧ (otherBank none).selected 0 0 = bk 0 2 ∧ (otherBank none).taskOf (bk 0 2) = none) := by decide +kernel

/-- CORE[0]'s cluster holds line 0 in slot (0, way), modified or not. -/
def x22 (n : Nat) : BankCtx := bank [(0, fix 0), (1, fixN n)]
def holding (d : Bool) (n : Nat) : State :=
  let s := caches (demo (x22 n) [(0, fix 9)])
  ((if d then s.own 0 0 0 else s).fill 0 0 {})
def heldWay : Nat := ((List.range 16).find? fun w => ((holding true 0).l2Of 0).lineAt 0 w == some 0).getD 99
theorem wit_CacheMaintenanceCompletes_ways : heldWay < 16 ∧
    (∀ d : Bool, IssuesMem (holding d heldWay) 0 0 ∧ PlainStore (holding d heldWay) ∧ (x22 heldWay).get 1 = fixN heldWay ∧ pswRing (x22 heldWay).psw = 0 ∧
      ((holding d heldWay).l2Of 0).lineAt (heldWay / 16) (heldWay % 16) = some 0 ∧ (holding d heldWay).dirtyIn 0 0 = d) ∧
    ((holding true heldWay).dirEnt 0).old.length = 8 ∧ (d15.l2Of 0).lineAt (32767 / 16) (32767 % 16) = none ∧
    (x22 32767).get 1 = fixN 32767 := by decide +kernel
/-- CRANGE over more than one line from the middle of a line, and to its end. -/
theorem wit_CacheMaintenanceCompletes_range : let x := bank [(0, fix 0x103), (1, fixN 6), (2, fixN 5)]
    IssuesMem (demo x) 0 0 ∧ PlainStore (demo x) ∧ x.based 0 ∧ Flat (demo x) 0 (x.ea 0 0) ∧ x.get 1 = fixN 6 ∧ 8 - x.ea 0 0 % 8 = 5 ∧ x.get 2 = fixN 5 ∧
    (demo x).dirty (x.ea 0 0 / 8) = false ∧ ((demo x).own 0 0 0x20).dirty (x.ea 0 0 / 8) = true ∧
    (((demo x).own 0 0 0x20).dirEnt 0x20).old.length = 8 ∧ PlainStore ((demo x).own 0 0 0x20) ∧ IssuesMem ((demo x).own 0 0 0x20) 0 0 := by decide +kernel

/-- The 16 ways of a set of CORE[0]'s cluster hold lines 2048 × (1 + way), and that of way 0 is modified. -/
def fullSet : State :=
  ((caches (tasked x15)).modL2 0 fun l => { l with sets := [(0, { held := (List.range 16).map fun w => { way := w, line := 2048 * (w + 1) } })] }).putDir 2048
    ⟨0, List.replicate 8 unbound⟩
theorem wit_FillCorrectsOrPoisons_room : fullSet.awaits 0 0 = true ∧ PlainStore fullSet ∧ (fullSet.l2Of 0).holds 0 = false ∧ l2On (fullSet.l2Of 0) = true ∧
    fullSet.wayOk 0 15 = true ∧ fullSet.victim 0 0 = some 2048 ∧ fullSet.dirtyIn 0 2048 = true ∧ (fullSet.taskOf 0).map Task.phase = some .active ∧
    fullSet.dirty 0 = false ∧ (caches (tasked x15)).victim 0 0 = none := by decide +kernel

def ranSt (r : RunSt) (n : Nat) (a : Bool) : State :=
  { poundState with weir := { poundState.weir with runSt := r, startIn := n }, pins := { poundState.pins with abortIn := a } }
/-- The pound is driven by TICK_IN; its edge comes 200 ns before its time, at its time, and too early. -/
def driven (first : Bool) (e : Nat) : State := poundState.modWeir fun w => { w with src := true, firstEdge := first, elapsed := e }
theorem wit_TickOpensPound_runs :
    (∀ r ∈ [RunSt.stopped, .starting, .running, .stopping], ∀ n ∈ [1, 2], ∀ a : Bool, (ranSt r n a).engines = true ∧ (ranSt r n a).weir.runSt = r ∧
      (ranSt r n a).weir.startIn = n ∧ (ranSt r n a).weir.ticking = true ∧ (ranSt r n a).weir.src = false ∧ (ranSt r n a).weir.synlim = 0) ∧
    (∀ f, (driven f 35800).engines = true ∧ (driven f 35800).weir.edge = false) ∧
    (200 < (0 + (min 11500 (1500 + (driven false 0).cal.tickIn.toInt)).toNat) % 10000 ∧ (0 + (min 11500 (1500 + (driven false 0).cal.tickIn.toInt)).toNat) % 10000 < 9800) ∧
    ((driven false 35800).edgeTaken 0).1 = 36000 - 200 ∧ ((driven false 35799).edgeTaken 0).1 < 36000 - 200 ∧
    ((driven true 35799).edgeTaken 9999).1 = 35800 := by decide +kernel

/-! The sluice. -/

/-- The descriptor wordDesc stands at 200h; the link word of one at 0 names it. -/
def linkMem : List (Nat × Word) := startMem ++ [(7, ⟨tDESC, 0x200⟩)]
def shadowed (x : Chan) : Chan :=
  { x with shd := [wordDesc.w0, wordDesc.w1, wordDesc.w2, wordDesc.w3, wordDesc.w4, wordDesc.w5].zipIdx.map fun vi => (vi.2, vi.1) }
def loadable (s : State) : Bool := (List.range 7).all (fun i => (s.rd (0x200 + i)).tag == tDESC) && s.storeOk 0x200 && s.descOk 63 (s.descAt 0x200)
def atEnd : Chan := { active wordDesc with atPoint := true }
def hostToHost : Desc := { toHost with w0 := 0x4000000000000800 }
theorem wit_ChannelEventsAct_links :
    (let s := store (chan atEnd) linkMem
     PlainStore s ∧ loadable s = true ∧ (s.chanOf 63).curShd = false ∧ (s.rd 7).tag = tDESC ∧ fld (s.rd 7).val 36 28 = 0 ∧ fld (s.rd 7).val 0 36 = 0x200) ∧
    (let d := { wordDesc with w7 := 0x8000000000000200 }
     let s := store (chan { active d with atPoint := true, curShd := true }) startMem
     PlainStore s ∧ loadable s = true ∧ (s.chanOf 63).desc = some d ∧ (s.chanOf 63).curShd = true ∧ bit d.w7 63 = true ∧ fld d.w7 0 36 = 0x200) ∧
    (let s := chan { atEnd with taken := some wordDesc }
     (s.chanOf 63).taken = some wordDesc ∧ (s.chanOf 63).arm = false ∧ s.descOk 63 wordDesc = true ∧ bit wordDesc.w7 63 = false) ∧
    ((chan atEnd).chanOf 63).st = .active ∧ ((chan atEnd).chanOf 63).failed = none ∧ ((chan atEnd).chanOf 63).stopping = false := by decide +kernel
/-- Bus errors: on a read that is under way, a write over a link that is down, host to host, and while a stop lets the burst complete. -/
def cutOff (x : Chan) : State := let s := chan x; { s with pins := { s.pins with linkUp := false } }
theorem wit_ChannelEventsAct_errors :
    (∀ b : Bool, let x := { active hostDesc with req := some (0x800, 16), stopping := b }
     ((chan x).chanOf 63).req = some (0x800, 16) ∧ (chan x).slu.bl16 = false ∧ x.attempt < (chan x).slu.retrymax.toNat) ∧
    (let x := { active toHost with stage := List.replicate 16 (rawd 5), attempt := 3 }
     toHost.kindD = 1 ∧ toHost.kindS ≠ 1 ∧ (cutOff x).pins.linkUp = false ∧ (toHost.dstU x.wr).toNat = 0x1000 ∧ (cutOff x).slu.retrymax.toNat ≤ x.attempt) ∧
    (let x := { active hostToHost with stage := List.replicate 16 (rawd 5) }
     hostToHost.kindS = 1 ∧ hostToHost.kindD = 1 ∧ x.atPoint = false ∧ (x.canWrite hostToHost).isSome = true ∧ (hostToHost.dstU 0).toNat = 0x1000) ∧
    (let x := active hostDesc
     hostDesc.kindD ≠ 1 ∧ x.req = none ∧ (hostDesc.srcU x.rdPos).toNat = 0x800 ∧ (cutOff x).engines = true) ∧
    (∀ b : Bool, let s : State := { chan (active hostDesc) with slu := { (chan (active hostDesc)).slu with bl16 := true, bl16halt := b } }
     s.slu.bl16 = true ∧ s.slu.bl16halt = b ∧ s.engines = true) ∧
    (∀ b : Bool, let x := { active wordDesc with stopping := true, bl16stop := b }
     x.stopAt ≤ x.wr ∧ x.failed = none ∧ x.desc = some wordDesc) ∧
    ({ active wordDesc with stopping := true, stopAt := 64 } : Chan).wr < 64 ∧
    ({ active wordDesc with failed := some (0x14, 1, 0, 0) } : Chan).failed = some (0x14, 1, 0, 0) ∧
    (let s : State := { chan {} with weir := poundState.weir }
     fld (0xC000000000000001 : Val) 30 30 < s.weir.len ∧ s.engines = true) := by decide +kernel

def byteDesc : Desc := { wordDesc with w5 := 0x6000000000000000 }
def fromStream : Desc := ⟨0x8000000000000000, 0x1000, 0x20000000008, 0x10000000000, 0x10000000000, 0x7000000000000000, 0, 0⟩
def toStream : Desc := ⟨0x800, 0x8000000000000000, 0x20000000008, 0x10000000000, 0x10000000000, 0x6000000000000000, 0, 0⟩
def rawMem : List (Nat × Word) := [(0x100, rawd 7), (0x101, rawd 8), (0x200, rawd 0), (0x201, rawd 0)]
def outOf (y : Stream) : State :=
  { chan { active toStream with stage := List.replicate 16 (rawd 5) } with twl := { links := mset linkD [] 0 upLink, streams := mset streamD [] 0 y } }
def bulkDown : Stream := { scfg := 0xE005000000000000 }
theorem wit_BeatMovesAnElement_bytes :
    (∀ m ∈ [rawMem, [(0x100, fix 7)]], let s := store (chan (active byteDesc)) m
     PlainStore s ∧ s.pickChan [] = some 63 ∧ (active byteDesc).canWrite byteDesc = none ∧ byteDesc.kindS = 0 ∧ byteDesc.wordMode = false ∧
       0 ≤ byteDesc.srcU 0 ∧ s.storeOk ((byteDesc.srcU 0).toNat / 8) = true) ∧
    ((store (chan {}) rawMem).rd 0x100).tag = tRAWD ∧ ((store (chan {}) [(0x100, fix 7)]).rd 0x100).tag ≠ tRAWD ∧
    isPoison ((store (chan {}) [(0x100, fix 7)]).rd 0x100) = false ∧
    (let x := { active byteDesc with stage := List.replicate 16 (rawd 5) }
     let s := store (chan x) rawMem
     s.pickChan [] = some 63 ∧ x.canWrite byteDesc = some 16 ∧ byteDesc.kindD = 0 ∧ byteDesc.reach byteDesc.dstU (s.unitOk byteDesc) 0 16 = 16 ∧
       ∀ i < 16, (s.rd ((byteDesc.dstU i).toNat / 8)).tag = tRAWD) := by decide +kernel
theorem wit_BeatMovesAnElement_host :
    (let x := { active hostDesc with req := some (0x800, 16) }
     (chan x).pickChan (List.replicate 16 0) = some 63 ∧ x.canWrite hostDesc = none ∧ x.held = none ∧ (chan x).pins.linkUp = true) ∧
    (let x := active hostDesc
     hostDesc.reach hostDesc.srcU hostOk 0 (min (0 + min 64 (x.canRead hostDesc)) (hostDesc.runEnd hostDesc.srcU 0 64 0)) = 16) ∧
    (let x := { active fromStream with inbuf := List.replicate 16 5 }
     (chan x).pickChan [] = some 63 ∧ x.canWrite fromStream = none ∧ fromStream.kindS = 2 ∧ x.held = none) ∧
    (∀ y ∈ [driver, bulkDown], (outOf y).pickChan [] = some 63 ∧ ({ active toStream with stage := List.replicate 16 (rawd 5) } : Chan).canWrite toStream = some 16 ∧
      toStream.kindD = 2 ∧ (outOf y).streamOf 0 = y) ∧
    (let y := { driver with scfg := 0xA005000000000006, stag := [] }
     sKind y.scfg = 1 ∧ y.opened = true ∧ y.stag.length + 16 ≤ y.bytes) ∧ sKind bulkDown.scfg = 3 := by decide +kernel

theorem wit_SluiceRegistersAct_more :
    (let x := shadowed { en := true, arm := true }
     x.shadowDesc = wordDesc ∧ (chan x).descOk 63 x.shadowDesc = true ∧ bit x.shadowDesc.w7 63 = false ∧ startable x.st = true) ∧
    (0x201 % 8 ≠ 0 ∧ (chan { en := true }).storeOk 0x900000000 = false ∧ fld (0x900000000 : Val) 0 36 = 0x900000000) ∧
    (let s := store (chan { st := .parked, parkV := true }) linkMem
     PlainStore s ∧ loadable s = true ∧ (s.rd 7).tag = tDESC ∧ fld (s.rd 7).val 36 28 = 0 ∧ fld (s.rd 7).val 0 36 = 0x200) ∧
    (∀ st ∈ [ChSt.parked, .ended], let x := shadowed { en := true, st := st }
     (chan x).descOk 63 x.shadowDesc = true ∧ bit x.shadowDesc.w7 63 = false ∧ (chan x).writable = true) := by decide +kernel

/-! Samples and the guard. -/

/-- The stream of 2 cells with what it has received of pound p. -/
def heard (p : BitVec 48) (next : Nat) (got : List (Nat × List Byte)) : Stream := { sampler false with rx := [{ pound := p, next := next, got := got }] }
def hearing (l : Link) (x : Stream) : Bool :=
  decide ((linked l x).engines = true ∧ (linked l x).streamBySid 0 0 5 = some (0, x) ∧ (linked l x).streamOf 0 = x ∧ l.st.carries = true)
def dOf (c : RxCell) : Int := (c.pound - BitVec.ofNat 16 (linked upLink (sampler false)).weir.pound.toNat).toInt
theorem wit_SampleCellsAreClassed_order :
    ((linked { upLink with st := .down } (sampler false)).linkOf 0).st.alive = false ∧
    (hearing upLink (sampler false) && hearing upLink (heard 9 1 []) && hearing upLink (heard 9 0 [(1, [7])])) = true ∧
    ({ upLink with st := .align } : Link).st = .align ∧ (dOf (cellAt 9 5 0 116) = 0 ∧ dOf (cellAt 8 5 0 116) = -1) ∧
    gCells (sampler false).sgeom = 2 ∧ mget bytesD ((heard 9 0 [(1, [7])]).rxOf 9).got 1 ≠ [] ∧ 0 < ((heard 9 1 []).rxOf 9).next ∧
    ((sampler false).rxOf 9 = { pound := 9 } ∧ 0 < min 116 ((sampler false).bytes - 116 * 1) ∧ min 116 ((sampler false).bytes - 116 * 1) = 84) ∧
    ((heard 9 1 []).rxOf 9).next = 1 ∧ mget bytesD ((heard 9 1 []).rxOf 9).got 1 = [] ∧ (cellAt 9 5 0 3).payload.length ≠ 116 ∧
    PlainStore (linked upLink (heard 9 1 [])) := by decide +kernel
/-- After the close of pound 8: with its status entry in the ring, and without. -/
def shut (es : List (BitVec 48 × Val)) : Stream := { sampler false with closed := some 8, ents := es }
theorem wit_SampleCellsAreClassed_late :
    (hearing upLink (shut []) && hearing upLink (shut [(8, 0)]) && hearing upLink (shut [(7, 3)])) = true ∧ (∀ es, (shut es).closed = some 8) ∧
    (shut [(8, 0)]).ents.find? (fun e => e.1 == 8) = some (8, 0) ∧ (shut [(7, 3)]).ents.find? (fun e => e.1 == 7) = some (7, 3) ∧
    (dOf (cellAt 7 5 0 116) = -2 ∧ dOf (cellAt 6 5 0 116) < -2 ∧ 0 < dOf (cellAt 10 5 0 116)) ∧ (sampler false).closed ≠ some 8 ∧
    ({ upLink with earlyRun := 2, earlyNow := false } : Link).earlyRun = 2 := by
  refine ⟨?_, fun _ => rfl, ?_, ?_, ?_, ?_, ?_⟩ <;> decide +kernel

/-- The armed guard of `watch` behind link 0; group 0 drops PERMIT and asserts ABORT_OUT_N. -/
def watching (x : ChanSt) : State :=
  { linked upLink (sampler false) with sil := { (watch x).sil with grp := [(0, 0xC000000000000000)], permit := true } }
def loud : RxCell := ⟨false, 9, 5, 0, 200 :: List.replicate 115 0⟩
theorem wit_AbortInAbortsAll_sample : let s := watching { count := 1 }
    let e := mget entryD s.sil.entries 0
    s.engines = true ∧ (s.linkOf 0).st.carries = true ∧ s.streamBySid 0 0 5 = some (0, sampler false) ∧ s.streamOf 0 = sampler false ∧
    loud.pound = BitVec.ofNat 16 s.weir.pound.toNat ∧ 0 < gCells (sampler false).sgeom ∧ ((sampler false).rxOf 9).next = 0 ∧
    mget bytesD ((sampler false).rxOf 9).got 0 = [] ∧
    (elements (elemSize (sFmt (sampler false).scfg)) 0 (loud.payload.take (min 116 ((sampler false).bytes - 0)))).head? = some (0, 200) ∧
    s.sil.armed = true ∧ e.persist = 2 ∧ e.action = 4 ∧ (mget chanStD s.sil.chan 0).count = 1 ∧ (mget chanStD s.sil.chan 0).fired = none ∧
    gFirst (sampler false).sgeom + 0 % sNch (sampler false).scfg = 0 ∧
    violation (sFmt (sampler false).scfg) e 200 ((mget chanStD s.sil.chan 0).before s.weir.pound 0 1) ≠ 0 ∧
    grpPermit (s.sillOf 0) = true ∧ grpOuten (s.sillOf 0) = true := by decide +kernel
/-- The entry is spent; it fires at the second violation, of a pound in which it has not fired. -/
theorem wit_AbortInAbortsAll_entry : (watch { spent := true }).sil.armed = true ∧
    ([{ spent := true }, {}, { fired := some 9 }, { count := 1 }, { count := 1, fired := some 8 }, { count := 1, fired := some 9 }].all fun c : ChanSt =>
      mget chanStD (watch c).sil.chan 0 == c) = true ∧
    (let e := mget entryD (watch {}).sil.entries 0
     e.persist = 2 ∧ violation 0 e 200 none ≠ 0 ∧ violation 0 e 50 none = 0) ∧ (device.on = true ∧ State.reset.on = false) := by decide +kernel

/-! The manifest. -/

def placedAt (msn rbp : Nat) : Placed := ⟨msn, rbp, 64, some exRecord⟩
def padAt (msn rbp : Nat) : Placed := ⟨msn, rbp, 64, none⟩
/-- Two records with a PAD between them wait; a record waits that the ring has no room for. -/
def two : List Placed := [placedAt 1 0, padAt 1 64, placedAt 2 128]
def noRoom : List Placed := [placedAt 9 (2 ^ 20)]
theorem wit_ManifestDelivers_list : let s := manned (opened (two ++ noRoom))
    s.engines = true ∧ s.man.st = .opened ∧ s.pins.linkUp = true ∧ SoundStore s ∧ s.memc.mirLen = 0 ∧
    s.man.backlog = two ++ noRoom ∧ (two.filter fun p => p.record.isSome).getLast? = some (placedAt 2 128) ∧
    (two ++ noRoom).Pairwise (fun p q => p.rbp + p.len ≤ q.rbp) ∧
    (∀ p ∈ two, max s.man.written s.man.durEnd ≤ p.rbp ∧ p.rbp + p.len ≤ s.man.durEnd + 2 ^ s.man.sz) ∧
    (two.dropLast.map fun p => if p.record.isSome then p.len else 32).sum < 262144 ∧
    (∀ q ∈ noRoom.head?, s.man.durEnd + 2 ^ s.man.sz < q.rbp + q.len) ∧ s.man.ptRbp ≤ (placedAt 2 128).rbp + (placedAt 2 128).len ∧
    (let m := (manned (opened noRoom)).man
     m.backlog = noRoom ∧ max m.written m.durEnd ≤ 2 ^ 20 ∧ m.durEnd + 2 ^ m.sz < 2 ^ 20 + 64) := by decide +kernel
/-- The region holds the words of an entry. -/
def mirrored : State := { manned (opened [exPlaced]) with memc := { mirLen := 1024, mirBase := 0x4000000 } }
def inRegion : State := store mirrored (exPlaced.words.map fun jw => (mirrored.regionAt jw.1, jw.2))
theorem wit_ManifestDelivers_region : inRegion.memc.mirLen = 1024 ∧ SoundStore inRegion ∧ exPlaced.words ≠ [] ∧
    (∀ jw ∈ exPlaced.words, mget wordD inRegion.mem (inRegion.regionAt jw.1) = jw.2 ∧ inRegion.dirty (inRegion.regionAt jw.1 / 8) = false) := by
  decide +kernel
theorem wit_ManifestDelivers_durable :
    (let m := { opened two with pt := 2 }
     (manned m).hostReach = true ∧ (manned m).mbx.held = [] ∧ (manned m).lk.warm = none ∧ (manned m).clocked = true ∧ m.st = .opened ∧ m.durable < 1 ∧ 1 ≤ m.pt ∧
     m.backlog = [] ++ placedAt 1 0 :: [padAt 1 64, placedAt 2 128] ∧
     ∀ q ∈ [padAt 1 64, placedAt 2 128], 0 + 64 < q.rbp + q.len ∧ (q.record.isSome = true → 1 < q.msn)) ∧
    (let s : State := { device with dbg := { held := true } }
     s.hostReach = true ∧ s.mbx.held = [] ∧ s.lk.warm = none ∧ s.dbg.held = true) := by decide +kernel

/-! Power failure, arrays, power, the wharf. -/

theorem wit_PowerFailFlushes_start : let s := manned (opened [exPlaced])
    (s.man.inCommit = none ∧ s.pins.flush = .none ∧ s.dbg.held = false ∧ (s.modLk fun l => { l with st := .failed }).lk.st ≠ .booting) ∧
    (∀ a ∈ [1, 2], (flushing a).pins.flush = .flushing ∧ (flushing a).pins.pfailN = true ∧ (flushing a).man.st = .flushing ∧ SoundStore (flushing a) ∧
      (flushing a).memc.mirLen = 0) ∧
    (State.reset.vault.atStart bootOk.bootGood).isSome = true ∧ State.reset.vault.atStart bootBad.bootGood = none ∧
    ({ device with pins := { device.pins with boot := bootBad } } : State).pins.boot.bootGood = 0 ∧
    (let s := device.modLk fun l => { l with bootHeld := true }
     s.lk.bootHeld = true ∧ s.lk.bootStop = false ∧ s.on = true ∧ s.vault.area0 = none ∧ s.vault.area1 = none ∧ bootOk.trainFail = 0) ∧
    (device.modLk fun l => { l with bootStop := true }).lk.bootStop = true := by decide +kernel

theorem wit_ArraysAct_clean : let s := device.modL2 7 fun l => { l with l2busy := true }
    (s.l2Of 7).l2busy = true ∧ (s.l2Of 7).heldCtl = [] ∧ NoneWait s ∧ s.engines = true ∧ bit s.lk.restarting 7 = false := by decide +kernel
theorem wit_PowerDomainsSwitch_vector : NoneWait (powered 0 (-1) (-1)) ∧
    (∀ b : Bool, let s := powered (-1) (-1) (if b then -1 else 0)
     NoneWait s ∧ bit s.pwr.busy 72 = true ∧ mget wantD s.pwr.want 72 = none ∧ bit s.pwr.toOn 72 = b) ∧
    (let s := (tasked x15 { exTask with args := { exArgs with vector := true } }).modPwr fun p => { p with on := -1 }
     s.writable = true ∧ s.weir.runSt ≠ .stopped ∧ (∃ u ∈ s.weir.tasks, u.args.vector = true ∧ u.args.id.val / 8 = 72 - 72) ∧
       bit (s.coreOf (coreOfId 0)).vown 3 = false ∧ bit s.pwr.on 72 = true ∧ bit s.pwr.busy 72 = false) := by decide +kernel

theorem wit_WharfWritesAct_more :
    (let s := boxed fun m => { m with held := [.bar2 0xFFFFFF [7]] }
     s.hostReach = true ∧ s.mbx.held = [.bar2 0xFFFFFF [7]] ∧ 0xFFFFFF + 1 ≤ 0x1000000) ∧
    (let s := boxed fun m => { m with staging := [(0, [1])] ++ [(0xFFFFFF, [7])] }
     s.hostReach = true ∧ s.mbx.held = [] ∧ s.mbx.staging = [(0, [1])] ++ [(0xFFFFFF, [7])]) ∧
    ([some 1, none, some (2 : Byte)].length ≤ 64 ∧ 253 + [some 1, none, some (2 : Byte)].length ≤ 256) ∧
    0xFFFFFF + [(1 : Byte)].length ≤ 0x1000000 := by decide +kernel

/-! Commands that a slot or an argument block spells. -/

def argsOf (s : State) (src : Src) (op : Nat) (bs : List Byte) : State :=
  match src with
  | .host t a n => s.modMbx fun m => { m with queue := [⟨0, op, t, a, n, bs⟩] }
  | .towpath .. => s
/-- A host TASK_ADMIT of exArgs; a core's, whose block stands at 2000h. -/
def admitBytes (a : AdmitArgs) : List Byte := leBytes 72 (packFields (admitFields a)) ++ serialise a.carried
def admitWords (a : AdmitArgs) : List (Nat × Word) := (List.range 9).map fun i => (0x2000 + i, fixN (packFields (admitFields a) / 2 ^ (64 * i) % 2 ^ 64))
def admitAsked (s : State) : State := argsOf s hs 0x0301 (admitBytes exArgs)
def block (s : State) (op nw : Nat) (ws : List (Nat × Word)) : State :=
  store (s.modCore 0 fun y => { y with sendq := [⟨op, 7, nw, 0x2000, 0, 0, false⟩] }) ws
theorem wit_CommandsAreTaken_spelled : (admitAsked device).spellsAdmit hs exArgs = true ∧ (block d1 0x0301 9 (admitWords exArgs)).spellsAdmit ts exArgs = true ∧
    ((admitAsked { device with dbg := { held := true } }).take hs 0x0301).isSome = true ∧
    (asked device 0x0303).spells hs [(64, 0)] = true ∧ (block d1 0x0303 1 [(0x2000, fix 5)]).spells ts [(64, 5)] = true ∧
    (block d1 0x0203 1 [(0x2000, fix 0x3000)]).spells (.towpath 0 7 0x3000) [outArg (.towpath 0 7 0x3000)] = true ∧
    ((block d1 0x0303 1 [(0x2000, fix 5)]).take ts 0x0303).isSome = true := by decide +kernel

def ringOn (f : Mbx → Mbx) : State := boxed fun m => f { m with en := true }
theorem wit_AnswersReachTheirSource_long : let s := ringOn id
    (s.mbx.en = true ∧ s.ringFull = false ∧ s.pins.linkUp = true ∧ s.mbx.rspWait = [] ∧ s.mbx.rspirq = false) ∧
    (8 * (List.replicate 6 (0 : Val)).length + 9 * 0 ≤ 48 ∧ 48 < 8 * (List.replicate 7 (0 : Val)).length ∧ 8 * (List.replicate 7 (0 : Val)).length ≤ 56) ∧
    (device.mbx.en = false ∧ (ringOn fun m => { m with tail := 64 }).ringFull = true ∧
      ({ s with pins := { s.pins with linkUp := false } } : State).pins.linkUp = false) ∧
    ((List.replicate 7 (0 : Val)).length ≤ 7 ∧ device.smb.state ≠ device.smbState) := by decide +kernel

theorem wit_ReadCommandsComplete_spelled :
    ((block d1 0x0901 3 [(0x2000, fix 0), (0x2001, fix 16384), (0x2002, fix 0x3000)]).spells (.towpath 0 7 0x3000)
      [(64, 0), (64, 16384), outArg (.towpath 0 7 0x3000)] = true) ∧
    ((took { device with cal := { valid := true } } 0x0A01).outFits hs 512 = true ∧ (took device 0x0203).outFits hs 256 = true ∧
      (took device 0x0A03).outFits hs 65536 = true) := by decide +kernel

def admitted : State := ((admitAsked timed).take hs 0x0301).getD State.reset
def talkBack (dead : Bool) (u : Option Task) : State :=
  let s := match u with | some u => tasked x15 u | none => d1
  ((s.modCore 0 fun y => { y with sendq := [⟨0x0305, 7, 1, 0x2000, 0, 3, dead⟩] }).modLk fun l => { l with msgs := [⟨hs, 1, 0, 0⟩] }).putMem 0x2000 (fix 1)
theorem wit_MemoryAndTaskCommandsComplete_spelled :
    ((admitAsked timed).spellsAdmit hs exArgs = true ∧ ((admitAsked timed).take hs 0x0301).isSome = true ∧ admitted.dbg.held = false ∧ PlainStore admitted ∧
      admitted.admitErr exArgs = none ∧ admitted.resultFits hs (valBytes (admitted.admitReport exArgs)).length = true) ∧
    (∀ d : Bool, ∀ u ∈ [some exTask, none], (talkBack d u).headMsg ts = some ⟨0x0305, 7, 1, 0x2000, 0, 3, d⟩ ∧ (talkBack d u).carriesWords ts [] = true ∧
      (talkBack d u).spells ts [(32, 1)] = true ∧ ((talkBack d u).take ts 0x0305).isSome = true ∧ (talkBack d u).isFrame 0 = u.isSome) ∧
    ((asked device 0x0304).carriesWords hs [] = true ∧ takes device 0x0304 = true ∧ (took device 0x0304).isFrame 7 = false) := by decide +kernel

/-! Configuration, service, recovery, start. -/

/-- Bytes lie in BAR_2; a command brings them as its B2 argument. -/
def laid (s : State) (bs : List Byte) : State := s.modMbx fun m => { m with bar2 := (bs.zipIdx.map fun b => (b.2, b.1)).filter fun p => p.2 != 0 }
def brings (s : State) (op n : Nat) (bs : List Byte) : Bool :=
  let u := took (laid s bs) op
  takes (laid s bs) op && ((u.b2Bytes hs (b2of u n)).toOption == some bs)
/-- Link 0 has a drive stream of 2 channels: a frame takes 8 bytes. -/
def withDrive : State := { timed with twl := { links := mset linkD [] 0 upLink, streams := mset streamD [] 0 driver } }
def wideDrive : State := { timed with twl := { links := mset linkD [] 0 upLink, streams := mset streamD [] 0 { driver with scfg := 0xA005000000001000 } } }
def groupBytes (b : Byte) : List Byte := [0xFF, 0xFF, 0xFF, b] ++ List.replicate 28 0
theorem wit_ConfigurationCommandsComplete_guard :
    (brings withDrive 0x0701 8 [1, 2, 3, 4, 5, 6, 7, 8] = true ∧ (took withDrive 0x0701).frameSizes 0 = [4, 4] ∧ 8 = 1 * [4, 4].foldl (· + ·) 0 ∧
      (took withDrive 0x0701).sil.armed = false) ∧
    (4096 < 2 * ((took wideDrive 0x0701).frameSizes 0).length ∧ brings wideDrive 0x0701 1 [7] = true) ∧
    (brings timed 0x0701 32 (groupBytes 0) = true ∧ (groupBytes 0).length = 32 ∧
      ∀ g < 4, fld (BitVec.ofNat 64 (leAt (groupBytes 0) (8 * g) 8)) 24 37 = 0) ∧
    (brings timed 0x0701 32 (groupBytes 1) = true ∧ fld (BitVec.ofNat 64 (leAt (groupBytes 1) 0 8)) 24 37 ≠ 0) := by decide +kernel
theorem wit_ConfigurationCommandsComplete_more :
    (takes timed 0x0602 = true ∧ sKind 0xA000000000000000 = 1 ∧ sNch 0xA000000000000000 = 0 ∧ 4096 < sNch 0xA000000000001001 ∧
      sKind 0xA000000000001001 ≠ 0 ∧ 2 ≤ sKind 0xC000000000000001 ∧ sNch 0xC000000000000001 ≠ 0 ∧ sLog 0xB000000000000001 = true ∧
      gFirst 0x0001000001000000 ≠ 0 ∧ (took timed 0x0602).weir.runSt = .stopped) ∧
    (let s := { timed with man := { opened [exPlaced] with st := .restored } }
     let a : ManArgs := ⟨0x10000, 20, 0x100, 0x10000, 0, 0, true⟩
     takes s 0x0801 = true ∧ (took s 0x0801).manErr a = none ∧ a.discard = true ∧ (took s 0x0801).man.inCommit = none ∧
       (took s 0x0801).vault.boot0.isSome = true) ∧
    (took timed 0x0603).resultFits hs 96 = true ∧
    (mget chanStD (let s := { guarded with sil := { guarded.sil with chan := [(3, { count := 1, fired := some 9 })] } }; s).sil.chan 3).fired = some 9 := by
  decide +kernel

theorem wit_ServiceCommandsComplete_more :
    (takes calDevice 0x0A02 = true ∧ (took calDevice 0x0A02).vault.failed = 0) ∧ (took device 0x0204).vault.boot0.isSome = true ∧
    brings device 0x0204 8 (List.replicate 8 0) = true ∧
    (∀ x ∈ [[], [(Requester.host, 0x506, (1 : Val))]], let u := { device with dbg := { held := true, crossing := x } }
      takes u 0x0B02 = true ∧ (took u 0x0B02).dbg.crossing = x ∧ (took u 0x0B02).dbg.held = true) := by decide +kernel

theorem wit_CoreFailuresAct_takeover :
    (let s := failedCore .failed 7 0 [⟨63, 0, 0⟩]
     s.weir.runSt = .stopped ∧ (∃ k ∈ s.lk.claims, k.core = 63) ∧ clusterOf 63 = 7) ∧
    (∀ h : Bool, let s := (failedCore .inReset 8 0x80 []).modMbx fun m => { m with halted := h }
     s.mbx.halted = h ∧ (s.coreOf 63).run = .inReset ∧ s.engines = true) ∧
    (let s := (tasked x15).modLk fun l => { l with spareUsed := 1 }
     s.spareGone 0 = true ∧ s.lk.runDegrade = false ∧ s.weir.runSt = .running ∧ s.runOpen = true) := by decide +kernel

theorem wit_RestartsAct_more :
    (let s : State := { device with dbg := { held := true } }
     s.on = true ∧ s.dbg.frozen = false ∧ s.dbg.held = true) ∧
    (let s := device.modLk fun l => { l with restarting := 0x80 }
     s.dbg.held = false ∧ s.pins.flush = .none ∧ s.lk.st = .ready ∧ s.lk.warm = none) ∧
    (∀ d < 4, bit device.vault.failed d = false) ∧
    (let s : State := { device with bbx := { queued := [⟨0, 0, 0, 0, 1, 0, 0, []⟩], dies := 3 } }
     bit s.bbx.dies 0 = true ∧ bit s.bbx.dies 1 = true ∧ s.bbxOpen = false) ∧
    (∀ b : Bool, (warm b).pins.flush = .none ∧ (warm b).dbg.held = false ∧ (warm b).dbg.frozen = false) := by decide +kernel

/-- Copy 1 of the boot partition has the higher write count; copy 0 alone is good, or neither. -/
def cold : State := { State.reset with vault := { State.reset.vault with boot1 := some { writes := 7 } } }
def coldCopy (good : BitVec 2) : Option BootCopy := higher BootCopy.writes (validOf good 0 cold.vault.boot0) (validOf good 1 cold.vault.boot1)
def tripped (f : Bool) : State := { State.reset with pins := { thermtrip := true, tripFell := f } }
def inState (st : LkSt) (z : Bool) : State := { device with lk := { st := st }, dbg := { frozen := z } }
def tapIn (st : TapSt) (i : TapInstr) : State := { device with pins := { device.pins with tap := { st := st, ir := i } } }
def slotsFrozen : State := { device with dbg := { frozen := true, level := 1 }, l2 := [(0, { slots := [⟨0, 0, 0, true⟩, ⟨1, 0, 1, false⟩] })] }
def tlbOpen : State := { tlbState with dbg := { level := 2 } }
theorem wit_StartAndPinsAct_more : (coldCopy 3 = some { writes := 7 } ∧ coldCopy 1 = some {}) ∧
    ({ bootOk with monitorsOk := false } : BootArgs).monitorsOk = false ∧ (∀ f : Bool, (tripped f).pins.pwrOk = false ∧ (tripped f).pins.tripFell = f) ∧
    (∀ st ∈ [LkSt.failed, .booting, .ready], ∀ z : Bool, (inState st z).on = true ∧ (inState st z).lk.st = st ∧ (inState st z).dbg.frozen = z ∧
      (inState st z).pins.flush = .none) ∧ ((flushing 1).pins.flush = .flushing ∧ (flushing 1).on = true) ∧
    (tlbOpen.on = true ∧ tlbOpen.dbg.level = 2 ∧ 0 < (tlbOpen.coreOf 0).dtlb.length) ∧
    ((tapIn .shiftIr .idcode).pins.tap.st = .shiftIr ∧ (tapIn .idle .extest).pins.tap.ir = .extest ∧ (tapIn .idle .idcode).pins.tap.st ≠ .shiftDr) ∧
    ((slotsFrozen.scanRead (.lockedSlots 0)).isSome = true ∧ (slotsFrozen.l2Of 0).slots.any LockSlot.hole = true) := by decide +kernel

end Sys2Proof.Tests
end

/-!
PROOFS. What a register form and a branch do when they issue, and the statements on FIX arithmetic, bit operations and branches
(chapter 05).
-/

namespace Sys2Proof.Machine

/-! ### FIX arithmetic (R107) -/

@[simp] theorem isPoison_fix (v : Val) : isPoison (fix v) = false := rfl
@[simp] theorem malformed_fix (v : Val) : malformed (fix v) = false := rfl
@[simp] theorem accepts_fix (op : AOp) (a b : Val) : accepts op (fix a).tag (fix b).tag = true := by cases op <;> rfl
@[simp] theorem arithResult_fix (op : AOp) (a b : Val) : arithResult op (fix a) (fix b) = fixArith op a b := rfl

/-- Two FIX words pass every check: only the result itself may be missing. -/
theorem arith_fix (op : AOp) (a b : Val) :
    arith op (fix a) (fix b) = (fixArith op a b).elim (.error ⟨.ovf, some (fix a), some (fix b)⟩) .ok := by
  cases h : fixArith op a b <;> simp [arith, h]

theorem arith_fix_ok {op : AOp} {a b : Val} {w : Word} (h : fixArith op a b = some w) : arith op (fix a) (fix b) = .ok w := by
  rw [arith_fix, h, Option.elim_some]

theorem arith_fix_ovf {op : AOp} {a b : Val} (h : fixArith op a b = none) :
    arith op (fix a) (fix b) = .error ⟨.ovf, some (fix a), some (fix b)⟩ := by
  rw [arith_fix, h, Option.elim_none]

theorem fixOf_some {v : Int} (h : -(2 : Int) ^ 63 ≤ v ∧ v ≤ 2 ^ 63 - 1) : fixOf v = some (fixI v) :=
  if_pos ⟨h.1, by omega⟩

theorem fixOf_none {v : Int} (h : ¬(-(2 : Int) ^ 63 ≤ v ∧ v ≤ 2 ^ 63 - 1)) : fixOf v = none :=
  if_neg fun hv => h ⟨hv.1, by omega⟩

/-- An operation whose result is the FIX of a number: exact in range, OVF elsewhere. -/
theorem arith_exact {op : AOp} {a b : Val} {v : Int} (h : fixArith op a b = fixOf v) :
    if -(2 : Int) ^ 63 ≤ v ∧ v ≤ 2 ^ 63 - 1 then arith op (fix a) (fix b) = .ok (fixI v)
    else arith op (fix a) (fix b) = .error ⟨.ovf, some (fix a), some (fix b)⟩ := by
  split
  · next hv => exact arith_fix_ok (h.trans (fixOf_some hv))
  · next hv => exact arith_fix_ovf (h.trans (fixOf_none hv))

/-- The only quotient outside the range is that of -2^63 by -1. -/
theorem tdiv_in_range {a b : Val} (h : ¬(a.toInt = -(2 : Int) ^ 63 ∧ b.toInt = -1)) :
    -(2 : Int) ^ 63 ≤ a.toInt.tdiv b.toInt ∧ a.toInt.tdiv b.toInt ≤ 2 ^ 63 - 1 := by
  have hc : a ≠ BitVec.intMin 64 ∨ b ≠ -1#64 := by
    refine Decidable.not_and_iff_not_or_not.1 ?_
    rintro ⟨rfl, rfl⟩
    exact h (by decide)
  rw [← BitVec.toInt_sdiv_of_ne_or_ne a b hc]
  exact ⟨BitVec.le_toInt _, Int.le_sub_one_of_lt BitVec.toInt_lt⟩

theorem fixArith_div {a b : Val} (h : b.toInt ≠ 0) : fixArith .div a b = fixOf (a.toInt.tdiv b.toInt) := if_neg h

theorem fixArith_rem {a b : Val} (h : b.toInt ≠ 0) : fixArith .rem a b = some (fixI (a.toInt - b.toInt * a.toInt.tdiv b.toInt)) := by
  rw [← Int.tmod_def]
  exact if_neg h

/-- DIV and REM have no result by 0. -/
theorem fixArith_by_zero {op : AOp} {a b : Val} (hop : op = .div ∨ op = .rem) (h : b.toInt = 0) : fixArith op a b = none := by
  rcases hop with rfl | rfl <;> exact if_pos h

/-- -2^63 by -1 is 2^63, out of range. -/
theorem fixArith_div_overflow {a b : Val} (ha : a.toInt = -(2 : Int) ^ 63) (hb : b.toInt = -1) : fixArith .div a b = none := by
  rw [fixArith_div (by rw [hb]; decide), ha, hb]
  exact fixOf_none (by decide)

/-- Settles O5: the sum, difference and product go through the range check; the quotient leaves the range in one case alone. -/
theorem fixArithmeticExact : Obligations.FixArithmeticExact := by
  unfold Obligations.FixArithmeticExact
  intro a b
  refine ⟨?_, ?_, ?_, arith_fix_ok (by decide)⟩
  · simp only [List.forall_mem_cons, List.not_mem_nil, false_imp_iff, implies_true, and_true]
    exact ⟨arith_exact rfl, arith_exact rfl, arith_exact rfl⟩
  · split
    · next h =>
      rcases h with h0 | ⟨ha, hb⟩
      · exact arith_fix_ovf (fixArith_by_zero (.inl rfl) h0)
      · exact arith_fix_ovf (fixArith_div_overflow ha hb)
    · next h =>
      obtain ⟨h0, hc⟩ := not_or.1 h
      exact arith_fix_ok ((fixArith_div h0).trans (fixOf_some (tdiv_in_range hc)))
  · split
    · next h0 => exact arith_fix_ovf (fixArith_by_zero (.inr rfl) h0)
    · next h0 => exact arith_fix_ok (fixArith_rem h0)

/-! ### Register forms -/

section Shapes

variable {i : Instr} {s : State} {c : CoreId} {b : Fin 8} {f : Word → Word → Except Trap Word}

/-- A form on two sound registers reads them and changes nothing before its operation. -/
theorem run_binary (hs : (s.ctx (bk c b)).flaws = []) (o : Opd2) :
    s.run (do
      let wa ← getR (bk c b) o.a
      let wb ← getR (bk c b) o.b
      let w ← lift_ (f wa wb)
      setR (bk c b) o.d w
      pure Ending.next) =
    s.run (do
      let w ← lift_ (f ((s.ctx (bk c b)).get o.a) ((s.ctx (bk c b)).get o.b))
      setR (bk c b) o.d w
      pure .next) := by
  rw [s.run_bind_ok (State.run_getR_sound hs _), s.run_bind_ok (State.run_getR_sound hs _)]

/-- A form on a sound register and an immediate reads it and changes nothing before its operation. -/
theorem run_withImm (hs : (s.ctx (bk c b)).flaws = []) (o : OpdI) :
    s.run (do
      let wa ← getR (bk c b) o.a
      let w ← lift_ (f wa o.imm)
      setR (bk c b) o.d w
      pure Ending.next) =
    s.run (do
      let w ← lift_ (f ((s.ctx (bk c b)).get o.a) o.imm)
      setR (bk c b) o.d w
      pure .next) := by
  rw [s.run_bind_ok (State.run_getR_sound hs _)]

/-- The operation of two registers answers: its word is written. -/
theorem completes_of_binary {o : Opd2} {w : Word} (h : Issues s c b) (he : exec i s = binary f c o s)
    (hf : f ((s.ctx (bk c b)).get o.a) ((s.ctx (bk c b)).get o.b) = .ok w) :
    Completes i s (bk c b) ((s.ctx (bk c b)).wrote o.d w o.len) :=
  completes_of_run (fun x => x.set o.d w) h he (by rw [run_binary h.2.2, hf]; rfl)

theorem gives_trap_of_binary {o : Opd2} {t : Trap} (h : IssuesMem s c b) (he : exec i s = binary f c o s)
    (hf : f ((s.ctx (bk c b)).get o.a) ((s.ctx (bk c b)).get o.b) = .error t) : Gives i s (s.trapAt c b t) :=
  gives_of_trap h he (by rw [run_binary h.1.2.2, hf]; rfl)

/-- The operation of a register and an immediate answers: its word is written. -/
theorem completes_of_withImm {o : OpdI} {w : Word} (h : Issues s c b) (he : exec i s = withImm f c o s)
    (hf : f ((s.ctx (bk c b)).get o.a) o.imm = .ok w) :
    Completes i s (bk c b) ((s.ctx (bk c b)).wrote o.d w o.len) :=
  completes_of_run (fun x => x.set o.d w) h he (by rw [run_withImm h.2.2, hf]; rfl)

theorem gives_trap_of_withImm {o : OpdI} {t : Trap} (h : IssuesMem s c b) (he : exec i s = withImm f c o s)
    (hf : f ((s.ctx (bk c b)).get o.a) o.imm = .error t) : Gives i s (s.trapAt c b t) :=
  gives_of_trap h he (by rw [run_withImm h.1.2.2, hf]; rfl)

end Shapes

/-! ### Bit operations (R116) -/

/-- Two FIX words have a bit result. -/
theorem bitOp_fix (op : BOp) (u v : Val) : bitOp op (fix u) (fix v) = .ok (fix (bitResult op u v)) := rfl

/-- Two words that are not both FIX, neither POISON, have none. -/
theorem bitOp_type (op : BOp) {u v : Word} (hu : isPoison u = false) (hv : isPoison v = false) (h : (isFix u && isFix v) = false) :
    bitOp op u v = .error ⟨.type, some u, some v⟩ := by
  simp [bitOp, hu, hv, h]

/-- The instruction of a bit operation on two registers. -/
def BOp.regs (c : CoreId) (d ra rb : R5) : BOp → Instr
  | .and => .and c d ra rb
  | .or => .or c d ra rb
  | .xor => .xor c d ra rb
  | .shl => .shl c d ra rb
  | .shr => .shr c d ra rb
  | .sar => .sar c d ra rb

/-- The instruction of a bit operation on a register and an immediate. -/
def BOp.imm (c : CoreId) (d ra : R5) (n : BitVec 8) : BOp → Instr
  | .and => .andi c d ra n
  | .or => .ori c d ra n
  | .xor => .xori c d ra n
  | .shl => .shli c d ra n
  | .shr => .shri c d ra n
  | .sar => .sari c d ra n

/-- All bit operations, in the order of R116. -/
def BOp.all : List BOp := [.and, .or, .xor, .shl, .shr, .sar]

theorem BOp.exec_regs (op : BOp) (c : CoreId) (d ra rb : R5) (s : State) :
    exec (op.regs c d ra rb) s = binary (bitOp op) c ⟨d, ra, rb, 2⟩ s := by
  cases op <;> rfl

theorem BOp.exec_imm (op : BOp) (c : CoreId) (d ra : R5) (n : BitVec 8) (s : State) :
    exec (op.imm c d ra n) s = withImm (bitOp op) c ⟨d, ra, immW n, 2⟩ s := by
  cases op <;> rfl

section BitOperations

variable {s : State} {c : CoreId} {b : Fin 8} (op : BOp) (d : R5) {ra rb : R5} {u v : Val}

theorem BOp.regs_completes (h : Issues s c b) (hu : (s.ctx (bk c b)).get ra = fix u) (hv : (s.ctx (bk c b)).get rb = fix v) :
    Completes (op.regs c d ra rb) s (bk c b) ((s.ctx (bk c b)).wrote d (fix (bitResult op u v)) 2) :=
  completes_of_binary h (BOp.exec_regs op c d ra rb s) (by rw [hu, hv, bitOp_fix])

theorem BOp.imm_completes (n : BitVec 8) (h : Issues s c b) (hu : (s.ctx (bk c b)).get ra = fix u) :
    Completes (op.imm c d ra n) s (bk c b) ((s.ctx (bk c b)).wrote d (fix (bitResult op u (n.signExtend 64))) 2) :=
  completes_of_withImm h (BOp.exec_imm op c d ra n s) (by rw [hu, immW, bitOp_fix])

theorem BOp.regs_type (h : IssuesMem s c b) (ha : isPoison ((s.ctx (bk c b)).get ra) = false)
    (hb : isPoison ((s.ctx (bk c b)).get rb) = false)
    (hf : (isFix ((s.ctx (bk c b)).get ra) && isFix ((s.ctx (bk c b)).get rb)) = false) :
    Gives (op.regs c d ra rb) s (s.trapAt c b ⟨.type, some ((s.ctx (bk c b)).get ra), some ((s.ctx (bk c b)).get rb)⟩) :=
  gives_trap_of_binary h (BOp.exec_regs op c d ra rb s) (bitOp_type op ha hb hf)

theorem BOp.imm_type (n : BitVec 8) (h : IssuesMem s c b) (ha : isPoison ((s.ctx (bk c b)).get ra) = false)
    (hf : isFix ((s.ctx (bk c b)).get ra) = false) :
    Gives (op.imm c d ra n) s (s.trapAt c b ⟨.type, some ((s.ctx (bk c b)).get ra), some (fix (n.signExtend 64))⟩) :=
  gives_trap_of_withImm h (BOp.exec_imm op c d ra n s) (bitOp_type op ha (isPoison_fix _) (by rw [hf, Bool.false_and]))

end BitOperations

/-- Settles O7: each form is one operation on two words, of which the second is a register or the extended immediate. -/
theorem bitOperationsComplete : Obligations.BitOperationsComplete := by
  unfold Obligations.BitOperationsComplete
  intro s c b d ra rb n h
  refine ⟨fun u v hu hv => ?_, fun u hu => ?_, fun hw ha hb hf => ?_, fun hw ha hf => ?_⟩
  · have done (op : BOp) := BOp.regs_completes op d h hu hv
    exact ⟨done .and, done .or, done .xor, done .shl, done .shr, done .sar⟩
  · have done (op : BOp) := BOp.imm_completes op d n h hu
    exact ⟨done .and, done .or, done .xor, done .shl, done .shr, done .sar⟩
  · exact List.forall_mem_map (f := BOp.regs c d ra rb) (l := BOp.all).2 fun op _ => BOp.regs_type op d ⟨h, hw⟩ ha hb hf
  · exact List.forall_mem_map (f := BOp.imm c d ra n) (l := BOp.all).2 fun op _ => BOp.imm_type op d n ⟨h, hw⟩ ha hf

/-! ### Branches (R97, R119) -/

section Branches

variable {i j : Instr} {s : State} {c : CoreId} {b : Fin 8}

/-- A control transfer whose computation jumps changes the PC alone. -/
theorem completes_of_control_jump {len : Nat} {body : Nat → Run Ending} {p : BitVec 62} (h : Issues s c b)
    (he : exec i s = control c len s body) (hb : s.run (body (bk c b)) = (.ok (.jump p), s)) :
    Completes i s (bk c b) { s.ctx (bk c b) with pc := p } :=
  ⟨_, he.trans (congrArg Host.Outcome.next (s.instr_ok h.1 h.2.1 hb)), onlyBank_mod s _ _⟩

variable {r : R5} {target : BitVec 62 → BitVec 62} {len : Nat} {onNil : Bool}

/-- On a register that is not POISON a branch compares the tag with NIL and changes nothing. -/
theorem run_branch (hs : (s.ctx (bk c b)).flaws = []) (hp : isPoison ((s.ctx (bk c b)).get r) = false) :
    s.run (do
      let w ← getR (bk c b) r
      notPoison w
      let x ← getX (bk c b)
      pure (if (w.tag == tNIL) == onNil then Ending.jump (target x.pc) else .next)) =
    (.ok (if (((s.ctx (bk c b)).get r).tag == tNIL) == onNil then .jump (target (s.ctx (bk c b)).pc) else .next), s) := by
  rw [s.run_bind_ok (State.run_getR_sound hs r), s.run_bind_ok (s.run_notPoison hp)]
  rfl

/-- A branch whose condition holds goes to its target. -/
theorem completes_of_branch_taken (h : Issues s c b) (he : exec i s = branchOn c r target len onNil s)
    (hp : isPoison ((s.ctx (bk c b)).get r) = false) (ht : (((s.ctx (bk c b)).get r).tag == tNIL) = onNil) :
    Completes i s (bk c b) { s.ctx (bk c b) with pc := target (s.ctx (bk c b)).pc } :=
  completes_of_control_jump h he (by rw [run_branch h.2.2 hp, ht, beq_self_eq_true, if_pos rfl])

/-- A branch whose condition fails goes past itself. -/
theorem completes_of_branch_untaken (h : Issues s c b) (he : exec i s = branchOn c r target len onNil s)
    (hp : isPoison ((s.ctx (bk c b)).get r) = false) (ht : (((s.ctx (bk c b)).get r).tag == tNIL) = !onNil) :
    Completes i s (bk c b) ((s.ctx (bk c b)).past len) :=
  completes_of_pure h he (by rw [run_branch h.2.2 hp, ht, Bool.not_beq_self, if_neg Bool.false_ne_true])

/-- Two branches on one register, one on NIL and one on its absence: the tag decides which of them is taken. -/
theorem completes_of_branches (h : Issues s c b) (hi : exec i s = branchOn c r target len true s)
    (hj : exec j s = branchOn c r target len false s) (hp : isPoison ((s.ctx (bk c b)).get r) = false) :
    let x := s.ctx (bk c b)
    ((x.get r).tag = tNIL → Completes i s (bk c b) { x with pc := target x.pc } ∧ Completes j s (bk c b) (x.past len)) ∧
    (¬(x.get r).tag = tNIL → Completes i s (bk c b) (x.past len) ∧ Completes j s (bk c b) { x with pc := target x.pc }) := by
  refine ⟨fun ht => ?_, fun ht => ?_⟩
  · have ht := beq_iff_eq.2 ht
    exact ⟨completes_of_branch_taken h hi hp ht, completes_of_branch_untaken h hj hp ht⟩
  · have ht := beq_eq_false_iff_ne.2 ht
    exact ⟨completes_of_branch_untaken h hi hp ht, completes_of_branch_taken h hj hp ht⟩

/-- A branch on a POISON register traps with the word. -/
theorem raises_of_branch_poison (h : Issues s c b) (he : exec i s = branchOn c r target len onNil s)
    (hp : isPoison ((s.ctx (bk c b)).get r) = true) :
    Raises i s c b ⟨.poisonUse, some (fix 0), some ((s.ctx (bk c b)).get r)⟩ := fun hw =>
  gives_of_trap ⟨h, hw⟩ he (by
    rw [s.run_bind_ok (State.run_getR_sound h.2.2 r)]
    exact s.run_bind_error (by rw [notPoison, hp, State.run_trapIf_true]))

end Branches

section Meanings

variable (c : CoreId) (f : BrF) (d : R5) (s : State)

theorem exec_br (n : BitVec 13) :
    exec (.br c n) s = control c 2 s (fun k => do let p ← relative k n; pure (.jump p)) := rfl
theorem exec_brl (n : BitVec 27) :
    exec (.brl c n) s = control c 3 s (fun k => do let p ← relative k n; pure (.jump p)) := rfl
theorem exec_bnil : exec (.bnil c f) s = branchOn c (brOf f).1 (brOf f).2.1 (brOf f).2.2 true s := rfl
theorem exec_bnnil : exec (.bnnil c f) s = branchOn c (brOf f).1 (brOf f).2.1 (brOf f).2.2 false s := rfl
theorem exec_bnill (n : BitVec 27) : exec (.bnill c d n) s = branchOn c d (fun p => p + n.signExtend 62) 3 true s := rfl
theorem exec_bnnill (n : BitVec 27) : exec (.bnnill c d n) s = branchOn c d (fun p => p + n.signExtend 62) 3 false s := rfl

end Meanings

/-- Settles O18: a form is given by its register, its target and its length; the tag of the register decides. -/
theorem branchesComplete : Obligations.BranchesComplete := by
  unfold Obligations.BranchesComplete
  intro s c b h
  refine ⟨fun n => ?_, fun n => ?_, fun A B hp => ?_, fun d n hp => ?_, fun d n hp => ?_, fun A B hp => ?_, fun d n n' hp => ?_⟩
  · exact completes_of_control_jump h (exec_br c s n) rfl
  · exact completes_of_control_jump h (exec_brl c s n) rfl
  · exact completes_of_branches h (exec_bnil c (.s A B) s) (exec_bnnil c (.s A B) s) hp
  · exact completes_of_branches h (exec_bnil c (.ri d n) s) (exec_bnnil c (.ri d n) s) hp
  · exact completes_of_branches h (exec_bnill c d s n) (exec_bnnill c d s n) hp
  · simp only [List.forall_mem_cons, List.not_mem_nil, false_imp_iff, implies_true, and_true]
    exact ⟨raises_of_branch_poison h (exec_bnil c (.s A B) s) hp, raises_of_branch_poison h (exec_bnnil c (.s A B) s) hp⟩
  · simp only [List.forall_mem_cons, List.not_mem_nil, false_imp_iff, implies_true, and_true]
    exact ⟨raises_of_branch_poison h (exec_bnil c (.ri d n) s) hp, raises_of_branch_poison h (exec_bnnil c (.ri d n) s) hp,
      raises_of_branch_poison h (exec_bnill c d s n') hp, raises_of_branch_poison h (exec_bnnill c d s n') hp⟩

end Sys2Proof.Machine
